-- ==== Sys2Proof/Word.lean ====
section
/-! DEFINITION. The fixed-width words of the core: what its registers, buffer elements and command words are. -/

namespace Sys2Proof

/-- A byte: an element of `BS` and of `CL`, an opcode (10_state.md R38, R41; 30_encoding.md R80). -/
abbrev Byte := BitVec 8

/-- A 32-bit word: a command word, the `STATUS` word, an element of `IB`, `SQ`, `ST`, `FQ`. -/
abbrev Word := BitVec 32

/-- A 64-bit datum on the host's side: a register slot (20_memory.md R61). -/
abbrev DWord := BitVec 64

/-- A real: "a 64-bit floating-point datum" (00_scope.md R17), held as its 64 raw bits. -/
abbrev Real64 := BitVec 64

end Sys2Proof
end

