-- ==== Sys2Proof/Syntax.lean ====
section
/-! DEFINITION. The 29 commands as data (30_encoding.md R82, R84), the three pseudo-commands (R89) and the textual form (R88). -/

namespace Sys2Proof

/-- The commands. Immediates are the unsigned integers of R82; WellFormed says which values a command word can carry. -/
inductive Instr where
  | nop
  | sreset
  | tinit (n : Nat)
  | tfwd
  | tinv
  | qinit (n quality : Nat) (adaptive : Bool)
  | qvar (n : Nat)
  | quant
  | dequant
  | zscan (n : Nat)
  | zunscan (n : Nat)
  | rlenc (n : Nat)
  | rldec (n : Nat)
  | hbuild
  | hcanon
  | htrie
  | hdecsym
  | bwinit (cap : Nat)
  | wbit (b : Bool)
  | wbits (cnt val : Nat)
  | brinit (cap : Nat)
  | rbit
  | symmap
  | wrhdr
  | wrpay
  | rdhdr
  | rdpay (n : Nat)
  | encblk (n : Nat)
  | decblk (n : Nat)
deriving DecidableEq, Repr

/-- The opcode byte of a command (R84). -/
def Instr.opcode : Instr → Byte
  | .nop => 0x00#8
  | .sreset => 0x01#8
  | .tinit _ => 0x10#8
  | .tfwd => 0x11#8
  | .tinv => 0x12#8
  | .qinit _ _ _ => 0x20#8
  | .qvar _ => 0x21#8
  | .quant => 0x22#8
  | .dequant => 0x23#8
  | .zscan _ => 0x30#8
  | .zunscan _ => 0x31#8
  | .rlenc _ => 0x40#8
  | .rldec _ => 0x41#8
  | .hbuild => 0x50#8
  | .hcanon => 0x51#8
  | .htrie => 0x52#8
  | .hdecsym => 0x53#8
  | .bwinit _ => 0x60#8
  | .wbit _ => 0x61#8
  | .wbits _ _ => 0x62#8
  | .brinit _ => 0x63#8
  | .rbit => 0x64#8
  | .symmap => 0x70#8
  | .wrhdr => 0x71#8
  | .wrpay => 0x72#8
  | .rdhdr => 0x73#8
  | .rdpay _ => 0x74#8
  | .encblk _ => 0x78#8
  | .decblk _ => 0x79#8

/-- The pseudo-commands of R89. -/
inductive Pseudo where
  | init (n quality : Nat) (adaptive : Bool)
  | encode (n cap : Nat)
  | decode (n size : Nat)
deriving DecidableEq, Repr

/-- The exact expansion of a pseudo-command (R89), in order. -/
def Pseudo.expand : Pseudo → List Instr
  | .init n quality adaptive => [.tinit n, .qinit n quality adaptive]
  | .encode n cap => [.qvar n, .tfwd, .quant, .bwinit cap, .encblk n]
  | .decode n size => [.brinit size, .decblk n, .dequant, .tinv]

end Sys2Proof
end

