-- ==== Sys2Proof/WellFormed.lean ====
section
/-! DEFINITION. Which commands a command word can carry: every immediate fits its field (30_encoding.md R82). A value that is
in the encoding space but out of the command's own range is well formed; the command faults on it (R86). -/

namespace Sys2Proof

/-- A block size fits `cmd[11:0]`. -/
def fitsN (n : Nat) : Bool := decide (n < 2 ^ 12)

/-- A quality fits `cmd[19:12]`. -/
def fitsQuality (quality : Nat) : Bool := decide (quality < 2 ^ 8)

/-- A capacity fits `cmd[23:0]`. -/
def fitsCap (cap : Nat) : Bool := decide (cap < 2 ^ 24)

/-- A bit count fits `cmd[20:16]`. -/
def fitsCnt (cnt : Nat) : Bool := decide (cnt < 2 ^ 5)

/-- A bit run fits `cmd[15:0]`. -/
def fitsVal (val : Nat) : Bool := decide (val < 2 ^ 16)

/-- Every immediate fits the bits R82 gives it. -/
def Instr.wf : Instr → Bool
  | .nop => true
  | .sreset => true
  | .tinit n => fitsN n
  | .tfwd => true
  | .tinv => true
  | .qinit n quality _ => fitsN n && fitsQuality quality
  | .qvar n => fitsN n
  | .quant => true
  | .dequant => true
  | .zscan n => fitsN n
  | .zunscan n => fitsN n
  | .rlenc n => fitsN n
  | .rldec n => fitsN n
  | .hbuild => true
  | .hcanon => true
  | .htrie => true
  | .hdecsym => true
  | .bwinit cap => fitsCap cap
  | .wbit _ => true
  | .wbits cnt val => fitsCnt cnt && fitsVal val
  | .brinit cap => fitsCap cap
  | .rbit => true
  | .symmap => true
  | .wrhdr => true
  | .wrpay => true
  | .rdhdr => true
  | .rdpay n => fitsN n
  | .encblk n => fitsN n
  | .decblk n => fitsN n

end Sys2Proof
end

