-- ==== Sys2Proof/Decode.lean ====
section
/-! DEFINITION. Decoding a command word, total and rejecting by name, and the encoder (30_encoding.md R80 to R84, R86), both
written from the formats of R81; the textual form of a command (R88). -/

namespace Sys2Proof

/-- Why a word is no command (R83, R86). -/
inductive DecodeError where
  /-- Bits 31:24 are none of the 29 opcodes of R84. -/
  | unknownOpcode (op : Byte)
  /-- A bit the format calls zero is 1. -/
  | nonzeroReserved (op : Byte)
deriving DecidableEq, Repr

/-- `cmd[31:24]`. -/
def opcodeOf (w : Word) : Byte := w.extractLsb' 24 8

/-- Format Z: bits 23:0 zero. -/
def formatZ (w : Word) (i : Instr) : Except DecodeError Instr :=
  if w.extractLsb' 0 24 = 0#24 then .ok i else .error (.nonzeroReserved (opcodeOf w))

/-- Format N: bits 23:12 zero, 11:0 `n`. -/
def formatN (w : Word) (i : Nat → Instr) : Except DecodeError Instr :=
  if w.extractLsb' 12 12 = 0#12 then .ok (i (w.extractLsb' 0 12).toNat)
  else .error (.nonzeroReserved (opcodeOf w))

/-- Format Q: bits 23:21 zero, 20 `adaptive`, 19:12 `quality`, 11:0 `n`. -/
def formatQ (w : Word) (i : Nat → Nat → Bool → Instr) : Except DecodeError Instr :=
  if w.extractLsb' 21 3 = 0#3 then
    .ok (i (w.extractLsb' 0 12).toNat (w.extractLsb' 12 8).toNat (w.getLsbD 20))
  else .error (.nonzeroReserved (opcodeOf w))

/-- Format C: bits 23:0 `cap`. -/
def formatC (w : Word) (i : Nat → Instr) : Except DecodeError Instr :=
  .ok (i (w.extractLsb' 0 24).toNat)

/-- Format B: bits 23:1 zero, 0 `b`. -/
def formatB (w : Word) (i : Bool → Instr) : Except DecodeError Instr :=
  if w.extractLsb' 1 23 = 0#23 then .ok (i (w.getLsbD 0)) else .error (.nonzeroReserved (opcodeOf w))

/-- Format W: bits 23:21 zero, 20:16 `cnt`, 15:0 `val`. -/
def formatW (w : Word) (i : Nat → Nat → Instr) : Except DecodeError Instr :=
  if w.extractLsb' 21 3 = 0#3 then .ok (i (w.extractLsb' 16 5).toNat (w.extractLsb' 0 16).toNat)
  else .error (.nonzeroReserved (opcodeOf w))

/-- Decoding (R83): "depends on nothing but `w`". -/
def decode (w : Word) : Except DecodeError Instr :=
  match (opcodeOf w).toNat with
  | 0x00 => formatZ w .nop
  | 0x01 => formatZ w .sreset
  | 0x10 => formatN w .tinit
  | 0x11 => formatZ w .tfwd
  | 0x12 => formatZ w .tinv
  | 0x20 => formatQ w .qinit
  | 0x21 => formatN w .qvar
  | 0x22 => formatZ w .quant
  | 0x23 => formatZ w .dequant
  | 0x30 => formatN w .zscan
  | 0x31 => formatN w .zunscan
  | 0x40 => formatN w .rlenc
  | 0x41 => formatN w .rldec
  | 0x50 => formatZ w .hbuild
  | 0x51 => formatZ w .hcanon
  | 0x52 => formatZ w .htrie
  | 0x53 => formatZ w .hdecsym
  | 0x60 => formatC w .bwinit
  | 0x61 => formatB w .wbit
  | 0x62 => formatW w .wbits
  | 0x63 => formatC w .brinit
  | 0x64 => formatZ w .rbit
  | 0x70 => formatZ w .symmap
  | 0x71 => formatZ w .wrhdr
  | 0x72 => formatZ w .wrpay
  | 0x73 => formatZ w .rdhdr
  | 0x74 => formatN w .rdpay
  | 0x78 => formatN w .encblk
  | 0x79 => formatN w .decblk
  | _ => .error (.unknownOpcode (opcodeOf w))

/-- Bits 23:0 of a command word, by its format (R81, R82). -/
def operandBits : Instr → BitVec 24
  | .tinit n => 0#12 ++ BitVec.ofNat 12 n
  | .qinit n quality adaptive => 0#3 ++ BitVec.ofBool adaptive ++ BitVec.ofNat 8 quality ++ BitVec.ofNat 12 n
  | .qvar n => 0#12 ++ BitVec.ofNat 12 n
  | .zscan n => 0#12 ++ BitVec.ofNat 12 n
  | .zunscan n => 0#12 ++ BitVec.ofNat 12 n
  | .rlenc n => 0#12 ++ BitVec.ofNat 12 n
  | .rldec n => 0#12 ++ BitVec.ofNat 12 n
  | .bwinit cap => BitVec.ofNat 24 cap
  | .wbit b => 0#23 ++ BitVec.ofBool b
  | .wbits cnt val => 0#3 ++ BitVec.ofNat 5 cnt ++ BitVec.ofNat 16 val
  | .brinit cap => BitVec.ofNat 24 cap
  | .rdpay n => 0#12 ++ BitVec.ofNat 12 n
  | .encblk n => 0#12 ++ BitVec.ofNat 12 n
  | .decblk n => 0#12 ++ BitVec.ofNat 12 n
  | .nop | .sreset | .tfwd | .tinv | .quant | .dequant | .hbuild | .hcanon | .htrie | .hdecsym | .rbit | .symmap
  | .wrhdr | .wrpay | .rdhdr => 0#24

/-- The command word: the opcode in bits 31:24, the operands in bits 23:0 (R80). -/
def encode (i : Instr) : Word := i.opcode ++ operandBits i

/-- What the decoder reads from an instruction whose bits are `w`, numbered as spec/opcode_table.json numbers them. A command
is one 32-bit word; a row of fewer bits has zeros above them, and no command has more. -/
def decodeTableWord (nbits w : Nat) : Option Instr :=
  if 32 < nbits then none
  else
    match decode (BitVec.ofNat 32 (w % 2 ^ nbits)) with
    | .ok i => some i
    | .error _ => none

/-! The textual form (R88): mnemonic in capitals, a space, operands separated by commas, decimal or 0x hexadecimal; a `;`
starts a comment. The assembler reads one line. -/

/-- How many operands of which format a mnemonic takes. -/
inductive Operands where
  | z (i : Instr)
  | n (i : Nat → Instr)
  | q (i : Nat → Nat → Bool → Instr)
  | c (i : Nat → Instr)
  | b (i : Bool → Instr)
  | w (i : Nat → Nat → Instr)

/-- The mnemonics of the system, transform and quantisation families (R84). -/
def mnemonicsA : List (String × Operands) :=
  [("NOP", .z .nop), ("SRESET", .z .sreset), ("TINIT", .n .tinit), ("TFWD", .z .tfwd), ("TINV", .z .tinv),
   ("QINIT", .q .qinit), ("QVAR", .n .qvar), ("QUANT", .z .quant), ("DEQUANT", .z .dequant)]

/-- The mnemonics of the zigzag, run-length and Huffman families (R84). -/
def mnemonicsB : List (String × Operands) :=
  [("ZSCAN", .n .zscan), ("ZUNSCAN", .n .zunscan), ("RLENC", .n .rlenc), ("RLDEC", .n .rldec),
   ("HBUILD", .z .hbuild), ("HCANON", .z .hcanon), ("HTRIE", .z .htrie), ("HDECSYM", .z .hdecsym)]

/-- The mnemonics of the bit stream and block codec families (R84). -/
def mnemonicsC : List (String × Operands) :=
  [("BWINIT", .c .bwinit), ("WBIT", .b .wbit), ("WBITS", .w .wbits), ("BRINIT", .c .brinit), ("RBIT", .z .rbit),
   ("SYMMAP", .z .symmap), ("WRHDR", .z .wrhdr), ("WRPAY", .z .wrpay), ("RDHDR", .z .rdhdr),
   ("RDPAY", .n .rdpay), ("ENCBLK", .n .encblk), ("DECBLK", .n .decblk)]

/-- The mnemonics of R84. -/
def mnemonicTable : List (String × Operands) := mnemonicsA ++ mnemonicsB ++ mnemonicsC

/-- The value of a digit below `base` (10 or 16). -/
def digitValue (base : Nat) (ch : Char) : Option Nat :=
  let v :=
    if '0' ≤ ch ∧ ch ≤ '9' then ch.toNat - '0'.toNat
    else if 'a' ≤ ch ∧ ch ≤ 'f' then ch.toNat - 'a'.toNat + 10
    else if 'A' ≤ ch ∧ ch ≤ 'F' then ch.toNat - 'A'.toNat + 10
    else base
  if v < base then some v else none

/-- The number written by a list of digits, the first the most significant. -/
def digitsValue (base : Nat) : (acc : Nat) → List Char → Option Nat
  | acc, [] => some acc
  | acc, ch :: rest => (digitValue base ch).bind fun v => digitsValue base (acc * base + v) rest

/-- "Each a decimal number or a hexadecimal number with `0x`" (R88). -/
def numberOf : List Char → Option Nat
  | [] => none
  | '0' :: 'x' :: d :: rest => digitsValue 16 0 (d :: rest)
  | d :: rest => digitsValue 10 0 (d :: rest)

/-- A list of characters cut at every `sep`. -/
def splitAtChar (sep : Char) : List Char → List (List Char)
  | [] => [[]]
  | ch :: rest =>
    match splitAtChar sep rest with
    | [] => [[ch]]
    | piece :: pieces => if ch = sep then [] :: piece :: pieces else (ch :: piece) :: pieces

/-- Leading and trailing spaces taken off. -/
def trimSpaces (cs : List Char) : List Char :=
  ((cs.dropWhile (· = ' ')).reverse.dropWhile (· = ' ')).reverse

/-- The command of a mnemonic and its operands' values; none where their number is wrong or a bit is neither 0 nor 1. -/
def commandOf : Operands → List Nat → Option Instr
  | .z i, [] => some i
  | .n i, [n] => some (i n)
  | .q i, [n, quality, a] => if a < 2 then some (i n quality (a == 1)) else none
  | .c i, [cap] => some (i cap)
  | .b i, [b] => if b < 2 then some (i (b == 1)) else none
  | .w i, [cnt, val] => some (i cnt val)
  | _, _ => none

/-- The command a line of text names (R88), if it names one that a command word can carry. -/
def assemble (line : String) : Option Instr :=
  let cs := trimSpaces (line.toList.takeWhile (· ≠ ';'))
  let name := cs.takeWhile (· ≠ ' ')
  let rest := trimSpaces (cs.drop name.length)
  let numbers := if rest = [] then some [] else (splitAtChar ',' rest).mapM (fun p => numberOf (trimSpaces p))
  ((mnemonicTable.find? (fun row => row.1.toList = name)).bind fun row =>
    numbers.bind fun ns => commandOf row.2 ns).filter Instr.wf

/-- The textual form of a command, operands in decimal (R88). -/
def Instr.text : Instr → String
  | .nop => "NOP"
  | .sreset => "SRESET"
  | .tinit n => "TINIT " ++ toString n
  | .tfwd => "TFWD"
  | .tinv => "TINV"
  | .qinit n quality adaptive =>
    "QINIT " ++ toString n ++ ", " ++ toString quality ++ ", " ++ (if adaptive then "1" else "0")
  | .qvar n => "QVAR " ++ toString n
  | .quant => "QUANT"
  | .dequant => "DEQUANT"
  | .zscan n => "ZSCAN " ++ toString n
  | .zunscan n => "ZUNSCAN " ++ toString n
  | .rlenc n => "RLENC " ++ toString n
  | .rldec n => "RLDEC " ++ toString n
  | .hbuild => "HBUILD"
  | .hcanon => "HCANON"
  | .htrie => "HTRIE"
  | .hdecsym => "HDECSYM"
  | .bwinit cap => "BWINIT " ++ toString cap
  | .wbit b => "WBIT " ++ (if b then "1" else "0")
  | .wbits cnt val => "WBITS " ++ toString cnt ++ ", " ++ toString val
  | .brinit cap => "BRINIT " ++ toString cap
  | .rbit => "RBIT"
  | .symmap => "SYMMAP"
  | .wrhdr => "WRHDR"
  | .wrpay => "WRPAY"
  | .rdhdr => "RDHDR"
  | .rdpay n => "RDPAY " ++ toString n
  | .encblk n => "ENCBLK " ++ toString n
  | .decblk n => "DECBLK " ++ toString n

end Sys2Proof
end

