-- ==== Sys2Proof/Machine/Types.lean ====
section
/-! DEFINITION. The data the buffers hold: address spaces, RLE symbols, Huffman codes, the decoding trie. -/

namespace Sys2Proof.Machine

/-- The seventeen address spaces of the table of 20_memory.md R60; the eighteenth, the command port, holds nothing to read. -/
inductive Space where
  | reg | xr | yr | ib | sq | rs | st | fq | cl | bs | cb | ct | qm | dqm | tc | cc | trie
deriving DecidableEq, Repr

/-- An RLE symbol (43_runlength.md R160; 10_state.md R37): `run` an unsigned 16-bit integer, `value` a signed 32-bit one. -/
structure RleSym where
  run   : BitVec 16
  value : Word
deriving DecidableEq, Repr

/-- A HuffCode (10_state.md R39): `len` in 1..255 and `bits < 2^len`; bit `len-1` of `bits` is the first bit of the code. -/
structure HuffCode where
  len  : Byte
  bits : BitVec 255
deriving DecidableEq, Repr

/-- The decoding trie (10_state.md R40; 44_huffman.md R180): `absent` is no node, `leaf i` the leaf of symbol `i`,
`node` an inner node with its child 0 and its child 1. -/
inductive Trie where
  | absent
  | leaf (sym : BitVec 16)
  | node (child0 child1 : Trie)
deriving DecidableEq, Repr, Inhabited

/-- How the walk of one symbol ends (44_huffman.md R182). -/
inductive Walk where
  | sym (i : BitVec 16)
  | underflow
  | dead
deriving DecidableEq, Repr

/-- The class of a status code, its high nibble (60_exceptions.md R241). -/
inductive CodeClass where
  | success | degraded | failed | hardDecode | fault
deriving DecidableEq, Repr

/-- The two run states (60_exceptions.md R252). -/
inductive RunState where
  | run | halted
deriving DecidableEq, Repr

/-- The Huffman tree, hidden state of `HBUILD` (44_huffman.md R171; 10_state.md R42). -/
inductive HTree where
  | leaf (symbol : Nat)
  | node (left right : HTree)
deriving DecidableEq, Repr

/-- A node waiting in the heap: its frequency and its sequence number, the key of R172, with the tree below it. -/
structure HNode where
  freq : Nat
  seq  : Nat
  tree : HTree
deriving DecidableEq, Repr

/-- The numerics record `NUM` of an instance (00_scope.md R11, R17): the default, IEEE 754 binary64 with an open cosine, or
another one, taken as an "uninterpreted record" and named by a number (log entry 4). -/
inductive Numerics where
  | binary64
  | other (record : Nat)
deriving DecidableEq, Repr

/-- The floating-point operations of `NUM` whose result can be a NaN (00_scope.md R17); `sqrt` has one operand. -/
inductive NumOp where
  | add | sub | mul | div | sqrt
deriving DecidableEq, Repr

end Sys2Proof.Machine
end

