-- ==== Sys2Proof/Config.lean ====
section
/-! DEFINITION. What an instance of the core fixes (the parameters of 00_scope.md R11) and the free values: constants with no
body, so that a claim that mentions one holds whatever it is. -/

namespace Sys2Proof.Machine

/-- The parameters of one instance (00_scope.md R11; 10_state.md R43). `L_MAX` is derived, `LEN_MAX` is fixed at 255,
`num` is `NUM`. They never change while the core runs. -/
structure Params where
  nMax   : Nat
  symMax : Nat
  bufMax : Nat
  base8  : List Nat
  num    : Numerics
deriving DecidableEq, Repr

/-- `L_MAX`, "`N_MAX × N_MAX`, largest sequence length" (R11). -/
def Params.lMax (p : Params) : Nat := p.nMax * p.nMax

/-- `LEN_MAX`: "fixed by the 8-bit `code_length` field and the document's '>255 bits' guard; not free" (R11). -/
def lenMax : Nat := 255

/-- The constraint column of R11: `N_MAX` a power of two in 1..128, `SYM_MAX` in 1..65535, `BUF_MAX` in 1..2^24-1, `BASE8`
64 integers in 1..255; `NUM` any record (R17). -/
def Params.ok (p : Params) : Bool :=
  decide (1 ≤ p.nMax) && decide (p.nMax ≤ 128) && (p.nMax &&& (p.nMax - 1) == 0) &&
  decide (1 ≤ p.symMax) && decide (p.symMax ≤ 65535) &&
  decide (1 ≤ p.bufMax) && decide (p.bufMax ≤ 2 ^ 24 - 1) &&
  (p.base8.length == 64) && p.base8.all (fun b => decide (1 ≤ b) && decide (b ≤ 255))

/-- The default of `BASE8`, row by row (41_quantization.md R128, marked there as from general knowledge). -/
def base8Default : List Nat :=
  [16, 11, 10, 16, 24, 40, 51, 61] ++ [12, 12, 14, 19, 26, 58, 60, 55] ++
  [14, 13, 16, 24, 40, 57, 69, 56] ++ [14, 17, 22, 29, 51, 87, 80, 62] ++
  [18, 22, 37, 56, 68, 109, 103, 77] ++ [24, 35, 55, 64, 81, 104, 113, 92] ++
  [49, 64, 78, 87, 103, 121, 120, 101] ++ [72, 92, 95, 98, 112, 100, 103, 99]

/-- The default column of R11. -/
def Params.default : Params :=
  { nMax := 16, symMax := 256, bufMax := 16384, base8 := base8Default, num := .binary64 }

/-- FREE VALUE. What storage never written since reset holds (93_implementation_defined.md U1): an element of width `w`, by
space, by the number of resets so far and by index; "fixed at reset and stable until written". Log entries 7, 8. -/
opaque Config.unspecified : (w : Nat) → Space → (epoch index : Nat) → BitVec w

/-- FREE VALUE. What `TRIE` is before it is built (10_state.md R44; U6). Log entry 9. -/
opaque Config.unspecifiedTrie : (epoch : Nat) → Trie

/-- FREE VALUE. What a `HostRead` that names no readable element returns (20_memory.md R62; U2, U6); `draw` counts such reads.
Log entries 10, 12. -/
opaque Config.unspecifiedRead : (draw space index : Nat) → DWord

/-- FREE VALUE. What an element of width `w` holds after a host write of a value that does not fit it. Log entry 11. -/
opaque Config.narrowed : (w : Nat) → DWord → BitVec w

/-- FREE VALUE. Sign (bit 52) and fraction (bits 51:0) of a NaN that an operation of `NUM` returns. Log entry 5. -/
opaque Config.nanBits : NumOp → Real64 → Real64 → BitVec 53

/-- FREE VALUE. A candidate for the open cosine `NUM.fcos` of a record (00_scope.md R17; U4). Log entry 6. -/
opaque Config.fcosCandidate : Numerics → Real64 → Real64

/-- FREE VALUE. `fadd`, `fsub`, `fmul`, `fdiv` and `fsqrt` (both operands the same) of an uninterpreted numerics record.
Log entry 4. -/
opaque Config.numResult : (record : Nat) → NumOp → Real64 → Real64 → Real64

/-- FREE VALUE. `flt` of an uninterpreted numerics record on operands that are no NaN. Log entry 4. -/
opaque Config.numLess : (record : Nat) → Real64 → Real64 → Bool

/-- FREE VALUE. `i2f` of an uninterpreted numerics record. Log entry 4. -/
opaque Config.numOfInt : (record : Nat) → Int → Real64

/-- FREE VALUE. `NUM.pi` of an uninterpreted numerics record. Log entry 4. -/
opaque Config.numPi : (record : Nat) → Real64

end Sys2Proof.Machine
end

