-- ==== Sys2Proof/Machine/Numerics.lean ====
section
/-! DEFINITION. The numerics record `NUM` (00_scope.md R17). First its default, IEEE 754 binary64, every operation computed
exactly on integers and rounded once, to nearest, ties to even. The cosine is open: a free function held to the bound of R17.
Then the operations of an instance's record, `Numerics.add` and its fellows, which every command uses. -/

namespace Sys2Proof.Machine

/-! A finite real is an integer count of units of 2^-1074, the least positive binary64. -/

/-- The sign bit. -/
def fsign (a : Real64) : Bool := a.getLsbD 63

/-- The exponent field, bits 62:52. -/
def fexp (a : Real64) : Nat := (a.extractLsb' 52 11).toNat

/-- The fraction field, bits 51:0. -/
def ffrac (a : Real64) : Nat := (a.extractLsb' 0 52).toNat

def isNaN (a : Real64) : Bool := fexp a == 2047 && ffrac a != 0
def isInf (a : Real64) : Bool := fexp a == 2047 && ffrac a == 0
def isFinite (a : Real64) : Bool := fexp a != 2047
def isZero (a : Real64) : Bool := fexp a == 0 && ffrac a == 0

/-- The magnitude of a finite real in units of 2^-1074. -/
def fmag (a : Real64) : Nat :=
  if fexp a = 0 then ffrac a else (2 ^ 52 + ffrac a) * 2 ^ (fexp a - 1)

/-- The value of a finite real in units of 2^-1074, signed. -/
def funits (a : Real64) : Int :=
  if fsign a then -(fmag a : Int) else (fmag a : Int)

/-- The exact value of a finite real. -/
def toRat (a : Real64) : Rat := (funits a : Rat) / 2 ^ 1074

/-- The 64 bits with sign `neg` and bits 62:0 the number `m`. -/
def withSign (neg : Bool) (m : Nat) : Real64 :=
  (if neg then 0x8000000000000000#64 else 0#64) ||| BitVec.ofNat 64 m

/-- Bits 62:0 of an infinity. -/
def infMag : Nat := 0x7FF0000000000000

def fInf (neg : Bool) : Real64 := withSign neg infMag
def fZero (neg : Bool) : Real64 := withSign neg 0

/-- The quotient of two integers rounded to nearest, ties to even. -/
def divNearestEven (num den : Nat) : Nat :=
  let q := num / den
  let r := num % den
  if 2 * r < den then q else if den < 2 * r then q + 1 else if q % 2 = 0 then q else q + 1

/-- Bits 62:0 of the binary64 nearest to `num / den` units of 2^-1074, ties to even; an infinity when the rounded magnitude
has no finite encoding (R17: "correctly rounded to nearest, ties to even"). The last place kept is worth 2^k units. -/
def roundMag (num den : Nat) : Nat :=
  let k := (num / den).log2 - 52
  min (k * 2 ^ 52 + divNearestEven num (den * 2 ^ k)) infMag

/-- The binary64 nearest to a signed quotient of units. -/
def roundReal (neg : Bool) (num den : Nat) : Real64 := withSign neg (roundMag num den)

/-- A NaN: the sign and the fraction are free (log entry 5). -/
def freeNaN (op : NumOp) (a b : Real64) : Real64 :=
  let raw := Config.nanBits op a b
  let frac := (raw.extractLsb' 0 52).toNat
  withSign (raw.getLsbD 52) (infMag + (if frac = 0 then 1 else frac))

/-- Addition (R17). An exact zero sum of two operands is +0 unless both are negative zeros. -/
def addCore (op : NumOp) (a b : Real64) (a0 b0 : Real64) : Real64 :=
  if isNaN a || isNaN b then freeNaN op a0 b0
  else if isInf a then (if isInf b && fsign a != fsign b then freeNaN op a0 b0 else a)
  else if isInf b then b
  else
    let z := funits a + funits b
    if z = 0 then fZero (fsign a && fsign b) else roundReal (decide (z < 0)) z.natAbs 1

def fadd (a b : Real64) : Real64 := addCore .add a b a b

/-- Negation of the sign bit; no operation of `NUM`, the inside of `fsub`. -/
def flipSign (a : Real64) : Real64 := a ^^^ 0x8000000000000000#64

def fsub (a b : Real64) : Real64 := addCore .sub a (flipSign b) a b

def fmul (a b : Real64) : Real64 :=
  let neg := fsign a != fsign b
  if isNaN a || isNaN b then freeNaN .mul a b
  else if isInf a then (if isZero b then freeNaN .mul a b else fInf neg)
  else if isInf b then (if isZero a then freeNaN .mul a b else fInf neg)
  else roundReal neg (fmag a * fmag b) (2 ^ 1074)

def fdiv (a b : Real64) : Real64 :=
  let neg := fsign a != fsign b
  if isNaN a || isNaN b then freeNaN .div a b
  else if isInf a then (if isInf b then freeNaN .div a b else fInf neg)
  else if isInf b then fZero neg
  else if isZero b then (if isZero a then freeNaN .div a b else fInf neg)
  else roundReal neg (fmag a * 2 ^ 1074) (fmag b)

/-- Square root. The root of `m` units is the root of `m·2^1074` units; its integer part has at least 537 bits, so one more
bit that says whether it is exact decides every rounding. -/
def fsqrt (a : Real64) : Real64 :=
  if isNaN a then freeNaN .sqrt a a
  else if isZero a then a
  else if fsign a then freeNaN .sqrt a a
  else if isInf a then a
  else
    let n := fmag a * 2 ^ 1074
    let r := Nat.sqrt n
    roundReal false (2 * r + (if r * r = n then 0 else 1)) 2

/-- The comparison `flt(a, b)`: "a < b", false if either is a NaN. -/
def flt (a b : Real64) : Bool :=
  if isNaN a || isNaN b then false
  else if isInf a then fsign a && !(isInf b && fsign b)
  else if isInf b then !fsign b
  else decide (funits a < funits b)

/-- Integer to real, `i2f` (exact for |k| < 2^53). -/
def i2f (k : Int) : Real64 := roundReal (decide (k < 0)) (k.natAbs * 2 ^ 1074) 1

/-- `NUM.pi` of the default record (R17). -/
def numPi : Real64 := 0x400921FB54442D18#64

/-! The decimal constants of the rules, the same in every instance (log entry 16). -/

def real1 : Real64 := 0x3FF0000000000000#64
def real2 : Real64 := 0x4000000000000000#64
def real8 : Real64 := 0x4020000000000000#64
def real100 : Real64 := 0x4059000000000000#64
def real255 : Real64 := 0x406FE00000000000#64
def real1000 : Real64 := 0x408F400000000000#64
def real5000 : Real64 := 0x40B3880000000000#64

/-- The real constant 0.1 of R132: the binary64 nearest to it (log entry 16). -/
def realTenth : Real64 := 0x3FB999999999999A#64

/-! The open cosine. -/

/-- `1 - x²/2! + x⁴/4! - …`, the first `n` terms of the series from the term of `x^(2i)/(2i)!`, given as `t`. -/
def cosSeries (x2 : Rat) : (n i : Nat) → (t : Rat) → Rat
  | 0, _, _ => 0
  | n + 1, i, t => t + cosSeries x2 n (i + 1) (-(t * x2) / ((2 * i + 1) * (2 * i + 2)))

/-- How many terms are taken at `x`: enough that what is left out is far below 2^-100. -/
def cosTerms (x : Rat) : Nat := 2 * x.ceil.toNat + 100

/-- The sum of the terms taken. -/
def cosSum (x : Rat) : Rat := cosSeries (x * x) (cosTerms x) 0 1

/-- A bound on what the sum leaves out: twice the next term. -/
def cosTail (x : Rat) : Rat := 2 * x ^ (2 * cosTerms x) / ((2 * cosTerms x).factorial : Rat)

/-- `v` is within 2^-52 of the cosine of `a`, up to the tail of the series (log entry 6). -/
def cosAdmits (a v : Real64) : Bool :=
  isFinite v &&
  decide (cosSum (toRat a) - cosTail (toRat a) - 1 / 2 ^ 52 ≤ toRat v) &&
  decide (toRat v ≤ cosSum (toRat a) + cosTail (toRat a) + 1 / 2 ^ 52)

/-- `0 ≤ a ≤ 2·π·N_MAX`, with the default `NUM.pi` for π: where R17 bounds the cosine. -/
def cosBounded (nMax : Nat) (a : Real64) : Bool :=
  isFinite a && decide (0 ≤ toRat a) && decide (toRat a ≤ 2 * toRat numPi * nMax)

/-- The binary64 nearest to a rational. -/
def ratNearest (q : Rat) : Real64 := roundReal (decide (q < 0)) (q.num.natAbs * 2 ^ 1074) q.den

/-! The operations of an instance's record: the default's, or free values (R11, R17). -/

def Numerics.add : Numerics → Real64 → Real64 → Real64
  | .binary64, a, b => fadd a b
  | .other r, a, b => Config.numResult r .add a b

def Numerics.sub : Numerics → Real64 → Real64 → Real64
  | .binary64, a, b => fsub a b
  | .other r, a, b => Config.numResult r .sub a b

def Numerics.mul : Numerics → Real64 → Real64 → Real64
  | .binary64, a, b => fmul a b
  | .other r, a, b => Config.numResult r .mul a b

def Numerics.div : Numerics → Real64 → Real64 → Real64
  | .binary64, a, b => fdiv a b
  | .other r, a, b => Config.numResult r .div a b

def Numerics.sqrt : Numerics → Real64 → Real64
  | .binary64, a => fsqrt a
  | .other r, a => Config.numResult r .sqrt a a

/-- `flt`, "false if either is a NaN" in every record. -/
def Numerics.lt : Numerics → Real64 → Real64 → Bool
  | .binary64, a, b => flt a b
  | .other r, a, b => !isNaN a && !isNaN b && Config.numLess r a b

def Numerics.ofInt : Numerics → Int → Real64
  | .binary64, k => i2f k
  | .other r, k => Config.numOfInt r k

def Numerics.pi : Numerics → Real64
  | .binary64 => numPi
  | .other r => Config.numPi r

/-- `NUM.fcos` (R17; U4), of every record: 1 at zero, within 2^-52 of the cosine where R17 asks for it, and otherwise free. -/
def Numerics.cos (num : Numerics) (nMax : Nat) (a : Real64) : Real64 :=
  if isZero a then real1
  else
    let v := Config.fcosCandidate num a
    if cosBounded nMax a && !cosAdmits a v then ratNearest (cosSum (toRat a)) else v

/-! `clamp` and `round_haz` (00_scope.md R18). -/

/-- "If `flt(x, lo)` then `lo`, else if `flt(hi, x)` then `hi`, else `x`"; a NaN passes through. -/
def Numerics.clamp (num : Numerics) (x lo hi : Real64) : Real64 :=
  if num.lt x lo then lo else if num.lt hi x then hi else x

/-- `round_haz` of a finite real: the nearest integer, a tie going away from zero. -/
def roundHaz (a : Real64) : Int :=
  let m : Nat := (2 * fmag a + 2 ^ 1074) / 2 ^ 1075
  if fsign a then -(m : Int) else (m : Int)

end Sys2Proof.Machine
end

