-- ==== Sys2Proof/Machine/State.lean ====
section
/-! DEFINITION. The state of the core (10_state.md), the host's moves waiting at the command port, the outcomes of a step, and
the state after reset. -/

namespace Sys2Proof.Machine

/-- The eight faults: status codes of class F (60_exceptions.md R241 to R245). A command that raises one takes it (R246):
that is a next state, not a stop of the model. -/
inductive CoreFault where
  | illegal | blocksize | quality | noctx | nobuf | capacity | numeric | state
deriving DecidableEq, Repr

/-- The fourteen status codes of classes OK, D, E and H (60_exceptions.md R241). -/
inductive RetCode where
  | ok | okSat
  | dUnderflow | dBadcode | dOverrun | dShort
  | eOverflow | eSymspace | eUnderflow | eCodelen
  | hTrunc | hCount | hLen0 | hOversub
deriving DecidableEq, Repr

/-- A status code: "exactly the 22 values" of R241. -/
inductive Code where
  | ret (c : RetCode)
  | fault (f : CoreFault)
deriving DecidableEq, Repr

/-- `STATUS` (10_state.md R23). Bits 31:17 read as zero; the 32-bit word is `Status.word` (Machine/Flags.lean). -/
structure Status where
  code : Code
  op   : Byte
  halt : Bool
deriving DecidableEq, Repr

/-- `VALID` (10_state.md R24): six flags. -/
structure Valid where
  tcv : Bool
  qcv : Bool
  wv  : Bool
  rv  : Bool
  ccv : Bool
  trv : Bool
deriving DecidableEq, Repr

/-- `QCFG` (10_state.md R26). -/
structure QCfg where
  n       : BitVec 12
  quality : Byte
  adapt   : Bool
deriving DecidableEq, Repr

/-- A bit cursor (10_state.md R30): capacity in bytes, byte position, bit position. -/
structure Cursor where
  cap  : BitVec 24
  byte : BitVec 24
  bitp : BitVec 3
deriving DecidableEq, Repr

/-- A buffer: the elements written since reset, by rising index. An index that is not listed has no value of its own; reading
it takes the free value of that element (log entry 7). -/
abbrev Buf (α : Type) := List (Nat × α)

/-- The sixteen buffers (10_state.md R31 to R41). `trie` is `none` while nothing has built it since reset. -/
structure Memory where
  cb   : Buf Real64
  ct   : Buf Real64
  qm   : Buf Real64
  dqm  : Buf Real64
  xr   : Buf Real64
  yr   : Buf Real64
  ib   : Buf Word
  sq   : Buf Word
  rs   : Buf RleSym
  st   : Buf Word
  fq   : Buf Word
  cl   : Buf Byte
  tc   : Buf HuffCode
  cc   : Buf HuffCode
  trie : Option Trie
  bs   : List Host.Cell
deriving DecidableEq, Repr

/-- A move of the host (20_memory.md R62; 70_reset_and_hazards.md R270): `HostCommand(word)`, `HostWrite(space, index, v)`,
`HostRead(space, index)`, the hard reset. -/
inductive HostMove where
  | command (w : Word)
  | write (space index : Nat) (v : DWord)
  | read (space index : Nat)
  | reset
deriving DecidableEq, Repr

/-- What the last host primitive returned (R62): the new `STATUS`, an element zero-extended to 64 bits, a code. -/
inductive Reply where
  | nothing
  | status (w : Word)
  | value (v : DWord)
  | code (c : HuffCode)
deriving DecidableEq, Repr

/-- The state: the eleven registers and register groups and the sixteen buffers of 10_state.md R20, the parameters of the
instance (constants of a run), and the model's own fields `port`, `reply`, `epoch`, `draws` (log entries 1, 2, 3, 7, 10). -/
structure State where
  status : Status
  valid  : Valid
  tn     : BitVec 12
  qcfg   : QCfg
  var    : Real64
  k      : BitVec 16
  rsn    : BitVec 16
  bitr   : Bool
  symr   : BitVec 16
  w      : Cursor
  r      : Cursor
  mem    : Memory
  params : Params
  port   : List HostMove
  reply  : Reply
  epoch  : Nat
  draws  : Nat
deriving DecidableEq, Repr

/-- How a command's body ends (47_system.md R230 step 5): `ret c s` is `return c` with the body's writes in `s`; `raise f` is a
fault, whose writes are discarded. -/
inductive Result where
  | ret (c : RetCode) (s : State)
  | raise (f : CoreFault)
deriving DecidableEq, Repr

/-- Why the model stops with a fault: never. Every fault the spec names is taken as R246 says and is a next state; no
instruction, host move or ordinary datum raises a stop (safe: nothing is cut short). Log entry 24. -/
inductive Fault where
deriving DecidableEq, Repr

/-- Why the model refuses. -/
inductive Refusal where
  /-- Raised by exec's arm of an instruction that has no meaning yet: by none. Safe: nothing is said of what it does. -/
  | notModelled (mnemonic : String)
deriving DecidableEq, Repr

/-- All buffers with nothing written (10_state.md R44: every element unspecified). -/
def Memory.unwritten : Memory :=
  { cb := [], ct := [], qm := [], dqm := [], xr := [], yr := [], ib := [], sq := [], rs := [], st := [], fq := [], cl := [],
    tc := [], cc := [], trie := none, bs := [] }

/-- The state after the reset number `epoch` of an instance with parameters `p` (10_state.md R44; 70_reset_and_hazards.md
R270), with no host move waiting. -/
def State.atReset (p : Params) (epoch : Nat) : State :=
  { status := { code := .ret .ok, op := 0#8, halt := false }
    valid := { tcv := false, qcv := false, wv := false, rv := false, ccv := false, trv := false }
    tn := 0#12
    qcfg := { n := 0#12, quality := 0#8, adapt := false }
    var := Config.unspecified 64 .reg epoch 4
    k := 0#16
    rsn := 0#16
    bitr := false
    symr := 0#16
    w := { cap := 0#24, byte := 0#24, bitp := 0#3 }
    r := { cap := 0#24, byte := 0#24, bitp := 0#3 }
    mem := Memory.unwritten
    params := p
    port := []
    reply := .nothing
    epoch := epoch
    draws := 0 }

/-- The machine right after reset, at the default parameters. -/
def State.reset : State := State.atReset Params.default 0

end Sys2Proof.Machine
end

