-- ==== Sys2Proof/Machine/Flags.lean ====
section
/-! DEFINITION. `STATUS`, `VALID` and the cursor views: the status codes' numbers and classes, the words the host reads, the
posting of a result. -/

namespace Sys2Proof.Machine

/-- The number of a fault code (60_exceptions.md R241). -/
def CoreFault.byte : CoreFault → Byte
  | .illegal => 0xF0#8
  | .blocksize => 0xF1#8
  | .quality => 0xF2#8
  | .noctx => 0xF3#8
  | .nobuf => 0xF4#8
  | .capacity => 0xF5#8
  | .numeric => 0xF6#8
  | .state => 0xF7#8

/-- The number of a status code of class OK, D, E or H (R241). -/
def RetCode.byte : RetCode → Byte
  | .ok => 0x00#8
  | .okSat => 0x01#8
  | .dUnderflow => 0x10#8
  | .dBadcode => 0x11#8
  | .dOverrun => 0x12#8
  | .dShort => 0x13#8
  | .eOverflow => 0x20#8
  | .eSymspace => 0x21#8
  | .eUnderflow => 0x22#8
  | .eCodelen => 0x23#8
  | .hTrunc => 0x30#8
  | .hCount => 0x31#8
  | .hLen0 => 0x32#8
  | .hOversub => 0x33#8

/-- `STATUS.CODE` as a byte. -/
def Code.byte : Code → Byte
  | .ret c => c.byte
  | .fault f => f.byte

/-- The class of a status code (R240, R241). -/
def Code.class : Code → CodeClass
  | .ret .ok | .ret .okSat => .success
  | .ret .dUnderflow | .ret .dBadcode | .ret .dOverrun | .ret .dShort => .degraded
  | .ret .eOverflow | .ret .eSymspace | .ret .eUnderflow | .ret .eCodelen => .failed
  | .ret .hTrunc | .ret .hCount | .ret .hLen0 | .ret .hOversub => .hardDecode
  | .fault _ => .fault

/-- `STATUS.CODE[7:4]` of each class: "0x0 success, 0x1 degraded, 0x2 failed, 0x3 hard decode failure, 0xF fault" (R241). -/
def CodeClass.nibble : CodeClass → BitVec 4
  | .success => 0x0#4
  | .degraded => 0x1#4
  | .failed => 0x2#4
  | .hardDecode => 0x3#4
  | .fault => 0xF#4

/-- The 32-bit `STATUS` word: bits 31:17 zero, 16 `HALT`, 15:8 `OP`, 7:0 `CODE` (10_state.md R23). -/
def Status.word (st : Status) : Word := 0#15 ++ BitVec.ofBool st.halt ++ st.op ++ st.code.byte

/-- `VALID` as slot 1 reads it, bit 0 `TCV` to bit 5 `TRV` (10_state.md R24; 20_memory.md R61). -/
def Valid.word (v : Valid) : BitVec 6 :=
  BitVec.ofBool v.trv ++ BitVec.ofBool v.ccv ++ BitVec.ofBool v.rv ++ BitVec.ofBool v.wv ++ BitVec.ofBool v.qcv ++
    BitVec.ofBool v.tcv

/-- `QCFG` as slot 3 reads it: `N` 11:0, `QUALITY` 19:12, `ADAPT` 20 (20_memory.md R61). -/
def QCfg.word (q : QCfg) : BitVec 21 := BitVec.ofBool q.adapt ++ q.quality ++ q.n

/-- A cursor's position in bits: `8·BYTE + BITP` (10_state.md R30). -/
def Cursor.pos (c : Cursor) : Nat := 8 * c.byte.toNat + c.bitp.toNat

/-- `WPOS` (R30). -/
def State.wpos (s : State) : Nat := s.w.pos

/-- `RPOS` (R30). -/
def State.rpos (s : State) : Nat := s.r.pos

/-- `BCNT = WBYTE + (1 if WBITP ≠ 0 else 0)`, "the number of bytes actually used" (R30). -/
def State.bcnt (s : State) : Nat := s.w.byte.toNat + (if s.w.bitp = 0#3 then 0 else 1)

/-- The run state (60_exceptions.md R252). -/
def State.runState (s : State) : RunState := if s.status.halt then .halted else .run

/-- Step 3 of 47_system.md R230: `STATUS.OP <- w[31:24]`. -/
def recordOp (op : Byte) (s : State) : State := { s with status := { s.status with op := op } }

/-- Step 5 of R230, `return c`: `STATUS.CODE <- c`. -/
def postReturn (c : RetCode) (s : State) : State := { s with status := { s.status with code := .ret c } }

end Sys2Proof.Machine
end

