-- ==== Sys2Proof/Machine/Ops.lean ====
section
/-! DEFINITION. The shared operations: buffers and their elements, the bit writer and the bit reader, the trie, fault entry and
its only way out, and the common steps of a command. -/

namespace Sys2Proof.Machine

/-! Buffers (10_state.md R31; 00_scope.md R15). -/

/-- The element last written at index `i`, if any since reset. -/
def Buf.get {α : Type} : Buf α → Nat → Option α
  | [], _ => none
  | (j, v) :: rest, i => if i = j then some v else Buf.get rest i

/-- `S[i] <- v`: indices stay rising. -/
def Buf.set {α : Type} : Buf α → Nat → α → Buf α
  | [], i, v => [(i, v)]
  | (j, u) :: rest, i, v =>
    if i < j then (i, v) :: (j, u) :: rest
    else if i = j then (i, v) :: rest
    else (j, u) :: Buf.set rest i v

/-- The elements of a list at the indices `i, i+1, …`. -/
def Buf.place {α : Type} : (i : Nat) → List α → Buf α
  | _, [] => []
  | i, v :: vs => (i, v) :: Buf.place (i + 1) vs

/-- `S[i] <- vs[i]` for every `i` below the length of `vs`. -/
def Buf.fill {α : Type} (b : Buf α) (vs : List α) : Buf α :=
  Buf.place 0 vs ++ b.filter (fun e => decide (vs.length ≤ e.1))

/-- Indices strictly rise. -/
def Buf.rising {α : Type} : Buf α → Bool
  | [] => true
  | (i, _) :: rest => rest.all (fun e => decide (i < e.1)) && Buf.rising rest

/-- The canonical form of a buffer of `len` elements: strictly rising indices, all below `len`. -/
def Buf.wf {α : Type} (len : Nat) (b : Buf α) : Bool := b.rising && b.all (fun e => decide (e.1 < len))

/-- Every buffer is in canonical form within its length (20_memory.md R60). -/
def Memory.wf (p : Params) (m : Memory) : Bool :=
  m.cb.wf p.lMax && m.ct.wf p.lMax && m.qm.wf p.lMax && m.dqm.wf p.lMax && m.xr.wf p.lMax && m.yr.wf p.lMax &&
  m.ib.wf p.lMax && m.sq.wf p.lMax && m.rs.wf p.lMax && m.st.wf p.symMax && m.fq.wf p.symMax && m.cl.wf p.symMax &&
  m.tc.wf p.symMax && m.cc.wf p.symMax && Buf.wf p.bufMax m.bs

/-! Reading an element. One never written since reset has a free value of its type, the same until it is written
(93_implementation_defined.md U1). -/

/-- The code of length `len` and bits `bits` (10_state.md R39). -/
def HuffCode.mkCode (len bits : Nat) : HuffCode := { len := BitVec.ofNat 8 len, bits := BitVec.ofNat 255 bits }

/-- A code made of free bits: `len` in 1..255, `bits < 2^len` (R39). -/
def freeCode (raw : BitVec 263) : HuffCode :=
  let len := max 1 (raw.extractLsb' 255 8).toNat
  HuffCode.mkCode len ((raw.extractLsb' 0 255).toNat % 2 ^ len)

/-- An RLE symbol from its 48 bits: run in 47:32, value in 31:0 (20_memory.md R60). -/
def RleSym.ofBits (raw : BitVec 48) : RleSym := { run := raw.extractLsb' 32 16, value := raw.extractLsb' 0 32 }

def State.readCB (s : State) (i : Nat) : Real64 := (s.mem.cb.get i).getD (Config.unspecified 64 .cb s.epoch i)
def State.readCT (s : State) (i : Nat) : Real64 := (s.mem.ct.get i).getD (Config.unspecified 64 .ct s.epoch i)
def State.readQM (s : State) (i : Nat) : Real64 := (s.mem.qm.get i).getD (Config.unspecified 64 .qm s.epoch i)
def State.readDQM (s : State) (i : Nat) : Real64 := (s.mem.dqm.get i).getD (Config.unspecified 64 .dqm s.epoch i)
def State.readXR (s : State) (i : Nat) : Real64 := (s.mem.xr.get i).getD (Config.unspecified 64 .xr s.epoch i)
def State.readYR (s : State) (i : Nat) : Real64 := (s.mem.yr.get i).getD (Config.unspecified 64 .yr s.epoch i)
def State.readIB (s : State) (i : Nat) : Word := (s.mem.ib.get i).getD (Config.unspecified 32 .ib s.epoch i)
def State.readSQ (s : State) (i : Nat) : Word := (s.mem.sq.get i).getD (Config.unspecified 32 .sq s.epoch i)
def State.readRS (s : State) (i : Nat) : RleSym :=
  (s.mem.rs.get i).getD (RleSym.ofBits (Config.unspecified 48 .rs s.epoch i))
def State.readST (s : State) (i : Nat) : Word := (s.mem.st.get i).getD (Config.unspecified 32 .st s.epoch i)
def State.readFQ (s : State) (i : Nat) : Word := (s.mem.fq.get i).getD (Config.unspecified 32 .fq s.epoch i)
def State.readCL (s : State) (i : Nat) : Byte := (s.mem.cl.get i).getD (Config.unspecified 8 .cl s.epoch i)
def State.readTC (s : State) (i : Nat) : HuffCode :=
  (s.mem.tc.get i).getD (freeCode (Config.unspecified 263 .tc s.epoch i))
def State.readCC (s : State) (i : Nat) : HuffCode :=
  (s.mem.cc.get i).getD (freeCode (Config.unspecified 263 .cc s.epoch i))
def State.readBS (s : State) (i : Nat) : Byte :=
  (Buf.get s.mem.bs i).getD (Config.unspecified 8 .bs s.epoch i)

/-- The decoding trie; free while nothing has built it (10_state.md R44; U6). -/
def State.readTrie (s : State) : Trie := s.mem.trie.getD (Config.unspecifiedTrie s.epoch)

/-! Bit strings, the first bit first (20_memory.md R64; 44_huffman.md, opening). -/

/-- The `W` bits of `v`, most significant first: `v[W-1]` first and `v[0]` last. -/
def fieldBits (W v : Nat) : List Bool := (List.range W).map (fun t => v.testBit (W - 1 - t))

/-- The number a bit string writes, its first bit the most significant. -/
def bitsValue (bits : List Bool) : Nat := bits.foldl (fun v b => 2 * v + b.toNat) 0

/-- The bit string of a code (10_state.md R39). -/
def HuffCode.str (c : HuffCode) : List Bool := fieldBits c.len.toNat c.bits.toNat

/-- The code of a bit string. -/
def HuffCode.ofStr (bits : List Bool) : HuffCode := HuffCode.mkCode bits.length (bitsValue bits)

/-! The bit writer (45_bitstream.md R192, R198). -/

/-- The cursor one bit further: "`BITP + 1`; if it is 8, 0 and the next byte". -/
def Cursor.advance (c : Cursor) : Cursor :=
  if c.bitp = 7#3 then { c with bitp := 0#3, byte := c.byte + 1#24 } else { c with bitp := c.bitp + 1#3 }

/-- The byte with bit `7-p` set to `b`, the bits above it kept, the bits below it cleared (R192). -/
def putBit (old : Byte) (p : Nat) (b : Bool) : Byte :=
  let m := 0x80#8 >>> p
  (if p = 0 then 0#8 else old &&& ~~~(2#8 * m - 1#8)) ||| (if b then m else 0#8)

/-- `write_bit(b)`; `none` is Overflow: "nothing is written, cursor unchanged". -/
def writeBit (s : State) (b : Bool) : Option State :=
  if 8 * s.w.cap.toNat ≤ s.w.pos then none
  else
    let i := s.w.byte.toNat
    some { s with
      mem := { s.mem with bs := Buf.set s.mem.bs i (putBit (s.readBS i) s.w.bitp.toNat b) }
      w := s.w.advance }

/-- Successive `write_bit`s up to the first Overflow (`false`); "the bits before stay written". -/
def writeBits (s : State) : List Bool → State × Bool
  | [] => (s, true)
  | b :: rest =>
    match writeBit s b with
    | none => (s, false)
    | some s' => writeBits s' rest

/-! The bit reader (45_bitstream.md R196, R198). -/

/-- `read_bit()`; `none` is Underflow: "cursor unchanged". -/
def readBit (s : State) : Option (Bool × State) :=
  if 8 * s.r.cap.toNat ≤ s.r.pos then none
  else some ((s.readBS s.r.byte.toNat).getLsbD (7 - s.r.bitp.toNat), { s with r := s.r.advance })

/-- `read_field`: `W` more bits after a value `v` read so far; "the bits before stay consumed". -/
def readField : (W : Nat) → (v : Nat) → State → Option Nat × State
  | 0, v, s => (some v, s)
  | W + 1, v, s =>
    match readBit s with
    | none => (none, s)
    | some (b, s') => readField W (2 * v + b.toNat) s'

/-! The decoding trie (44_huffman.md R180, R182). -/

/-- The trie with no code: "the bare root" (R181). -/
def Trie.bare : Trie := .node .absent .absent

/-- Inserting a code; `none` is a conflict: the walk passes a leaf or ends on a node that exists. -/
def Trie.insert (i : BitVec 16) : List Bool → Trie → Option Trie
  | [], .absent => some (.leaf i)
  | [], .leaf _ => none
  | [], .node _ _ => none
  | _ :: _, .leaf _ => none
  | false :: bs, .absent => (Trie.insert i bs .absent).map (fun t => .node t .absent)
  | true :: bs, .absent => (Trie.insert i bs .absent).map (fun t => .node .absent t)
  | false :: bs, .node l r => (Trie.insert i bs l).map (fun t => .node t r)
  | true :: bs, .node l r => (Trie.insert i bs r).map (fun t => .node l t)

/-- The partial function a trie is: the symbol at a bit string (10_state.md R40). -/
def Trie.lookup : Trie → List Bool → Option (BitVec 16)
  | .leaf i, [] => some i
  | .leaf _, _ :: _ => none
  | .absent, _ => none
  | .node _ _, [] => none
  | .node l _, false :: bs => Trie.lookup l bs
  | .node _ r, true :: bs => Trie.lookup r bs

/-- `trie_build`: the codes in index order from index `i` on. -/
def trieBuild : (i : Nat) → List HuffCode → Trie → Option Trie
  | _, [], t => some t
  | i, c :: cs, t => (Trie.insert (BitVec.ofNat 16 i) c.str t).bind (trieBuild (i + 1) cs)

/-- `walk`: one symbol off the reader. The bits read stay consumed on Underflow and on Dead. -/
def walk : Trie → State → Walk × State
  | .leaf i, s => (.sym i, s)
  | .absent, s => (.dead, s)
  | .node l r, s =>
    match readBit s with
    | none => (.underflow, s)
    | some (false, s') => walk l s'
    | some (true, s') => walk r s'

/-! Fault entry, reset, and the common steps (47_system.md R230, R233; 60_exceptions.md R246, R249). -/

/-- Fault entry (R246), from the state step 3 left: every write of the body discarded, `STATUS.CODE` the fault's code,
`STATUS.HALT` 1. `STATUS.OP` already holds the command's opcode. -/
def takeFault (f : CoreFault) (s : State) : State :=
  { s with status := { s.status with code := .fault f, halt := true } }

/-- `do_reset()` (R233), the only way out of the halted state: the registers to their reset values, every buffer unspecified
anew. The parameters and the host's side stay. -/
def doReset (s : State) : State :=
  { State.atReset s.params (s.epoch + 1) with port := s.port, reply := s.reply, draws := s.draws }

/-- Steps 1, 3, 4 and 5 of R230 for the command of opcode `op` with body `body`. A halted core ignores it (R231). -/
def runCommand (op : Byte) (body : State → Result) (s : State) : State :=
  if s.status.halt then s
  else
    match body (recordOp op s) with
    | .ret c s' => postReturn c s'
    | .raise f => takeFault f (recordOp op s)

/-- A command as an outcome: always a next state. -/
def command (op : Byte) (body : State → Result) (s : State) : Host.Outcome State Fault Refusal :=
  .next (runCommand op body s)

/-- A step of a composite command, then the rest with its status (46_blockcodec.md R214); a fault ends the composite. -/
def Result.andThen (r : Result) (k : RetCode → State → Result) : Result :=
  match r with
  | .ret c s => k c s
  | .raise f => .raise f

end Sys2Proof.Machine
end

