-- ==== Sys2Proof/Machine/Operands.lean ====
section
/-! DEFINITION. Operands: the range checks of the immediates (60_exceptions.md R243) and the effective-address computations
(20_memory.md R75; 00_scope.md R16). -/

namespace Sys2Proof.Machine

/-- The test for a block size, "the same in every command that has an `n` field" (R243). -/
def blockSizeOk (p : Params) (n : Nat) : Bool :=
  decide (1 ≤ n) && decide (n ≤ p.nMax) && (n &&& (n - 1) == 0)

/-- The test for a quality: 1..100 (R243). -/
def qualityOk (quality : Nat) : Bool := decide (1 ≤ quality) && decide (quality ≤ 100)

/-- The test for a capacity: `cap ≤ BUF_MAX` (R243). -/
def capacityOk (p : Params) (cap : Nat) : Bool := decide (cap ≤ p.bufMax)

/-- The test for a bit count: `cnt ≤ 16` (45_bitstream.md R194). -/
def cntOk (cnt : Nat) : Bool := decide (cnt ≤ 16)

/-- The rest of a body after its block-size check. -/
def withBlock (n : Nat) (body : State → Result) (s : State) : Result :=
  if blockSizeOk s.params n then body s else .raise .blocksize

/-- Block element (i, j) of a block of size `n` is buffer element `i·n + j` (R16). -/
def blockIndex (n i j : Nat) : Nat := i * n + j

/-- The elements of an `n` by `n` matrix in row-major order. -/
def rowMajor {α : Type} (n : Nat) (f : Nat → Nat → α) : List α :=
  (List.range (n * n)).map (fun idx => f (idx / n) (idx % n))

/-- The first `len` elements of a space, read one by one. -/
def readMany {α : Type} (read : Nat → α) (len : Nat) : List α := (List.range len).map read

/-- The valid RLE symbols, indices `0..RSN-1` (R75; 10_state.md R28). -/
def State.symbols (s : State) : List RleSym := readMany s.readRS s.rsn.toNat

/-! The zigzag order (42_zigzag.md R150). -/

/-- The cells of diagonal `d`: even `d` up-right (row decreasing), odd `d` down-left (row increasing), rows clipped. -/
def zzDiag (n d : Nat) : List (Nat × Nat) :=
  let lo := d - (n - 1)
  let hi := min d (n - 1)
  let rows := (List.range (hi + 1 - lo)).map (fun t => lo + t)
  (if d % 2 = 0 then rows.reverse else rows).map (fun row => (row, d - row))

/-- `zz(N)`: the cells in zigzag order. -/
def zz (n : Nat) : List (Nat × Nat) := (List.range (2 * (n - 1) + 1)).flatMap (zzDiag n)

/-- The buffer indices in zigzag order. -/
def zzIndex (n : Nat) : List Nat := (zz n).map (fun cell => blockIndex n cell.1 cell.2)

/-- `zzi(N)(row, col)`: the zigzag position of a cell, the inverse map. -/
def zzi (n row col : Nat) : Nat := (zz n).idxOf (row, col)

end Sys2Proof.Machine
end

