-- ==== Sys2Proof/Machine/BitStream.lean ====
section
/-! DEFINITION. Bit Stream I/O: `BWINIT`, `WBIT`, `WBITS`, `BRINIT`, `RBIT` (45_bitstream.md). -/

namespace Sys2Proof.Machine

/-- A cursor bound with a capacity and rewound (R191, R195). -/
def Cursor.bind (cap : Nat) : Cursor := { cap := BitVec.ofNat 24 cap, byte := 0#24, bitp := 0#3 }

/-- A cursor rewound to bit 0 with its capacity kept (46_blockcodec.md R215, R216). -/
def Cursor.rewind (c : Cursor) : Cursor := { c with byte := 0#24, bitp := 0#3 }

/-- `BWINIT cap` (R191): "`BS` is not cleared". -/
def bodyBwinit (cap : Nat) (s : State) : Result :=
  if capacityOk s.params cap then .ret .ok { s with w := Cursor.bind cap, valid := { s.valid with wv := true } }
  else .raise .capacity

def execBwinit (cap : Nat) (s : State) : Host.Outcome State Fault Refusal := command 0x60#8 (bodyBwinit cap) s

/-- The status of a write: `E_OVERFLOW` where a bit did not fit. -/
def afterWrite (r : State × Bool) : Result := .ret (if r.2 then .ok else .eOverflow) r.1

/-- `WBIT b` (R193). -/
def bodyWbit (b : Bool) (s : State) : Result :=
  if s.valid.wv then afterWrite (writeBits s [b]) else .raise .nobuf

def execWbit (b : Bool) (s : State) : Host.Outcome State Fault Refusal := command 0x61#8 (bodyWbit b) s

/-- `WBITS cnt, val` (R194): the `cnt` low bits of `val`, the most significant of them first. -/
def bodyWbits (cnt val : Nat) (s : State) : Result :=
  if !cntOk cnt then .raise .illegal
  else if s.valid.wv then afterWrite (writeBits s (fieldBits cnt val)) else .raise .nobuf

def execWbits (cnt val : Nat) (s : State) : Host.Outcome State Fault Refusal := command 0x62#8 (bodyWbits cnt val) s

/-- `BRINIT cap` (R195). -/
def bodyBrinit (cap : Nat) (s : State) : Result :=
  if capacityOk s.params cap then .ret .ok { s with r := Cursor.bind cap, valid := { s.valid with rv := true } }
  else .raise .capacity

def execBrinit (cap : Nat) (s : State) : Host.Outcome State Fault Refusal := command 0x63#8 (bodyBrinit cap) s

/-- `RBIT` (R197): "`BITR` unchanged" on underflow. -/
def bodyRbit (s : State) : Result :=
  if s.valid.rv then
    match readBit s with
    | none => .ret .eUnderflow s
    | some (b, s') => .ret .ok { s' with bitr := b }
  else .raise .nobuf

def execRbit (s : State) : Host.Outcome State Fault Refusal := command 0x64#8 bodyRbit s

end Sys2Proof.Machine
end

