-- ==== Sys2Proof/Machine/Huffman.lean ====
section
/-! DEFINITION. The Huffman Coder: `HBUILD`, `HCANON`, `HTRIE`, `HDECSYM` (44_huffman.md). -/

namespace Sys2Proof.Machine

/-- The order of the heap: `(freq, seq)`, compared lexicographically (R172). -/
def HNode.before (a b : HNode) : Bool := decide (a.freq < b.freq) || (a.freq == b.freq && decide (a.seq < b.seq))

/-- The smallest node and the others. -/
def popMin : List HNode → Option (HNode × List HNode)
  | [] => none
  | a :: rest =>
    match popMin rest with
    | none => some (a, [])
    | some (b, others) => if a.before b then some (a, b :: others) else some (b, a :: others)

/-- The merging loop of R172, at most `fuel` times: the first node removed becomes the left child, the second the right. -/
def huffMerge : (fuel next : Nat) → List HNode → List HNode
  | 0, _, p => p
  | fuel + 1, next, p =>
    match popMin p with
    | none => p
    | some (a, p1) =>
      match popMin p1 with
      | none => p
      | some (b, p2) =>
        huffMerge fuel (next + 1) ({ freq := a.freq + b.freq, seq := next, tree := .node a.tree b.tree } :: p2)

/-- The leaves of R172: every symbol, also one of frequency 0. -/
def huffLeaves (freqs : List Nat) : List HNode :=
  freqs.zipIdx.map (fun f => { freq := f.1, seq := f.2, tree := .leaf f.2 })

/-- The root of `huff_tree(FQ, K)` (R172): the loop runs `K - 1` times. -/
def huffTree (freqs : List Nat) : Option HTree :=
  (huffMerge (freqs.length - 1) freqs.length (huffLeaves freqs)).head?.map HNode.tree

/-- `tree_code(root, i)` (R174): the path to the leaf of symbol `i`, `false` a left edge, `true` a right edge. -/
def HTree.path : HTree → Nat → Option (List Bool)
  | .leaf j, i => if i = j then some [] else none
  | .node l r, i =>
    match HTree.path l i with
    | some p => some (false :: p)
    | none => (HTree.path r i).map (fun p => true :: p)

/-- The codes `HBUILD` derives, as bit strings (R173, R175). -/
def huffCodes (freqs : List Nat) : List (List Bool) :=
  if freqs.length = 1 then [[false]]
  else
    match huffTree freqs with
    | none => []
    | some root => (List.range freqs.length).map (fun i => (root.path i).getD [])

/-- `HBUILD` (R173, R176). -/
def bodyHbuild (s : State) : Result :=
  let k := s.k.toNat
  if k = 0 ∨ s.params.symMax < k then .raise .state
  else
    let s := { s with valid := { s.valid with ccv := false } }
    let codes := huffCodes (readMany (fun i => (s.readFQ i).toNat) k)
    if codes.any (fun c => decide (lenMax < c.length)) then .ret .eCodelen s
    else
      .ret .ok { s with mem := { s.mem with
        cl := s.mem.cl.fill (codes.map (fun c => BitVec.ofNat 8 c.length))
        tc := s.mem.tc.fill (codes.map HuffCode.ofStr) } }

def execHbuild (s : State) : Host.Outcome State Fault Refusal := command 0x50#8 bodyHbuild s

/-- The indices sorted ascending by (length, index) (R177); lengths are at most 255. -/
def canonOrder (lens : List Nat) : List Nat :=
  (List.range (lenMax + 1)).flatMap (fun len => (List.range lens.length).filter (fun i => lens.getD i 0 == len))

/-- The codes of the rest of the sorted indices, each with its index: `code` is the number for the next symbol if its length
is `len`, and shifts left when the length grows (R177); `none` where a code does not fit its length. -/
def canonFrom (lens : List Nat) : (code len : Nat) → List Nat → Option (List (Nat × Nat))
  | _, _, [] => some []
  | code, len, i :: rest =>
    let l := lens.getD i 0
    let c := code <<< (l - len)
    if 2 ^ l ≤ c then none else (canonFrom lens (c + 1) l rest).map (fun more => (i, c) :: more)

/-- `canon(CL, K)` (R177): the code of every symbol, or the failure. -/
def canon (lens : List Nat) : Except RetCode (List HuffCode) :=
  if lens.any (fun l => l == 0) then .error .hLen0
  else
    match canonFrom lens 0 0 (canonOrder lens) with
    | none => .error .hOversub
    | some codes =>
      .ok ((List.range lens.length).map fun i => HuffCode.mkCode (lens.getD i 0) ((codes.lookup i).getD 0))

/-- `HCANON` (R178). -/
def bodyHcanon (s : State) : Result :=
  let k := s.k.toNat
  if s.params.symMax < k then .raise .state
  else
    match canon (readMany (fun i => (s.readCL i).toNat) k) with
    | .error c => .ret c { s with valid := { s.valid with ccv := false } }
    | .ok codes =>
      .ret .ok { s with
        mem := { s.mem with cc := s.mem.cc.fill codes }
        valid := { s.valid with ccv := true } }

def execHcanon (s : State) : Host.Outcome State Fault Refusal := command 0x51#8 bodyHcanon s

/-- `HTRIE` (R181); after a conflict the contents of `TRIE` are unspecified. -/
def bodyHtrie (s : State) : Result :=
  let k := s.k.toNat
  if !s.valid.ccv || decide (s.params.symMax < k) then .raise .state
  else
    match trieBuild 0 (readMany s.readCC k) Trie.bare with
    | none =>
      .ret .hOversub { s with mem := { s.mem with trie := none }, valid := { s.valid with trv := false } }
    | some t =>
      .ret .ok { s with mem := { s.mem with trie := some t }, valid := { s.valid with trv := true } }

def execHtrie (s : State) : Host.Outcome State Fault Refusal := command 0x52#8 bodyHtrie s

/-- `HDECSYM` (R183): "`SYMR` changes only on `OK`". -/
def bodyHdecsym (s : State) : Result :=
  if !s.valid.trv then .raise .state
  else if !s.valid.rv then .raise .nobuf
  else
    match walk s.readTrie s with
    | (.sym i, s') => .ret .ok { s' with symr := i }
    | (.underflow, s') => .ret .eUnderflow s'
    | (.dead, s') => .ret .dBadcode s'

def execHdecsym (s : State) : Host.Outcome State Fault Refusal := command 0x53#8 bodyHdecsym s

end Sys2Proof.Machine
end

