-- ==== Sys2Proof/Machine/RunLength.lean ====
section
/-! DEFINITION. The Run-Length Coder: `RLENC`, `RLDEC` (43_runlength.md). -/

namespace Sys2Proof.Machine

/-- The end-of-block symbol (R160). -/
def eob : RleSym := { run := 0#16, value := 0#32 }

/-- The symbols of the rest of a sequence, `run` zeros having been passed since the last symbol (R161). -/
def rlEncode : (run : Nat) → List Word → List RleSym
  | run, [] => if 0 < run then [eob] else []
  | run, v :: vs =>
    if v = 0#32 then rlEncode (run + 1) vs else { run := BitVec.ofNat 16 run, value := v } :: rlEncode 0 vs

/-- `RLENC n` (R161). -/
def bodyRlenc (n : Nat) : State → Result :=
  withBlock n fun s =>
    let syms := rlEncode 0 (readMany s.readSQ (n * n))
    .ret .ok { s with mem := { s.mem with rs := s.mem.rs.fill syms }, rsn := BitVec.ofNat 16 syms.length }

def execRlenc (n : Nat) (s : State) : Host.Outcome State Fault Refusal := command 0x40#8 (bodyRlenc n) s

/-- The values the symbols give from position `pos` of a sequence of length `len`, whether an EOB was met, and whether a zero or
a value did not fit (R162). -/
def rlDecode (len : Nat) : (pos : Nat) → List RleSym → List Word × Bool × Bool
  | _, [] => ([], false, false)
  | pos, sym :: rest =>
    if len ≤ pos then ([], false, false)
    else if sym = eob then ([], true, false)
    else
      let zeros := min sym.run.toNat (len - pos)
      if pos + zeros < len then
        let more := rlDecode len (pos + zeros + 1) rest
        (List.replicate zeros 0#32 ++ sym.value :: more.1, more.2)
      else (List.replicate zeros 0#32, false, true)

/-- `RLDEC n` (R162): "the whole of `SQ[0..L-1]` is written in every case". -/
def bodyRldec (n : Nat) : State → Result :=
  withBlock n fun s =>
    if s.params.lMax < s.rsn.toNat then .raise .state
    else
      let out := rlDecode (n * n) 0 s.symbols
      let filled := out.1 ++ List.replicate (n * n - out.1.length) 0#32
      .ret (if out.2.2 then .dOverrun else if !out.2.1 && decide (out.1.length < n * n) then .dShort else .ok)
        { s with mem := { s.mem with sq := s.mem.sq.fill filled } }

def execRldec (n : Nat) (s : State) : Host.Outcome State Fault Refusal := command 0x41#8 (bodyRldec n) s

end Sys2Proof.Machine
end

