-- ==== Sys2Proof/Machine/Zigzag.lean ====
section
/-! DEFINITION. The Zigzag Scanner: `ZSCAN`, `ZUNSCAN` (42_zigzag.md). -/

namespace Sys2Proof.Machine

/-- `ZSCAN n` (R151): `SQ[k] <- IB[cell k of the zigzag order]`. -/
def bodyZscan (n : Nat) : State → Result :=
  withBlock n fun s => .ret .ok { s with mem := { s.mem with sq := s.mem.sq.fill ((zzIndex n).map s.readIB) } }

def execZscan (n : Nat) (s : State) : Host.Outcome State Fault Refusal := command 0x30#8 (bodyZscan n) s

/-- Successive writes of the elements `read k, read (k+1), …` at the listed indices. -/
def scatter {α : Type} (read : Nat → α) : (k : Nat) → List Nat → Buf α → Buf α
  | _, [], b => b
  | k, i :: rest, b => scatter read (k + 1) rest (b.set i (read k))

/-- `ZUNSCAN n` (R152): `IB[cell k of the zigzag order] <- SQ[k]`. -/
def bodyZunscan (n : Nat) : State → Result :=
  withBlock n fun s => .ret .ok { s with mem := { s.mem with ib := scatter s.readSQ 0 (zzIndex n) s.mem.ib } }

def execZunscan (n : Nat) (s : State) : Host.Outcome State Fault Refusal := command 0x31#8 (bodyZunscan n) s

end Sys2Proof.Machine
end

