-- ==== Sys2Proof/Machine/BlockCodec.lean ====
section
/-! DEFINITION. The Block Codec: `SYMMAP`, `WRHDR`, `WRPAY`, `RDHDR`, `RDPAY`, `ENCBLK`, `DECBLK` (46_blockcodec.md). -/

namespace Sys2Proof.Machine

/-! Symbol packing (R206, R207). -/

/-- `fold16(v)`: the folded value and whether it saturated (R206). -/
def fold16 (v : Int) : Nat × Bool :=
  if v = 0 then (0, false)
  else if 0 < v then ((2 * min v 32767).toNat, decide (32767 < v))
  else ((2 * min (-v) 32768 - 1).toNat, decide (v < -32768))

/-- `unfold16(e)` (R206). -/
def unfold16 (e : Nat) : Int := if e % 2 = 0 then ((e / 2 : Nat) : Int) else -(((e + 1) / 2 : Nat) : Int)

/-- `pack(run, value)`: the key and whether something saturated (R207). -/
def pack (sym : RleSym) : Word × Bool :=
  let e := fold16 sym.value.toInt
  let run := min sym.run.toNat 255
  (BitVec.ofNat 16 run ++ BitVec.ofNat 16 e.1, e.2 || decide (255 < sym.run.toNat))

/-- `unpack(key)` (R207, R208). -/
def unpack (key : Word) : RleSym :=
  { run := key.extractLsb' 16 16, value := BitVec.ofInt 32 (unfold16 (key.extractLsb' 0 16).toNat) }

/-! Encode steps. -/

/-- The symbol table with the count of `key` raised, if `key` is in it. -/
def bumpKey (key : Word) : List (Word × Nat) → Option (List (Word × Nat))
  | [] => none
  | (k, f) :: rest => if k = key then some ((k, f + 1) :: rest) else (bumpKey key rest).map (fun t => (k, f) :: t)

/-- The symbol table after the rest of the symbols, whether one saturated, and whether a key found no room (R209). -/
def mapSymbols (symMax : Nat) : (tab : List (Word × Nat)) → (sat : Bool) → List RleSym → List (Word × Nat) × Bool × Bool
  | tab, sat, [] => (tab, sat, false)
  | tab, sat, sym :: rest =>
    let p := pack sym
    match bumpKey p.1 tab with
    | some tab' => mapSymbols symMax tab' (sat || p.2) rest
    | none =>
      if tab.length = symMax then (tab, sat || p.2, true)
      else mapSymbols symMax (tab ++ [(p.1, 1)]) (sat || p.2) rest

/-- `SYMMAP` (R209). -/
def bodySymmap (s : State) : Result :=
  if s.params.lMax < s.rsn.toNat then .raise .state
  else
    let out := mapSymbols s.params.symMax [] false s.symbols
    .ret (if out.2.2 then .eSymspace else if out.2.1 then .okSat else .ok)
      { s with
        mem := { s.mem with
          st := s.mem.st.fill (out.1.map Prod.fst)
          fq := s.mem.fq.fill (out.1.map (fun e => BitVec.ofNat 32 e.2)) }
        k := BitVec.ofNat 16 out.1.length
        valid := { s.valid with ccv := false } }

def execSymmap (s : State) : Host.Outcome State Fault Refusal := command 0x70#8 bodySymmap s

/-- The header's bits (R210; 30_encoding.md R90): `symbol_count`, then per symbol `original_value` and `code_length`. -/
def headerBits (keys : List Word) (lens : List Byte) : List Bool :=
  fieldBits 16 keys.length ++
    (keys.zip lens).flatMap (fun e => fieldBits 32 e.1.toNat ++ fieldBits 8 e.2.toNat)

/-- `WRHDR` (R210). -/
def bodyWrhdr (s : State) : Result :=
  let k := s.k.toNat
  if !s.valid.wv then .raise .nobuf
  else if s.params.symMax < k then .raise .state
  else afterWrite (writeBits s (headerBits (readMany s.readST k) (readMany s.readCL k)))

def execWrhdr (s : State) : Host.Outcome State Fault Refusal := command 0x71#8 bodyWrhdr s

/-- The least `i < K` with `ST[i] = key` (R211). -/
def State.symbolIndex (s : State) (key : Word) : Option Nat :=
  (List.range s.k.toNat).find? (fun i => decide (s.readST i = key))

/-- The payload's bits, or `none` if a symbol is not in the table (R211). -/
def payloadBits (s : State) : List RleSym → Option (List Bool)
  | [] => some []
  | sym :: rest =>
    (s.symbolIndex (pack sym).1).bind fun i => (payloadBits s rest).map (fun more => (s.readCC i).str ++ more)

/-- `WRPAY` (R211): every symbol is looked up before the first write. -/
def bodyWrpay (s : State) : Result :=
  if !s.valid.wv then .raise .nobuf
  else if !s.valid.ccv || decide (s.params.symMax < s.k.toNat) || decide (s.params.lMax < s.rsn.toNat) then .raise .state
  else
    match payloadBits s s.symbols with
    | none => .raise .state
    | some bits => afterWrite (writeBits s bits)

def execWrpay (s : State) : Host.Outcome State Fault Refusal := command 0x72#8 bodyWrpay s

/-! Decode steps. -/

/-- The table entries `i, i+1, …` read from a header, `left` of them (R212). -/
def readEntries : (left i : Nat) → State → RetCode × State
  | 0, _, s => (.ok, s)
  | left + 1, i, s =>
    match readField 32 0 s with
    | (none, s1) => (.hTrunc, s1)
    | (some v, s1) =>
      match readField 8 0 s1 with
      | (none, s2) => (.hTrunc, s2)
      | (some l, s2) =>
        if l = 0 then (.hLen0, s2)
        else
          readEntries left (i + 1) { s2 with mem := { s2.mem with
            st := s2.mem.st.set i (BitVec.ofNat 32 v)
            cl := s2.mem.cl.set i (BitVec.ofNat 8 l) } }

/-- `RDHDR` (R212): on a failure `K = 0`, the flags clear, the entries written before it kept, the bits read consumed. -/
def bodyRdhdr (s : State) : Result :=
  if !s.valid.rv then .raise .nobuf
  else
    match readField 16 0 { s with valid := { s.valid with ccv := false, trv := false }, k := 0#16 } with
    | (none, s1) => .ret .hTrunc s1
    | (some c, s1) =>
      if s.params.symMax < c then .ret .hCount s1
      else
        match readEntries c 0 s1 with
        | (.ok, s2) => .ret .ok { s2 with k := BitVec.ofNat 16 c }
        | (h, s2) => .ret h s2

def execRdhdr (s : State) : Host.Outcome State Fault Refusal := command 0x73#8 bodyRdhdr s

/-- The symbols decoded from position `pos` on until `len` positions are covered, an EOB, or a failed walk (R213). Every symbol
covers a position, so `fuel = len` is enough. -/
def readSymbols (len : Nat) : (fuel pos : Nat) → State → List RleSym × RetCode × State
  | 0, _, s => ([], .ok, s)
  | fuel + 1, pos, s =>
    if len ≤ pos then ([], .ok, s)
    else
      match walk s.readTrie s with
      | (.underflow, s1) => ([], .dUnderflow, s1)
      | (.dead, s1) => ([], .dBadcode, s1)
      | (.sym i, s1) =>
        let sym := unpack (s1.readST i.toNat)
        if sym = eob then ([sym], .ok, s1)
        else
          let more := readSymbols len fuel (pos + sym.run.toNat + 1) s1
          (sym :: more.1, more.2)

/-- `RDPAY n` (R213). -/
def bodyRdpay (n : Nat) : State → Result :=
  withBlock n fun s =>
    if !s.valid.trv then .raise .state
    else if !s.valid.rv then .raise .nobuf
    else
      let out := readSymbols (n * n) (n * n) 0 s
      .ret out.2.1 { out.2.2 with
        mem := { out.2.2.mem with rs := out.2.2.mem.rs.fill out.1 }
        rsn := BitVec.ofNat 16 out.1.length }

def execRdpay (n : Nat) (s : State) : Host.Outcome State Fault Refusal := command 0x74#8 (bodyRdpay n) s

/-! The composite commands (R214 to R216). -/

/-- `ENCBLK n` (R215). -/
def bodyEncblk (n : Nat) : State → Result :=
  withBlock n fun s =>
    if !s.valid.wv then .raise .nobuf
    else
      (bodyZscan n { s with w := s.w.rewind }).andThen fun _ s1 =>
      (bodyRlenc n s1).andThen fun _ s2 =>
      (bodySymmap s2).andThen fun sat s3 =>
      if sat = .eSymspace then .ret sat s3
      else
        (bodyHbuild s3).andThen fun e s4 =>
        if e = .eCodelen then .ret e s4
        else
          (bodyHcanon s4).andThen fun _ s5 =>
          (bodyWrhdr s5).andThen fun e s6 =>
          if e = .eOverflow then .ret e s6
          else
            (bodyWrpay s6).andThen fun e s7 =>
            if e = .eOverflow then .ret e s7 else .ret sat s7

def execEncblk (n : Nat) (s : State) : Host.Outcome State Fault Refusal := command 0x78#8 (bodyEncblk n) s

/-- `DECBLK n` (R216). -/
def bodyDecblk (n : Nat) : State → Result :=
  withBlock n fun s =>
    if !s.valid.rv then .raise .nobuf
    else
      (bodyRdhdr { s with r := s.r.rewind }).andThen fun h s1 =>
      if h ≠ .ok then .ret h s1
      else
        (bodyHcanon s1).andThen fun h s2 =>
        if h ≠ .ok then .ret h s2
        else
          (bodyHtrie s2).andThen fun _ s3 =>
          (bodyRdpay n s3).andThen fun c1 s4 =>
          (bodyRldec n s4).andThen fun c2 s5 =>
          (bodyZunscan n s5).andThen fun _ s6 =>
          .ret (if c1 ≠ .ok then c1 else c2) s6

def execDecblk (n : Nat) (s : State) : Host.Outcome State Fault Refusal := command 0x79#8 (bodyDecblk n) s

end Sys2Proof.Machine
end

