-- ==== Sys2Proof/Machine/Quant.lean ====
section
/-! DEFINITION. The Quantization Engine: `QINIT`, `QVAR`, `QUANT`, `DEQUANT` (41_quantization.md). -/

namespace Sys2Proof.Machine

/-- `qscale(quality)` (R127). -/
def qscale (num : Numerics) (quality : Nat) : Real64 :=
  num.div (if quality < 50 then num.div real5000 (num.ofInt (quality : Int)) else num.ofInt (200 - 2 * (quality : Int))) real100

/-- The unclamped entry (i, j) of the matrix generator (R129): the scaled base table for N = 8, the synthetic table otherwise. -/
def qraw (num : Numerics) (base8 : List Nat) (n quality i j : Nat) : Real64 :=
  if n = 8 then num.mul (num.ofInt ((base8.getD (i * 8 + j) 0 : Nat) : Int)) (qscale num quality)
  else
    num.mul (num.mul (num.add real1 (num.sqrt (num.ofInt ((i * i + j * j : Nat) : Int)))) (qscale num quality)) real8

/-- `qtable(N, quality)`, entry (i, j) (R129). -/
def qtable (num : Numerics) (base8 : List Nat) (n quality i j : Nat) : Real64 :=
  num.clamp (qraw num base8 n quality i j) real1 real255

/-- `QINIT n, quality, adaptive` (R126): `DQM` the exact elementwise reciprocal of `QM`. -/
def bodyQinit (n quality : Nat) (adaptive : Bool) : State → Result :=
  withBlock n fun s =>
    if qualityOk quality then
      let m := rowMajor n (qtable s.params.num s.params.base8 n quality)
      .ret .ok { s with
        mem := { s.mem with qm := s.mem.qm.fill m, dqm := s.mem.dqm.fill (m.map (s.params.num.div real1)) }
        qcfg := { n := BitVec.ofNat 12 n, quality := BitVec.ofNat 8 quality, adapt := adaptive }
        valid := { s.valid with qcv := true } }
    else .raise .quality

def execQinit (n quality : Nat) (adaptive : Bool) (s : State) : Host.Outcome State Fault Refusal :=
  command 0x20#8 (bodyQinit n quality adaptive) s

/-- The two running sums of the variance, of the samples and of their squares, each from +0.0 (R131). -/
def varSums (num : Numerics) (xs : List Real64) : Real64 × Real64 :=
  xs.foldl (fun acc x => (num.add acc.1 x, num.add acc.2 (num.mul x x))) (0#64, 0#64)

/-- `E[x²] - E[x]²` over the samples (R131). -/
def variance (num : Numerics) (xs : List Real64) : Real64 :=
  let sums := varSums num xs
  let c := num.ofInt (xs.length : Int)
  let m := num.div sums.1 c
  num.sub (num.div sums.2 c) (num.mul m m)

/-- `QVAR n` (R131). -/
def bodyQvar (n : Nat) : State → Result :=
  withBlock n fun s => .ret .ok { s with var := variance s.params.num (readMany s.readXR (n * n)) }

def execQvar (n : Nat) (s : State) : Host.Outcome State Fault Refusal := command 0x21#8 (bodyQvar n) s

/-- `adapt(var)` (R132): `2 - clamp(var/1000, 0.1, 1.0)`. -/
def adaptScale (num : Numerics) (var : Real64) : Real64 :=
  num.sub real2 (num.clamp (num.div var real1000) realTenth real1)

/-- `steps()`, element `idx` (R132): the DC step is never rescaled; `VAR` is not read when `QCFG.ADAPT = 0`. -/
def State.stepAt (s : State) (idx : Nat) : Real64 :=
  if s.qcfg.adapt then (if idx = 0 then s.readQM 0 else s.params.num.mul (s.readQM idx) (adaptScale s.params.num s.var)) else s.readQM idx

/-- The integer of one quotient (R133): `none` for a NaN, an infinity, or a value outside the signed 32-bit range. -/
def quantOne (r : Real64) : Option Word :=
  if isFinite r then
    let q := roundHaz r
    if q < -(2 ^ 31) ∨ 2 ^ 31 - 1 < q then none else some (BitVec.ofInt 32 q)
  else none

/-- The integers of all quotients, or `none` if one has none. -/
def quantAll (s : State) : (idx : List Nat) → Option (List Word)
  | [] => some []
  | idx :: rest =>
    (quantOne (s.params.num.div (s.readYR idx) (s.stepAt idx))).bind fun q => (quantAll s rest).map (fun qs => q :: qs)

/-- `QUANT` (R133): "`IB` is written only when every element converted". -/
def bodyQuant (s : State) : Result :=
  if s.valid.qcv then
    match quantAll s (List.range (s.qcfg.n.toNat * s.qcfg.n.toNat)) with
    | none => .raise .numeric
    | some qs => .ret .ok { s with mem := { s.mem with ib := s.mem.ib.fill qs } }
  else .raise .noctx

def execQuant (s : State) : Host.Outcome State Fault Refusal := command 0x22#8 bodyQuant s

/-- `DEQUANT` (R134): the integer times the step, one path, from `QM`. -/
def bodyDequant (s : State) : Result :=
  if s.valid.qcv then
    let n := s.qcfg.n.toNat
    .ret .ok { s with mem := { s.mem with
      yr := s.mem.yr.fill (readMany (fun idx => s.params.num.mul (s.params.num.ofInt (s.readIB idx).toInt) (s.stepAt idx)) (n * n)) } }
  else .raise .noctx

def execDequant (s : State) : Host.Outcome State Fault Refusal := command 0x23#8 bodyDequant s

end Sys2Proof.Machine
end

