-- ==== Sys2Proof/Machine/System.lean ====
section
/-! DEFINITION. The system commands (47_system.md R232, R233). -/

namespace Sys2Proof.Machine

/-- "`NOP` does nothing" (R232). -/
def bodyNop (s : State) : Result := .ret .ok s

def execNop (s : State) : Host.Outcome State Fault Refusal := command 0x00#8 bodyNop s

/-- `SRESET` (R233): `do_reset()`; its reset values win over steps 3 and 5 of R230. The one command a halted core accepts. -/
def execSreset (s : State) : Host.Outcome State Fault Refusal := .next (doReset s)

end Sys2Proof.Machine
end

