-- ==== Sys2Proof/Machine/Transform.lean ====
section
/-! DEFINITION. The Transform Engine: `TINIT`, `TFWD`, `TINV` (40_transform.md). -/

namespace Sys2Proof.Machine

/-- The angle of entry (i, j) of the basis (R111): `fdiv(fmul(NUM.pi, i2f((2j+1)·i)), i2f(2N))`. -/
def basisAngle (num : Numerics) (n i j : Nat) : Real64 :=
  num.div (num.mul num.pi (num.ofInt (((2 * j + 1) * i : Nat) : Int))) (num.ofInt ((2 * n : Nat) : Int))

/-- `α(i)` (R111): `fdiv(1.0, fsqrt(i2f(N)))` for row 0, `fsqrt(fdiv(2.0, i2f(N)))` for the others. -/
def basisScale (num : Numerics) (n i : Nat) : Real64 :=
  if i = 0 then num.div real1 (num.sqrt (num.ofInt (n : Int))) else num.sqrt (num.div real2 (num.ofInt (n : Int)))

/-- `basis(N)`, entry (i, j) (R111). -/
def basis (num : Numerics) (nMax n i j : Nat) : Real64 :=
  num.mul (basisScale num n i) (num.cos nMax (basisAngle num n i j))

/-- `matmul(A, B, N)`, entry (i, j) (R113): `k` ascending, the accumulator from +0.0. -/
def matmul (num : Numerics) (n : Nat) (a b : Nat → Nat → Real64) (i j : Nat) : Real64 :=
  (List.range n).foldl (fun acc k => num.add acc (num.mul (a i k) (b k j))) 0#64

/-- Entry (i, j) of a row-major list. -/
def entry (n : Nat) (m : List Real64) (i j : Nat) : Real64 := m.getD (blockIndex n i j) 0#64

/-- The product of three matrices, left product first (R114, R115). -/
def matmul3 (num : Numerics) (n : Nat) (a b c : Nat → Nat → Real64) : List Real64 :=
  let t := rowMajor n (matmul num n a b)
  rowMajor n (matmul num n (entry n t) c)

/-- A matrix held in a buffer with stride `n` (R16). -/
def matrixOf (n : Nat) (read : Nat → Real64) (i j : Nat) : Real64 := read (blockIndex n i j)

/-- `TINIT n` (R112). -/
def bodyTinit (n : Nat) : State → Result :=
  withBlock n fun s =>
    .ret .ok { s with
      mem := { s.mem with
        cb := s.mem.cb.fill (rowMajor n fun i j => basis s.params.num s.params.nMax n i j)
        ct := s.mem.ct.fill (rowMajor n fun i j => basis s.params.num s.params.nMax n j i) }
      tn := BitVec.ofNat 12 n
      valid := { s.valid with tcv := true } }

def execTinit (n : Nat) (s : State) : Host.Outcome State Fault Refusal := command 0x10#8 (bodyTinit n) s

/-- `TFWD` (R114): `(C · X) · Cᵗ`. -/
def bodyTfwd (s : State) : Result :=
  if s.valid.tcv then
    let n := s.tn.toNat
    .ret .ok { s with mem := { s.mem with
      yr := s.mem.yr.fill (matmul3 s.params.num n (matrixOf n s.readCB) (matrixOf n s.readXR) (matrixOf n s.readCT)) } }
  else .raise .noctx

def execTfwd (s : State) : Host.Outcome State Fault Refusal := command 0x11#8 bodyTfwd s

/-- `TINV` (R115): `(Cᵗ · Y) · C`. -/
def bodyTinv (s : State) : Result :=
  if s.valid.tcv then
    let n := s.tn.toNat
    .ret .ok { s with mem := { s.mem with
      xr := s.mem.xr.fill (matmul3 s.params.num n (matrixOf n s.readCT) (matrixOf n s.readYR) (matrixOf n s.readCB)) } }
  else .raise .noctx

def execTinv (s : State) : Host.Outcome State Fault Refusal := command 0x12#8 bodyTinv s

end Sys2Proof.Machine
end

