-- ==== Sys2Proof/Machine/Dispatch.lean ====
section
/-! DEFINITION. One arm per command: its meaning. -/

namespace Sys2Proof.Machine

def exec (i : Instr) (s : State) : Host.Outcome State Fault Refusal :=
  match i with
  | .nop => Sys2Proof.Machine.execNop s
  | .sreset => Sys2Proof.Machine.execSreset s
  | .tinit n => Sys2Proof.Machine.execTinit n s
  | .tfwd => Sys2Proof.Machine.execTfwd s
  | .tinv => Sys2Proof.Machine.execTinv s
  | .qinit n quality adaptive => Sys2Proof.Machine.execQinit n quality adaptive s
  | .qvar n => Sys2Proof.Machine.execQvar n s
  | .quant => Sys2Proof.Machine.execQuant s
  | .dequant => Sys2Proof.Machine.execDequant s
  | .zscan n => Sys2Proof.Machine.execZscan n s
  | .zunscan n => Sys2Proof.Machine.execZunscan n s
  | .rlenc n => Sys2Proof.Machine.execRlenc n s
  | .rldec n => Sys2Proof.Machine.execRldec n s
  | .hbuild => Sys2Proof.Machine.execHbuild s
  | .hcanon => Sys2Proof.Machine.execHcanon s
  | .htrie => Sys2Proof.Machine.execHtrie s
  | .hdecsym => Sys2Proof.Machine.execHdecsym s
  | .bwinit cap => Sys2Proof.Machine.execBwinit cap s
  | .wbit b => Sys2Proof.Machine.execWbit b s
  | .wbits cnt val => Sys2Proof.Machine.execWbits cnt val s
  | .brinit cap => Sys2Proof.Machine.execBrinit cap s
  | .rbit => Sys2Proof.Machine.execRbit s
  | .symmap => Sys2Proof.Machine.execSymmap s
  | .wrhdr => Sys2Proof.Machine.execWrhdr s
  | .wrpay => Sys2Proof.Machine.execWrpay s
  | .rdhdr => Sys2Proof.Machine.execRdhdr s
  | .rdpay n => Sys2Proof.Machine.execRdpay n s
  | .encblk n => Sys2Proof.Machine.execEncblk n s
  | .decblk n => Sys2Proof.Machine.execDecblk n s

end Sys2Proof.Machine
end

