-- ==== Sys2Proof/Machine/HostPort.lean ====
section
/-! DEFINITION. The host's primitives (20_memory.md R60 to R62): `HostCommand` (47_system.md R230), `HostWrite`, `HostRead`, the
hard reset (70_reset_and_hazards.md R270). -/

namespace Sys2Proof.Machine

/-- The space ids of R60. -/
def Space.ofId : Nat → Option Space
  | 0x00 => some .reg
  | 0x01 => some .xr
  | 0x02 => some .yr
  | 0x03 => some .ib
  | 0x04 => some .sq
  | 0x05 => some .rs
  | 0x06 => some .st
  | 0x07 => some .fq
  | 0x08 => some .cl
  | 0x09 => some .bs
  | 0x10 => some .cb
  | 0x11 => some .ct
  | 0x12 => some .qm
  | 0x13 => some .dqm
  | 0x14 => some .tc
  | 0x15 => some .cc
  | 0x16 => some .trie
  | _ => none

/-- The length of a space (R60); the trie's is the implementation's, and the model offers none of its nodes. -/
def Space.length (p : Params) : Space → Nat
  | .reg => 24
  | .xr | .yr | .ib | .sq | .rs | .cb | .ct | .qm | .dqm => p.lMax
  | .st | .fq | .cl | .tc | .cc => p.symMax
  | .bs => p.bufMax
  | .trie => 0

/-- Slot `i` of space `REG`, zero-extended (R61); slots 16 to 23 read as zero. -/
def State.readSlot (s : State) : Nat → DWord
  | 0 => s.status.word.setWidth 64
  | 1 => s.valid.word.setWidth 64
  | 2 => s.tn.setWidth 64
  | 3 => s.qcfg.word.setWidth 64
  | 4 => s.var
  | 5 => s.k.setWidth 64
  | 6 => s.rsn.setWidth 64
  | 7 => (BitVec.ofBool s.bitr).setWidth 64
  | 8 => s.symr.setWidth 64
  | 9 => s.w.cap.setWidth 64
  | 10 => s.w.byte.setWidth 64
  | 11 => s.w.bitp.setWidth 64
  | 12 => s.r.cap.setWidth 64
  | 13 => s.r.byte.setWidth 64
  | 14 => s.r.bitp.setWidth 64
  | 15 => BitVec.ofNat 64 s.bcnt
  | _ => 0#64

/-- The element at `(space, index)` as the host reads it (R60 to R62). -/
def State.element (s : State) (space : Space) (index : Nat) : Reply :=
  match space with
  | .reg => .value (s.readSlot index)
  | .xr => .value (s.readXR index)
  | .yr => .value (s.readYR index)
  | .ib => .value ((s.readIB index).setWidth 64)
  | .sq => .value ((s.readSQ index).setWidth 64)
  | .rs => .value (((s.readRS index).run ++ (s.readRS index).value).setWidth 64)
  | .st => .value ((s.readST index).setWidth 64)
  | .fq => .value ((s.readFQ index).setWidth 64)
  | .cl => .value ((s.readCL index).setWidth 64)
  | .bs => .value ((s.readBS index).setWidth 64)
  | .cb => .value (s.readCB index)
  | .ct => .value (s.readCT index)
  | .qm => .value (s.readQM index)
  | .dqm => .value (s.readDQM index)
  | .tc => .code (s.readTC index)
  | .cc => .code (s.readCC index)
  | .trie => .nothing

/-- The space a move names, if its index is within it. -/
def spaceAt (p : Params) (space index : Nat) : Option Space :=
  (Space.ofId space).filter (fun sp => decide (index < sp.length p))

/-- `HostRead(space, index)`: the element, or an unspecified value where there is none to read (R62; U2, U6). -/
def hostRead (space index : Nat) (s : State) : State :=
  match spaceAt s.params space index with
  | some sp => { s with reply := s.element sp index }
  | none => { s with reply := .value (Config.unspecifiedRead s.draws space index), draws := s.draws + 1 }

/-- A host value as an element of width `w`: itself where it fits, free where it does not (log entry 11). -/
def narrow (w : Nat) (v : DWord) : BitVec w := if v.toNat < 2 ^ w then v.setWidth w else Config.narrowed w v

/-- A write into slot `i` of `REG`: only `VAR`, `K` and `RSN` are writable (R61; 10_state.md R45). -/
def State.writeSlot (s : State) (v : DWord) : Nat → State
  | 4 => { s with var := v }
  | 5 => { s with k := narrow 16 v }
  | 6 => { s with rsn := narrow 16 v }
  | _ => s

/-- A write of a readable and writable element; "a host write to a read-only element is ignored" (R45). -/
def State.writeElement (s : State) (space : Space) (index : Nat) (v : DWord) : State :=
  match space with
  | .reg => s.writeSlot v index
  | .xr => { s with mem := { s.mem with xr := s.mem.xr.set index v } }
  | .yr => { s with mem := { s.mem with yr := s.mem.yr.set index v } }
  | .ib => { s with mem := { s.mem with ib := s.mem.ib.set index (narrow 32 v) } }
  | .sq => { s with mem := { s.mem with sq := s.mem.sq.set index (narrow 32 v) } }
  | .rs => { s with mem := { s.mem with rs := s.mem.rs.set index (RleSym.ofBits (narrow 48 v)) } }
  | .st => { s with mem := { s.mem with st := s.mem.st.set index (narrow 32 v) } }
  | .fq => { s with mem := { s.mem with fq := s.mem.fq.set index (narrow 32 v) } }
  | .cl => { s with mem := { s.mem with cl := s.mem.cl.set index (narrow 8 v) } }
  | .bs => { s with mem := { s.mem with bs := Buf.set s.mem.bs index (narrow 8 v) } }
  | .cb | .ct | .qm | .dqm | .tc | .cc | .trie => s

/-- `HostWrite(space, index, v)` (R62): it "does nothing otherwise". It works while the core is halted (R45). -/
def hostWrite (space index : Nat) (v : DWord) (s : State) : State :=
  match spaceAt s.params space index with
  | some sp => { s.writeElement sp index v with reply := .nothing }
  | none => { s with reply := .nothing }

/-- The word of `SRESET`, the only one a halted core accepts (R230 step 1). -/
def sresetWord : Word := 0x01000000#32

/-- Steps 1 to 5 of R230. An illegal word raises `F_ILLEGAL` and leaves its opcode byte in `STATUS.OP` (R242). -/
def coreCommand (w : Word) (s : State) : Host.Outcome State Fault Refusal :=
  if s.status.halt then (if w = sresetWord then exec .sreset s else .next s)
  else
    match decode w with
    | .error _ => .next (takeFault .illegal (recordOp (opcodeOf w) s))
    | .ok i => exec i s

/-- The returned `STATUS` handed to the host (R230, "`return STATUS`"). -/
def answerStatus : Host.Outcome State Fault Refusal → Host.Outcome State Fault Refusal
  | .next s => .next { s with reply := .status s.status.word }
  | .fault f => .fault f
  | .refused r => .refused r

/-- One move of the host. -/
def hostMove (m : HostMove) (s : State) : Host.Outcome State Fault Refusal :=
  match m with
  | .command w => answerStatus (coreCommand w s)
  | .write space index v => .next (hostWrite space index v s)
  | .read space index => .next (hostRead space index s)
  | .reset => .next { doReset s with reply := .nothing }

/-- A step of the machine: the oldest move waiting, or nothing: "between commands the core simply holds its state"
(60_exceptions.md R254; 70_reset_and_hazards.md R271). -/
def takeMove (s : State) : Host.Outcome State Fault Refusal :=
  match s.port with
  | [] => .next s
  | m :: rest => hostMove m { s with port := rest }

/-- A command word put in front of the moves waiting. -/
def presentWord (w : Word) (s : State) : State := { s with port := .command w :: s.port }

/-- A code after which the host's convention goes on: class OK or D (60_exceptions.md R250). -/
def hostContinues (c : Code) : Bool :=
  match c.class with
  | .success | .degraded => true
  | .failed | .hardDecode | .fault => false

/-- A sequence of commands as the host issues it (R250): "it reads `STATUS` after each and stops the sequence at the first code
of class E, H or F". The words are those of `encode`, which takes the low bits of an operand too wide for its field: DESIGN
CHOICE, log entry 26. -/
def hostSequence : List Instr → State → State
  | [], s => s
  | i :: rest, s =>
    match coreCommand (encode i) s with
    | .next t => if hostContinues t.status.code then hostSequence rest t else t
    | .fault _ => s
    | .refused _ => s

/-- A pseudo-command: its expansion, issued as a sequence (30_encoding.md R89). DESIGN CHOICE (log entry 26): R89 is silent on
an operand that does not fit its field; the word issued then carries its low bits, as `encode` takes them. -/
def runPseudo (p : Pseudo) (s : State) : State := hostSequence p.expand s

end Sys2Proof.Machine
end

