-- ==== Sys2Proof/Machine/Step.lean ====
section
/-! DEFINITION. The step, and how a command word comes to the port. -/

namespace Sys2Proof.Machine

/-- One step: one move of the host, atomic (20_memory.md R70). -/
def step (s : State) : Host.Outcome State Fault Refusal := takeMove s

/-- The command word of `nbits` bits `w` presented at the command port, so that the next step runs it (log entry 1). -/
def State.withFetchWord (s : State) (nbits w : Nat) : State := presentWord (BitVec.ofNat 32 (w % 2 ^ nbits)) s

end Sys2Proof.Machine
end

