-- ==== Sys2Proof/Safety.lean ====
section
/-! DEFINITION. The terms claims use: what a command posts, what it may write, the invariants, and the spec's properties of
streams, codes and rounding, each written from the rule it cites. -/

namespace Sys2Proof.Machine

/-! Premises. -/

/-- An instance with legal parameters (00_scope.md R11) that is not halted (60_exceptions.md R252). -/
def Running (s : State) : Prop := s.params.ok = true ∧ s.status.halt = false

/-- "`n ≥ 1 and n ≤ N_MAX and (n & (n−1)) = 0`" (60_exceptions.md R243). -/
def Admitted (p : Params) (n : Nat) : Prop := 1 ≤ n ∧ n ≤ p.nMax ∧ n &&& (n - 1) = 0

/-! Posting (47_system.md R230; 60_exceptions.md R246). -/

/-- The status after `return c` on a running core. -/
def retStatus (op : Byte) (c : RetCode) : Status := { code := .ret c, op := op, halt := false }

/-- The status after a fault. -/
def faultStatus (op : Byte) (f : CoreFault) : Status := { code := .fault f, op := op, halt := true }

/-- The state a fault leaves: only `STATUS` changed (R246). -/
def faulted (op : Byte) (f : CoreFault) (s : State) : State := { s with status := faultStatus op f }

/-- The block-size operand of a command that has an `n` field (30_encoding.md R81). -/
def blockOperand : Instr → Option Nat
  | .tinit n | .qinit n _ _ | .qvar n | .zscan n | .zunscan n | .rlenc n | .rldec n | .rdpay n | .encblk n | .decblk n =>
    some n
  | .nop | .sreset | .tfwd | .tinv | .quant | .dequant | .hbuild | .hcanon | .htrie | .hdecsym | .bwinit _ | .wbit _
  | .wbits _ _ | .brinit _ | .rbit | .symmap | .wrhdr | .wrpay | .rdhdr => none

/-- "Which command can post which code" (60_exceptions.md R251), second column. -/
def mayReturn : Instr → List RetCode
  | .nop | .sreset | .tinit _ | .tfwd | .tinv | .qinit _ _ _ | .qvar _ | .quant | .dequant | .zscan _ | .zunscan _
  | .rlenc _ | .bwinit _ | .brinit _ => [.ok]
  | .rldec _ => [.ok, .dShort, .dOverrun]
  | .hbuild => [.ok, .eCodelen]
  | .hcanon => [.ok, .hLen0, .hOversub]
  | .htrie => [.ok, .hOversub]
  | .hdecsym => [.ok, .eUnderflow, .dBadcode]
  | .wbit _ | .wbits _ _ | .wrhdr | .wrpay => [.ok, .eOverflow]
  | .rbit => [.ok, .eUnderflow]
  | .symmap => [.ok, .okSat, .eSymspace]
  | .rdhdr => [.ok, .hTrunc, .hCount, .hLen0]
  | .rdpay _ => [.ok, .dUnderflow, .dBadcode]
  | .encblk _ => [.ok, .okSat, .eSymspace, .eCodelen, .eOverflow]
  | .decblk _ => [.ok, .dUnderflow, .dBadcode, .dOverrun, .hTrunc, .hCount, .hLen0, .hOversub]

/-- R251, third column. -/
def mayFault : Instr → List CoreFault
  | .nop | .sreset => []
  | .tinit _ | .qvar _ | .zscan _ | .zunscan _ | .rlenc _ => [.blocksize]
  | .tfwd | .tinv | .dequant => [.noctx]
  | .qinit _ _ _ => [.blocksize, .quality]
  | .quant => [.noctx, .numeric]
  | .rldec _ => [.blocksize, .state]
  | .hbuild | .hcanon | .htrie | .symmap => [.state]
  | .hdecsym => [.state, .nobuf]
  | .bwinit _ | .brinit _ => [.capacity]
  | .wbit _ | .rbit | .rdhdr => [.nobuf]
  | .wbits _ _ => [.illegal, .nobuf]
  | .wrhdr | .wrpay => [.nobuf, .state]
  | .rdpay _ => [.blocksize, .state, .nobuf]
  | .encblk _ | .decblk _ => [.blocksize, .nobuf]

/-- The codes of R251 for a command. -/
def mayPost (i : Instr) : List Code := (mayReturn i).map Code.ret ++ (mayFault i).map Code.fault

/-- The "writes" column of 30_encoding.md R85 as a frame: `s` with the columns' elements, and `STATUS`, taken from `t`. A
command that answers `t` in `s` changed nothing else iff `t = writesOf i s t`. -/
def writesOf (i : Instr) (s t : State) : State :=
  match i with
  | .nop => { s with status := t.status }
  | .sreset => { t with params := s.params, port := s.port, reply := s.reply, draws := s.draws }
  | .tinit _ =>
    { s with status := t.status, tn := t.tn, valid := { s.valid with tcv := t.valid.tcv },
             mem := { s.mem with cb := t.mem.cb, ct := t.mem.ct } }
  | .tfwd => { s with status := t.status, mem := { s.mem with yr := t.mem.yr } }
  | .tinv => { s with status := t.status, mem := { s.mem with xr := t.mem.xr } }
  | .qinit _ _ _ =>
    { s with status := t.status, qcfg := t.qcfg, valid := { s.valid with qcv := t.valid.qcv },
             mem := { s.mem with qm := t.mem.qm, dqm := t.mem.dqm } }
  | .qvar _ => { s with status := t.status, var := t.var }
  | .quant => { s with status := t.status, mem := { s.mem with ib := t.mem.ib } }
  | .dequant => { s with status := t.status, mem := { s.mem with yr := t.mem.yr } }
  | .zscan _ => { s with status := t.status, mem := { s.mem with sq := t.mem.sq } }
  | .zunscan _ => { s with status := t.status, mem := { s.mem with ib := t.mem.ib } }
  | .rlenc _ => { s with status := t.status, rsn := t.rsn, mem := { s.mem with rs := t.mem.rs } }
  | .rldec _ => { s with status := t.status, mem := { s.mem with sq := t.mem.sq } }
  | .hbuild =>
    { s with status := t.status, valid := { s.valid with ccv := t.valid.ccv },
             mem := { s.mem with cl := t.mem.cl, tc := t.mem.tc } }
  | .hcanon =>
    { s with status := t.status, valid := { s.valid with ccv := t.valid.ccv }, mem := { s.mem with cc := t.mem.cc } }
  | .htrie =>
    { s with status := t.status, valid := { s.valid with trv := t.valid.trv }, mem := { s.mem with trie := t.mem.trie } }
  | .hdecsym => { s with status := t.status, symr := t.symr, r := { t.r with cap := s.r.cap } }
  | .bwinit _ => { s with status := t.status, w := t.w, valid := { s.valid with wv := t.valid.wv } }
  | .wbit _ | .wbits _ _ | .wrhdr | .wrpay =>
    { s with status := t.status, w := { t.w with cap := s.w.cap }, mem := { s.mem with bs := t.mem.bs } }
  | .brinit _ => { s with status := t.status, r := t.r, valid := { s.valid with rv := t.valid.rv } }
  | .rbit => { s with status := t.status, bitr := t.bitr, r := { t.r with cap := s.r.cap } }
  | .symmap =>
    { s with status := t.status, k := t.k, valid := { s.valid with ccv := t.valid.ccv },
             mem := { s.mem with st := t.mem.st, fq := t.mem.fq } }
  | .rdhdr =>
    { s with status := t.status, k := t.k, valid := { s.valid with ccv := t.valid.ccv, trv := t.valid.trv },
             r := { t.r with cap := s.r.cap }, mem := { s.mem with st := t.mem.st, cl := t.mem.cl } }
  | .rdpay _ =>
    { s with status := t.status, rsn := t.rsn, r := { t.r with cap := s.r.cap }, mem := { s.mem with rs := t.mem.rs } }
  | .encblk _ =>
    { s with status := t.status, rsn := t.rsn, k := t.k, valid := { s.valid with ccv := t.valid.ccv },
             w := { t.w with cap := s.w.cap },
             mem := { s.mem with sq := t.mem.sq, rs := t.mem.rs, st := t.mem.st, fq := t.mem.fq, cl := t.mem.cl,
                                 tc := t.mem.tc, cc := t.mem.cc, bs := t.mem.bs } }
  | .decblk _ =>
    { s with status := t.status, rsn := t.rsn, k := t.k,
             valid := { s.valid with ccv := t.valid.ccv, trv := t.valid.trv }, r := { t.r with cap := s.r.cap },
             mem := { s.mem with st := t.mem.st, cl := t.mem.cl, cc := t.mem.cc, trie := t.mem.trie, rs := t.mem.rs,
                                 sq := t.mem.sq, ib := t.mem.ib } }

/-! The invariants (10_state.md R46, R39, R30; 46_blockcodec.md R213). -/

/-- A finite real between two rationals. -/
def RealIn (lo hi : Rat) (a : Real64) : Prop := isFinite a = true ∧ lo ≤ toRat a ∧ toRat a ≤ hi

/-- R46 (a): a valid transform context holds the basis of an admitted size and its transpose. -/
def TransformInv (s : State) : Prop :=
  s.valid.tcv = true → blockSizeOk s.params s.tn.toNat = true ∧
    ∀ i j, i < s.tn.toNat → j < s.tn.toNat →
      s.readCB (blockIndex s.tn.toNat i j) = basis s.params.num s.params.nMax s.tn.toNat i j ∧
      s.readCT (blockIndex s.tn.toNat i j) = basis s.params.num s.params.nMax s.tn.toNat j i

/-- R46 (b): a valid quantisation context holds an admitted size, a quality in 1..100, steps in [1, 255] and their reciprocals.
That the steps lie there is a fact of the default numerics; nothing is known of an uninterpreted record (log entry 4). -/
def QuantInv (s : State) : Prop :=
  s.valid.qcv = true → blockSizeOk s.params s.qcfg.n.toNat = true ∧ qualityOk s.qcfg.quality.toNat = true ∧
    ∀ idx, idx < s.qcfg.n.toNat * s.qcfg.n.toNat →
      (s.params.num = .binary64 → RealIn 1 255 (s.readQM idx)) ∧ s.readDQM idx = s.params.num.div real1 (s.readQM idx)

/-- R46 (c): a cursor stays within its capacity and the capacity within the buffer. -/
def CursorInv (p : Params) (c : Cursor) : Prop := c.pos ≤ 8 * c.cap.toNat ∧ c.cap.toNat ≤ p.bufMax

/-- Every symbol of a trie is below a bound. -/
def Trie.symsBelow (bound : Nat) : Trie → Prop
  | .absent => True
  | .leaf i => i.toNat < bound
  | .node l r => Trie.symsBelow bound l ∧ Trie.symsBelow bound r

/-- A valid trie is built, "the root is never a leaf" (44_huffman.md R182), and its indices are below SYM_MAX (R213). Its
domain is prefix-free (R46 (d)) by its shape. -/
def TrieInv (s : State) : Prop :=
  s.valid.trv = true → ∃ l r, s.mem.trie = some (.node l r) ∧ (Trie.node l r).symsBelow s.params.symMax

/-- R46 (e): a halted core holds a code of class F. -/
def HaltInv (s : State) : Prop := s.status.halt = true → ∃ f, s.status.code = .fault f

/-- R39: a code's length is in 1..255 and its bits fit. -/
def HuffCode.Ok (c : HuffCode) : Prop := 1 ≤ c.len.toNat ∧ c.bits.toNat < 2 ^ c.len.toNat

/-- Every code held is one (R39). -/
def CodesInv (s : State) : Prop := ∀ i, (s.readTC i).Ok ∧ (s.readCC i).Ok

/-- The invariant every step keeps. -/
def Inv (s : State) : Prop :=
  s.params.ok = true ∧ Memory.wf s.params s.mem = true ∧ TransformInv s ∧ QuantInv s ∧ CursorInv s.params s.w ∧
    CursorInv s.params s.r ∧ TrieInv s ∧ HaltInv s ∧ CodesInv s

/-! Real numbers (00_scope.md R17). -/

/-- `r` is the real number `x` "correctly rounded to nearest, ties to even": an infinity of the sign of `x` from half a unit
past the largest finite real on, otherwise finite, no finite real nearer, and even where another one is as near. -/
def RoundsTo (x : ℝ) (r : Real64) : Prop :=
  isNaN r = false ∧
  (isFinite r = false ↔ (2 : ℝ) ^ 1024 - 2 ^ 970 ≤ |x|) ∧
  (isFinite r = false → (fsign r = true ↔ x < 0)) ∧
  (isFinite r = true → ∀ c, isFinite c = true →
    |(toRat r : ℝ) - x| ≤ |(toRat c : ℝ) - x| ∧
    (|(toRat r : ℝ) - x| = |(toRat c : ℝ) - x| → toRat c ≠ toRat r → ffrac r % 2 = 0))

/-! The Huffman tree (44_huffman.md R172, R174). -/

/-- No node of the list comes before `a` by (frequency, sequence number). -/
def HNode.LeastOf (a : HNode) (nodes : List HNode) : Prop :=
  ∀ x ∈ nodes, a.freq < x.freq ∨ a.freq = x.freq ∧ a.seq ≤ x.seq

/-- The loop of R172, read off its text: one node left is the root; otherwise the least node and then the least of the others
are removed and become the left and the right child of the node `next`, whose frequency is their sum. -/
inductive HuffBuilds : (next : Nat) → List HNode → HTree → Prop where
  | root (next : Nat) (a : HNode) : HuffBuilds next [a] a.tree
  | merge (next : Nat) (nodes rest : List HNode) (a b : HNode) (tree : HTree) :
      nodes.Perm (a :: b :: rest) → a.LeastOf nodes → b.LeastOf (b :: rest) →
      HuffBuilds (next + 1) ({ freq := a.freq + b.freq, seq := next, tree := .node a.tree b.tree } :: rest) tree →
      HuffBuilds next nodes tree

/-- The symbol of the leaf a path ends at, "'0' for a left edge and '1' for a right edge" (R174). -/
def HTree.leafAt : HTree → List Bool → Option Nat
  | .leaf i, [] => some i
  | .leaf _, _ :: _ => none
  | .node _ _, [] => none
  | .node l _, false :: path => HTree.leafAt l path
  | .node _ r, true :: path => HTree.leafAt r path

/-! Bit streams (20_memory.md R63; 30_encoding.md R90). -/

/-- Bit `p` of the stream in `BS`: "byte `p div 8`, at bit `7 − (p mod 8)`" (R63). -/
def State.streamBit (s : State) (p : Nat) : Bool := (s.readBS (p / 8)).getLsbD (7 - p % 8)

/-- The stream from position `p` on holds the bit string. -/
def State.holds (s : State) (p : Nat) (bits : List Bool) : Prop :=
  ∀ k, k < bits.length → s.streamBit (p + k) = bits.getD k false

/-- The bits between the reader's position and its declared size, in reading order (45_bitstream.md R196). -/
def State.rest (s : State) : List Bool :=
  (List.range (8 * s.r.cap.toNat - s.rpos)).map (fun k => s.streamBit (s.rpos + k))

/-- `t` is `s` after writing as much of a bit string as fits (45_bitstream.md R192): the bits that fit stand from the writer's
old position on, the stream before it is kept, the low bits of a byte partly written are zero, no other byte changes. -/
def Wrote (s t : State) (bits : List Bool) : Prop :=
  let fit := min bits.length (8 * s.w.cap.toNat - s.wpos)
  t.w.cap = s.w.cap ∧ t.wpos = s.wpos + fit ∧ t.holds s.wpos (bits.take fit) ∧
  (∀ p, p < s.wpos → t.streamBit p = s.streamBit p) ∧
  (0 < fit → ∀ p, t.wpos ≤ p → p < 8 * t.bcnt → t.streamBit p = false) ∧
  (∀ a, a < s.wpos / 8 ∨ t.bcnt ≤ a → t.readBS a = s.readBS a) ∧
  (fit = 0 → t.mem.bs = s.mem.bs)

/-- The bits a bit command writes (45_bitstream.md R193, R194); none for the other commands. -/
def writtenBits : Instr → Option (List Bool)
  | .wbit b => some [b]
  | .wbits cnt val => if cnt ≤ 16 then some (fieldBits cnt val) else none
  | .nop | .sreset | .tinit _ | .tfwd | .tinv | .qinit _ _ _ | .qvar _ | .quant | .dequant | .zscan _ | .zunscan _
  | .rlenc _ | .rldec _ | .hbuild | .hcanon | .htrie | .hdecsym | .bwinit _ | .brinit _ | .rbit | .symmap | .wrhdr
  | .wrpay | .rdhdr | .rdpay _ | .encblk _ | .decblk _ => none

/-- `original_value[j]` of a header's bits (R90). -/
def headerKey (bits : List Bool) (j : Nat) : Nat := bitsValue ((bits.drop (16 + 40 * j)).take 32)

/-- `code_length[j]` of a header's bits (R90). -/
def headerLen (bits : List Bool) (j : Nat) : Nat := bitsValue ((bits.drop (48 + 40 * j)).take 8)

/-- The stream of one block (R90): the header of the symbol table, then the canonical code of every RLE symbol. -/
def blockStream (s : State) : Option (List Bool) :=
  (payloadBits s s.symbols).map fun payload =>
    headerBits (readMany s.readST s.k.toNat) (readMany s.readCL s.k.toNat) ++ payload

/-- The values RLE symbols stand for, up to the first EOB (43_runlength.md R160). -/
def expandRle : List RleSym → List Word
  | [] => []
  | sym :: rest => if sym = eob then [] else List.replicate sym.run.toNat 0#32 ++ sym.value :: expandRle rest

/-- How many positions RLE symbols cover, each its run and its value (46_blockcodec.md R213). -/
def coverRle (syms : List RleSym) : Nat := (syms.map (fun sym => sym.run.toNat + 1)).sum

/-- The subtrie a bit string leads to (44_huffman.md R182). -/
def Trie.descend : Trie → List Bool → Trie
  | t, [] => t
  | .node l _, false :: bs => Trie.descend l bs
  | .node _ r, true :: bs => Trie.descend r bs
  | .leaf _, _ :: _ => .absent
  | .absent, _ :: _ => .absent

/-- An inner node. -/
def Trie.isNode : Trie → Bool
  | .node _ _ => true
  | .leaf _ | .absent => false

/-- No bit string of the first `k` is the beginning of another (44_huffman.md R179). -/
def PrefixFree (str : Nat → List Bool) (k : Nat) : Prop :=
  ∀ i j, i < k → j < k → i ≠ j → ¬ (str i).IsPrefix (str j)

/-- `Σ 2^-len` over the first `k` lengths (44_huffman.md R177, R179). -/
def kraftSum (len : Nat → Nat) (k : Nat) : Rat := ((List.range k).map (fun i => (1 : Rat) / 2 ^ len i)).sum

/-- The states of a list of commands run one after another, if each answers a next state. -/
def runInstrs : List Instr → State → Option State
  | [], s => some s
  | i :: rest, s =>
    match exec i s with
    | .next t => runInstrs rest t
    | .fault _ => none
    | .refused _ => none

/-- Commands run one after another up to the first that ends with a code of class E, H or F (46_blockcodec.md R214;
60_exceptions.md R250). -/
def runSteps : List Instr → State → State
  | [], s => s
  | i :: rest, s =>
    match exec i s with
    | .next t => if hostContinues t.status.code then runSteps rest t else t
    | .fault _ => s
    | .refused _ => s

/-- The steps of `ENCBLK` after its rewind (46_blockcodec.md R215). -/
def encodeSteps (n : Nat) : List Instr := [.zscan n, .rlenc n, .symmap, .hbuild, .hcanon, .wrhdr, .wrpay]

/-- The steps of `DECBLK` after its rewind, as far as the symbols (46_blockcodec.md R216). -/
def decodeSteps (n : Nat) : List Instr := [.rdhdr, .hcanon, .htrie, .rdpay n]

/-- The 29 rows of the opcode map as mask and match (30_encoding.md R81, R84). -/
def opcodeRows : List (Word × Word) :=
  [(0xFFFFFFFF#32, 0x00000000#32), (0xFFFFFFFF#32, 0x01000000#32), (0xFFFFF000#32, 0x10000000#32),
   (0xFFFFFFFF#32, 0x11000000#32), (0xFFFFFFFF#32, 0x12000000#32), (0xFFE00000#32, 0x20000000#32),
   (0xFFFFF000#32, 0x21000000#32), (0xFFFFFFFF#32, 0x22000000#32), (0xFFFFFFFF#32, 0x23000000#32),
   (0xFFFFF000#32, 0x30000000#32), (0xFFFFF000#32, 0x31000000#32), (0xFFFFF000#32, 0x40000000#32),
   (0xFFFFF000#32, 0x41000000#32), (0xFFFFFFFF#32, 0x50000000#32), (0xFFFFFFFF#32, 0x51000000#32),
   (0xFFFFFFFF#32, 0x52000000#32), (0xFFFFFFFF#32, 0x53000000#32), (0xFF000000#32, 0x60000000#32),
   (0xFFFFFFFE#32, 0x61000000#32), (0xFFE00000#32, 0x62000000#32), (0xFF000000#32, 0x63000000#32),
   (0xFFFFFFFF#32, 0x64000000#32), (0xFFFFFFFF#32, 0x70000000#32), (0xFFFFFFFF#32, 0x71000000#32),
   (0xFFFFFFFF#32, 0x72000000#32), (0xFFFFFFFF#32, 0x73000000#32), (0xFFFFF000#32, 0x74000000#32),
   (0xFFFFF000#32, 0x78000000#32), (0xFFFFF000#32, 0x79000000#32)]

/-! The host's access (10_state.md R45; 20_memory.md R60, R61). -/

/-- The width of a host-writable element; none for a read-only one. -/
def hostWidth : Space → Nat → Option Nat
  | .reg, 4 => some 64
  | .reg, 5 | .reg, 6 => some 16
  | .reg, _ => none
  | .xr, _ | .yr, _ => some 64
  | .ib, _ | .sq, _ | .st, _ | .fq, _ => some 32
  | .rs, _ => some 48
  | .cl, _ | .bs, _ => some 8
  | .cb, _ | .ct, _ | .qm, _ | .dqm, _ | .tc, _ | .cc, _ | .trie, _ => none

end Sys2Proof.Machine
end

