-- ==== Sys2Proof/Certificates/Slice0/Obligations.lean ====
section
/-! DEFINITION. The statements for the provers, each written from the rules of spec/ it cites. -/

open Sys2Proof Sys2Proof.Machine

/-! Encoding (30_encoding.md R80 to R87). -/

/-- R81 to R84: the word of every command that a word can carry decodes to that command, every operand at every value. -/
def Obligations.DecodeEncodeRoundTrip : Prop :=
  ∀ i : Instr, i.wf = true → decode (encode i) = .ok i

/-- R80, R83: a word that decodes is the word of the command it decodes to, whose immediates fit their fields. -/
def Obligations.EncodeDecodeRoundTrip : Prop :=
  ∀ (w : Word) (i : Instr), decode w = .ok i → i.wf = true ∧ encode i = w ∧ opcodeOf w = i.opcode

/-- R81, R83, R86: the legal words are those that match one of the 29 rows of mask and match, each word at most one row. -/
def Obligations.LegalWordsAreTheTableRows : Prop :=
  opcodeRows.length = 29 ∧
  opcodeRows.Pairwise (fun a b => ∀ w : Word, ¬ (w &&& a.1 = a.2 ∧ w &&& b.1 = b.2)) ∧
  ∀ w : Word, (∃ i, decode w = .ok i) ↔ ∃ row ∈ opcodeRows, w &&& row.1 = row.2

/-- Words written out from R81, R84 and the examples of R88 and 95_test_vectors.md. -/
def Obligations.SampleWordsDecode : Prop :=
  decode 0x00000000#32 = .ok .nop ∧ decode 0x01000000#32 = .ok .sreset ∧ decode 0x10000008#32 = .ok (.tinit 8) ∧
  decode 0x11000000#32 = .ok .tfwd ∧ decode 0x20132008#32 = .ok (.qinit 8 50 true) ∧
  decode 0x20032008#32 = .ok (.qinit 8 50 false) ∧ decode 0x30000004#32 = .ok (.zscan 4) ∧
  decode 0x41000004#32 = .ok (.rldec 4) ∧ decode 0x50000000#32 = .ok .hbuild ∧
  decode 0x60000040#32 = .ok (.bwinit 64) ∧ decode 0x61000001#32 = .ok (.wbit true) ∧
  decode 0x620800AA#32 = .ok (.wbits 8 0xAA) ∧ decode 0x79000010#32 = .ok (.decblk 16)

/-! Command execution (47_system.md R230 to R233; 60_exceptions.md). -/

/-- R230: a step of a running core whose next move presents a legal word runs the command it decodes to on the state without
that move, and hands the new `STATUS` to the host. `withFetchWord` presents such a word. R254, R271: with no move waiting the
core holds its state. That moves wait in a list is the model's own choice (log entry 1). -/
def Obligations.StepRunsDecodedCommand : Prop :=
  (∀ (s : State) (w : Word) (rest : List HostMove) (i : Instr),
    s.port = .command w :: rest → s.status.halt = false → decode w = .ok i →
    ∃ t, exec i { s with port := rest } = .next t ∧ step s = .next { t with reply := .status t.status.word }) ∧
  ∀ (s : State) (w : Word), (s.withFetchWord 32 w.toNat).port = .command w :: s.port ∧
    { s.withFetchWord 32 w.toNat with port := s.port } = s ∧ (s.port = [] → step s = .next s)

/-- R86, R242: a word that is no command raises `F_ILLEGAL`; only `STATUS` changes, with the word's opcode byte in it. -/
def Obligations.IllegalWordFaults : Prop :=
  ∀ (s : State) (w : Word) (e : DecodeError), s.status.halt = false → decode w = .error e →
    coreCommand w s = .next (faulted (opcodeOf w) .illegal s)

/-- R231: a halted core ignores every word but 0x01000000; host reads and writes keep working. -/
def Obligations.HaltedCoreIgnores : Prop :=
  ∀ s : State, s.status.halt = true →
    (∀ w : Word, w ≠ 0x01000000#32 → coreCommand w s = .next s) ∧
    (∀ i : Instr, i ≠ .sreset → exec i s = .next s) ∧
    (∀ (w : Word) (rest : List HostMove), s.port = .command w :: rest → w ≠ 0x01000000#32 →
      step s = .next { s with port := rest, reply := .status s.status.word }) ∧
    (∀ (i j : Nat) (v : DWord), hostWrite i j v s = { hostWrite i j v { s with status := { s.status with halt := false } }
      with status := s.status })

/-- R232: `NOP`, the word 0x00000000, posts `OK` and changes nothing else; its opcode with any other operand bit raises
`F_ILLEGAL`; a halted core ignores it. -/
def Obligations.NopPostsOk : Prop :=
  encode .nop = 0#32 ∧
  (∀ s : State, s.status.halt = false →
    exec .nop s = .next { s with status := retStatus 0x00#8 .ok } ∧ coreCommand 0#32 s = exec .nop s ∧
    ∀ w : Word, opcodeOf w = 0x00#8 → w ≠ 0#32 → coreCommand w s = .next (faulted 0x00#8 .illegal s)) ∧
  ∀ s : State, s.status.halt = true → coreCommand 0#32 s = .next s

/-- R233, R249, R270: `SRESET`, also on a halted core, and the hard reset leave the reset state of the same instance. -/
def Obligations.ResetRestoresResetState : Prop :=
  ∀ s : State,
    (∃ t, exec .sreset s = .next t ∧
      t = { State.atReset s.params t.epoch with port := s.port, reply := s.reply, draws := s.draws }) ∧
    coreCommand 0x01000000#32 s = exec .sreset s ∧
    ∀ rest, s.port = .reset :: rest →
      ∃ t, step s = .next t ∧ t = { State.atReset s.params t.epoch with port := rest, reply := .nothing, draws := s.draws }

/-- R44: the reset values the spec gives; no element of a buffer and no `TRIE` is written. -/
def Obligations.ResetRegisterValues : Prop :=
  ∀ (p : Params) (epoch : Nat), let s := State.atReset p epoch
    s.status.word = 0#32 ∧ s.valid.word = 0#6 ∧ s.tn = 0#12 ∧ s.qcfg.word = 0#21 ∧ s.k = 0#16 ∧ s.rsn = 0#16 ∧
    s.bitr = false ∧ s.symr = 0#16 ∧ s.w.cap = 0#24 ∧ s.w.byte = 0#24 ∧ s.w.bitp = 0#3 ∧ s.r.cap = 0#24 ∧
    s.r.byte = 0#24 ∧ s.r.bitp = 0#3 ∧ s.mem = Memory.unwritten ∧ State.reset = State.atReset Params.default 0

/-- R23, R241: the `STATUS` word's fields; the number of each of the 22 codes; no two are the same; the class of a code is its
high nibble. -/
def Obligations.StatusWordAndCodes : Prop :=
  (∀ st : Status, st.word.extractLsb' 0 8 = st.code.byte ∧ st.word.extractLsb' 8 8 = st.op ∧
    st.word.getLsbD 16 = st.halt ∧ st.word.extractLsb' 17 15 = 0#15) ∧
  (∀ row ∈ ([(.ret .ok, 0x00#8), (.ret .okSat, 0x01#8), (.ret .dUnderflow, 0x10#8), (.ret .dBadcode, 0x11#8),
      (.ret .dOverrun, 0x12#8), (.ret .dShort, 0x13#8), (.ret .eOverflow, 0x20#8), (.ret .eSymspace, 0x21#8),
      (.ret .eUnderflow, 0x22#8), (.ret .eCodelen, 0x23#8), (.ret .hTrunc, 0x30#8), (.ret .hCount, 0x31#8),
      (.ret .hLen0, 0x32#8), (.ret .hOversub, 0x33#8), (.fault .illegal, 0xF0#8), (.fault .blocksize, 0xF1#8),
      (.fault .quality, 0xF2#8), (.fault .noctx, 0xF3#8), (.fault .nobuf, 0xF4#8), (.fault .capacity, 0xF5#8),
      (.fault .numeric, 0xF6#8), (.fault .state, 0xF7#8)] : List (Code × Byte)), row.1.byte = row.2) ∧
  (∀ c : Code, c.byte.extractLsb' 4 4 = c.class.nibble) ∧ (∀ c d : Code, c.byte = d.byte → c = d)

/-- R243: the range tests of block size, quality and capacity, and the faults they raise; R86: a count above 16. -/
def Obligations.OperandRangeFaults : Prop :=
  ∀ s : State, s.status.halt = false →
    (∀ (i : Instr) (n : Nat), blockOperand i = some n → ¬ Admitted s.params n →
      exec i s = .next (faulted i.opcode .blocksize s)) ∧
    (∀ (n quality : Nat) (a : Bool), Admitted s.params n → ¬ (1 ≤ quality ∧ quality ≤ 100) →
      exec (.qinit n quality a) s = .next (faulted 0x20#8 .quality s)) ∧
    (∀ cap : Nat, s.params.bufMax < cap →
      exec (.bwinit cap) s = .next (faulted 0x60#8 .capacity s) ∧
      exec (.brinit cap) s = .next (faulted 0x63#8 .capacity s)) ∧
    (∀ cnt val : Nat, 16 < cnt → exec (.wbits cnt val) s = .next (faulted 0x62#8 .illegal s))

/-- R244, R272: a context that was never built, a writer or a reader that was never bound, derived state that is absent or
inconsistent, each after the checks that come first. -/
def Obligations.PreconditionFaults : Prop :=
  ∀ s : State, s.status.halt = false →
    (s.valid.tcv = false → exec .tfwd s = .next (faulted 0x11#8 .noctx s) ∧
      exec .tinv s = .next (faulted 0x12#8 .noctx s)) ∧
    (s.valid.qcv = false → exec .quant s = .next (faulted 0x22#8 .noctx s) ∧
      exec .dequant s = .next (faulted 0x23#8 .noctx s)) ∧
    (s.valid.wv = false →
      (∀ b, exec (.wbit b) s = .next (faulted 0x61#8 .nobuf s)) ∧
      (∀ cnt val, cnt ≤ 16 → exec (.wbits cnt val) s = .next (faulted 0x62#8 .nobuf s)) ∧
      exec .wrhdr s = .next (faulted 0x71#8 .nobuf s) ∧ exec .wrpay s = .next (faulted 0x72#8 .nobuf s) ∧
      ∀ n, Admitted s.params n → exec (.encblk n) s = .next (faulted 0x78#8 .nobuf s)) ∧
    (s.valid.rv = false →
      exec .rbit s = .next (faulted 0x64#8 .nobuf s) ∧ exec .rdhdr s = .next (faulted 0x73#8 .nobuf s) ∧
      (s.valid.trv = true → exec .hdecsym s = .next (faulted 0x53#8 .nobuf s)) ∧
      ∀ n, Admitted s.params n → exec (.decblk n) s = .next (faulted 0x79#8 .nobuf s) ∧
        (s.valid.trv = true → exec (.rdpay n) s = .next (faulted 0x74#8 .nobuf s))) ∧
    (s.params.symMax < s.k.toNat →
      exec .hbuild s = .next (faulted 0x50#8 .state s) ∧ exec .hcanon s = .next (faulted 0x51#8 .state s) ∧
      exec .htrie s = .next (faulted 0x52#8 .state s) ∧
      (s.valid.wv = true → exec .wrhdr s = .next (faulted 0x71#8 .state s) ∧
        exec .wrpay s = .next (faulted 0x72#8 .state s))) ∧
    (s.k = 0#16 → exec .hbuild s = .next (faulted 0x50#8 .state s)) ∧
    (s.params.lMax < s.rsn.toNat →
      exec .symmap s = .next (faulted 0x70#8 .state s) ∧
      (∀ n, Admitted s.params n → exec (.rldec n) s = .next (faulted 0x41#8 .state s)) ∧
      (s.valid.wv = true → exec .wrpay s = .next (faulted 0x72#8 .state s))) ∧
    (s.valid.ccv = false → exec .htrie s = .next (faulted 0x52#8 .state s) ∧
      (s.valid.wv = true → exec .wrpay s = .next (faulted 0x72#8 .state s))) ∧
    (s.valid.trv = false → exec .hdecsym s = .next (faulted 0x53#8 .state s) ∧
      ∀ n, Admitted s.params n → exec (.rdpay n) s = .next (faulted 0x74#8 .state s)) ∧
    ((∃ sym ∈ s.symbols, ∀ i, i < s.k.toNat → s.readST i ≠ (pack sym).1) → s.valid.wv = true →
      exec .wrpay s = .next (faulted 0x72#8 .state s))

/-- R246: whatever word raised a fault, nothing but `STATUS` changed: opcode, code and `HALT`. -/
def Obligations.FaultEntryIsPrecise : Prop :=
  ∀ (s t : State) (w : Word) (f : CoreFault), s.status.halt = false → coreCommand w s = .next t →
    t.status.code = .fault f → t = faulted (opcodeOf w) f s

/-- R251, without the composite commands: a running core posts no code that the command's row does not list. -/
def Obligations.PostedCodesFollowTheTable : Prop :=
  ∀ (i : Instr) (s t : State), (∀ n, i ≠ .encblk n ∧ i ≠ .decblk n) → s.status.halt = false → exec i s = .next t →
    t.status.code ∈ mayPost i

/-- R251, R214: the composite commands post no other code; no step of theirs faults. -/
def Obligations.CompositeCodesFollowTheTable : Prop :=
  ∀ (n : Nat) (s t : State), Running s →
    (exec (.encblk n) s = .next t → t.status.code ∈ mayPost (.encblk n)) ∧
    (exec (.decblk n) s = .next t → t.status.code ∈ mayPost (.decblk n))

/-- R85, the frame of all 29 commands: what stands outside the command's "writes" column, and outside `STATUS`, is unchanged;
so are the parameters and the host's side. -/
def Obligations.WritesOnlyItsOperands : Prop :=
  ∀ (i : Instr) (s t : State), exec i s = .next t → t = writesOf i s t

/-- R192, R68: a writing command stores to the bytes from its cursor's old byte up to `BCNT` and to no other; `ENCBLK` starts at
byte 0; the cursor stays within the capacity; every other command but `SRESET` stores to no byte of `BS`. -/
def Obligations.StreamBytesFrame : Prop :=
  ∀ (i : Instr) (s t : State), s.wpos ≤ 8 * s.w.cap.toNat → exec i s = .next t →
    (i = .wrhdr ∨ i = .wrpay ∨ (writtenBits i).isSome = true →
      t.wpos ≤ 8 * t.w.cap.toNat ∧ ∀ a, a < s.wpos / 8 ∨ t.bcnt ≤ a → t.readBS a = s.readBS a) ∧
    (∀ n, i = .encblk n → t.wpos ≤ 8 * t.w.cap.toNat ∧ ∀ a, t.bcnt ≤ a → t.readBS a = s.readBS a) ∧
    (i ≠ .wrhdr → i ≠ .wrpay → writtenBits i = none → (∀ n, i ≠ .encblk n) → i ≠ .sreset → ∀ a, t.readBS a = s.readBS a)

/-! Real arithmetic (00_scope.md R17, R18). -/

/-- R17: each operation of the default record on finite reals is correctly rounded to nearest, ties to even; its `i2f` is exact
below 2^53 and its `pi` is 0x400921FB54442D18. That the format is binary64 is log entry 4. -/
def Obligations.RealOperationsRoundToNearest : Prop :=
  let num := Numerics.binary64
  (∀ a b : Real64, isFinite a = true → isFinite b = true →
    RoundsTo (toRat a + toRat b) (num.add a b) ∧ RoundsTo (toRat a - toRat b) (num.sub a b) ∧
    RoundsTo (toRat a * toRat b) (num.mul a b) ∧ (toRat b ≠ 0 → RoundsTo (toRat a / toRat b) (num.div a b))) ∧
  (∀ a : Real64, isFinite a = true → 0 ≤ toRat a → RoundsTo (Real.sqrt (toRat a)) (num.sqrt a)) ∧
  (∀ k : Int, |k| < 2 ^ 53 → isFinite (num.ofInt k) = true ∧ toRat (num.ofInt k) = k) ∧
  num.pi = 0x400921FB54442D18#64

/-- R17, U4: the open cosine of every record is 1 at 0 and, where R17 bounds it, within 2^-52 of the cosine. The term 2^-100 is
the model's own (log entry 6): it allows more cosines than R17 does, never fewer. That the reals of every record are read as
binary64, and 1 has its bits, is the model's presumption and choice (log entries 4, 16). -/
def Obligations.CosineWithinBound : Prop :=
  ∀ (num : Numerics) (nMax : Nat) (a : Real64), (isZero a = true → num.cos nMax a = real1) ∧
    (isFinite a = true → 0 ≤ toRat a → toRat a ≤ 2 * toRat numPi * nMax →
      isFinite (num.cos nMax a) = true ∧
        |(toRat (num.cos nMax a) : ℝ) - Real.cos (toRat a)| ≤ 1 / 2 ^ 52 + 1 / 2 ^ 100)

/-- R17, R18: the comparison (of every record false on a NaN, of the default that of the values), `clamp`, and `round_haz`, the
nearest integer, a tie going away from zero. That NaN, finiteness and the value of a real are read as binary64 in every record
is the model's presumption (log entry 4). -/
def Obligations.ComparisonClampAndRounding : Prop :=
  (∀ a b : Real64, isFinite a = true → isFinite b = true → (Numerics.binary64.lt a b = true ↔ toRat a < toRat b)) ∧
  (∀ (num : Numerics) (a b : Real64), isNaN a = true ∨ isNaN b = true → num.lt a b = false) ∧
  (∀ (num : Numerics) (x lo hi : Real64),
    num.clamp x lo hi = (if num.lt x lo = true then lo else if num.lt hi x = true then hi else x)) ∧
  (∀ (num : Numerics) (x lo hi : Real64), isNaN x = true → num.clamp x lo hi = x) ∧
  ∀ a : Real64, isFinite a = true →
    |toRat a - (roundHaz a : Rat)| ≤ 1 / 2 ∧
    (|toRat a - (roundHaz a : Rat)| = 1 / 2 → |toRat a| < |(roundHaz a : Rat)|)

/-! Transform Engine (40_transform.md). -/

/-- R111, R112: `TINIT` with an admitted size completes: the basis, entry by entry as R111 computes it, its transpose, the
size, the flag; later elements stay. With the default record row 0 is exact whatever the cosine, and 1.0 for size 1. The bits
of the constants 1.0 and 2.0 are those of binary64 in every record (log entry 16). -/
def Obligations.TinitBuildsContext : Prop :=
  ∀ (n : Nat) (s : State), Running s → Admitted s.params n →
    let num := s.params.num
    let alpha := fun i : Nat =>
      if i = 0 then num.div real1 (num.sqrt (num.ofInt n)) else num.sqrt (num.div real2 (num.ofInt n))
    let angle := fun i j : Nat =>
      num.div (num.mul num.pi (num.ofInt (((2 * j + 1) * i : Nat) : Int))) (num.ofInt ((2 * n : Nat) : Int))
    let c := fun i j : Nat => num.mul (alpha i) (num.cos s.params.nMax (angle i j))
    ∃ t, exec (.tinit n) s = .next t ∧ t.status = retStatus 0x10#8 .ok ∧ t.tn.toNat = n ∧ t.valid.tcv = true ∧
      (∀ i j, i < n → j < n → t.readCB (i * n + j) = c i j ∧ t.readCT (i * n + j) = c j i) ∧
      (num = .binary64 → (∀ j, j < n → t.readCB j = alpha 0) ∧ (n = 1 → t.readCB 0 = real1)) ∧
      ∀ idx, n * n ≤ idx → t.readCB idx = s.readCB idx ∧ t.readCT idx = s.readCT idx

/-- R113 to R115: with a context, `TFWD` and `TINV` complete with the two products, the left one first, every sum in ascending
order from +0.0; later elements stay. That +0.0 has the bits of binary64 in every record is the model's choice (log entry 16). -/
def Obligations.TransformsMultiply : Prop :=
  ∀ s : State, Running s → s.valid.tcv = true →
    let n := s.tn.toNat
    let c := fun i j => s.readCB (i * n + j)
    let ct := fun i j => s.readCT (i * n + j)
    let product := fun (a b : Nat → Nat → Real64) (i j : Nat) =>
      (List.range n).foldl (fun acc k => s.params.num.add acc (s.params.num.mul (a i k) (b k j))) 0#64
    (∃ t, exec .tfwd s = .next t ∧ t.status = retStatus 0x11#8 .ok ∧
      (∀ i j, i < n → j < n →
        t.readYR (i * n + j) = product (product c (fun i j => s.readXR (i * n + j))) ct i j) ∧
      ∀ idx, n * n ≤ idx → t.readYR idx = s.readYR idx) ∧
    (∃ t, exec .tinv s = .next t ∧ t.status = retStatus 0x12#8 .ok ∧
      (∀ i j, i < n → j < n →
        t.readXR (i * n + j) = product (product ct (fun i j => s.readYR (i * n + j))) c i j) ∧
      ∀ idx, n * n ≤ idx → t.readXR idx = s.readXR idx)

/-! Quantization Engine (41_quantization.md). -/

/-- R126, R127, R129: `QINIT` with legal operands completes: the steps, written out from the two branches of the quality scale
and from the base table or the synthetic one, clamped to [1, 255]; their reciprocals, the configuration, the flag; later
elements stay. The bits of the decimal constants are those of binary64 in every record (log entry 16). -/
def Obligations.QinitBuildsContext : Prop :=
  ∀ (n quality : Nat) (a : Bool) (s : State), Running s → Admitted s.params n → 1 ≤ quality → quality ≤ 100 →
    let num := s.params.num
    let scale := if quality < 50 then num.div real5000 (num.ofInt quality) else num.ofInt ((200 - 2 * quality : Nat) : Int)
    let sf := num.div scale real100
    let raw := fun i j : Nat =>
      if n = 8 then num.mul (num.ofInt ((s.params.base8.getD (i * 8 + j) 0 : Nat) : Int)) sf
      else num.mul (num.mul (num.add real1 (num.sqrt (num.ofInt ((i * i + j * j : Nat) : Int)))) sf) real8
    let m := fun i j : Nat =>
      if num.lt (raw i j) real1 = true then real1 else if num.lt real255 (raw i j) = true then real255 else raw i j
    ∃ t, exec (.qinit n quality a) s = .next t ∧ t.status = retStatus 0x20#8 .ok ∧ t.qcfg.n.toNat = n ∧
      t.qcfg.quality.toNat = quality ∧ t.qcfg.adapt = a ∧ t.valid.qcv = true ∧
      (∀ i j, i < n → j < n → t.readQM (i * n + j) = m i j ∧ t.readDQM (i * n + j) = num.div real1 (m i j)) ∧
      ∀ idx, n * n ≤ idx → t.readQM idx = s.readQM idx ∧ t.readDQM idx = s.readDQM idx

/-- R130, with the default numerics: the step that `QINIT` leaves at each position of the block is a real in [1, 255]; at quality
100 it is 1.0; at quality 50 and size 8 it is the entry of `BASE8`. -/
def Obligations.QuantMatrixRange : Prop :=
  ∀ (n quality : Nat) (a : Bool) (s t : State), Running s → s.params.num = .binary64 → Admitted s.params n →
    1 ≤ quality → quality ≤ 100 → exec (.qinit n quality a) s = .next t →
    ∀ i j, i < n → j < n →
      RealIn 1 255 (t.readQM (i * n + j)) ∧
      (quality = 100 → t.readQM (i * n + j) = real1) ∧
      (quality = 50 → n = 8 → isFinite (t.readQM (i * n + j)) = true ∧
        toRat (t.readQM (i * n + j)) = (s.params.base8.getD (i * 8 + j) 0 : Nat))

/-- R131: `QVAR` with an admitted size completes with the one-pass variance, both sums in row-major order from +0.0. That +0.0
has the bits of binary64 in every record is the model's choice (log entry 16). -/
def Obligations.QvarComputesVariance : Prop :=
  ∀ (n : Nat) (s : State), Running s → Admitted s.params n →
    let num := s.params.num
    let sum := (List.range (n * n)).foldl (fun acc idx => num.add acc (s.readXR idx)) 0#64
    let squares := (List.range (n * n)).foldl (fun acc idx => num.add acc (num.mul (s.readXR idx) (s.readXR idx))) 0#64
    let c := num.ofInt ((n * n : Nat) : Int)
    exec (.qvar n) s = .next { s with
      status := retStatus 0x21#8 .ok
      var := num.sub (num.div squares c) (num.mul (num.div sum c) (num.div sum c)) }

/-- R133, R245: with a context `QUANT` completes if every quotient is finite and rounds into the signed 32-bit range, and then
holds the rounded quotients; otherwise it raises `F_NUMERIC` and writes nothing. That
a quotient is read as binary64, for whether it is finite and for its rounding, in every record is the model's presumption (log
entry 4); the adaptive step rests on the decimal constants of log entry 16. -/
def Obligations.QuantRoundsOrFaults : Prop :=
  ∀ s : State, Running s → s.valid.qcv = true →
    let len := s.qcfg.n.toNat * s.qcfg.n.toNat
    let quotient := fun idx => s.params.num.div (s.readYR idx) (s.stepAt idx)
    let fits := fun idx => isFinite (quotient idx) = true ∧ -(2 ^ 31) ≤ roundHaz (quotient idx) ∧
      roundHaz (quotient idx) ≤ 2 ^ 31 - 1
    ((∀ idx, idx < len → fits idx) → ∃ t, exec .quant s = .next t ∧ t.status = retStatus 0x22#8 .ok ∧
      (∀ idx, idx < len → (t.readIB idx).toInt = roundHaz (quotient idx)) ∧
      ∀ idx, len ≤ idx → t.readIB idx = s.readIB idx) ∧
    ((∃ idx, idx < len ∧ ¬ fits idx) → exec .quant s = .next (faulted 0x22#8 .numeric s))

/-- R134: with a context `DEQUANT` completes with the integer times the step; later elements stay. The adaptive step rests on
the decimal constants of log entry 16. -/
def Obligations.DequantMultiplies : Prop :=
  ∀ s : State, Running s → s.valid.qcv = true →
    ∃ t, exec .dequant s = .next t ∧ t.status = retStatus 0x23#8 .ok ∧
      (∀ idx, idx < s.qcfg.n.toNat * s.qcfg.n.toNat →
        t.readYR idx = s.params.num.mul (s.params.num.ofInt (s.readIB idx).toInt) (s.stepAt idx)) ∧
      ∀ idx, s.qcfg.n.toNat * s.qcfg.n.toNat ≤ idx → t.readYR idx = s.readYR idx

/-- R132, R27: the step `QUANT` and `DEQUANT` use is `QM` itself for the DC term, `QM · (2 − clamp(VAR/1000, 0.1, 1.0))` for the
others with the adaptive flag; without it, it is `QM` and `VAR` makes no difference to either command. The bits of the
decimal constants, 0.1 among them, are the model's in every record (log entry 16). -/
def Obligations.AdaptiveStepsReadVariance : Prop :=
  ∀ (s : State) (v : Real64),
    let num := s.params.num
    (∀ idx, s.qcfg.adapt = false ∨ idx = 0 → s.stepAt idx = s.readQM idx) ∧
    (∀ idx, s.qcfg.adapt = true → idx ≠ 0 → s.stepAt idx =
      num.mul (s.readQM idx) (num.sub real2 (num.clamp (num.div s.var real1000) realTenth real1))) ∧
    (s.qcfg.adapt = false →
      (∀ t, exec .quant s = .next t → exec .quant { s with var := v } = .next { t with var := v }) ∧
      (∀ t, exec .dequant s = .next t → exec .dequant { s with var := v } = .next { t with var := v }))

/-! Zigzag Scanner (42_zigzag.md). -/

/-- R150: the order lists exactly the cells of the block, diagonal by diagonal, up-right on even and down-left on odd ones. -/
def Obligations.ZigzagOrder : Prop :=
  ∀ n : Nat, 1 ≤ n →
    (∀ cell : Nat × Nat, cell ∈ zz n ↔ cell.1 < n ∧ cell.2 < n) ∧
    (zz n).Pairwise (fun a b => a.1 + a.2 < b.1 + b.2 ∨
      a.1 + a.2 = b.1 + b.2 ∧ (if (a.1 + a.2) % 2 = 0 then b.1 < a.1 else a.1 < b.1)) ∧
    ∀ k row col, (zz n)[k]? = some (row, col) → zzi n row col = k

/-- R151, R152: `ZSCAN` and `ZUNSCAN` with an admitted size complete, each moving element `k` of the sequence from or to cell `k`
of the order; later elements stay. -/
def Obligations.ZigzagMovesElements : Prop :=
  ∀ (n : Nat) (s : State), Running s → Admitted s.params n →
    (∃ t, exec (.zscan n) s = .next t ∧ t.status = retStatus 0x30#8 .ok ∧
      (∀ k row col, (zz n)[k]? = some (row, col) → t.readSQ k = s.readIB (row * n + col)) ∧
      ∀ idx, n * n ≤ idx → t.readSQ idx = s.readSQ idx) ∧
    (∃ t, exec (.zunscan n) s = .next t ∧ t.status = retStatus 0x31#8 .ok ∧
      (∀ k row col, (zz n)[k]? = some (row, col) → t.readIB (row * n + col) = s.readSQ k) ∧
      ∀ idx, n * n ≤ idx → t.readIB idx = s.readIB idx)

/-- R153: `ZSCAN n ; ZUNSCAN n` leaves the block, `ZUNSCAN n ; ZSCAN n` the sequence, as it was. -/
def Obligations.ZigzagRoundTrip : Prop :=
  ∀ (n : Nat) (s : State), Running s → Admitted s.params n →
    (∃ t, runInstrs [.zscan n, .zunscan n] s = some t ∧ ∀ idx, idx < n * n → t.readIB idx = s.readIB idx) ∧
    (∃ t, runInstrs [.zunscan n, .zscan n] s = some t ∧ ∀ idx, idx < n * n → t.readSQ idx = s.readSQ idx)

/-! Run-Length Coder (43_runlength.md). -/

/-- R160, R161: `RLENC` with an admitted size completes: the symbols expand to the sequence up to its trailing zeros, EOB stands
exactly for those zeros and only last, no other symbol has the value 0, and no entry from `RSN` on changes. -/
def Obligations.RlencEncodes : Prop :=
  ∀ (n : Nat) (s : State), Running s → Admitted s.params n →
    ∃ t zeros, exec (.rlenc n) s = .next t ∧ t.status = retStatus 0x40#8 .ok ∧
      (List.range (n * n)).map s.readSQ = expandRle t.symbols ++ List.replicate zeros 0#32 ∧
      (∀ sym ∈ t.symbols.dropLast, sym.value ≠ 0#32) ∧
      (∀ sym, t.symbols.getLast? = some sym → (sym.value = 0#32 ↔ sym = eob) ∧ (sym = eob ↔ 0 < zeros)) ∧
      1 ≤ t.rsn.toNat ∧ t.rsn.toNat ≤ n * n ∧ ∀ idx, t.rsn.toNat ≤ idx → t.readRS idx = s.readRS idx

/-- R162: `RLDEC` with an admitted size and `RSN` in range completes: the sequence holds the symbols' values up to an EOB, cut at
its length and filled with zeros; `D_OVERRUN` where a symbol reached past the end, else `D_SHORT` where they ran out
without an EOB, else `OK`. -/
def Obligations.RldecDecodes : Prop :=
  ∀ (n : Nat) (s : State), Running s → Admitted s.params n → s.rsn.toNat ≤ s.params.lMax →
    let reach := fun m => (expandRle (s.symbols.take m)).length
    ∃ t, exec (.rldec n) s = .next t ∧
      (∀ k, k < n * n → t.readSQ k = (expandRle s.symbols).getD k 0#32) ∧
      (∀ idx, n * n ≤ idx → t.readSQ idx = s.readSQ idx) ∧
      ((∃ m, reach m < n * n ∧ n * n < reach (m + 1)) → t.status = retStatus 0x41#8 .dOverrun) ∧
      ((¬ ∃ m, reach m < n * n ∧ n * n < reach (m + 1)) → eob ∉ s.symbols ∧ reach s.symbols.length < n * n →
        t.status = retStatus 0x41#8 .dShort) ∧
      ((¬ ∃ m, reach m < n * n ∧ n * n < reach (m + 1)) → ¬ (eob ∉ s.symbols ∧ reach s.symbols.length < n * n) →
        t.status = retStatus 0x41#8 .ok)

/-- R163: `RLENC n ; RLDEC n` returns `OK` and leaves the sequence as it was. -/
def Obligations.RunLengthRoundTrip : Prop :=
  ∀ (n : Nat) (s : State), Running s → Admitted s.params n →
    ∃ t, runInstrs [.rlenc n, .rldec n] s = some t ∧ t.status = retStatus 0x41#8 .ok ∧
      ∀ idx, idx < n * n → t.readSQ idx = s.readSQ idx

/-! Huffman Coder (44_huffman.md). -/

/-- R172 to R176: `HBUILD` on an alphabet in range completes: each symbol's code is the path to its leaf in the tree that the
loop of R172 builds, the least node by (frequency, sequence number) first and the first removed to the left (`0` for one
symbol); its length is in `CL`, later entries stay. Only with more than 256 symbols can a code be too long, and then
`E_CODELEN` is returned and neither `CL` nor `TC` is written. `VALID.CCV` is cleared in either case. -/
def Obligations.HbuildDerivesCodes : Prop :=
  ∀ s : State, Running s → 1 ≤ s.k.toNat → s.k.toNat ≤ s.params.symMax →
    let leaves : List HNode := (List.range s.k.toNat).map
      (fun i => { freq := (s.readFQ i).toNat, seq := i, tree := .leaf i })
    ∃ t root, exec .hbuild s = .next t ∧ HuffBuilds s.k.toNat leaves root ∧ t.valid.ccv = false ∧
      (s.k.toNat ≤ 256 → t.status = retStatus 0x50#8 .ok) ∧
      (t.status = retStatus 0x50#8 .ok ∨ t.status = retStatus 0x50#8 .eCodelen) ∧
      (t.status = retStatus 0x50#8 .ok →
        (s.k.toNat = 1 → (t.readTC 0).str = [false]) ∧
        (2 ≤ s.k.toNat → ∀ i, i < s.k.toNat → root.leafAt (t.readTC i).str = some i) ∧
        (∀ i, i < s.k.toNat → t.readCL i = (t.readTC i).len ∧ 1 ≤ (t.readCL i).toNat) ∧
        ∀ i, s.k.toNat ≤ i → t.readCL i = s.readCL i ∧ t.readTC i = s.readTC i) ∧
      (t.status = retStatus 0x50#8 .eCodelen → t.mem.cl = s.mem.cl ∧ t.mem.tc = s.mem.tc ∧
        ∃ i path, i < s.k.toNat ∧ root.leafAt path = some i ∧ 255 < path.length)

/-- R179: after `HBUILD` returned `OK` the lengths meet the Kraft inequality with equality (one half for one symbol), the tree
codes are prefix-free and a more frequent symbol has no longer code; `HCANON` then returns `OK` with prefix-free codes of
the same lengths. -/
def Obligations.HuffmanCodeSet : Prop :=
  ∀ s t : State, Running s → exec .hbuild s = .next t → t.status.code = .ret .ok →
    let k := s.k.toNat
    (2 ≤ k → kraftSum (fun i => (t.readCL i).toNat) k = 1) ∧
    (k = 1 → kraftSum (fun i => (t.readCL i).toNat) k = 1 / 2) ∧
    PrefixFree (fun i => (t.readTC i).str) k ∧
    (∀ i j, i < k → j < k → (s.readFQ j).toNat < (s.readFQ i).toNat → (t.readCL i).toNat ≤ (t.readCL j).toNat) ∧
    ∃ u, exec .hcanon t = .next u ∧ u.status.code = .ret .ok ∧ PrefixFree (fun i => (u.readCC i).str) k ∧
      ∀ i, i < k → (u.readCC i).len = t.readCL i ∧ t.readCL i = (t.readTC i).len

/-- R177, R178: `HCANON` with `K` in range completes: `H_LEN0` on a zero length; else `H_OVERSUB` exactly when the Kraft sum is
above 1; else `OK` with prefix-free codes of the given lengths, each, read as a binary fraction, the sum of `2^-length` over
the symbols before it by (length, index). `CC` is written only on `OK`; the flag says which. -/
def Obligations.HcanonAssignsCanonicalCodes : Prop :=
  ∀ s : State, Running s → s.k.toNat ≤ s.params.symMax →
    let k := s.k.toNat
    let len := fun i => (s.readCL i).toNat
    let cleared : Valid := { s.valid with ccv := false }
    ((∃ i, i < k ∧ len i = 0) →
      exec .hcanon s = .next { s with status := retStatus 0x51#8 .hLen0, valid := cleared }) ∧
    ((∀ i, i < k → len i ≠ 0) → 1 < kraftSum len k →
      exec .hcanon s = .next { s with status := retStatus 0x51#8 .hOversub, valid := cleared }) ∧
    ((∀ i, i < k → len i ≠ 0) → kraftSum len k ≤ 1 →
      ∃ t, exec .hcanon s = .next t ∧ t.status = retStatus 0x51#8 .ok ∧ t.valid.ccv = true ∧
        PrefixFree (fun i => (t.readCC i).str) k ∧
        (∀ i, i < k → (t.readCC i).len = s.readCL i ∧
          ((t.readCC i).bits.toNat : Rat) / 2 ^ len i =
            (((List.range k).filter (fun j => decide (len j < len i ∨ len j = len i ∧ j < i))).map
              (fun j => (1 : Rat) / 2 ^ len j)).sum) ∧
        ∀ i, k ≤ i → t.readCC i = s.readCC i)

/-- R180, R181: `HTRIE` with valid codes and `K` in range completes: `OK` with the trie that maps exactly the codes' bit strings
to their indices if they are prefix-free, `H_OVERSUB` and no valid trie otherwise. -/
def Obligations.HtrieBuildsTheFunction : Prop :=
  ∀ s : State, Running s → s.valid.ccv = true → s.k.toNat ≤ s.params.symMax →
    (∀ i, i < s.k.toNat → 1 ≤ (s.readCC i).len.toNat) →
    (PrefixFree (fun i => (s.readCC i).str) s.k.toNat →
      ∃ t trie, exec .htrie s = .next t ∧ t.status = retStatus 0x52#8 .ok ∧ t.valid.trv = true ∧
        t.mem.trie = some trie ∧
        ∀ (bits : List Bool) (i : BitVec 16), trie.lookup bits = some i ↔
          i.toNat < s.k.toNat ∧ bits = (s.readCC i.toNat).str) ∧
    (¬ PrefixFree (fun i => (s.readCC i).str) s.k.toNat →
      ∃ t, exec .htrie s = .next t ∧ t.status = retStatus 0x52#8 .hOversub ∧ t.valid.trv = false)

/-- R182, R183: `HDECSYM` with a trie and a reader completes: with the symbol whose code comes next; or `E_UNDERFLOW` with all
bits consumed where the stream ends inside the trie; or `D_BADCODE` with the bit off the trie consumed. -/
def Obligations.HdecsymWalksTheTrie : Prop :=
  ∀ (s : State) (trie : Trie), Running s → s.valid.trv = true → s.valid.rv = true → s.mem.trie = some trie →
    s.rpos ≤ 8 * s.r.cap.toNat →
    (∀ code after i, s.rest = code ++ after → trie.lookup code = some i →
      ∃ t, exec .hdecsym s = .next t ∧ t.status = retStatus 0x53#8 .ok ∧ t.symr = i ∧
        t.rpos = s.rpos + code.length) ∧
    ((trie.descend s.rest).isNode = true →
      ∃ t, exec .hdecsym s = .next t ∧ t.status = retStatus 0x53#8 .eUnderflow ∧ t.symr = s.symr ∧
        t.rpos = 8 * s.r.cap.toNat) ∧
    (∀ path b after, s.rest = path ++ b :: after → (trie.descend path).isNode = true →
      trie.descend (path ++ [b]) = .absent →
      ∃ t, exec .hdecsym s = .next t ∧ t.status = retStatus 0x53#8 .dBadcode ∧ t.symr = s.symr ∧
        t.rpos = s.rpos + path.length + 1)

/-- R184: after `HCANON` returned `OK` and `HTRIE` ran on the result, a stream that goes on with the code of symbol `i` decodes
to `i` and advances by its length. -/
def Obligations.DecodingInvertsCanonicalCodes : Prop :=
  ∀ s a : State, Running s → exec .hcanon s = .next a → a.status.code = .ret .ok →
    ∃ b, exec .htrie a = .next b ∧ b.status.code = .ret .ok ∧
      ∀ i after, i < s.k.toNat → b.valid.rv = true → b.rpos ≤ 8 * b.r.cap.toNat →
        b.rest = (a.readCC i).str ++ after →
        ∃ c, exec .hdecsym b = .next c ∧ c.status.code = .ret .ok ∧ c.symr.toNat = i ∧
          c.rpos = b.rpos + (s.readCL i).toNat

/-! Bit Stream I/O (45_bitstream.md). -/

/-- R191, R195: `BWINIT` and `BRINIT` with a capacity in range complete: the cursor bound and rewound, the flag set, `BS` and the
other cursor untouched. -/
def Obligations.BindingRewindsTheCursor : Prop :=
  ∀ (cap : Nat) (s : State), Running s → cap ≤ s.params.bufMax →
    (∃ t, exec (.bwinit cap) s = .next t ∧ t.status = retStatus 0x60#8 .ok ∧ t.w.cap.toNat = cap ∧ t.wpos = 0 ∧
      t.valid = { s.valid with wv := true } ∧ t.r = s.r ∧ t.mem = s.mem) ∧
    (∃ t, exec (.brinit cap) s = .next t ∧ t.status = retStatus 0x63#8 .ok ∧ t.r.cap.toNat = cap ∧ t.rpos = 0 ∧
      t.valid = { s.valid with rv := true } ∧ t.w = s.w ∧ t.mem = s.mem)

/-- R192 to R194: `WBIT` and `WBITS` with a writer complete, having written the bits that fit; `E_OVERFLOW` exactly when one did
not. -/
def Obligations.BitWritesAppend : Prop :=
  ∀ (i : Instr) (bits : List Bool) (s : State), Running s → s.valid.wv = true → writtenBits i = some bits →
    ∃ t, exec i s = .next t ∧ Wrote s t bits ∧
      t.status = retStatus i.opcode (if bits.length ≤ 8 * s.w.cap.toNat - s.wpos then .ok else .eOverflow)

/-- R196, R197: `RBIT` with a reader completes with the next bit, or with `E_UNDERFLOW` and nothing changed. -/
def Obligations.RbitReadsNextBit : Prop :=
  ∀ s : State, Running s → s.valid.rv = true →
    (∀ b after, s.rest = b :: after → ∃ t, exec .rbit s = .next t ∧ t.status = retStatus 0x64#8 .ok ∧ t.bitr = b ∧
      t.rest = after ∧ t.rpos = s.rpos + 1) ∧
    (s.rest = [] → exec .rbit s = .next { s with status := retStatus 0x64#8 .eUnderflow })

/-- R199: the bits written after `BWINIT` come back after `BRINIT BCNT`, then the zeros of the padding, then `E_UNDERFLOW`. -/
def Obligations.BitIoIsExact : Prop :=
  ∀ (cap : Nat) (writes : List Instr) (s : State), Running s → cap ≤ s.params.bufMax →
    (∀ i ∈ writes, (writtenBits i).isSome = true) →
    let bits := writes.flatMap (fun i => (writtenBits i).getD [])
    bits.length ≤ 8 * cap →
    ∃ t, runInstrs (.bwinit cap :: writes) s = some t ∧ (t.status.code = .ret .ok) ∧
      ∀ m, ∃ u, runInstrs (.brinit t.bcnt :: List.replicate (m + 1) .rbit) t = some u ∧
        (m < 8 * t.bcnt → u.status.code = .ret .ok ∧ u.bitr = bits.getD m false) ∧
        (m = 8 * t.bcnt → u.status.code = .ret .eUnderflow) ∧ bits.length ≤ 8 * t.bcnt ∧ 8 * t.bcnt < bits.length + 8

/-! Block Codec (46_blockcodec.md). -/

/-- R206 to R208: folding is a bijection of [-32768, 32767] onto the 16-bit numbers and saturates outside; the key of a symbol
unpacks to the symbol exactly when nothing was clamped; 0 is the key of EOB alone. -/
def Obligations.SymbolPackingIsExact : Prop :=
  (∀ v : Int, -32768 ≤ v → v ≤ 32767 → (fold16 v).2 = false ∧ unfold16 (fold16 v).1 = v) ∧
  (∀ e : Nat, e < 65536 → -32768 ≤ unfold16 e ∧ unfold16 e ≤ 32767 ∧ fold16 (unfold16 e) = (e, false)) ∧
  (∀ v : Int, (32767 < v → fold16 v = (65534, true)) ∧ (v < -32768 → fold16 v = (65535, true))) ∧
  (∀ sym : RleSym, let exact := sym.run.toNat ≤ 255 ∧ -32768 ≤ sym.value.toInt ∧ sym.value.toInt ≤ 32767
    ((pack sym).2 = false ↔ exact) ∧ (unpack (pack sym).1 = sym ↔ exact) ∧ ((pack sym).1 = 0#32 ↔ sym = eob)) ∧
  ∀ sym : RleSym, (pack sym).1.extractLsb' 24 8 = 0#8

/-- R209: `SYMMAP` with `RSN` in range completes: the keys in order of first appearance, each with its count; `OK_SAT` exactly
when a symbol was clamped; `E_SYMSPACE`, with the keys and counts up to there, when a key finds no room. -/
def Obligations.SymmapCountsKeys : Prop :=
  ∀ s : State, Running s → s.rsn.toNat ≤ s.params.lMax →
    let keys := s.symbols.map (fun sym => (pack sym).1)
    ∃ t, exec .symmap s = .next t ∧ t.valid.ccv = false ∧
      (keys.eraseDups.length ≤ s.params.symMax →
        t.status = retStatus 0x70#8 (if s.symbols.any (fun sym => (pack sym).2) then .okSat else .ok) ∧
        t.k.toNat = keys.eraseDups.length ∧
        ∀ i key, keys.eraseDups[i]? = some key → t.readST i = key ∧ (t.readFQ i).toNat = keys.count key) ∧
      (s.params.symMax < keys.eraseDups.length →
        t.status = retStatus 0x70#8 .eSymspace ∧ t.k.toNat = s.params.symMax ∧
        ∃ before key after, keys = before ++ key :: after ∧ key ∉ before ∧
          before.eraseDups.length = s.params.symMax ∧
          ∀ i old, before.eraseDups[i]? = some old → t.readST i = old ∧ (t.readFQ i).toNat = before.count old) ∧
      ∀ i, t.k.toNat ≤ i → t.readST i = s.readST i ∧ t.readFQ i = s.readFQ i

/-- R210, R211, R90: `WRHDR` and `WRPAY` with their preconditions complete: the header is `K` in 16 bits, then per symbol its key
in 32 and its length in 8; the payload is the canonical code of every RLE symbol in order, each found at the least index
with its key. `E_OVERFLOW` exactly when a bit did not fit. -/
def Obligations.HeaderAndPayloadAreWritten : Prop :=
  ∀ s : State, Running s → s.valid.wv = true → s.k.toNat ≤ s.params.symMax →
    let room := 8 * s.w.cap.toNat - s.wpos
    let header := fieldBits 16 s.k.toNat ++ (List.range s.k.toNat).flatMap
      (fun i => fieldBits 32 (s.readST i).toNat ++ fieldBits 8 (s.readCL i).toNat)
    (∃ t, exec .wrhdr s = .next t ∧ Wrote s t header ∧
      t.status = retStatus 0x71#8 (if header.length ≤ room then .ok else .eOverflow)) ∧
    (s.valid.ccv = true → s.rsn.toNat ≤ s.params.lMax →
      ∀ idx : Nat → Nat,
        (∀ p, p < s.rsn.toNat → idx p < s.k.toNat ∧ s.readST (idx p) = (pack (s.readRS p)).1 ∧
          ∀ i, i < idx p → s.readST i ≠ (pack (s.readRS p)).1) →
        let payload := (List.range s.rsn.toNat).flatMap
          (fun p => fieldBits (s.readCC (idx p)).len.toNat (s.readCC (idx p)).bits.toNat)
        ∃ t, exec .wrpay s = .next t ∧ Wrote s t payload ∧
          t.status = retStatus 0x72#8 (if payload.length ≤ room then .ok else .eOverflow))

/-- R212: `RDHDR` with a reader completes. With the first `j` entries whole and their lengths not zero: all of them read is `OK`;
a stream that ends in the count or in entry `j` is `H_TRUNC`; a count above SYM_MAX is `H_COUNT`; a zero length in entry `j`
is `H_LEN0`. The entries before it are kept, the later ones untouched, the bits read consumed, the flags cleared. -/
def Obligations.RdhdrReadsHeader : Prop :=
  ∀ s : State, Running s → s.valid.rv = true → s.rpos ≤ 8 * s.r.cap.toNat →
    let bits := s.rest
    let count := bitsValue (bits.take 16)
    ∃ t, exec .rdhdr s = .next t ∧ t.valid.ccv = false ∧ t.valid.trv = false ∧
      (bits.length < 16 → t.status = retStatus 0x73#8 .hTrunc ∧ t.k = 0#16 ∧ t.rpos = 8 * s.r.cap.toNat ∧
        t.mem = s.mem) ∧
      (16 ≤ bits.length → s.params.symMax < count →
        t.status = retStatus 0x73#8 .hCount ∧ t.k = 0#16 ∧ t.rpos = s.rpos + 16 ∧ t.mem = s.mem) ∧
      ∀ j, 16 ≤ bits.length → count ≤ s.params.symMax → j ≤ count → 16 + 40 * j ≤ bits.length →
        (∀ i, i < j → headerLen bits i ≠ 0) →
        (∀ i, i < j → (j = count ∨ bits.length < 56 + 40 * j ∨ headerLen bits j = 0) →
          (t.readST i).toNat = headerKey bits i ∧ (t.readCL i).toNat = headerLen bits i) ∧
        (∀ i, j ≤ i → (j = count ∨ bits.length < 56 + 40 * j ∨ headerLen bits j = 0) →
          t.readST i = s.readST i ∧ t.readCL i = s.readCL i) ∧
        (j = count → t.status = retStatus 0x73#8 .ok ∧ t.k.toNat = count ∧ t.rpos = s.rpos + 16 + 40 * j) ∧
        (j < count → bits.length < 56 + 40 * j →
          t.status = retStatus 0x73#8 .hTrunc ∧ t.k = 0#16 ∧ t.rpos = 8 * s.r.cap.toNat) ∧
        (j < count → 56 + 40 * j ≤ bits.length → headerLen bits j = 0 →
          t.status = retStatus 0x73#8 .hLen0 ∧ t.k = 0#16 ∧ t.rpos = s.rpos + 56 + 40 * j)

/-- R213: `RDPAY` with an admitted size, a trie and a reader completes. If the stream goes on with the codes of some symbols,
none of which but the last is EOB or completes the block: `OK` if the last does; `D_UNDERFLOW` if the stream then ends inside
the trie; `D_BADCODE` if it then leaves it. The symbols are kept in each case. -/
def Obligations.RdpayDecodesSymbols : Prop :=
  ∀ (n : Nat) (s : State) (l r : Trie) (codes : List (List Bool)) (ids : List (BitVec 16)) (after : List Bool),
    Running s → Admitted s.params n → s.valid.trv = true → s.valid.rv = true → s.mem.trie = some (.node l r) →
    s.rpos ≤ 8 * s.r.cap.toNat → codes.map (Trie.node l r).lookup = ids.map some → s.rest = codes.flatten ++ after →
    let syms := ids.map (fun i => unpack (s.readST i.toNat))
    (∀ m, m < syms.length → eob ∉ syms.take m ∧ coverRle (syms.take m) < n * n) →
    let done := eob ∈ syms ∨ n * n ≤ coverRle syms
    (done → ∃ t, exec (.rdpay n) s = .next t ∧ t.status = retStatus 0x74#8 .ok ∧ t.symbols = syms ∧
      t.rpos = s.rpos + codes.flatten.length ∧ ∀ idx, syms.length ≤ idx → t.readRS idx = s.readRS idx) ∧
    (¬ done → ((Trie.node l r).descend after).isNode = true →
      ∃ t, exec (.rdpay n) s = .next t ∧ t.status = retStatus 0x74#8 .dUnderflow ∧ t.symbols = syms ∧
        t.rpos = 8 * s.r.cap.toNat) ∧
    (¬ done → ∀ path b more, after = path ++ b :: more → ((Trie.node l r).descend path).isNode = true →
      (Trie.node l r).descend (path ++ [b]) = .absent →
      ∃ t, exec (.rdpay n) s = .next t ∧ t.status = retStatus 0x74#8 .dBadcode ∧ t.symbols = syms ∧
        t.rpos = s.rpos + codes.flatten.length + path.length + 1)

/-- R214, R215: `ENCBLK` with its preconditions completes as its steps, from a rewound writer, up to the first code of class E,
whose code it posts; otherwise it posts `OK_SAT` where `SYMMAP` clamped a symbol and `OK` where not. -/
def Obligations.EncblkRunsItsSteps : Prop :=
  ∀ (n : Nat) (s : State), Running s → Admitted s.params n → s.valid.wv = true →
    let u := runSteps (encodeSteps n) { s with w := s.w.rewind }
    exec (.encblk n) s = .next { u with status :=
      { code := if u.status.code.class = .failed then u.status.code
          else .ret (if u.symbols.any (fun sym => (pack sym).2) then .okSat else .ok)
        op := 0x78#8
        halt := false } }

/-- R214, R216, R276: `DECBLK` with its preconditions completes as its steps, from a rewound reader: a hard failure of the header
or of the code ends it with `RS`, `RSN`, `SQ` and `IB` as they were; else the symbols decoded are expanded and unscanned, and the code of `RDPAY` if it is not `OK`, else that
of `RLDEC`, is posted. -/
def Obligations.DecblkRunsItsSteps : Prop :=
  ∀ (n : Nat) (s : State), Running s → Admitted s.params n → s.valid.rv = true →
    let v := runSteps (decodeSteps n) { s with r := s.r.rewind }
    ∃ t, exec (.decblk n) s = .next t ∧
      (v.status.code.class = .hardDecode → t = { v with status := { v.status with op := 0x79#8 } } ∧
        t.mem.rs = s.mem.rs ∧ t.rsn = s.rsn ∧ t.mem.sq = s.mem.sq ∧ t.mem.ib = s.mem.ib) ∧
      (v.status.code.class ≠ .hardDecode →
        ∃ w x, exec (.rldec n) v = .next w ∧ exec (.zunscan n) w = .next x ∧
          t = { x with status :=
            { code := if v.status.code = .ret .ok then w.status.code else v.status.code
              op := 0x79#8
              halt := false } })

/-- R90, R91, R215, R217: after `ENCBLK` posted a code of class OK, `BS` holds the block's stream from bit 0 on and zeros to the
end of the last byte, `BCNT` is its length in bytes, no byte from there on changed; `OK` rather than `OK_SAT` exactly when
every element and every run was within the clamps. -/
def Obligations.EncblkWritesTheWireFormat : Prop :=
  ∀ (n : Nat) (s t : State), Running s → Admitted s.params n → s.valid.wv = true → exec (.encblk n) s = .next t →
    t.status.code.class = .success →
    (∃ bits, blockStream t = some bits ∧ t.wpos = bits.length ∧ t.bcnt = (bits.length + 7) / 8 ∧ t.holds 0 bits ∧
      (∀ p, bits.length ≤ p → p < 8 * t.bcnt → t.streamBit p = false) ∧ ∀ a, t.bcnt ≤ a → t.readBS a = s.readBS a) ∧
    (t.status.code = .ret .ok ↔
      (∀ idx, idx < n * n → -32768 ≤ (s.readIB idx).toInt ∧ (s.readIB idx).toInt ≤ 32767) ∧
      ∀ sym ∈ t.symbols, sym.run.toNat ≤ 255)

/-- R215, R218, R176: with room for the largest stream (16 + 40·n² + 255·n² bits), for n² symbols and for their codes, `ENCBLK`
completes with a code of class OK. -/
def Obligations.EncblkSucceedsWithRoom : Prop :=
  ∀ (n : Nat) (s : State), Running s → Admitted s.params n → s.valid.wv = true → n * n ≤ 256 →
    n * n ≤ s.params.symMax → 16 + 295 * (n * n) ≤ 8 * s.w.cap.toNat →
    ∃ t, exec (.encblk n) s = .next t ∧ t.status.code.class = .success

/-- R217: if `ENCBLK n` returned `OK`, then `BRINIT BCNT ; DECBLK n` returns `OK` and leaves the block that `ENCBLK` read. -/
def Obligations.BlockRoundTrip : Prop :=
  ∀ (n : Nat) (s t : State), Running s → Admitted s.params n → s.w.cap.toNat ≤ s.params.bufMax →
    exec (.encblk n) s = .next t → t.status.code = .ret .ok →
    ∃ u, runInstrs [.brinit t.bcnt, .decblk n] t = some u ∧ u.status = retStatus 0x79#8 .ok ∧
      ∀ idx, idx < n * n → u.readIB idx = s.readIB idx

/-! The host (20_memory.md R61, R62; 10_state.md R45; 30_encoding.md R89). -/

/-- R62, R67: a host read changes nothing of the core; in range it answers the element. R61: the register slots. -/
def Obligations.HostReadAnswersTheElement : Prop :=
  (∀ (s : State) (space index : Nat) (rest : List HostMove), s.port = .read space index :: rest →
    ∃ answer draws, step s = .next { s with port := rest, reply := answer, draws := draws } ∧
      ∀ sp, Space.ofId space = some sp → index < sp.length s.params → answer = s.element sp index ∧ draws = s.draws) ∧
  ∀ (s : State) (i : Nat), s.element .reg i = .value (s.readSlot i) ∧
    (s.readSlot 0).toNat = s.status.word.toNat ∧ (s.readSlot 1).toNat = s.valid.word.toNat ∧
    (s.readSlot 2).toNat = s.tn.toNat ∧
    (s.readSlot 3).toNat = s.qcfg.n.toNat + 2 ^ 12 * s.qcfg.quality.toNat + 2 ^ 20 * s.qcfg.adapt.toNat ∧
    s.readSlot 4 = s.var ∧ (s.readSlot 5).toNat = s.k.toNat ∧ (s.readSlot 6).toNat = s.rsn.toNat ∧
    (s.readSlot 7).toNat = s.bitr.toNat ∧ (s.readSlot 8).toNat = s.symr.toNat ∧
    (s.readSlot 9).toNat = s.w.cap.toNat ∧ (s.readSlot 10).toNat = s.w.byte.toNat ∧
    (s.readSlot 11).toNat = s.w.bitp.toNat ∧ (s.readSlot 12).toNat = s.r.cap.toNat ∧
    (s.readSlot 13).toNat = s.r.byte.toNat ∧ (s.readSlot 14).toNat = s.r.bitp.toNat ∧
    (s.readSlot 15).toNat = s.bcnt ∧ (16 ≤ i → s.readSlot i = 0#64)

/-- R62, R45, R61: a host write of a value that fits a writable element in range stores it; any other host write does nothing;
no other element changes, nor the trie, the parameters or the model's counters. It works on a halted core. That moves wait in
a list and that a write answers nothing is the model's own choice (log entries 1, 2). -/
def Obligations.HostWriteStoresOneElement : Prop :=
  ∀ (s : State) (space index : Nat) (v : DWord) (rest : List HostMove), s.port = .write space index v :: rest →
    ∃ t, step s = .next t ∧ t.port = rest ∧ t.reply = .nothing ∧
      (∀ sp idx, Space.ofId space ≠ some sp ∨ idx ≠ index → t.element sp idx = s.element sp idx) ∧
      t.mem.trie = s.mem.trie ∧ t.params = s.params ∧ t.epoch = s.epoch ∧ t.draws = s.draws ∧
      (∀ sp width, Space.ofId space = some sp → index < sp.length s.params → hostWidth sp index = some width →
        v.toNat < 2 ^ width → t.element sp index = .value v) ∧
      ((∀ sp, Space.ofId space = some sp → index < sp.length s.params → hostWidth sp index = none) →
        t = { s with port := rest, reply := .nothing })

/-- R89, R250: the pseudo-command `INIT` builds both contexts; with an inadmissible size it stops at `TINIT`'s fault. -/
def Obligations.PseudoInitBuildsBothContexts : Prop :=
  ∀ (n quality : Nat) (a : Bool) (s : State), Running s → n < 2 ^ 12 → quality < 2 ^ 8 →
    (Admitted s.params n → 1 ≤ quality → quality ≤ 100 →
      runInstrs [.tinit n, .qinit n quality a] s = some (runPseudo (.init n quality a) s) ∧
      (runPseudo (.init n quality a) s).valid.tcv = true ∧ (runPseudo (.init n quality a) s).valid.qcv = true) ∧
    (¬ Admitted s.params n → runPseudo (.init n quality a) s = faulted 0x10#8 .blocksize s)

/-! Invariants (10_state.md R46). -/

/-- R46, R30, R39: every step, of the host or of a command, keeps the invariant; R43: and the parameters. -/
def Obligations.InvariantKept : Prop :=
  ∀ s t : State, Inv s → step s = .next t → Inv t ∧ t.params = s.params

/-- R46: the invariant holds after every reset of an instance with legal parameters, the default among them. -/
def Obligations.InvariantAtReset : Prop :=
  (∀ (p : Params) (epoch : Nat), p.ok = true → Inv (State.atReset p epoch)) ∧ Inv State.reset
end

