-- ==== Sys2Proof/Laws/State.lean ====
section
/-! SUPPORT. One lemma per field per update of a state record, true by computation, and the accessors after each update. -/

namespace Sys2Proof.Machine

/-! `recordOp`. -/

@[simp] theorem recordOp_status (op : Byte) (s : State) : (recordOp op s).status = { s.status with op := op } := rfl
@[simp] theorem recordOp_valid (op : Byte) (s : State) : (recordOp op s).valid = s.valid := rfl
@[simp] theorem recordOp_tn (op : Byte) (s : State) : (recordOp op s).tn = s.tn := rfl
@[simp] theorem recordOp_qcfg (op : Byte) (s : State) : (recordOp op s).qcfg = s.qcfg := rfl
@[simp] theorem recordOp_var (op : Byte) (s : State) : (recordOp op s).var = s.var := rfl
@[simp] theorem recordOp_k (op : Byte) (s : State) : (recordOp op s).k = s.k := rfl
@[simp] theorem recordOp_rsn (op : Byte) (s : State) : (recordOp op s).rsn = s.rsn := rfl
@[simp] theorem recordOp_bitr (op : Byte) (s : State) : (recordOp op s).bitr = s.bitr := rfl
@[simp] theorem recordOp_symr (op : Byte) (s : State) : (recordOp op s).symr = s.symr := rfl
@[simp] theorem recordOp_w (op : Byte) (s : State) : (recordOp op s).w = s.w := rfl
@[simp] theorem recordOp_r (op : Byte) (s : State) : (recordOp op s).r = s.r := rfl
@[simp] theorem recordOp_mem (op : Byte) (s : State) : (recordOp op s).mem = s.mem := rfl
@[simp] theorem recordOp_params (op : Byte) (s : State) : (recordOp op s).params = s.params := rfl
@[simp] theorem recordOp_port (op : Byte) (s : State) : (recordOp op s).port = s.port := rfl
@[simp] theorem recordOp_reply (op : Byte) (s : State) : (recordOp op s).reply = s.reply := rfl
@[simp] theorem recordOp_epoch (op : Byte) (s : State) : (recordOp op s).epoch = s.epoch := rfl
@[simp] theorem recordOp_draws (op : Byte) (s : State) : (recordOp op s).draws = s.draws := rfl

/-! `postReturn`. -/

@[simp] theorem postReturn_status (c : RetCode) (s : State) : (postReturn c s).status = { s.status with code := .ret c } := rfl
@[simp] theorem postReturn_valid (c : RetCode) (s : State) : (postReturn c s).valid = s.valid := rfl
@[simp] theorem postReturn_tn (c : RetCode) (s : State) : (postReturn c s).tn = s.tn := rfl
@[simp] theorem postReturn_qcfg (c : RetCode) (s : State) : (postReturn c s).qcfg = s.qcfg := rfl
@[simp] theorem postReturn_var (c : RetCode) (s : State) : (postReturn c s).var = s.var := rfl
@[simp] theorem postReturn_k (c : RetCode) (s : State) : (postReturn c s).k = s.k := rfl
@[simp] theorem postReturn_rsn (c : RetCode) (s : State) : (postReturn c s).rsn = s.rsn := rfl
@[simp] theorem postReturn_bitr (c : RetCode) (s : State) : (postReturn c s).bitr = s.bitr := rfl
@[simp] theorem postReturn_symr (c : RetCode) (s : State) : (postReturn c s).symr = s.symr := rfl
@[simp] theorem postReturn_w (c : RetCode) (s : State) : (postReturn c s).w = s.w := rfl
@[simp] theorem postReturn_r (c : RetCode) (s : State) : (postReturn c s).r = s.r := rfl
@[simp] theorem postReturn_mem (c : RetCode) (s : State) : (postReturn c s).mem = s.mem := rfl
@[simp] theorem postReturn_params (c : RetCode) (s : State) : (postReturn c s).params = s.params := rfl
@[simp] theorem postReturn_port (c : RetCode) (s : State) : (postReturn c s).port = s.port := rfl
@[simp] theorem postReturn_reply (c : RetCode) (s : State) : (postReturn c s).reply = s.reply := rfl
@[simp] theorem postReturn_epoch (c : RetCode) (s : State) : (postReturn c s).epoch = s.epoch := rfl
@[simp] theorem postReturn_draws (c : RetCode) (s : State) : (postReturn c s).draws = s.draws := rfl

/-! `takeFault`. -/

@[simp] theorem takeFault_status (f : CoreFault) (s : State) : (takeFault f s).status = { s.status with code := .fault f, halt := true } := rfl
@[simp] theorem takeFault_valid (f : CoreFault) (s : State) : (takeFault f s).valid = s.valid := rfl
@[simp] theorem takeFault_tn (f : CoreFault) (s : State) : (takeFault f s).tn = s.tn := rfl
@[simp] theorem takeFault_qcfg (f : CoreFault) (s : State) : (takeFault f s).qcfg = s.qcfg := rfl
@[simp] theorem takeFault_var (f : CoreFault) (s : State) : (takeFault f s).var = s.var := rfl
@[simp] theorem takeFault_k (f : CoreFault) (s : State) : (takeFault f s).k = s.k := rfl
@[simp] theorem takeFault_rsn (f : CoreFault) (s : State) : (takeFault f s).rsn = s.rsn := rfl
@[simp] theorem takeFault_bitr (f : CoreFault) (s : State) : (takeFault f s).bitr = s.bitr := rfl
@[simp] theorem takeFault_symr (f : CoreFault) (s : State) : (takeFault f s).symr = s.symr := rfl
@[simp] theorem takeFault_w (f : CoreFault) (s : State) : (takeFault f s).w = s.w := rfl
@[simp] theorem takeFault_r (f : CoreFault) (s : State) : (takeFault f s).r = s.r := rfl
@[simp] theorem takeFault_mem (f : CoreFault) (s : State) : (takeFault f s).mem = s.mem := rfl
@[simp] theorem takeFault_params (f : CoreFault) (s : State) : (takeFault f s).params = s.params := rfl
@[simp] theorem takeFault_port (f : CoreFault) (s : State) : (takeFault f s).port = s.port := rfl
@[simp] theorem takeFault_reply (f : CoreFault) (s : State) : (takeFault f s).reply = s.reply := rfl
@[simp] theorem takeFault_epoch (f : CoreFault) (s : State) : (takeFault f s).epoch = s.epoch := rfl
@[simp] theorem takeFault_draws (f : CoreFault) (s : State) : (takeFault f s).draws = s.draws := rfl

/-! `doReset`. -/

@[simp] theorem doReset_status (s : State) : (doReset s).status = { code := .ret .ok, op := 0#8, halt := false } := rfl
@[simp] theorem doReset_valid (s : State) : (doReset s).valid = { tcv := false, qcv := false, wv := false, rv := false, ccv := false, trv := false } := rfl
@[simp] theorem doReset_tn (s : State) : (doReset s).tn = 0#12 := rfl
@[simp] theorem doReset_qcfg (s : State) : (doReset s).qcfg = { n := 0#12, quality := 0#8, adapt := false } := rfl
@[simp] theorem doReset_var (s : State) : (doReset s).var = Config.unspecified 64 .reg (s.epoch + 1) 4 := rfl
@[simp] theorem doReset_k (s : State) : (doReset s).k = 0#16 := rfl
@[simp] theorem doReset_rsn (s : State) : (doReset s).rsn = 0#16 := rfl
@[simp] theorem doReset_bitr (s : State) : (doReset s).bitr = false := rfl
@[simp] theorem doReset_symr (s : State) : (doReset s).symr = 0#16 := rfl
@[simp] theorem doReset_w (s : State) : (doReset s).w = { cap := 0#24, byte := 0#24, bitp := 0#3 } := rfl
@[simp] theorem doReset_r (s : State) : (doReset s).r = { cap := 0#24, byte := 0#24, bitp := 0#3 } := rfl
@[simp] theorem doReset_mem (s : State) : (doReset s).mem = Memory.unwritten := rfl
@[simp] theorem doReset_params (s : State) : (doReset s).params = s.params := rfl
@[simp] theorem doReset_port (s : State) : (doReset s).port = s.port := rfl
@[simp] theorem doReset_reply (s : State) : (doReset s).reply = s.reply := rfl
@[simp] theorem doReset_epoch (s : State) : (doReset s).epoch = s.epoch + 1 := rfl
@[simp] theorem doReset_draws (s : State) : (doReset s).draws = s.draws := rfl

/-! `presentWord`. -/

@[simp] theorem presentWord_status (c : Word) (s : State) : (presentWord c s).status = s.status := rfl
@[simp] theorem presentWord_valid (c : Word) (s : State) : (presentWord c s).valid = s.valid := rfl
@[simp] theorem presentWord_tn (c : Word) (s : State) : (presentWord c s).tn = s.tn := rfl
@[simp] theorem presentWord_qcfg (c : Word) (s : State) : (presentWord c s).qcfg = s.qcfg := rfl
@[simp] theorem presentWord_var (c : Word) (s : State) : (presentWord c s).var = s.var := rfl
@[simp] theorem presentWord_k (c : Word) (s : State) : (presentWord c s).k = s.k := rfl
@[simp] theorem presentWord_rsn (c : Word) (s : State) : (presentWord c s).rsn = s.rsn := rfl
@[simp] theorem presentWord_bitr (c : Word) (s : State) : (presentWord c s).bitr = s.bitr := rfl
@[simp] theorem presentWord_symr (c : Word) (s : State) : (presentWord c s).symr = s.symr := rfl
@[simp] theorem presentWord_w (c : Word) (s : State) : (presentWord c s).w = s.w := rfl
@[simp] theorem presentWord_r (c : Word) (s : State) : (presentWord c s).r = s.r := rfl
@[simp] theorem presentWord_mem (c : Word) (s : State) : (presentWord c s).mem = s.mem := rfl
@[simp] theorem presentWord_params (c : Word) (s : State) : (presentWord c s).params = s.params := rfl
@[simp] theorem presentWord_port (c : Word) (s : State) : (presentWord c s).port = .command c :: s.port := rfl
@[simp] theorem presentWord_reply (c : Word) (s : State) : (presentWord c s).reply = s.reply := rfl
@[simp] theorem presentWord_epoch (c : Word) (s : State) : (presentWord c s).epoch = s.epoch := rfl
@[simp] theorem presentWord_draws (c : Word) (s : State) : (presentWord c s).draws = s.draws := rfl

/-! Cursors. -/

@[simp] theorem bind_cap (cap : Nat) : (Cursor.bind cap).cap = BitVec.ofNat 24 cap := rfl
@[simp] theorem bind_pos (cap : Nat) : (Cursor.bind cap).pos = 0 := rfl
@[simp] theorem rewind_cap (c : Cursor) : c.rewind.cap = c.cap := rfl
@[simp] theorem rewind_pos (c : Cursor) : c.rewind.pos = 0 := rfl
@[simp] theorem advance_cap (c : Cursor) : c.advance.cap = c.cap := by unfold Cursor.advance; split <;> rfl

/-- One bit further, while a bit fits the capacity: no field wraps. -/
theorem advance_pos (c : Cursor) (h : c.pos < 8 * c.cap.toNat) : c.advance.pos = c.pos + 1 := by
  have hcap := c.cap.isLt
  have hbyte := c.byte.isLt
  have hbit := c.bitp.isLt
  unfold Cursor.pos at h
  unfold Cursor.advance Cursor.pos
  split
  · rename_i h7
    simp only [h7, BitVec.toNat_add, BitVec.toNat_ofNat] at h ⊢
    omega
  · rename_i h7
    have : c.bitp.toNat ≠ 7 := fun e => h7 (BitVec.eq_of_toNat_eq (by simpa using e))
    simp only [BitVec.toNat_add, BitVec.toNat_ofNat]
    omega

end Sys2Proof.Machine
end

