-- ==== Sys2Proof/Laws/Buffer.lean ====
section
/-! SUPPORT. Buffers: what a read answers after a write, and that every memory operation keeps the canonical form. -/

namespace Sys2Proof.Machine

variable {α : Type}

/-! Reading after writing. -/

@[simp] theorem get_nil (i : Nat) : Buf.get ([] : Buf α) i = none := rfl

theorem get_set (b : Buf α) (i j : Nat) (v : α) :
    Buf.get (Buf.set b i v) j = if j = i then some v else Buf.get b j := by
  induction b with
  | nil => simp [Buf.set, Buf.get]
  | cons e rest ih =>
    obtain ⟨k, u⟩ := e
    simp only [Buf.set]
    by_cases hlt : i < k
    · simp only [hlt, if_true, Buf.get]
    · by_cases heq : i = k
      · subst heq
        simp only [lt_irrefl, if_false, if_true, Buf.get]
        by_cases hj : j = i <;> simp [hj]
      · simp only [hlt, heq, if_false, Buf.get, ih]
        by_cases hjk : j = k
        · subst hjk; simp [Ne.symm heq]
        · simp [hjk]

theorem get_place (i j : Nat) (vs : List α) :
    Buf.get (Buf.place i vs) j = if i ≤ j then vs[j - i]? else none := by
  induction vs generalizing i with
  | nil => simp [Buf.place]
  | cons v rest ih =>
    simp only [Buf.place, Buf.get, ih]
    by_cases hj : j = i
    · subst hj; simp
    · by_cases hle : i ≤ j
      · have h1 : i + 1 ≤ j := by omega
        have h2 : j - i = (j - (i + 1)) + 1 := by omega
        simp [hj, hle, h1, h2]
      · have h1 : ¬ i + 1 ≤ j := by omega
        simp [hj, hle, h1]

theorem get_append (a b : Buf α) (i : Nat) : Buf.get (a ++ b) i = (Buf.get a i).or (Buf.get b i) := by
  induction a with
  | nil => simp
  | cons e rest ih =>
    obtain ⟨k, u⟩ := e
    simp only [List.cons_append, Buf.get, ih]
    by_cases h : i = k <;> simp [h]

theorem get_filter_from (len i : Nat) (b : Buf α) :
    Buf.get (b.filter (fun e => decide (len ≤ e.1))) i = if len ≤ i then Buf.get b i else none := by
  induction b with
  | nil => simp
  | cons e rest ih =>
    obtain ⟨k, u⟩ := e
    by_cases hk : len ≤ k
    · simp only [List.filter_cons, hk, decide_true, if_true, Buf.get, ih]
      by_cases hi : i = k
      · subst hi; simp [hk]
      · simp [hi]
    · simp only [List.filter_cons, hk, decide_false, Bool.false_eq_true, if_false, Buf.get, ih]
      by_cases hi : i = k
      · subst hi; simp [hk]
      · simp [hi]

/-- A fill writes the elements below its length and no other. -/
theorem get_fill (b : Buf α) (vs : List α) (i : Nat) :
    Buf.get (Buf.fill b vs) i = if i < vs.length then vs[i]? else Buf.get b i := by
  unfold Buf.fill
  rw [get_append, get_place, get_filter_from]
  by_cases h : i < vs.length
  · simp [h, Nat.not_le.mpr h]
  · simp [h, Nat.le_of_not_lt h]

/-- Writes at other indices leave an element alone. -/
theorem get_scatter_of_not_mem (read : Nat → α) (idxs : List Nat) (k : Nat) (b : Buf α) (i : Nat) (h : i ∉ idxs) :
    Buf.get (scatter read k idxs b) i = Buf.get b i := by
  induction idxs generalizing k b with
  | nil => rfl
  | cons j rest ih =>
    simp only [List.mem_cons, not_or] at h
    rw [scatter, ih _ _ h.2, get_set, if_neg h.1]

/-- Writes at distinct indices: the one listed at position `p` holds the element read at `k + p`. -/
theorem get_scatter (read : Nat → α) (idxs : List Nat) (k : Nat) (b : Buf α) (p i : Nat) (hnd : idxs.Nodup)
    (hp : idxs[p]? = some i) : Buf.get (scatter read k idxs b) i = some (read (k + p)) := by
  induction idxs generalizing k b p with
  | nil => simp at hp
  | cons j rest ih =>
    rw [List.nodup_cons] at hnd
    rw [scatter]
    cases p with
    | zero =>
      simp only [List.getElem?_cons_zero, Option.some.injEq] at hp
      subst hp
      rw [get_scatter_of_not_mem _ _ _ _ _ hnd.1, get_set]
      simp
    | succ p =>
      simp only [List.getElem?_cons_succ] at hp
      rw [ih _ _ _ hnd.2 hp]
      congr 2
      omega

/-! The canonical form. -/

theorem wf_iff (len : Nat) (b : Buf α) :
    Buf.wf len b = true ↔ b.Pairwise (fun d e => d.1 < e.1) ∧ ∀ e ∈ b, e.1 < len := by
  have hr : ∀ b : Buf α, Buf.rising b = true ↔ b.Pairwise (fun d e => d.1 < e.1) := by
    intro b
    induction b with
    | nil => simp [Buf.rising]
    | cons e rest ih =>
      obtain ⟨k, u⟩ := e
      simp [Buf.rising, ih, List.pairwise_cons]
  simp [Buf.wf, hr]

@[simp] theorem wf_nil (len : Nat) : Buf.wf len ([] : Buf α) = true := rfl

theorem mem_set (b : Buf α) (i : Nat) (v : α) (e : Nat × α) (h : e ∈ Buf.set b i v) : e.1 = i ∨ e ∈ b := by
  induction b with
  | nil => simp only [Buf.set, List.mem_singleton] at h; exact .inl (by rw [h])
  | cons d rest ih =>
    obtain ⟨k, u⟩ := d
    simp only [Buf.set] at h
    split at h
    · rcases List.mem_cons.mp h with rfl | h
      · exact .inl rfl
      · exact .inr h
    · split at h
      · rcases List.mem_cons.mp h with rfl | h
        · exact .inl rfl
        · exact .inr (List.mem_cons_of_mem _ h)
      · rcases List.mem_cons.mp h with rfl | h
        · exact .inr List.mem_cons_self
        · exact (ih h).imp id (List.mem_cons_of_mem _)

/-- A write within the buffer keeps the canonical form. -/
theorem wf_set (len : Nat) (b : Buf α) (i : Nat) (v : α) (hi : i < len) (h : Buf.wf len b = true) :
    Buf.wf len (Buf.set b i v) = true := by
  rw [wf_iff] at h ⊢
  refine ⟨?_, fun e he => ?_⟩
  · obtain ⟨h, -⟩ := h
    induction b with
    | nil => simp [Buf.set]
    | cons d rest ih =>
      obtain ⟨k, u⟩ := d
      rw [List.pairwise_cons] at h
      simp only [Buf.set]
      split
      · rename_i hlt
        refine List.pairwise_cons.mpr ⟨fun e he => ?_, List.pairwise_cons.mpr h⟩
        rcases List.mem_cons.mp he with rfl | he
        · exact hlt
        · exact Nat.lt_trans hlt (h.1 e he)
      · split
        · rename_i heq
          subst heq
          exact List.pairwise_cons.mpr h
        · rename_i hlt hne
          refine List.pairwise_cons.mpr ⟨fun e he => ?_, ih h.2⟩
          rcases mem_set _ _ _ _ he with heq | he
          · show k < e.1
            omega
          · exact h.1 e he
  · rcases mem_set _ _ _ _ he with heq | he
    · omega
    · exact h.2 e he

theorem mem_place (i : Nat) (vs : List α) (e : Nat × α) (h : e ∈ Buf.place i vs) :
    i ≤ e.1 ∧ e.1 < i + vs.length := by
  induction vs generalizing i with
  | nil => simp [Buf.place] at h
  | cons v rest ih =>
    rcases List.mem_cons.mp h with rfl | h
    · simp
    · have := ih _ h
      simp only [List.length_cons]
      omega

theorem pairwise_place (i : Nat) (vs : List α) : (Buf.place i vs).Pairwise (fun d e => d.1 < e.1) := by
  induction vs generalizing i with
  | nil => exact .nil
  | cons v rest ih => exact List.pairwise_cons.mpr ⟨fun e he => (mem_place _ _ _ he).1, ih _⟩

/-- A fill within the buffer keeps the canonical form. -/
theorem wf_fill (len : Nat) (b : Buf α) (vs : List α) (hl : vs.length ≤ len) (h : Buf.wf len b = true) :
    Buf.wf len (Buf.fill b vs) = true := by
  rw [wf_iff] at h ⊢
  unfold Buf.fill
  refine ⟨List.pairwise_append.mpr ⟨pairwise_place _ _, h.1.filter _, fun d hd e he => ?_⟩, fun e he => ?_⟩
  · have h1 := (mem_place _ _ _ hd).2
    have h2 := (List.mem_filter.mp he).2
    simp only [decide_eq_true_eq] at h2
    omega
  · rcases List.mem_append.mp he with he | he
    · have := (mem_place _ _ _ he).2
      omega
    · exact h.2 e (List.mem_filter.mp he).1

theorem wf_scatter (len : Nat) (read : Nat → α) (idxs : List Nat) (k : Nat) (b : Buf α) (hi : ∀ i ∈ idxs, i < len)
    (h : Buf.wf len b = true) : Buf.wf len (scatter read k idxs b) = true := by
  induction idxs generalizing k b with
  | nil => exact h
  | cons i rest ih =>
    exact ih _ _ (fun j hj => hi j (List.mem_cons_of_mem _ hj)) (wf_set _ _ _ _ (hi i List.mem_cons_self) h)

/-- Reset memory is in canonical form. -/
theorem wf_unwritten (p : Params) : Memory.wf p Memory.unwritten = true := rfl

/-- A host write keeps the canonical form of memory. -/
theorem wf_hostWrite (space index : Nat) (v : DWord) (s : State) (h : Memory.wf s.params s.mem = true) :
    Memory.wf s.params (hostWrite space index v s).mem = true := by
  unfold hostWrite
  split
  · rename_i sp hsp
    have hi : index < sp.length s.params := by
      simp only [spaceAt, Option.filter_eq_some_iff, decide_eq_true_eq] at hsp
      exact hsp.2
    simp only [Memory.wf, Bool.and_eq_true] at h
    obtain ⟨⟨⟨⟨⟨⟨⟨⟨⟨⟨⟨⟨⟨⟨h1, h2⟩, h3⟩, h4⟩, h5⟩, h6⟩, h7⟩, h8⟩, h9⟩, h10⟩, h11⟩, h12⟩, h13⟩, h14⟩, h15⟩ := h
    cases sp <;> simp only [State.writeElement, Space.length] at hi ⊢
    case reg => unfold State.writeSlot; split <;> simp [Memory.wf, *]
    all_goals simp [Memory.wf, wf_set, *]
  · exact h

end Sys2Proof.Machine
end

