-- ==== Sys2Proof/Laws/Bits.lean ====
section
/-! SUPPORT. The bit writer, the bit reader, the field reader and the trie walk: what each can do, said once. -/

namespace Sys2Proof.Machine

/-! The writer (45_bitstream.md R192). -/

/-- `write_bit` fails exactly at the capacity, and otherwise writes one byte and moves the writer by one bit. -/
theorem writeBit_cases (s : State) (b : Bool) :
    (8 * s.w.cap.toNat ≤ s.wpos ∧ writeBit s b = none) ∨
    (s.wpos < 8 * s.w.cap.toNat ∧ ∃ t, writeBit s b = some t ∧ t.wpos = s.wpos + 1 ∧ t.w.cap = s.w.cap ∧
      t.mem.bs = Buf.set s.mem.bs s.w.byte.toNat (putBit (s.readBS s.w.byte.toNat) s.w.bitp.toNat b) ∧
      t = { s with mem := { s.mem with bs := t.mem.bs }, w := t.w }) := by
  by_cases h : 8 * s.w.cap.toNat ≤ s.w.pos
  · exact .inl ⟨h, if_pos h⟩
  · exact .inr ⟨Nat.lt_of_not_le h, _, if_neg h, advance_pos _ (Nat.lt_of_not_le h), advance_cap _, rfl, rfl⟩

/-- Writing touches the writer and `BS` only, moves the writer by at most the bits given, and by all of them on success. -/
theorem writeBits_frame (bits : List Bool) (s : State) :
    (writeBits s bits).1 = { s with mem := { s.mem with bs := (writeBits s bits).1.mem.bs }, w := (writeBits s bits).1.w } ∧
    (writeBits s bits).1.w.cap = s.w.cap ∧
    (writeBits s bits).1.wpos = s.wpos + min bits.length (8 * s.w.cap.toNat - s.wpos) ∧
    ((writeBits s bits).2 = true ↔ bits.length ≤ 8 * s.w.cap.toNat - s.wpos) := by
  induction bits generalizing s with
  | nil => simp [writeBits]
  | cons b rest ih =>
    rcases writeBit_cases s b with ⟨hfull, hw⟩ | ⟨hroom, t, hw, hpos, hcap, -, ht⟩
    · simp only [writeBits, hw, List.length_cons]
      have : 8 * s.w.cap.toNat - s.wpos = 0 := by omega
      simp [this]
    · obtain ⟨h1, h2, h3, h4⟩ := ih t
      simp only [writeBits, hw, List.length_cons]
      refine ⟨?_, h2.trans hcap, ?_, ?_⟩
      · rw [h1, ht]
      · rw [h3, hpos, hcap]; omega
      · rw [h4, hpos, hcap]; omega

theorem wf_with_bs (p : Params) (m : Memory) (bs : List Host.Cell) (h : Memory.wf p m = true)
    (hbs : Buf.wf p.bufMax bs = true) : Memory.wf p { m with bs := bs } = true := by
  simp only [Memory.wf, Bool.and_eq_true] at h ⊢
  exact ⟨h.1, hbs⟩

/-- Writing within the buffer keeps the canonical form. -/
theorem wf_writeBits (p : Params) (bits : List Bool) (s : State) (hcap : s.w.cap.toNat ≤ p.bufMax)
    (h : Memory.wf p s.mem = true) : Memory.wf p (writeBits s bits).1.mem = true := by
  induction bits generalizing s with
  | nil => exact h
  | cons b rest ih =>
    rcases writeBit_cases s b with ⟨-, hw⟩ | ⟨hroom, t, hw, -, hwcap, hbs, ht⟩
    · simpa only [writeBits, hw] using h
    · simp only [writeBits, hw]
      refine ih t (by rw [hwcap]; exact hcap) ?_
      have hbit := s.w.bitp.isLt
      have hbyte : s.w.byte.toNat < p.bufMax := by unfold State.wpos Cursor.pos at hroom; omega
      rw [ht, hbs]
      simp only [Memory.wf, Bool.and_eq_true] at h
      exact wf_with_bs p s.mem _ (by simpa only [Memory.wf, Bool.and_eq_true] using h) (wf_set _ _ _ _ hbyte h.2)

/-! The reader (R196, R198). -/

/-- `read_bit` fails exactly at the declared size, and otherwise moves the reader by one bit and changes nothing else. -/
theorem readBit_cases (s : State) :
    (8 * s.r.cap.toNat ≤ s.rpos ∧ readBit s = none) ∨
    (s.rpos < 8 * s.r.cap.toNat ∧ ∃ b t, readBit s = some (b, t) ∧
      b = (s.readBS (s.rpos / 8)).getLsbD (7 - s.rpos % 8) ∧ t.rpos = s.rpos + 1 ∧ t.r.cap = s.r.cap ∧
      t = { s with r := t.r }) := by
  by_cases h : 8 * s.r.cap.toNat ≤ s.r.pos
  · exact .inl ⟨h, if_pos h⟩
  · have hbit := s.r.bitp.isLt
    refine .inr ⟨Nat.lt_of_not_le h, _, _, if_neg h, ?_, advance_pos _ (Nat.lt_of_not_le h), advance_cap _, rfl⟩
    · have h1 : s.rpos / 8 = s.r.byte.toNat := by unfold State.rpos Cursor.pos; omega
      have h2 : s.rpos % 8 = s.r.bitp.toNat := by unfold State.rpos Cursor.pos; omega
      rw [h1, h2]

/-- A field read moves the reader by its width, or to the declared size where it fails; nothing else changes. -/
theorem readField_frame (width v : Nat) (s : State) :
    (readField width v s).2 = { s with r := (readField width v s).2.r } ∧
    (readField width v s).2.r.cap = s.r.cap ∧
    (readField width v s).2.rpos = s.rpos + min width (8 * s.r.cap.toNat - s.rpos) ∧
    ((readField width v s).1.isSome = true ↔ width ≤ 8 * s.r.cap.toNat - s.rpos) := by
  induction width generalizing v s with
  | zero => simp [readField]
  | succ width ih =>
    rcases readBit_cases s with ⟨hend, hr⟩ | ⟨hroom, b, t, hr, -, hpos, hcap, ht⟩
    · have : 8 * s.r.cap.toNat - s.rpos = 0 := by omega
      simp [readField, hr, this]
    · obtain ⟨h1, h2, h3, h4⟩ := ih (2 * v + b.toNat) t
      simp only [readField, hr]
      refine ⟨?_, h2.trans hcap, ?_, ?_⟩
      · rw [h1, ht]
      · rw [h3, hpos, hcap]; omega
      · rw [h4, hpos, hcap]; omega

/-- Reading header entries within the tables keeps the canonical form. -/
theorem wf_readEntries (p : Params) (left i : Nat) (s : State) (hi : i + left ≤ p.symMax)
    (h : Memory.wf p s.mem = true) : Memory.wf p (readEntries left i s).2.mem = true := by
  induction left generalizing i s with
  | zero => exact h
  | succ left ih =>
    have h1 : (readField 32 0 s).2.mem = s.mem := by rw [(readField_frame 32 0 s).1]
    unfold readEntries
    split
    · rename_i s1 e1
      rw [e1] at h1
      rw [h1]
      exact h
    · rename_i v s1 e1
      rw [e1] at h1
      have h2 : (readField 8 0 s1).2.mem = s1.mem := by rw [(readField_frame 8 0 s1).1]
      split
      · rename_i s2 e2
        rw [e2] at h2
        rw [h2, h1]
        exact h
      · rename_i l s2 e2
        rw [e2] at h2
        have hm : s2.mem = s.mem := h2.trans h1
        split
        · rw [hm]
          exact h
        · refine ih (i + 1) _ (by omega) ?_
          rw [hm]
          simp only [Memory.wf, Bool.and_eq_true] at h ⊢
          obtain ⟨⟨⟨⟨⟨⟨h0, hst⟩, hfq⟩, hcl⟩, htc⟩, hcc⟩, hbs⟩ := h
          exact ⟨⟨⟨⟨⟨⟨h0, wf_set _ _ _ _ (by omega) hst⟩, hfq⟩, wf_set _ _ _ _ (by omega) hcl⟩, htc⟩, hcc⟩, hbs⟩

/-! The trie (44_huffman.md R180, R182). -/

/-- A walk moves the reader and changes nothing else. -/
theorem walk_frame (t : Trie) (s : State) :
    (walk t s).2 = { s with r := (walk t s).2.r } ∧ (walk t s).2.r.cap = s.r.cap := by
  induction t generalizing s with
  | absent => exact ⟨rfl, rfl⟩
  | leaf i => exact ⟨rfl, rfl⟩
  | node l r ihl ihr =>
    rcases readBit_cases s with ⟨-, hr⟩ | ⟨-, b, u, hr, -, -, hcap, hu⟩
    · simp [walk, hr]
    · cases b
      · obtain ⟨h1, h2⟩ := ihl u
        simp only [walk, hr]
        exact ⟨by rw [h1, hu], h2.trans hcap⟩
      · obtain ⟨h1, h2⟩ := ihr u
        simp only [walk, hr]
        exact ⟨by rw [h1, hu], h2.trans hcap⟩

/-- An inserted code is found, and every other string leads where it led. -/
theorem lookup_insert (i : BitVec 16) (code : List Bool) (t u : Trie) (h : Trie.insert i code t = some u)
    (bits : List Bool) : u.lookup bits = if bits = code then some i else t.lookup bits := by
  induction code generalizing t u bits with
  | nil =>
    cases t <;> simp only [Trie.insert, Option.some.injEq, reduceCtorEq] at h
    subst h
    cases bits <;> simp [Trie.lookup]
  | cons b code ih =>
    cases t with
    | leaf j => cases b <;> simp [Trie.insert] at h
    | absent =>
      cases b <;> simp only [Trie.insert, Option.map_eq_some_iff] at h <;> obtain ⟨v, hv, rfl⟩ := h <;>
        rcases bits with _ | ⟨c, bits⟩ <;> try simp [Trie.lookup]
      all_goals cases c <;> simp [Trie.lookup, ih _ _ hv]
    | node l r =>
      cases b <;> simp only [Trie.insert, Option.map_eq_some_iff] at h <;> obtain ⟨v, hv, rfl⟩ := h <;>
        rcases bits with _ | ⟨c, bits⟩ <;> try simp [Trie.lookup]
      all_goals cases c <;> simp [Trie.lookup, ih _ _ hv]

/-! Fields. -/

@[simp] theorem length_fieldBits (width v : Nat) : (fieldBits width v).length = width := by simp [fieldBits]

theorem bitsValue_append_singleton (bits : List Bool) (b : Bool) :
    bitsValue (bits ++ [b]) = 2 * bitsValue bits + b.toNat := by simp [bitsValue]

theorem fieldBits_succ (width v : Nat) : fieldBits (width + 1) v = fieldBits width (v / 2) ++ [v.testBit 0] := by
  refine List.ext_getElem (by simp) fun k hk _ => ?_
  simp only [length_fieldBits] at hk
  by_cases h : k < width
  · have : width + 1 - 1 - k = (width - 1 - k) + 1 := by omega
    simp only [fieldBits, List.getElem_append, List.length_map, List.length_range, h, dif_pos, List.getElem_map,
      List.getElem_range, this, Nat.testBit_succ]
  · have : k = width := by omega
    subst this
    simp [fieldBits]

/-- The bits of a field write its value. -/
theorem bitsValue_fieldBits (width v : Nat) (h : v < 2 ^ width) : bitsValue (fieldBits width v) = v := by
  induction width generalizing v with
  | zero => simp only [pow_zero, Nat.lt_one_iff] at h; subst h; rfl
  | succ width ih =>
    rw [fieldBits_succ, bitsValue_append_singleton, ih (v / 2) (by rw [pow_succ] at h; omega)]
    have : (v.testBit 0).toNat = v % 2 := by
      rcases Nat.mod_two_eq_zero_or_one v with h | h <;> simp [Nat.testBit_zero, h]
    omega

theorem bitsValue_lt (bits : List Bool) : bitsValue bits < 2 ^ bits.length := by
  induction bits using List.reverseRecOn with
  | nil => decide
  | append_singleton bits b ih =>
    rw [bitsValue_append_singleton, List.length_append, List.length_singleton, pow_succ]
    have : b.toNat ≤ 1 := Bool.toNat_le b
    omega

/-- A bit string is the field of its value. -/
theorem fieldBits_bitsValue (bits : List Bool) : fieldBits bits.length (bitsValue bits) = bits := by
  induction bits using List.reverseRecOn with
  | nil => rfl
  | append_singleton bits b ih =>
    rw [List.length_append, List.length_singleton, fieldBits_succ, bitsValue_append_singleton]
    have h1 : (2 * bitsValue bits + b.toNat) / 2 = bitsValue bits := by
      have : b.toNat ≤ 1 := Bool.toNat_le b
      omega
    have h2 : (2 * bitsValue bits + b.toNat).testBit 0 = b := by cases b <;> simp [Nat.testBit_zero]
    rw [h1, ih, h2]

/-- The code made of a bit string of at most 255 bits has that bit string. -/
theorem str_ofStr (bits : List Bool) (h : bits.length ≤ 255) : (HuffCode.ofStr bits).str = bits := by
  have h1 : bits.length % 2 ^ 8 = bits.length := Nat.mod_eq_of_lt (by omega)
  have h2 : bitsValue bits % 2 ^ 255 = bitsValue bits :=
    Nat.mod_eq_of_lt (Nat.lt_of_lt_of_le (bitsValue_lt bits) (Nat.pow_le_pow_right (by omega) h))
  rw [HuffCode.ofStr, HuffCode.mkCode, HuffCode.str, BitVec.toNat_ofNat, BitVec.toNat_ofNat, h1, h2,
    fieldBits_bitsValue]

end Sys2Proof.Machine
end

