-- ==== Sys2Proof/Laws/Codes.lean ====
section
/-! SUPPORT. Codes are codes (10_state.md R39). -/

namespace Sys2Proof.Machine

/-- A length in 1..255 with a number that fits it makes a code. -/
theorem mkCode_ok (len bits : Nat) (h1 : 1 ≤ len) (h255 : len ≤ 255) (h : bits < 2 ^ len) : (HuffCode.mkCode len bits).Ok := by
  have hpow : 2 ^ len ≤ 2 ^ 255 := Nat.pow_le_pow_right (by omega) h255
  simp only [HuffCode.Ok, HuffCode.mkCode, BitVec.toNat_ofNat]
  rw [Nat.mod_eq_of_lt (show len < 2 ^ 8 by omega), Nat.mod_eq_of_lt (show bits < 2 ^ 255 by omega)]
  exact ⟨h1, h⟩

/-- What an unwritten element of `TC` or `CC` reads as is a code, whatever the free value is. -/
theorem freeCode_ok (raw : BitVec 263) : (freeCode raw).Ok := by
  have := (raw.extractLsb' 255 8).isLt
  exact mkCode_ok _ _ (Nat.le_max_left _ _) (by omega) (Nat.mod_lt _ (by positivity))

/-- With no code written every code held is one. -/
theorem codesInv_unwritten (s : State) (htc : s.mem.tc = []) (hcc : s.mem.cc = []) : CodesInv s := by
  intro i
  simp only [State.readTC, State.readCC, htc, hcc, Buf.get]
  exact ⟨freeCode_ok _, freeCode_ok _⟩

end Sys2Proof.Machine
end

