-- ==== Sys2Proof/Laws/Command.lean ====
section
/-! SUPPORT. What the common steps of a command can do, said once: `runCommand`, `Result.andThen`, `withBlock`, a step. -/

namespace Sys2Proof.Machine

/-! `runCommand` (47_system.md R230): a halted core ignores the command; a running one posts what the body returned or takes
what it raised. -/

theorem runCommand_halted (op : Byte) (body : State → Result) (s : State) (h : s.status.halt = true) :
    runCommand op body s = s := by simp [runCommand, h]

theorem runCommand_ret (op : Byte) (body : State → Result) (s t : State) (c : RetCode) (h : s.status.halt = false)
    (hb : body (recordOp op s) = .ret c t) : runCommand op body s = postReturn c t := by simp [runCommand, h, hb]

theorem runCommand_raise (op : Byte) (body : State → Result) (s : State) (f : CoreFault) (h : s.status.halt = false)
    (hb : body (recordOp op s) = .raise f) : runCommand op body s = takeFault f (recordOp op s) := by
  simp [runCommand, h, hb]

theorem runCommand_cases (op : Byte) (body : State → Result) (s : State) :
    (s.status.halt = true ∧ runCommand op body s = s) ∨
    (s.status.halt = false ∧ ∃ c t, body (recordOp op s) = .ret c t ∧ runCommand op body s = postReturn c t) ∨
    (s.status.halt = false ∧ ∃ f, body (recordOp op s) = .raise f ∧
      runCommand op body s = takeFault f (recordOp op s)) := by
  cases hh : s.status.halt with
  | true => exact .inl ⟨rfl, runCommand_halted _ _ _ hh⟩
  | false =>
    cases hb : body (recordOp op s) with
    | ret c t => exact .inr (.inl ⟨rfl, c, t, rfl, runCommand_ret _ _ _ _ _ hh hb⟩)
    | raise f => exact .inr (.inr ⟨rfl, f, rfl, runCommand_raise _ _ _ _ hh hb⟩)

/-- A command always answers a next state. -/
theorem command_eq (op : Byte) (body : State → Result) (s : State) :
    command op body s = .next (runCommand op body s) := rfl

/-- So does every command of the table. -/
theorem exec_next (i : Instr) (s : State) : ∃ t, exec i s = .next t := by cases i <;> exact ⟨_, rfl⟩

/-- And every word presented at the port. -/
theorem coreCommand_next (w : Word) (s : State) : ∃ t, coreCommand w s = .next t := by
  unfold coreCommand
  split
  · split
    · exact exec_next _ _
    · exact ⟨_, rfl⟩
  · split
    · exact ⟨_, rfl⟩
    · exact exec_next _ _

/-- And every step. -/
theorem step_next (s : State) : ∃ t, step s = .next t := by
  unfold step takeMove
  split
  · exact ⟨_, rfl⟩
  · rename_i m rest _
    cases m with
    | command w =>
      obtain ⟨t, ht⟩ := coreCommand_next w { s with port := rest }
      exact ⟨{ t with reply := .status t.status.word }, by simp [hostMove, ht, answerStatus]⟩
    | write i j v => exact ⟨_, rfl⟩
    | read i j => exact ⟨_, rfl⟩
    | reset => exact ⟨_, rfl⟩

/-! `Result.andThen` and `withBlock`. -/

@[simp] theorem andThen_ret (c : RetCode) (s : State) (k : RetCode → State → Result) :
    (Result.ret c s).andThen k = k c s := rfl

@[simp] theorem andThen_raise (f : CoreFault) (k : RetCode → State → Result) :
    (Result.raise f).andThen k = .raise f := rfl

theorem blockSizeOk_iff (p : Params) (n : Nat) :
    blockSizeOk p n = true ↔ 1 ≤ n ∧ n ≤ p.nMax ∧ n &&& (n - 1) = 0 := by
  simp [blockSizeOk, and_assoc]

theorem withBlock_ok (n : Nat) (body : State → Result) (s : State) (h : blockSizeOk s.params n = true) :
    withBlock n body s = body s := by simp [withBlock, h]

theorem withBlock_fault (n : Nat) (body : State → Result) (s : State) (h : blockSizeOk s.params n = false) :
    withBlock n body s = .raise .blocksize := by simp [withBlock, h]

/-- An admitted block fits every block buffer. -/
theorem square_le_lMax (p : Params) (n : Nat) (h : blockSizeOk p n = true) : n * n ≤ p.lMax :=
  Nat.mul_le_mul ((blockSizeOk_iff p n).mp h).2.1 ((blockSizeOk_iff p n).mp h).2.1

/-! `readMany`. -/

@[simp] theorem length_readMany {α : Type} (read : Nat → α) (len : Nat) : (readMany read len).length = len := by
  simp [readMany]

theorem getElem?_readMany {α : Type} (read : Nat → α) (len i : Nat) :
    (readMany read len)[i]? = if i < len then some (read i) else none := by
  by_cases h : i < len <;> simp [readMany, h]

@[simp] theorem length_rowMajor {α : Type} (n : Nat) (f : Nat → Nat → α) : (rowMajor n f).length = n * n := by
  simp [rowMajor]

/-- Element (i, j) of a row-major matrix stands at `i·n + j`. -/
theorem getElem?_rowMajor {α : Type} (n i j : Nat) (f : Nat → Nat → α) (hi : i < n) (hj : j < n) :
    (rowMajor n f)[blockIndex n i j]? = some (f i j) := by
  have hn : 0 < n := by omega
  have hlt : i * n + j < n * n := by nlinarith
  have hdiv : (i * n + j) / n = i := by
    rw [Nat.add_comm, Nat.add_mul_div_right _ _ hn, Nat.div_eq_of_lt hj, Nat.zero_add]
  have hmod : (i * n + j) % n = j := by
    rw [Nat.add_comm, Nat.add_mul_mod_self_right, Nat.mod_eq_of_lt hj]
  simp [rowMajor, blockIndex, hlt, hdiv, hmod]

end Sys2Proof.Machine
end

