-- ==== Sys2Proof/Laws/Huffman.lean ====
section
/-! SUPPORT. What the loop of 44_huffman.md R172 can do: the least node is removed, and the tree built is that of `HuffBuilds`. -/

namespace Sys2Proof.Machine

theorem before_iff (a b : HNode) :
    a.before b = true ↔ a.freq < b.freq ∨ a.freq = b.freq ∧ a.seq < b.seq := by
  simp [HNode.before]

/-- `popMin` removes one node, and that node is the least. -/
theorem popMin_spec (nodes rest : List HNode) (a : HNode) (h : popMin nodes = some (a, rest)) :
    nodes.Perm (a :: rest) ∧ a.LeastOf nodes := by
  induction nodes generalizing a rest with
  | nil => simp [popMin] at h
  | cons x xs ih =>
    cases hp : popMin xs with
    | none =>
      have hxs : xs = [] := by
        cases xs with
        | nil => rfl
        | cons y ys =>
          simp only [popMin] at hp
          split at hp
          · simp at hp
          · split at hp <;> simp at hp
      simp only [popMin, hp, Option.some.injEq, Prod.mk.injEq] at h
      obtain ⟨rfl, rfl⟩ := h
      subst hxs
      exact ⟨.refl _, fun y hy => by simp at hy; subst hy; omega⟩
    | some found =>
      obtain ⟨b, others⟩ := found
      obtain ⟨hperm, hleast⟩ := ih _ _ hp
      simp only [popMin, hp] at h
      split at h <;> simp only [Option.some.injEq, Prod.mk.injEq] at h <;> obtain ⟨rfl, rfl⟩ := h
      · rename_i hb
        rw [before_iff] at hb
        refine ⟨hperm.cons _, fun y hy => ?_⟩
        rcases List.mem_cons.mp hy with rfl | hy
        · omega
        · have := hleast y hy
          omega
      · rename_i hb
        rw [before_iff] at hb
        refine ⟨(hperm.cons _).trans (.swap _ _ _), fun y hy => ?_⟩
        rcases List.mem_cons.mp hy with rfl | hy
        · omega
        · exact hleast y hy

theorem popMin_eq_none (nodes : List HNode) : popMin nodes = none ↔ nodes = [] := by
  cases nodes with
  | nil => simp [popMin]
  | cons x xs =>
    simp only [popMin, reduceCtorEq, iff_false]
    split
    · simp
    · split <;> simp

/-- The loop run to the end on nodes of any number builds the tree of R172. -/
theorem huffMerge_builds (fuel next : Nat) (nodes : List HNode) (h : nodes.length = fuel + 1) :
    ∃ root, huffMerge fuel next nodes = [root] ∧ HuffBuilds next nodes root.tree := by
  induction fuel generalizing next nodes with
  | zero =>
    obtain ⟨a, rfl⟩ := List.length_eq_one_iff.mp h
    exact ⟨a, rfl, .root next a⟩
  | succ fuel ih =>
    cases ha : popMin nodes with
    | none => simp [(popMin_eq_none _).mp ha] at h
    | some found =>
      obtain ⟨a, p1⟩ := found
      obtain ⟨perm1, least1⟩ := popMin_spec _ _ _ ha
      have len1 : p1.length = fuel + 1 := by have := perm1.length_eq; simp at this; omega
      cases hb : popMin p1 with
      | none => simp [(popMin_eq_none _).mp hb] at len1
      | some found =>
        obtain ⟨b, p2⟩ := found
        obtain ⟨perm2, least2⟩ := popMin_spec _ _ _ hb
        have len2 : p2.length = fuel := by have := perm2.length_eq; simp at this; omega
        obtain ⟨root, hroot, hbuilds⟩ := ih (next + 1)
          ({ freq := a.freq + b.freq, seq := next, tree := .node a.tree b.tree } :: p2) (by simp [len2])
        exact ⟨root, by simp [huffMerge, ha, hb, hroot],
          .merge next nodes p2 a b _ (perm1.trans (perm2.cons a)) least1
            (fun x hx => least2 x (perm2.mem_iff.mpr hx)) hbuilds⟩

/-- A path that `HTree.path` finds leads to its leaf. -/
theorem leafAt_of_path (tree : HTree) (i : Nat) (path : List Bool) (h : tree.path i = some path) :
    tree.leafAt path = some i := by
  induction tree generalizing path with
  | leaf j =>
    simp only [HTree.path] at h
    split at h
    · cases h; simp [HTree.leafAt, *]
    · cases h
  | node l r ihl ihr =>
    simp only [HTree.path] at h
    split at h
    · cases h; exact ihl _ ‹_›
    · obtain ⟨p, hp, rfl⟩ := Option.map_eq_some_iff.mp h
      exact ihr _ hp

end Sys2Proof.Machine
end

