-- ==== Sys2Proof/Laws/Numerics.lean ====
section
/-! SUPPORT. The operations of the default numerics record, and the decimal constants as integers. -/

namespace Sys2Proof.Machine

@[simp] theorem add_binary64 (a b : Real64) : Numerics.binary64.add a b = fadd a b := rfl
@[simp] theorem sub_binary64 (a b : Real64) : Numerics.binary64.sub a b = fsub a b := rfl
@[simp] theorem mul_binary64 (a b : Real64) : Numerics.binary64.mul a b = fmul a b := rfl
@[simp] theorem div_binary64 (a b : Real64) : Numerics.binary64.div a b = fdiv a b := rfl
@[simp] theorem sqrt_binary64 (a : Real64) : Numerics.binary64.sqrt a = fsqrt a := rfl
@[simp] theorem lt_binary64 (a b : Real64) : Numerics.binary64.lt a b = flt a b := rfl
@[simp] theorem ofInt_binary64 (k : Int) : Numerics.binary64.ofInt k = i2f k := rfl
@[simp] theorem pi_binary64 : Numerics.binary64.pi = numPi := rfl

/-- The decimal constants that are integers are the reals of those integers in the default record. -/
theorem constants_are_integers :
    i2f 1 = real1 ∧ i2f 2 = real2 ∧ i2f 8 = real8 ∧ i2f 100 = real100 ∧ i2f 255 = real255 ∧ i2f 1000 = real1000 ∧
    i2f 5000 = real5000 := by decide +kernel

end Sys2Proof.Machine
end

