-- ==== Sys2Proof/Laws/PerInstr.lean ====
section
/-! SUPPORT. Facts about every command as syntax, one lemma per constructor. -/

namespace Sys2Proof.Laws.OpcodeByte

/-- Bits 31:24 of a command's word are its opcode (30_encoding.md R80), and bits 23:0 its operands. -/
def Statement (i : Instr) : Prop := opcodeOf (encode i) = i.opcode ∧ (encode i).extractLsb' 0 24 = operandBits i

/-- An opcode byte over 24 operand bits. -/
theorem of_append (op : Byte) (bits : BitVec 24) :
    opcodeOf (op ++ bits) = op ∧ (op ++ bits : Word).extractLsb' 0 24 = bits := by
  constructor
  · refine BitVec.eq_of_getLsbD_eq fun k hk => ?_
    simp only [opcodeOf, BitVec.getLsbD_extractLsb', BitVec.getLsbD_append]
    have : ¬ 24 + k < 24 := by omega
    simp [hk, this]
  · refine BitVec.eq_of_getLsbD_eq fun k hk => ?_
    simp only [BitVec.getLsbD_extractLsb', BitVec.getLsbD_append]
    simp [hk]

theorem nop : Statement .nop := of_append _ _
theorem sreset : Statement .sreset := of_append _ _
theorem tinit (n : Nat) : Statement (.tinit n) := of_append _ _
theorem tfwd : Statement .tfwd := of_append _ _
theorem tinv : Statement .tinv := of_append _ _
theorem qinit (n : Nat) (quality : Nat) (adaptive : Bool) : Statement (.qinit n quality adaptive) := of_append _ _
theorem qvar (n : Nat) : Statement (.qvar n) := of_append _ _
theorem quant : Statement .quant := of_append _ _
theorem dequant : Statement .dequant := of_append _ _
theorem zscan (n : Nat) : Statement (.zscan n) := of_append _ _
theorem zunscan (n : Nat) : Statement (.zunscan n) := of_append _ _
theorem rlenc (n : Nat) : Statement (.rlenc n) := of_append _ _
theorem rldec (n : Nat) : Statement (.rldec n) := of_append _ _
theorem hbuild : Statement .hbuild := of_append _ _
theorem hcanon : Statement .hcanon := of_append _ _
theorem htrie : Statement .htrie := of_append _ _
theorem hdecsym : Statement .hdecsym := of_append _ _
theorem bwinit (cap : Nat) : Statement (.bwinit cap) := of_append _ _
theorem wbit (b : Bool) : Statement (.wbit b) := of_append _ _
theorem wbits (cnt : Nat) (val : Nat) : Statement (.wbits cnt val) := of_append _ _
theorem brinit (cap : Nat) : Statement (.brinit cap) := of_append _ _
theorem rbit : Statement .rbit := of_append _ _
theorem symmap : Statement .symmap := of_append _ _
theorem wrhdr : Statement .wrhdr := of_append _ _
theorem wrpay : Statement .wrpay := of_append _ _
theorem rdhdr : Statement .rdhdr := of_append _ _
theorem rdpay (n : Nat) : Statement (.rdpay n) := of_append _ _
theorem encblk (n : Nat) : Statement (.encblk n) := of_append _ _
theorem decblk (n : Nat) : Statement (.decblk n) := of_append _ _

end Sys2Proof.Laws.OpcodeByte
end

