-- ==== Sys2Proof/Tests/Slice0.lean ====
section
/-! SUPPORT. Tests: ill-formed commands, words written out from the formats of 30_encoding.md R81 and R84, one-step tests whose
results are those of 95_test_vectors.md (its vector is named) or of a command rule's example, and a witness for the hypotheses
of every statement. -/

namespace Sys2Proof.Tests

open Sys2Proof.Machine

/-! ## Well-formedness: each check refuses a term. -/

theorem test_wf_n_too_wide : Instr.wf (.tinit 4096) = false := by decide
theorem test_wf_quality_too_wide : Instr.wf (.qinit 8 256 false) = false := by decide
theorem test_wf_cap_too_wide : Instr.wf (.bwinit 16777216) = false := by decide
theorem test_wf_cnt_too_wide : Instr.wf (.wbits 32 0) = false := by decide
theorem test_wf_val_too_wide : Instr.wf (.wbits 16 65536) = false := by decide
theorem test_wf_admits_out_of_range_operands :
    Instr.wf (.tinit 4095) = true ∧ Instr.wf (.qinit 0 255 true) = true ∧ Instr.wf (.wbits 31 65535) = true := by decide

/-! ## Decoding: one word per command, bit by bit from the format (opcode, then the fields). -/

theorem test_decode_system :
    decode 0b00000000_000000000000000000000000#32 = .ok .nop ∧
    decode 0b00000001_000000000000000000000000#32 = .ok .sreset := by decide

theorem test_decode_transform :
    decode 0b00010000_000000000000_000000000100#32 = .ok (.tinit 4) ∧
    decode 0b00010001_000000000000000000000000#32 = .ok .tfwd ∧
    decode 0b00010010_000000000000000000000000#32 = .ok .tinv := by decide

theorem test_decode_quantisation :
    decode 0b00100000_000_1_00110010_000000001000#32 = .ok (.qinit 8 50 true) ∧
    decode 0b00100001_000000000000_000000010000#32 = .ok (.qvar 16) ∧
    decode 0b00100010_000000000000000000000000#32 = .ok .quant ∧
    decode 0b00100011_000000000000000000000000#32 = .ok .dequant := by decide

theorem test_decode_zigzag :
    decode 0b00110000_000000000000_000000000010#32 = .ok (.zscan 2) ∧
    decode 0b00110001_000000000000_100000000001#32 = .ok (.zunscan 2049) := by decide

theorem test_decode_run_length :
    decode 0b01000000_000000000000_000000000001#32 = .ok (.rlenc 1) ∧
    decode 0b01000001_000000000000_111111111111#32 = .ok (.rldec 4095) := by decide

theorem test_decode_huffman :
    decode 0b01010000_000000000000000000000000#32 = .ok .hbuild ∧
    decode 0b01010001_000000000000000000000000#32 = .ok .hcanon ∧
    decode 0b01010010_000000000000000000000000#32 = .ok .htrie ∧
    decode 0b01010011_000000000000000000000000#32 = .ok .hdecsym := by decide

theorem test_decode_bit_stream :
    decode 0b01100000_000000000100000000000000#32 = .ok (.bwinit 16384) ∧
    decode 0b01100001_00000000000000000000000_1#32 = .ok (.wbit true) ∧
    decode 0b01100010_000_01000_0000000010101010#32 = .ok (.wbits 8 0xAA) ∧
    decode 0b01100011_000000000000000000000011#32 = .ok (.brinit 3) ∧
    decode 0b01100100_000000000000000000000000#32 = .ok .rbit := by decide

theorem test_decode_block_codec :
    decode 0b01110000_000000000000000000000000#32 = .ok .symmap ∧
    decode 0b01110001_000000000000000000000000#32 = .ok .wrhdr ∧
    decode 0b01110010_000000000000000000000000#32 = .ok .wrpay ∧
    decode 0b01110011_000000000000000000000000#32 = .ok .rdhdr ∧
    decode 0b01110100_000000000000_000000000100#32 = .ok (.rdpay 4) ∧
    decode 0b01111000_000000000000_000000000100#32 = .ok (.encblk 4) ∧
    decode 0b01111001_000000000000_000000000100#32 = .ok (.decblk 4) := by decide

/-- T-SY-2, T-QZ-9, T-BS-4: an unknown opcode, and a 1 in a zero bit of each format that has one. -/
theorem test_decode_refuses :
    decode 0x02000000#32 = .error (.unknownOpcode 0x02#8) ∧ decode 0xFFFFFFFF#32 = .error (.unknownOpcode 0xFF#8) ∧
    decode 0x01000001#32 = .error (.nonzeroReserved 0x01#8) ∧
    decode 0x10001004#32 = .error (.nonzeroReserved 0x10#8) ∧
    decode 0x20232004#32 = .error (.nonzeroReserved 0x20#8) ∧
    decode 0x61000002#32 = .error (.nonzeroReserved 0x61#8) ∧
    decode 0x62200000#32 = .error (.nonzeroReserved 0x62#8) := by decide

/-- The table's numbering is the word's; a row of fewer bits has zeros above. -/
theorem test_decodeTableWord :
    decodeTableWord 32 0x78000004 = some (.encblk 4) ∧ decodeTableWord 32 0x02000000 = none ∧
    decodeTableWord 8 0xFF000000 = some .nop := by decide

/-- R88: the textual forms and words of its table, hexadecimal and a comment among them. -/
theorem test_assemble :
    assemble "TFWD" = some .tfwd ∧ assemble "TINIT 8" = some (.tinit 8) ∧
    assemble "QINIT 8, 50, 1 ; both contexts" = some (.qinit 8 50 true) ∧ assemble "BWINIT 64" = some (.bwinit 64) ∧
    assemble "WBITS 8, 0xAA" = some (.wbits 8 170) ∧ assemble "TINIT 4096" = none ∧
    assemble (Instr.text (.qinit 8 50 true)) = some (.qinit 8 50 true) := by decide

/-! ## One step -/

/-- The next state of a command. -/
def go (i : Instr) (s : State) : State :=
  match exec i s with
  | .next t => t
  | .fault _ => s
  | .refused _ => s

def st0 : State := State.reset

/-- Every context and buffer bound: the flags a host run would have set. -/
def allValid : Valid := { tcv := true, qcv := true, wv := true, rv := true, ccv := true, trv := true }

def ints (l : List Int) : Buf Word := Buf.place 0 (l.map (BitVec.ofInt 32))
def bytes (l : List Nat) : List Host.Cell := Buf.place 0 (l.map (BitVec.ofNat 8))
def syms (l : List (Nat × Int)) : Buf RleSym :=
  Buf.place 0 (l.map fun e => { run := BitVec.ofNat 16 e.1, value := BitVec.ofInt 32 e.2 })
def codes (l : List (List Bool)) : Buf HuffCode := Buf.place 0 (l.map HuffCode.ofStr)
def cursorAt (cap pos : Nat) : Cursor :=
  { cap := BitVec.ofNat 24 cap, byte := BitVec.ofNat 24 (pos / 8), bitp := BitVec.ofNat 3 (pos % 8) }

/-- A reader over the given bytes. -/
def reading (l : List Nat) (s : State) : State :=
  { s with mem := { s.mem with bs := bytes l }, r := cursorAt l.length 0, valid := { s.valid with rv := true } }

/-- A writer of the given capacity. -/
def writing (cap : Nat) (s : State) : State := { s with w := cursorAt cap 0, valid := { s.valid with wv := true } }

/-- RLE symbols, and their number. -/
def withSyms (l : List (Nat × Int)) (s : State) : State :=
  { s with mem := { s.mem with rs := syms l }, rsn := BitVec.ofNat 16 l.length }

/-- Code lengths, and the symbol count. -/
def withLens (l : List Nat) (s : State) : State :=
  { s with mem := { s.mem with cl := Buf.place 0 (l.map (BitVec.ofNat 8)) }, k := BitVec.ofNat 16 l.length }

/-- Frequencies, and the symbol count. -/
def withFreqs (l : List Nat) (s : State) : State :=
  { s with mem := { s.mem with fq := Buf.place 0 (l.map (BitVec.ofNat 32)) }, k := BitVec.ofNat 16 l.length }

/-- The symbol table of T-BC-2 with its lengths and canonical codes. -/
def table3 (s : State) : State :=
  { s with
    mem := { s.mem with
      st := ints [0xA, 0x5, 0x0]
      cl := Buf.place 0 [2#8, 1#8, 2#8]
      cc := codes [[true, false], [false], [true, true]] }
    k := 3#16 }

/-- The trie of the codes `10`, `0`, `11` (44_huffman.md R181). -/
def trie3 : Trie := .node (.leaf 1#16) (.node (.leaf 0#16) (.leaf 2#16))

def bitStr (l : List Nat) : List Bool := l.map (fun b => b == 1)

/-- T-SY-1. -/
theorem test_nop : (go .nop { st0 with status := retStatus 0x61#8 .eOverflow }).status.word = 0#32 := by decide

/-- T-SY-3. -/
theorem test_sreset :
    (go .sreset { st0 with status := faultStatus 0x10#8 .blocksize, k := 7#16 }).status.word = 0#32 ∧
    (go .sreset { st0 with status := faultStatus 0x10#8 .blocksize, k := 7#16 }).k = 0#16 := by decide

/-- R112: row 0 of `TINIT 4` is 0.5 exactly. -/
theorem test_tinit : (go (.tinit 4) st0).readCB 3 = 0x3FE0000000000000#64 ∧ (go (.tinit 4) st0).readCT 12 =
    0x3FE0000000000000#64 ∧ (go (.tinit 4) st0).status.word = 0x00001000#32 := by decide +kernel

/-- R11: an instance with another numerics record runs the same commands. -/
theorem test_tinit_other_numerics :
    (go (.tinit 4) { st0 with params := { st0.params with num := .other 7 } }).status.word = 0x00001000#32 := by decide

/-- P5: `TINIT 3`. -/
theorem test_tinit_blocksize : (go (.tinit 3) st0).status.word = 0x000110F1#32 := by decide

def ctx1 : State := go (.tinit 1) { st0 with mem := { st0.mem with
  xr := [(0, 0x4014000000000000#64)], yr := [(0, 0xC000000000000000#64)] } }

/-- The transform of size 1 is the identity (R111 to R114). -/
theorem test_tfwd : (go .tfwd ctx1).readYR 0 = 0x4014000000000000#64 := by decide +kernel
theorem test_tfwd_noctx : (go .tfwd st0).status.word = 0x000111F3#32 := by decide
theorem test_tinv : (go .tinv ctx1).readXR 0 = 0xC000000000000000#64 := by decide +kernel

/-- T-QZ-2. -/
theorem test_qinit : (go (.qinit 8 75 false) st0).readQM 1 = 0x4016000000000000#64 ∧
    (go (.qinit 4 50 true) st0).readQM 5 = 0x4033504F333F9DE6#64 ∧
    (go (.qinit 4 50 true) st0).readDQM 0 = 0x3FC0000000000000#64 := by decide +kernel

/-- T-QZ-9: the block size is checked before the quality. -/
theorem test_qinit_faults : (go (.qinit 3 0 false) st0).status.word = 0x000120F1#32 ∧
    (go (.qinit 4 101 false) st0).status.word = 0x000120F2#32 := by decide

/-- The block of T-TR-2 as reals. -/
def pixels : Buf Real64 := Buf.place 0 (List.map i2f
  [-76, -73, -67, -62, -65, -69, -73, -38, -66, -69, -60, -15, -65, -70, -57, -6])

/-- T-QZ-3. -/
theorem test_qvar : (go (.qvar 4) { st0 with mem := { st0.mem with xr := pixels } }).var = 0x4078E87000000000#64 := by
  decide +kernel

def quantIn (yr : List Real64) : State :=
  go (.qinit 2 100 false) { st0 with mem := { st0.mem with yr := Buf.place 0 yr } }

/-- T-QZ-7: 2.5, -2.5, 0.49999999999999994, 2147483647.4 with step 1. -/
theorem test_quant :
    let t := go .quant (quantIn [0x4004000000000000#64, 0xC004000000000000#64, 0x3FDFFFFFFFFFFFFF#64, 0x41DFFFFFFFD9999A#64])
    (t.readIB 0).toInt = 3 ∧ (t.readIB 1).toInt = -3 ∧ (t.readIB 2).toInt = 0 ∧ (t.readIB 3).toInt = 2147483647 := by
  decide +kernel

/-- T-QZ-8: 2147483647.5 rounds out of range; nothing is written. -/
theorem test_quant_numeric :
    (go .quant (quantIn [0#64, 0#64, 0#64, 0x41DFFFFFFFE00000#64])).status.word = 0x000122F6#32 ∧
    (go .quant (quantIn [0#64, 0#64, 0#64, 0x41DFFFFFFFE00000#64])).mem.ib = [] := by decide +kernel

/-- R134: -29 times the step 8. -/
theorem test_dequant : (go .dequant (go (.qinit 1 50 false) { st0 with mem := { st0.mem with ib := ints [-29] } })).readYR 0 =
    0xC06D000000000000#64 := by decide +kernel

/-- T-QZ-6: with `VAR` = 500 the AC steps grow by 1.5 and the DC step does not. -/
theorem test_adaptive_steps :
    let s := go (.qinit 2 50 true) { st0 with var := 0x407F400000000000#64 }
    s.stepAt 0 = 0x4020000000000000#64 ∧ s.stepAt 1 = 0x4038000000000000#64 := by decide +kernel

/-- T-ZZ-1. -/
theorem test_zscan :
    (List.range 16).map (go (.zscan 4) { st0 with mem := { st0.mem with ib := ints ((List.range 16).map Int.ofNat) } }).readSQ =
      [0, 1, 4, 8, 5, 2, 3, 6, 9, 12, 13, 10, 7, 11, 14, 15].map (BitVec.ofNat 32) := by decide

/-- T-ZZ-2. -/
theorem test_zunscan :
    (List.range 16).map (go (.zunscan 4) { st0 with mem := { st0.mem with sq := ints ((List.range 16).map Int.ofNat) } }).readIB =
      [0, 1, 5, 6, 2, 4, 7, 12, 3, 8, 11, 13, 9, 10, 14, 15].map (BitVec.ofNat 32) := by decide

/-- T-RL-1. -/
theorem test_rlenc :
    (go (.rlenc 4) { st0 with mem := { st0.mem with
      sq := ints [100, 0, 0, 50, 0, 0, 0, 0, 25, 0, 0, 0, 0, 0, 0, 0] } }).symbols =
      [⟨0#16, 100#32⟩, ⟨2#16, 50#32⟩, ⟨4#16, 25#32⟩, ⟨0#16, 0#32⟩] := by decide

/-- T-RL-2: no EOB after a last element that is not zero. -/
theorem test_rlenc_no_eob :
    (go (.rlenc 2) { st0 with mem := { st0.mem with sq := ints [0, 0, 0, 9] } }).symbols = [⟨3#16, 9#32⟩] := by decide

/-- T-RL-3, sixth row: (2,0) is not EOB. -/
theorem test_rldec :
    (go (.rldec 2) (withSyms [(2, 0), (0, 9), (0, 0)] st0)).status.word = 0x00004100#32 ∧
    (List.range 4).map (go (.rldec 2) (withSyms [(2, 0), (0, 9), (0, 0)] st0)).readSQ = [0#32, 0#32, 0#32, 9#32] := by
  decide

/-- T-RL-3: the degraded codes. -/
theorem test_rldec_degraded :
    (go (.rldec 2) (withSyms [(0, 7)] st0)).status.word = 0x00004113#32 ∧
    (go (.rldec 2) (withSyms [(1, 1), (2, 2)] st0)).status.word = 0x00004112#32 := by decide

/-- T-HF-1. -/
theorem test_hbuild :
    let t := go .hbuild (withFreqs [5, 9, 12, 13, 16, 45] st0)
    (List.range 6).map (fun i => (t.readTC i).str) =
      [[1, 1, 0, 0], [1, 1, 0, 1], [1, 0, 0], [1, 0, 1], [1, 1, 1], [0]].map bitStr ∧
    (List.range 6).map (fun i => (t.readCL i).toNat) = [4, 4, 3, 3, 3, 1] := by decide

/-- T-HF-12: an internal sum past 32 bits. -/
theorem test_hbuild_wide_sum :
    (List.range 3).map (fun i => ((go .hbuild (withFreqs [4294967295, 4294967295, 1] st0)).readTC i).str) =
      [[1, 1], [0], [1, 0]].map bitStr := by decide

/-- T-HF-15. -/
theorem test_hcanon :
    (List.range 4).map (fun i => ((go .hcanon (withLens [2, 1, 3, 3] st0)).readCC i).str) =
      [[1, 0], [0], [1, 1, 0], [1, 1, 1]].map bitStr := by decide +kernel

theorem test_hcanon_fails :
    (go .hcanon (withLens [2, 2, 2, 2, 1] st0)).status.word = 0x00005133#32 ∧
    (go .hcanon (withLens [2, 0] st0)).status.word = 0x00005132#32 := by decide

/-- R181's example. -/
theorem test_htrie : (go .htrie { table3 st0 with valid := allValid }).mem.trie = some trie3 := by decide

/-- 44_huffman.md R180: a code below a leaf conflicts. -/
theorem test_htrie_conflict :
    (go .htrie { st0 with valid := allValid, k := 2#16, mem := { st0.mem with cc := codes [[false], [false, true]] } }).status.word
      = 0x00005233#32 := by decide

def decoding (b : Nat) : State :=
  reading [b] { st0 with valid := { st0.valid with trv := true }, mem := { st0.mem with trie := some trie3 } }

/-- T-HF-16, the first call. -/
theorem test_hdecsym : (go .hdecsym (decoding 0xD0)).symr = 2#16 ∧ (go .hdecsym (decoding 0xD0)).rpos = 2 := by
  decide

/-- T-HF-16: the one-symbol trie and a 1. -/
theorem test_hdecsym_dead :
    let t := go .hdecsym { decoding 0x80 with mem := { (decoding 0x80).mem with trie := some (.node (.leaf 0#16) .absent) } }
    t.status.word = 0x00005311#32 ∧ t.rpos = 1 := by decide

/-- T-BS-2. -/
theorem test_bwinit : (go (.bwinit 16384) st0).status.word = 0x00006000#32 ∧
    (go (.bwinit 16385) st0).status.word = 0x000160F5#32 := by decide
theorem test_brinit : (go (.brinit 16384) st0).r.cap = 16384#24 ∧
    (go (.brinit 16385) st0).status.word = 0x000163F5#32 := by decide

/-- T-BS-3: the first bit of a byte clears the rest of it. -/
theorem test_wbit : (go (.wbit true) (writing 1 { st0 with mem := { st0.mem with bs := bytes [0xFF] } })).readBS 0 = 0x80#8 := by
  decide

/-- T-BS-3: only the low five bits are written. -/
theorem test_wbits : (go (.wbits 5 0xFFF5) (writing 1 st0)).readBS 0 = 0xA8#8 := by decide

/-- T-BS-2. -/
theorem test_wbits_overflow :
    let t := go (.wbits 16 0xBEEF) (writing 1 st0)
    t.status.word = 0x00006220#32 ∧ t.mem.bs = bytes [0xBE] ∧ t.wpos = 8 := by decide

/-- R197's example: the first and the ninth bit of 0xAA. -/
theorem test_rbit : (go .rbit (reading [0xAA] st0)).bitr = true ∧
    (go .rbit { reading [0xAA] st0 with r := cursorAt 1 8 }).status.word = 0x00006422#32 := by decide

/-- R209's example. -/
theorem test_symmap :
    let t := go .symmap (withSyms [(0, 5), (0, -3), (0, -3), (0, 0)] st0)
    t.k = 3#16 ∧ (List.range 3).map t.readST = [0xA#32, 0x5#32, 0#32] ∧
      (List.range 3).map t.readFQ = [1#32, 2#32, 1#32] := by decide

/-- T-BC-0: a run above 255 is clamped. -/
theorem test_symmap_saturates :
    (go .symmap (withSyms [(256, 1)] st0)).status.word = 0x00007001#32 ∧
    (go .symmap (withSyms [(256, 1)] st0)).readST 0 = 0x00FF0002#32 := by decide

/-- R210's example. -/
theorem test_wrhdr : (go .wrhdr (writing 64 (table3 st0))).mem.bs =
    bytes [0, 3, 0, 0, 0, 0xA, 2, 0, 0, 0, 5, 1, 0, 0, 0, 0, 2] := by decide

def paying : State :=
  writing 64 (withSyms [(0, 5), (0, -3), (0, -3), (0, 0)] { table3 st0 with valid := { st0.valid with ccv := true } })

/-- R211's example. -/
theorem test_wrpay : (go .wrpay paying).mem.bs = bytes [0x8C] ∧ (go .wrpay paying).wpos = 6 := by decide

/-- T-BC-13: a symbol that is not in the table. -/
theorem test_wrpay_missing : (go .wrpay (withSyms [(0, 9)] paying)).status.word = 0x000172F7#32 := by decide

def header17 : List Nat := [0, 3, 0, 0, 0, 0xA, 2, 0, 0, 0, 5, 1, 0, 0, 0, 0, 2]

/-- R212's example. -/
theorem test_rdhdr :
    let t := go .rdhdr (reading header17 st0)
    t.k = 3#16 ∧ (List.range 3).map t.readST = [0xA#32, 0x5#32, 0#32] ∧
      (List.range 3).map t.readCL = [2#8, 1#8, 2#8] ∧ t.rpos = 136 := by decide

theorem test_rdhdr_truncated :
    (go .rdhdr { reading header17 st0 with r := cursorAt 16 0 }).status.word = 0x00007330#32 ∧
    (go .rdhdr { reading header17 st0 with r := cursorAt 16 0 }).k = 0#16 := by decide

/-- R213's example. -/
theorem test_rdpay :
    let t := go (.rdpay 4) { decoding 0x8C with mem := { (decoding 0x8C).mem with st := ints [0xA, 0x5, 0x0] } }
    t.status.word = 0x00007400#32 ∧ t.rpos = 6 ∧
      t.symbols = [⟨0#16, 5#32⟩, ⟨0#16, BitVec.ofInt 32 (-3)⟩, ⟨0#16, BitVec.ofInt 32 (-3)⟩, ⟨0#16, 0#32⟩] := by
  decide

def block2 : State := writing 64 { st0 with mem := { st0.mem with
  ib := ints [5, -3, 0, 0, -3, 0, 0, 0, 0, 0, 0, 0, 0, 0, 0, 0] } }

/-- T-BC-2. -/
theorem test_encblk : (go (.encblk 4) block2).status.word = 0x00007800#32 ∧
    (go (.encblk 4) block2).mem.bs = bytes (header17 ++ [0x8C]) := by decide +kernel

/-- T-BC-8. -/
theorem test_encblk_saturates :
    (go (.encblk 2) (writing 64 { st0 with mem := { st0.mem with ib := ints [40000, -40000, 0, 0] } })).status.word
      = 0x00007801#32 := by decide +kernel

/-- T-BC-2, P2: the stream whole, and cut by its payload byte. -/
theorem test_decblk :
    (List.range 16).map (go (.decblk 4) (reading (header17 ++ [0x8C]) st0)).readIB =
      [5, -3, 0, 0, -3, 0, 0, 0, 0, 0, 0, 0, 0, 0, 0, 0].map (BitVec.ofInt 32) ∧
    (go (.decblk 4) (reading header17 st0)).status.word = 0x00007910#32 := by decide +kernel

/-- T-BC-11, the third row. -/
theorem test_decblk_overrun :
    (go (.decblk 2) (reading [0, 1, 0, 5, 0, 9, 1, 0] st0)).status.word = 0x00007912#32 := by decide +kernel

/-! ## The step and the host -/

/-- P5: a word from reset; an illegal word; a word on the halted core (T-SY-3). -/
theorem test_step :
    step (st0.withFetchWord 32 0x11000000) =
      .next { faulted 0x11#8 .noctx st0 with reply := .status 0x000111F3#32 } ∧
    step (st0.withFetchWord 32 0x02000000) =
      .next { faulted 0x02#8 .illegal st0 with reply := .status 0x000102F0#32 } ∧
    step ((faulted 0x10#8 .blocksize st0).withFetchWord 32 0x02000000) =
      .next { faulted 0x10#8 .blocksize st0 with reply := .status 0x000110F1#32 } := ⟨rfl, rfl, rfl⟩

/-- R45, R61: `K` is writable, `TN` is not; slot 15 is `BCNT` (T-BS-3). -/
theorem test_host_access :
    (hostWrite 0x00 5 300#64 st0).k = 300#16 ∧ (hostWrite 0x00 2 4#64 st0).tn = 0#12 ∧
    (hostRead 0x00 15 { st0 with w := cursorAt 1 1 }).reply = .value 1#64 ∧
    (hostWrite 0x09 16383 0xAB#64 st0).readBS 16383 = 0xAB#8 ∧
    (hostWrite 0x09 16384 0xAB#64 st0).mem.bs = [] := by decide

/-! ## Witnesses: the hypotheses of each statement, met together. -/

theorem running0 : Running st0 := ⟨by decide, by decide⟩
theorem admitted_1 : Admitted st0.params 1 := ⟨by decide, by decide, by decide⟩
theorem admitted_4 : Admitted st0.params 4 := ⟨by decide, by decide, by decide⟩
theorem admitted_16 : Admitted st0.params 16 := ⟨by decide, by decide, by decide⟩
theorem not_admitted_0 : ¬ Admitted st0.params 0 := fun h => absurd h.1 (by decide)
theorem not_admitted_3 : ¬ Admitted st0.params 3 := fun h => absurd h.2.2 (by decide)
theorem not_admitted_32 : ¬ Admitted st0.params 32 := fun h => absurd h.2.1 (by decide)

def halted0 : State := faulted 0x10#8 .blocksize st0
def bound : State := { st0 with valid := allValid }

theorem running_bound : Running bound := ⟨by decide, by decide⟩

theorem witness_DecodeEncodeRoundTrip : Instr.wf (.qinit 4095 255 true) = true ∧ Instr.wf (.wbits 31 65535) = true ∧
    Instr.wf (.bwinit 16777215) = true := by decide
theorem witness_EncodeDecodeRoundTrip : decode 0x621FFFFF#32 = .ok (.wbits 31 65535) := by decide
theorem witness_StepRunsDecodedCommand :
    (presentWord 0x00000000#32 st0).port = .command 0x00000000#32 :: [] ∧ st0.status.halt = false ∧
    decode 0x00000000#32 = .ok .nop ∧ st0.port = [] := by decide
theorem witness_IllegalWordFaults : st0.status.halt = false ∧
    decode 0x01000001#32 = .error (.nonzeroReserved 0x01#8) ∧ decode 0xFFFFFFFF#32 = .error (.unknownOpcode 0xFF#8) := by
  decide
theorem witness_HaltedCoreIgnores : halted0.status.halt = true ∧ (0x01000001#32 : Word) ≠ 0x01000000#32 ∧
    Instr.nop ≠ .sreset ∧ (presentWord 0x00000000#32 halted0).port = .command 0x00000000#32 :: [] := by decide
theorem witness_NopPostsOk : st0.status.halt = false ∧ halted0.status.halt = true ∧ opcodeOf 0x00000001#32 = 0x00#8 ∧
    (0x00000001#32 : Word) ≠ 0#32 := by decide
theorem witness_ResetRestoresResetState : ({ halted0 with port := [.reset] } : State).port = .reset :: [] := rfl
theorem witness_OperandRangeFaults_blocksize : blockOperand (.qinit 3 0 true) = some 3 ∧
    blockOperand (.decblk 32) = some 32 ∧ ¬ Admitted st0.params 3 ∧ ¬ Admitted st0.params 32 ∧ ¬ Admitted st0.params 0 :=
  ⟨rfl, rfl, not_admitted_3, not_admitted_32, not_admitted_0⟩
theorem witness_OperandRangeFaults_quality : Admitted st0.params 16 ∧ ¬ (1 ≤ 0 ∧ 0 ≤ 100) ∧ ¬ (1 ≤ 101 ∧ 101 ≤ 100) :=
  ⟨admitted_16, by decide, by decide⟩
theorem witness_OperandRangeFaults_capacity : st0.params.bufMax < 16385 ∧ 16 < 17 := by decide
theorem witness_PreconditionFaults_flags : st0.status.halt = false ∧ st0.valid.tcv = false ∧ st0.valid.qcv = false ∧
    st0.valid.wv = false ∧ st0.valid.rv = false ∧ st0.valid.ccv = false ∧ st0.valid.trv = false ∧ st0.k = 0#16 := by decide
theorem witness_PreconditionFaults_order :
    ({ bound with valid := { allValid with rv := false } } : State).valid.trv = true ∧
    ({ bound with valid := { allValid with ccv := false } } : State).valid.wv = true ∧ 16 ≤ 16 := by decide
theorem witness_PreconditionFaults_ranges : st0.params.symMax < ({ bound with k := 257#16 } : State).k.toNat ∧
    st0.params.lMax < ({ bound with rsn := 257#16 } : State).rsn.toNat ∧ bound.valid.wv = true := by decide
theorem witness_PreconditionFaults_missing :
    ∃ sym ∈ (withSyms [(0, 9)] paying).symbols, ∀ i, i < (withSyms [(0, 9)] paying).k.toNat →
      (withSyms [(0, 9)] paying).readST i ≠ (pack sym).1 :=
  ⟨⟨0#16, 9#32⟩, by decide, by decide⟩
theorem witness_FaultEntryIsPrecise : st0.status.halt = false ∧
    coreCommand 0x11000000#32 st0 = .next (faulted 0x11#8 .noctx st0) ∧
    (faulted 0x11#8 .noctx st0).status.code = .fault .noctx := ⟨rfl, rfl, rfl⟩
theorem witness_PostedCodesFollowTheTable : (∀ n, Instr.nop ≠ .encblk n ∧ Instr.nop ≠ .decblk n) ∧
    st0.status.halt = false ∧ exec .nop st0 = .next (go .nop st0) :=
  ⟨fun _ => ⟨by simp, by simp⟩, rfl, rfl⟩
theorem witness_CompositeCodesFollowTheTable : Running st0 ∧ exec (.encblk 4) st0 = .next (go (.encblk 4) st0) ∧
    exec (.decblk 4) st0 = .next (go (.decblk 4) st0) := ⟨running0, rfl, rfl⟩
theorem witness_WritesOnlyItsOperands : exec .hcanon st0 = .next (go .hcanon st0) := rfl
theorem witness_StreamBytesFrame :
    block2.wpos ≤ 8 * block2.w.cap.toNat ∧ exec (.wbit true) block2 = .next (go (.wbit true) block2) ∧
    (writtenBits (.wbit true)).isSome = true ∧ exec (.encblk 4) block2 = .next (go (.encblk 4) block2) ∧
    writtenBits .nop = none ∧ writtenBits (.wbits 17 0) = none := ⟨by decide, rfl, rfl, rfl, rfl, rfl⟩
theorem witness_RealOperationsRoundToNearest :
    isFinite 0x7FEFFFFFFFFFFFFF#64 = true ∧ isFinite real1 = true ∧ toRat real1 ≠ 0 ∧ 0 ≤ toRat real1 ∧
    |(9007199254740991 : Int)| < 2 ^ 53 := by decide +kernel
theorem witness_CosineWithinBound : isZero 0#64 = true ∧ isFinite real1 = true ∧ 0 ≤ toRat real1 ∧
    toRat real1 ≤ 2 * toRat numPi * (1 : Nat) := by decide +kernel
theorem witness_ComparisonClampAndRounding : isFinite real1 = true ∧ isNaN 0x7FF8000000000000#64 = true ∧
    |toRat 0x4004000000000000#64 - (roundHaz 0x4004000000000000#64 : Rat)| = 1 / 2 := by decide +kernel
theorem witness_TinitBuildsContext : Running st0 ∧ Admitted st0.params 1 ∧ Admitted st0.params 16 ∧
    st0.params.num = .binary64 := ⟨running0, admitted_1, admitted_16, rfl⟩
theorem witness_TransformsMultiply : Running { bound with tn := 16#12 } ∧
    ({ bound with tn := 16#12 } : State).valid.tcv = true ∧ 15 < ({ bound with tn := 16#12 } : State).tn.toNat :=
  ⟨running_bound, rfl, by decide⟩
theorem witness_QinitBuildsContext : Running st0 ∧ Admitted st0.params 16 ∧ Admitted st0.params 8 ∧ 1 ≤ 1 ∧ 100 ≤ 100 ∧
    49 < 50 := ⟨running0, admitted_16, ⟨by decide, by decide, by decide⟩, by decide, by decide, by decide⟩
theorem witness_QuantMatrixRange : Running st0 ∧ st0.params.num = .binary64 ∧ Admitted st0.params 8 ∧
    exec (.qinit 8 100 true) st0 = .next (go (.qinit 8 100 true) st0) ∧
    exec (.qinit 8 50 false) st0 = .next (go (.qinit 8 50 false) st0) ∧ 7 < 8 :=
  ⟨running0, rfl, ⟨by decide, by decide, by decide⟩, rfl, rfl, by decide⟩
theorem witness_QvarComputesVariance : Running st0 ∧ Admitted st0.params 16 := ⟨running0, admitted_16⟩
theorem witness_AdaptiveStepsReadVariance :
    ({ st0 with qcfg := { n := 2#12, quality := 50#8, adapt := true } } : State).qcfg.adapt = true ∧ (1 : Nat) ≠ 0 ∧
    st0.qcfg.adapt = false ∧ exec .quant st0 = .next (go .quant st0) ∧ exec .dequant st0 = .next (go .dequant st0) :=
  ⟨rfl, by decide, rfl, rfl, rfl⟩

/-- One element, its step 1.0. -/
def quantising (yr : Real64) : State :=
  { bound with qcfg := { n := 1#12, quality := 100#8, adapt := false },
               mem := { st0.mem with yr := [(0, yr)], qm := [(0, real1)] } }

def quotientOf (yr : Real64) (idx : Nat) : Real64 :=
  (quantising yr).params.num.div ((quantising yr).readYR idx) ((quantising yr).stepAt idx)

/-- 2147483647.4 rounds into the range (T-QZ-7), 2147483647.5 out of it (T-QZ-8). -/
theorem witness_QuantRoundsOrFaults_fits : Running (quantising 0x41DFFFFFFFD9999A#64) ∧
    (quantising 0x41DFFFFFFFD9999A#64).valid.qcv = true ∧
    ∀ idx, idx < 1 * 1 → isFinite (quotientOf 0x41DFFFFFFFD9999A#64 idx) = true ∧
      -(2 ^ 31) ≤ roundHaz (quotientOf 0x41DFFFFFFFD9999A#64 idx) ∧
      roundHaz (quotientOf 0x41DFFFFFFFD9999A#64 idx) ≤ 2 ^ 31 - 1 :=
  ⟨running_bound, rfl, by decide +kernel⟩
theorem witness_QuantRoundsOrFaults_numeric :
    ∃ idx, idx < 1 * 1 ∧ ¬ roundHaz (quotientOf 0x41DFFFFFFFE00000#64 idx) ≤ 2 ^ 31 - 1 := ⟨0, by decide +kernel⟩
theorem witness_DequantMultiplies : Running bound ∧ bound.valid.qcv = true := ⟨running_bound, rfl⟩
theorem witness_ZigzagOrder : 1 ≤ 1 ∧ (zz 2)[3]? = some (1, 1) := by decide
theorem witness_ZigzagMovesElements : Running st0 ∧ Admitted st0.params 4 ∧ (zz 4)[15]? = some (3, 3) :=
  ⟨running0, admitted_4, by decide⟩
theorem witness_ZigzagRoundTrip : Running st0 ∧ Admitted st0.params 16 := ⟨running0, admitted_16⟩
theorem witness_RlencEncodes : Running st0 ∧ Admitted st0.params 1 := ⟨running0, admitted_1⟩

def decoding2 (l : List (Nat × Int)) : State := withSyms l st0

/-- `reach` of R162's statement. -/
def reach (s : State) (m : Nat) : Nat := (expandRle (s.symbols.take m)).length

theorem witness_RldecDecodes_overrun : Running (decoding2 [(4, 1)]) ∧ (decoding2 [(4, 1)]).rsn.toNat ≤ st0.params.lMax ∧
    reach (decoding2 [(4, 1)]) 0 < 2 * 2 ∧ 2 * 2 < reach (decoding2 [(4, 1)]) 1 := ⟨running0, by decide⟩
theorem symbols_short : (decoding2 [(2, 1)]).symbols = [⟨2#16, 1#32⟩] := by decide
theorem symbols_eob : (decoding2 [(0, 0)]).symbols = [⟨0#16, 0#32⟩] := by decide
theorem witness_RldecDecodes_short : eob ∉ (decoding2 [(2, 1)]).symbols ∧ reach (decoding2 [(2, 1)]) 1 < 2 * 2 ∧
    ¬ ∃ m, reach (decoding2 [(2, 1)]) m < 2 * 2 ∧ 2 * 2 < reach (decoding2 [(2, 1)]) (m + 1) := by
  refine ⟨by decide, by decide, fun ⟨m, _, h⟩ => ?_⟩
  simp [reach, symbols_short, expandRle, eob] at h
theorem witness_RldecDecodes_ok : ¬ (eob ∉ (decoding2 [(0, 0)]).symbols ∧ reach (decoding2 [(0, 0)]) 1 < 2 * 2) ∧
    ¬ ∃ m, reach (decoding2 [(0, 0)]) m < 2 * 2 ∧ 2 * 2 < reach (decoding2 [(0, 0)]) (m + 1) := by
  refine ⟨by decide, fun ⟨m, _, h⟩ => ?_⟩
  simp [reach, symbols_eob, expandRle, eob] at h
theorem witness_RunLengthRoundTrip : Running st0 ∧ Admitted st0.params 16 := ⟨running0, admitted_16⟩
theorem witness_HbuildDerivesCodes : Running (withFreqs [7] st0) ∧ 1 ≤ (withFreqs [7] st0).k.toNat ∧
    (withFreqs [7] st0).k.toNat ≤ st0.params.symMax ∧ 2 ≤ (withFreqs [1, 2, 1] st0).k.toNat ∧
    (go .hbuild (withFreqs [1, 2, 1] st0)).status = retStatus 0x50#8 .ok := ⟨running0, by decide⟩
theorem witness_HuffmanCodeSet : Running (withFreqs [1, 2, 1] st0) ∧
    exec .hbuild (withFreqs [1, 2, 1] st0) = .next (go .hbuild (withFreqs [1, 2, 1] st0)) ∧
    (go .hbuild (withFreqs [1, 2, 1] st0)).status.code = .ret .ok ∧
    ((withFreqs [1, 2, 1] st0).readFQ 0).toNat < ((withFreqs [1, 2, 1] st0).readFQ 1).toNat :=
  ⟨running0, rfl, by decide, by decide⟩
theorem witness_HcanonAssignsCanonicalCodes_len0 : Running (withLens [2, 0] st0) ∧
    (withLens [2, 0] st0).k.toNat ≤ st0.params.symMax ∧ ∃ i, i < 2 ∧ ((withLens [2, 0] st0).readCL i).toNat = 0 :=
  ⟨running0, by decide, 1, by decide⟩
theorem witness_HcanonAssignsCanonicalCodes_oversub :
    (∀ i, i < 3 → ((withLens [1, 1, 1] st0).readCL i).toNat ≠ 0) ∧
    1 < kraftSum (fun i => ((withLens [1, 1, 1] st0).readCL i).toNat) 3 := by decide +kernel
theorem witness_HcanonAssignsCanonicalCodes_ok :
    (∀ i, i < 2 → ((withLens [1, 1] st0).readCL i).toNat ≠ 0) ∧
    kraftSum (fun i => ((withLens [1, 1] st0).readCL i).toNat) 2 ≤ 1 := by decide +kernel

def twoCodes (l : List (List Bool)) : State := { bound with k := 2#16, mem := { st0.mem with cc := codes l } }

theorem witness_HtrieBuildsTheFunction_ok : Running (twoCodes [[false], [true]]) ∧
    (twoCodes [[false], [true]]).valid.ccv = true ∧ (twoCodes [[false], [true]]).k.toNat ≤ st0.params.symMax ∧
    (∀ i, i < 2 → 1 ≤ ((twoCodes [[false], [true]]).readCC i).len.toNat) ∧
    PrefixFree (fun i => ((twoCodes [[false], [true]]).readCC i).str) 2 :=
  ⟨running_bound, rfl, by decide, by decide, fun i j hi hj hij => by
    interval_cases i <;> interval_cases j <;> first | exact absurd rfl hij | decide⟩
theorem witness_HtrieBuildsTheFunction_conflict :
    (∀ i, i < 2 → 1 ≤ ((twoCodes [[false], [false, true]]).readCC i).len.toNat) ∧
    ¬ PrefixFree (fun i => ((twoCodes [[false], [false, true]]).readCC i).str) 2 :=
  ⟨by decide, fun h => h 0 1 (by decide) (by decide) (by decide) (by decide)⟩
theorem witness_HdecsymWalksTheTrie_symbol : Running (decoding 0xD0) ∧ (decoding 0xD0).valid.trv = true ∧
    (decoding 0xD0).valid.rv = true ∧ (decoding 0xD0).mem.trie = some trie3 ∧
    (decoding 0xD0).rpos ≤ 8 * (decoding 0xD0).r.cap.toNat ∧
    (decoding 0xD0).rest = [true, true] ++ [false, true, false, false, false, false] ∧
    trie3.lookup [true, true] = some 2#16 := ⟨running0, rfl, rfl, rfl, by decide, by decide, rfl⟩
theorem witness_HdecsymWalksTheTrie_underflow :
    (trie3.descend ({ decoding 0x01 with r := cursorAt 1 7 } : State).rest).isNode = true := by decide
theorem witness_HdecsymWalksTheTrie_dead :
    (decoding 0x80).rest = [] ++ true :: List.replicate 7 false ∧
    ((Trie.node (.leaf 0#16) .absent).descend []).isNode = true ∧
    (Trie.node (.leaf 0#16) .absent).descend ([] ++ [true]) = .absent := by decide

def coded : State := reading [0xD0] (withLens [2, 1, 2] st0)
def coded1 : State := go .hcanon coded
def coded2 : State := go .htrie coded1

theorem witness_DecodingInvertsCanonicalCodes : Running coded ∧ exec .hcanon coded = .next coded1 ∧
    coded1.status.code = .ret .ok ∧ exec .htrie coded1 = .next coded2 ∧ 2 < coded.k.toNat ∧ coded2.valid.rv = true ∧
    coded2.rpos ≤ 8 * coded2.r.cap.toNat ∧
    coded2.rest = (coded1.readCC 2).str ++ [false, true, false, false, false, false] :=
  ⟨running0, rfl, by decide +kernel, rfl, by decide, by decide +kernel, by decide +kernel, by decide +kernel⟩
theorem witness_BindingRewindsTheCursor : Running st0 ∧ 0 ≤ st0.params.bufMax ∧ 16384 ≤ st0.params.bufMax :=
  ⟨running0, by decide⟩
theorem witness_BitWritesAppend : Running (writing 1 st0) ∧ (writing 1 st0).valid.wv = true ∧
    writtenBits (.wbit true) = some [true] ∧ writtenBits (.wbits 16 0xBEEF) = some (fieldBits 16 0xBEEF) :=
  ⟨running0, rfl, rfl, rfl⟩
theorem witness_RbitReadsNextBit : Running (reading [0xAA] st0) ∧ (reading [0xAA] st0).valid.rv = true ∧
    (reading [0xAA] st0).rest = true :: [false, true, false, true, false, true, false] ∧
    ({ reading [0xAA] st0 with r := cursorAt 1 8 } : State).rest = [] := ⟨running0, by decide⟩
theorem witness_BitIoIsExact : Running st0 ∧ 1 ≤ st0.params.bufMax ∧
    (∀ i ∈ [Instr.wbit true, .wbits 2 1], (writtenBits i).isSome = true) ∧
    ([Instr.wbit true, .wbits 2 1].flatMap (fun i => (writtenBits i).getD [])).length ≤ 8 * 1 := ⟨running0, by decide⟩
theorem witness_SymbolPackingIsExact : -32768 ≤ (-32768 : Int) ∧ (32767 : Int) ≤ 32767 ∧ 65535 < 65536 ∧
    (32767 : Int) < 32768 ∧ (-32769 : Int) < -32768 := by decide
theorem witness_SymmapCountsKeys_ok : Running (withSyms [(0, 5), (0, 5)] st0) ∧
    (withSyms [(0, 5), (0, 5)] st0).rsn.toNat ≤ st0.params.lMax ∧
    ((withSyms [(0, 5), (0, 5)] st0).symbols.map (fun sym => (pack sym).1)).eraseDups = [0xA#32] :=
  ⟨running0, by decide⟩
theorem witness_SymmapCountsKeys_full :
    Running { withSyms [(0, 5), (0, 6)] st0 with params := { st0.params with symMax := 1 } } ∧
    1 < ((withSyms [(0, 5), (0, 6)] st0).symbols.map (fun sym => (pack sym).1)).eraseDups.length :=
  ⟨⟨by decide, rfl⟩, by decide⟩
theorem witness_HeaderAndPayloadAreWritten : Running paying ∧ paying.valid.wv = true ∧
    paying.k.toNat ≤ paying.params.symMax ∧ paying.valid.ccv = true ∧ paying.rsn.toNat ≤ paying.params.lMax ∧
    ∀ p, p < 4 → (fun p => [0, 1, 1, 2].getD p 0) p < paying.k.toNat ∧
      paying.readST ([0, 1, 1, 2].getD p 0) = (pack (paying.readRS p)).1 ∧
      ∀ i, i < [0, 1, 1, 2].getD p 0 → paying.readST i ≠ (pack (paying.readRS p)).1 :=
  ⟨running0, rfl, by decide, rfl, by decide, by decide⟩
theorem witness_RdhdrReadsHeader_ok : Running (reading header17 st0) ∧ (reading header17 st0).valid.rv = true ∧
    (reading header17 st0).rpos ≤ 8 * (reading header17 st0).r.cap.toNat ∧
    bitsValue ((reading header17 st0).rest.take 16) = 3 ∧ 16 + 40 * 3 ≤ (reading header17 st0).rest.length ∧
    ∀ i, i < 3 → headerLen (reading header17 st0).rest i ≠ 0 := ⟨running0, by decide +kernel⟩
theorem witness_RdhdrReadsHeader_fails :
    (reading [0] st0).rest.length < 16 ∧
    256 < bitsValue ((reading [1, 1] st0).rest.take 16) ∧
    (reading [0, 1, 0] st0).rest.length < 56 + 40 * 0 ∧ 0 < bitsValue ((reading [0, 1, 0] st0).rest.take 16) ∧
    56 + 40 * 0 ≤ (reading [0, 1, 0, 0, 0, 0, 0] st0).rest.length ∧
    headerLen (reading [0, 1, 0, 0, 0, 0, 0] st0).rest 0 = 0 := by decide

def paidBy (b pos : Nat) : State :=
  { decoding b with mem := { (decoding b).mem with st := ints [0xA, 0x5, 0x0] }, r := cursorAt 1 pos }

theorem witness_RdpayDecodesSymbols_done : Running (paidBy 0x8C 0) ∧ Admitted st0.params 4 ∧
    (paidBy 0x8C 0).valid.trv = true ∧ (paidBy 0x8C 0).valid.rv = true ∧ (paidBy 0x8C 0).mem.trie = some trie3 ∧
    (paidBy 0x8C 0).rpos ≤ 8 * (paidBy 0x8C 0).r.cap.toNat ∧
    [[true, false], [false], [false], [true, true]].map trie3.lookup = [0#16, 1#16, 1#16, 2#16].map some ∧
    (paidBy 0x8C 0).rest = [[true, false], [false], [false], [true, true]].flatten ++ [false, false] ∧
    (∀ m, m < 4 → eob ∉ ([0#16, 1#16, 1#16, 2#16].map (fun i => unpack ((paidBy 0x8C 0).readST i.toNat))).take m ∧
      coverRle (([0#16, 1#16, 1#16, 2#16].map (fun i => unpack ((paidBy 0x8C 0).readST i.toNat))).take m) < 4 * 4) ∧
    eob ∈ [0#16, 1#16, 1#16, 2#16].map (fun i => unpack ((paidBy 0x8C 0).readST i.toNat)) :=
  ⟨running0, admitted_4, by decide⟩
theorem witness_RdpayDecodesSymbols_underflow : (paidBy 0x8C 8).rest = ([] : List (List Bool)).flatten ++ [] ∧
    ¬ (eob ∈ ([] : List RleSym) ∨ 4 * 4 ≤ coverRle []) ∧ (trie3.descend []).isNode = true := by decide
theorem witness_RdpayDecodesSymbols_dead : (paidBy 0x80 0).rest = ([] : List (List Bool)).flatten ++
      ([] ++ true :: List.replicate 7 false) ∧
    ((Trie.node (.leaf 0#16) .absent).descend []).isNode = true ∧
    (Trie.node (.leaf 0#16) .absent).descend ([] ++ [true]) = .absent := by decide
theorem witness_EncblkRunsItsSteps : Running block2 ∧ Admitted block2.params 4 ∧ block2.valid.wv = true :=
  ⟨running0, admitted_4, rfl⟩
theorem witness_DecblkRunsItsSteps : Running (reading header17 st0) ∧ Admitted st0.params 4 ∧
    (reading header17 st0).valid.rv = true := ⟨running0, admitted_4, rfl⟩
theorem witness_EncblkWritesTheWireFormat : exec (.encblk 4) block2 = .next (go (.encblk 4) block2) ∧
    (go (.encblk 4) block2).status.code.class = .success := ⟨rfl, by decide +kernel⟩
theorem witness_EncblkSucceedsWithRoom :
    Running (writing 9442 st0) ∧ Admitted st0.params 16 ∧ 16 * 16 ≤ 256 ∧ 16 * 16 ≤ st0.params.symMax ∧
    16 + 295 * (16 * 16) ≤ 8 * (writing 9442 st0).w.cap.toNat := ⟨running0, admitted_16, by decide⟩
theorem witness_BlockRoundTrip : Running block2 ∧ Admitted block2.params 4 ∧ block2.w.cap.toNat ≤ block2.params.bufMax ∧
    exec (.encblk 4) block2 = .next (go (.encblk 4) block2) ∧ (go (.encblk 4) block2).status.code = .ret .ok :=
  ⟨running0, admitted_4, by decide, rfl, by decide +kernel⟩
theorem witness_HostReadAnswersTheElement :
    ({ st0 with port := [.read 0x09 16383] } : State).port = .read 0x09 16383 :: [] ∧ Space.ofId 0x09 = some .bs ∧
    16383 < Space.bs.length st0.params ∧ 16 ≤ 23 := by decide
theorem witness_HostWriteStoresOneElement :
    ({ st0 with port := [.write 0x00 5 65535#64] } : State).port = .write 0x00 5 65535#64 :: [] ∧
    Space.ofId 0x00 = some .reg ∧ 5 < Space.reg.length st0.params ∧ hostWidth .reg 5 = some 16 ∧
    (65535#64 : DWord).toNat < 2 ^ 16 ∧ hostWidth .reg 2 = none ∧ Space.ofId 0x17 = none := by decide
theorem witness_PseudoInitBuildsBothContexts : Running st0 ∧ 16 < 2 ^ 12 ∧ 100 < 2 ^ 8 ∧ Admitted st0.params 16 ∧
    ¬ Admitted st0.params 3 := ⟨running0, by decide, by decide, admitted_16, not_admitted_3⟩
/-- A core with a bound writer meets the invariant and takes a step. -/
theorem witness_InvariantKept : Inv ((writing 1 st0).withFetchWord 32 0x61000001) ∧
    ∃ t, step ((writing 1 st0).withFetchWord 32 0x61000001) = .next t :=
  ⟨⟨by decide, rfl, fun h => by simp [writing, st0, State.reset, State.atReset, State.withFetchWord, presentWord] at h,
    fun h => by simp [writing, st0, State.reset, State.atReset, State.withFetchWord, presentWord] at h,
    ⟨by decide, by decide⟩, ⟨by decide, by decide⟩,
    fun h => by simp [writing, st0, State.reset, State.atReset, State.withFetchWord, presentWord] at h,
    fun h => by simp [writing, st0, State.reset, State.atReset, State.withFetchWord, presentWord] at h,
    codesInv_unwritten _ rfl rfl⟩, _, rfl⟩
theorem witness_InvariantAtReset : Params.default.ok = true := by decide

end Sys2Proof.Tests
end

section
namespace Sys2Proof.Machine

/-! The fields of a real, and its value read from them. -/

theorem fsign_eq_decide (a : Real64) : fsign a = decide (2 ^ 63 ≤ a.toNat) :=
  BitVec.msb_eq_decide a

theorem fexp_eq_div_mod (a : Real64) : fexp a = a.toNat / 2 ^ 52 % 2 ^ 11 := by
  simp [fexp, BitVec.extractLsb'_toNat, Nat.shiftRight_eq_div_pow]

theorem ffrac_eq_mod (a : Real64) : ffrac a = a.toNat % 2 ^ 52 := by
  simp [ffrac, BitVec.extractLsb'_toNat]

theorem toNat_withSign (neg : Bool) {c : ℕ} (hc : c < 2 ^ 63) :
    (withSign neg c).toNat = (if neg then 2 ^ 63 else 0) + c := by
  have hmod : c % 2 ^ 64 = c := Nat.mod_eq_of_lt (hc.trans (by decide))
  cases neg with
  | false => simpa [withSign] using hmod
  | true =>
    have hor := Nat.two_pow_add_eq_or_of_lt hc 1
    simp only [withSign, if_true, BitVec.toNat_or, BitVec.toNat_ofNat, hmod]
    exact (by simpa using hor.symm)

theorem fsign_withSign (neg : Bool) {c : ℕ} (hc : c < 2 ^ 63) : fsign (withSign neg c) = neg := by
  rw [fsign_eq_decide, toNat_withSign neg hc]
  cases neg with
  | false => simpa using hc
  | true => simp

theorem fexp_withSign (neg : Bool) {c : ℕ} (hc : c < 2 ^ 63) : fexp (withSign neg c) = c / 2 ^ 52 := by
  rw [fexp_eq_div_mod, toNat_withSign neg hc]
  split <;> omega

theorem ffrac_withSign (neg : Bool) {c : ℕ} (hc : c < 2 ^ 63) : ffrac (withSign neg c) = c % 2 ^ 52 := by
  rw [ffrac_eq_mod, toNat_withSign neg hc]
  split <;> omega

theorem ffrac_lt (a : Real64) : ffrac a < 2 ^ 52 := (a.extractLsb' 0 52).isLt

theorem infMag_eq : infMag = 2047 * 2 ^ 52 := by decide

theorem isNaN_withSign (neg : Bool) {c : ℕ} (hc : c ≤ infMag) : isNaN (withSign neg c) = false := by
  rw [infMag_eq] at hc
  simp only [isNaN, fexp_withSign neg (show c < 2 ^ 63 by omega), ffrac_withSign neg (show c < 2 ^ 63 by omega),
    Bool.and_eq_false_iff, beq_eq_false_iff_ne, bne_eq_false_iff_eq]
  omega

theorem isFinite_withSign (neg : Bool) {c : ℕ} (hc : c ≤ infMag) :
    isFinite (withSign neg c) = true ↔ c < infMag := by
  rw [infMag_eq] at hc ⊢
  rw [isFinite, fexp_withSign neg (by omega), bne_iff_ne]
  omega

theorem isNaN_of_isFinite {a : Real64} (h : isFinite a = true) : isNaN a = false := by
  simp_all [isFinite, isNaN]

theorem isInf_of_isFinite {a : Real64} (h : isFinite a = true) : isInf a = false := by
  simp_all [isFinite, isInf]

theorem fmag_eq_zero_iff (a : Real64) : fmag a = 0 ↔ isZero a = true := by
  by_cases h : fexp a = 0 <;> simp [fmag, isZero, h]

theorem natAbs_funits (a : Real64) : (funits a).natAbs = fmag a := by
  unfold funits; split <;> simp

theorem funits_eq_zero_iff (a : Real64) : funits a = 0 ↔ isZero a = true := by
  rw [← Int.natAbs_eq_zero, natAbs_funits, fmag_eq_zero_iff]

/-- The real value, in units of 2^-1074. -/
theorem toRat_mul_units (a : Real64) : (toRat a : ℝ) * 2 ^ 1074 = funits a := by
  simp [toRat]

theorem toRat_eq_zero_iff (a : Real64) : toRat a = 0 ↔ isZero a = true := by
  simp [toRat, funits_eq_zero_iff]

theorem toRat_lt_iff (a b : Real64) : toRat a < toRat b ↔ funits a < funits b := by
  rw [toRat, toRat, div_lt_div_iff_of_pos_right (by positivity), Int.cast_lt]

theorem toRat_nonneg_iff (a : Real64) : 0 ≤ toRat a ↔ 0 ≤ funits a := by
  rw [toRat, le_div_iff₀ (by positivity), zero_mul, Int.cast_nonneg_iff]

/-- The reals at or above 2^52 units of size `2^k` are whole numbers of such units. -/
theorem two_pow_dvd_fmag_or_lt (a : Real64) (k : ℕ) : 2 ^ k ∣ fmag a ∨ fmag a < 2 ^ (52 + k) := by
  have hfrac := ffrac_lt a
  unfold fmag
  split
  · exact .inr (hfrac.trans_le (Nat.pow_le_pow_right (by decide) (by omega)))
  · by_cases hk : k ≤ fexp a - 1
    · exact .inl (Dvd.dvd.mul_left (pow_dvd_pow 2 hk) _)
    · right
      calc (2 ^ 52 + ffrac a) * 2 ^ (fexp a - 1)
          < 2 ^ 53 * 2 ^ (fexp a - 1) := Nat.mul_lt_mul_of_pos_right (by omega) (by positivity)
        _ ≤ 2 ^ (52 + k) := by rw [← pow_add]; exact Nat.pow_le_pow_right (by decide) (by omega)

/-- The encoding `k·2^52 + m`, which `roundMag` makes, is that of `m` units of size `2^k`. -/
theorem fmag_withSign (neg : Bool) {k m : ℕ} (hm : m ≤ 2 ^ 53) (hk : k = 0 ∨ 2 ^ 52 ≤ m)
    (hc : k * 2 ^ 52 + m < 2 ^ 63) : fmag (withSign neg (k * 2 ^ 52 + m)) = m * 2 ^ k := by
  rw [fmag, fexp_withSign neg hc, ffrac_withSign neg hc]
  obtain hlt | hge := lt_or_ge m (2 ^ 52)
  · have hk0 : k = 0 := by omega
    subst hk0
    rw [if_pos (by omega)]
    omega
  · rw [if_neg (by omega)]
    obtain hlt | rfl := hm.lt_or_eq
    · rw [show (k * 2 ^ 52 + m) / 2 ^ 52 - 1 = k by omega, show 2 ^ 52 + (k * 2 ^ 52 + m) % 2 ^ 52 = m by omega]
    · rw [show (k * 2 ^ 52 + 2 ^ 53) / 2 ^ 52 - 1 = k + 1 by omega,
        show 2 ^ 52 + (k * 2 ^ 52 + 2 ^ 53) % 2 ^ 52 = 2 ^ 52 by omega]
      ring

end Sys2Proof.Machine
end

section
namespace Sys2Proof.Machine

/-! Rounding to a grid, and what it gives in the terms of `RoundsTo`. -/

/-- `m·2^k` is the non-negative real `y` rounded to nearest, ties to even, on the grid that a significand of 53 bits has
at `y`, or on the grid of step 1 (the subnormal one) where that is coarser. -/
structure GridRound (y : ℝ) (k m : ℕ) : Prop where
  lt_top : y < 2 ^ (53 + k)
  normal : k = 0 ∨ 2 ^ (52 + k) ≤ y
  near : |m * 2 ^ k - y| ≤ 2 ^ k / 2
  even_of_tie : |m * 2 ^ k - y| = 2 ^ k / 2 → m % 2 = 0

namespace GridRound

variable {y : ℝ} {k m : ℕ}

theorem le_two_pow (h : GridRound y k m) : m ≤ 2 ^ 53 := by
  have hpos : (0 : ℝ) < 2 ^ k := by positivity
  have hnear := (abs_le.1 h.near).2
  have htop := h.lt_top
  rw [pow_add] at htop
  have hlt : (m : ℝ) < 2 ^ 53 + 1 := by nlinarith
  exact Nat.lt_succ_iff.1 (by exact_mod_cast hlt)

theorem two_pow_le (h : GridRound y k m) : k = 0 ∨ 2 ^ 52 ≤ m := by
  refine h.normal.imp_right fun hlow => ?_
  have hpos : (0 : ℝ) < 2 ^ k := by positivity
  have hnear := (abs_le.1 h.near).1
  rw [pow_add] at hlow
  have hlt : (2 : ℝ) ^ 52 < m + 1 := by nlinarith
  exact Nat.lt_succ_iff.1 (by exact_mod_cast hlt)

/-- The step of the grid is no coarser than the size of the number asks. -/
theorem step_le {j : ℕ} (h : GridRound y k m) (hy : y < 2 ^ (53 + j)) : k ≤ j := by
  obtain rfl | hlow := h.normal
  · exact Nat.zero_le _
  · have := (pow_lt_pow_iff_right₀ (one_lt_two (α := ℝ))).1 (hlow.trans_lt hy)
    omega

/-- Two points of a grid are the same or at least one step apart. -/
theorem eq_or_step_le (k : ℕ) (i j : ℤ) : i = j ∨ (2 : ℝ) ^ k ≤ |(i : ℝ) * 2 ^ k - j * 2 ^ k| := by
  refine or_iff_not_imp_left.2 fun hne => ?_
  have hone : (1 : ℝ) ≤ |(i : ℝ) - j| := by exact_mod_cast Int.one_le_abs (sub_ne_zero.2 hne)
  rw [← sub_mul, abs_mul, abs_of_pos (by positivity : (0 : ℝ) < 2 ^ k)]
  exact le_mul_of_one_le_left (by positivity) hone

/-- What is within half a step of `x` is nearest to it on the grid, and another point is as near at half a step only. -/
theorem nearest_of_near {x : ℝ} {i : ℤ} (hnear : |(i : ℝ) * 2 ^ k - x| ≤ 2 ^ k / 2) (j : ℤ) :
    |(i : ℝ) * 2 ^ k - x| ≤ |(j : ℝ) * 2 ^ k - x| ∧
    (|(i : ℝ) * 2 ^ k - x| = |(j : ℝ) * 2 ^ k - x| → j ≠ i → |(i : ℝ) * 2 ^ k - x| = 2 ^ k / 2) := by
  obtain rfl | hstep := eq_or_step_le k i j
  · exact ⟨le_rfl, fun _ hne => absurd rfl hne⟩
  · have htri := abs_sub_le ((i : ℝ) * 2 ^ k) x (j * 2 ^ k)
    rw [abs_sub_comm x] at htri
    exact ⟨by linarith, fun heq _ => by linarith⟩

/-- A number of whole steps is rounded to itself. -/
theorem eq_of_dvd (h : GridRound y k m) {j : ℕ} (hj : y = j * 2 ^ k) : m * 2 ^ k = y := by
  obtain heq | hstep := eq_or_step_le k m j
  · rw [hj, Int.natCast_inj.1 heq]
  · have hpos : (0 : ℝ) < 2 ^ k := by positivity
    have hnear := h.near
    rw [Int.cast_natCast, Int.cast_natCast, ← hj] at hstep
    linarith

/-- On the grid of step `2·u` with 2^53 the last significand: rounding carries to 2^53 exactly from half a step below on,
because the significand before it is odd. -/
theorem carries_iff {u : ℝ} (hu : 0 < u) (hm : m ≤ 2 ^ 53) (hnear : |m * (2 * u) - y| ≤ u)
    (heven : |m * (2 * u) - y| = u → m % 2 = 0) : 2 ^ 53 ≤ m ↔ (2 ^ 54 - 1) * u ≤ y := by
  obtain ⟨hlow, hhigh⟩ := abs_le.1 hnear
  constructor
  · intro hcarry
    obtain rfl := le_antisymm hm hcarry
    push_cast at hhigh
    linarith
  · intro hy
    by_contra hlt
    obtain rfl | hle : m = 2 ^ 53 - 1 ∨ m + 2 ≤ 2 ^ 53 := by omega
    · have htie : |((2 ^ 53 - 1 : ℕ) : ℝ) * (2 * u) - y| = u := by
        norm_num at hlow hy ⊢
        rw [abs_sub_comm, abs_of_nonneg (by linarith)]
        linarith
      exact absurd (heven htie) (by decide)
    · have hle' : (m : ℝ) + 2 ≤ 2 ^ 53 := by exact_mod_cast hle
      nlinarith

theorem lt_infMag (h : GridRound y k m) (hk : k ≤ 2044) : k * 2 ^ 52 + m < infMag := by
  have := h.le_two_pow
  rw [infMag_eq]
  omega

/-- The rounded number overflows exactly from half a step past the largest finite real on. -/
theorem overflows_iff (h : GridRound y k m) : infMag ≤ k * 2 ^ 52 + m ↔ (2 ^ 54 - 1) * (2 : ℝ) ^ 2044 ≤ y := by
  have hm := h.le_two_pow
  have hu : (0 : ℝ) < 2 ^ 2044 := by positivity
  have hpow {i j : ℕ} (hij : i ≤ j + 2044) : (2 : ℝ) ^ i ≤ 2 ^ j * 2 ^ 2044 := by
    rw [← pow_add]
    exact pow_le_pow_right₀ one_le_two hij
  have hpow' {i j : ℕ} (hij : j + 2044 ≤ i) : (2 : ℝ) ^ j * 2 ^ 2044 ≤ 2 ^ i := by
    rw [← pow_add]
    exact pow_le_pow_right₀ one_le_two hij
  rw [infMag_eq]
  obtain hk | rfl | hk := lt_trichotomy k 2045
  · have hy := h.lt_top.trans_le (hpow (j := 53) (by omega))
    generalize (2 : ℝ) ^ 2044 = u at *
    exact iff_of_false (by omega) (by linarith)
  · have hstep : (2 : ℝ) ^ 2045 = 2 * 2 ^ 2044 := pow_succ' _ _
    have hnear := h.near
    have heven := h.even_of_tie
    rw [hstep, mul_div_cancel_left₀ _ two_ne_zero] at hnear heven
    rw [← carries_iff hu hm hnear heven]
    omega
  · have hmin := h.two_pow_le
    have hy := (hpow' (j := 54) (by omega)).trans (h.normal.resolve_left (by omega))
    generalize (2 : ℝ) ^ 2044 = u at *
    exact iff_of_true (by omega) (by linarith)

/-- A number smaller than every normal significand on the grid is farther from `X` than the nearest grid point. -/
theorem closer_of_lt {X : ℝ} {i u : ℤ} (hnear : |i * 2 ^ k - X| ≤ 2 ^ k / 2) (hX : 2 ^ (52 + k) ≤ |X|)
    (hu : |(u : ℝ)| < 2 ^ (52 + k)) : |i * 2 ^ k - X| < |u - X| := by
  obtain ⟨hlow, hhigh⟩ := abs_lt.1 hu
  rw [pow_add] at hX hlow hhigh
  obtain hsign | hsign := le_total 0 X
  · rw [abs_of_nonneg hsign] at hX
    calc |i * 2 ^ k - X| ≤ |((2 ^ 52 : ℤ) : ℝ) * 2 ^ k - X| := (nearest_of_near hnear _).1
      _ = X - 2 ^ 52 * 2 ^ k := by push_cast; rw [abs_sub_comm, abs_of_nonneg] <;> linarith
      _ < X - u := by linarith
      _ ≤ |u - X| := by rw [abs_sub_comm]; exact le_abs_self _
  · rw [abs_of_nonpos hsign] at hX
    calc |i * 2 ^ k - X| ≤ |((-2 ^ 52 : ℤ) : ℝ) * 2 ^ k - X| := (nearest_of_near hnear _).1
      _ = -(2 ^ 52 * 2 ^ k) - X := by push_cast; rw [abs_of_nonneg] <;> linarith
      _ < u - X := by linarith
      _ ≤ |u - X| := le_abs_self _

/-- `i·2^k`, the rounded magnitude with the sign of the real `X`, is nearest to `X` among the whole numbers `u` that are units
of a real, and `i` is even where another one is as near. -/
theorem nearest {X : ℝ} {i u : ℤ} (h : GridRound |X| k i.natAbs)
    (hsign : |i * 2 ^ k - X| = |(i.natAbs * 2 ^ k - |X| : ℝ)|) (hu : 2 ^ k ∣ u.natAbs ∨ u.natAbs < 2 ^ (52 + k)) :
    |i * 2 ^ k - X| ≤ |u - X| ∧ (|i * 2 ^ k - X| = |u - X| → u ≠ i * 2 ^ k → i.natAbs % 2 = 0) := by
  have hnear := hsign.trans_le h.near
  by_cases hdvd : 2 ^ k ∣ u.natAbs
  · obtain ⟨j, rfl⟩ : (2 : ℤ) ^ k ∣ u := Int.natAbs_dvd_natAbs.1 (by simpa [Int.natAbs_pow] using hdvd)
    obtain ⟨hle, htie⟩ := nearest_of_near hnear j
    push_cast
    rw [mul_comm ((2 : ℝ) ^ k)]
    refine ⟨hle, fun heq hne => h.even_of_tie (hsign ▸ htie heq fun hji => hne ?_)⟩
    rw [hji, mul_comm]
  · have hX := h.normal.resolve_left fun hk => hdvd (by simp [hk])
    have habs : |(u : ℝ)| < 2 ^ (52 + k) := by
      rw [← Int.cast_abs, Int.abs_eq_natAbs]
      exact_mod_cast hu.resolve_left hdvd
    have hcloser := closer_of_lt hnear hX habs
    exact ⟨hcloser.le, fun heq => absurd heq hcloser.ne⟩

end GridRound

/-- The magnitude of a real, from its units. -/
theorem abs_toRat (a : Real64) : |(toRat a : ℝ)| = fmag a / 2 ^ 1074 := by
  have hU : (0 : ℝ) < 2 ^ 1074 := by positivity
  rw [eq_div_iff hU.ne', ← abs_of_pos hU, ← abs_mul, toRat_mul_units, ← natAbs_funits, Nat.cast_natAbs,
    Int.cast_abs]

/-! Signs. A zero has both. -/

/-- The integer of sign `neg` and magnitude `m`. -/
def signedNat (neg : Bool) (m : ℕ) : ℤ := if neg then -(m : ℤ) else m

@[simp] theorem natAbs_signedNat (neg : Bool) (m : ℕ) : (signedNat neg m).natAbs = m := by
  cases neg <;> simp [signedNat]

theorem funits_eq_signedNat (a : Real64) : funits a = signedNat (fsign a) (fmag a) := rfl

theorem signedNat_mul (neg : Bool) (m n : ℕ) : signedNat neg (m * n) = signedNat neg m * n := by
  cases neg <;> simp [signedNat]

theorem signedNat_natAbs (z : ℤ) : signedNat (decide (z < 0)) z.natAbs = z := by
  by_cases h : z < 0
  · simp only [signedNat, h, decide_true, if_true]
    omega
  · simp only [signedNat, h, decide_false, Bool.false_eq_true, if_false]
    omega

/-- The real `x` is not positive, or it is not negative. -/
def HasSign (neg : Bool) (x : ℝ) : Prop := if neg then x ≤ 0 else 0 ≤ x

@[simp] theorem hasSign_true (x : ℝ) : HasSign true x ↔ x ≤ 0 := by simp [HasSign]

@[simp] theorem hasSign_false (x : ℝ) : HasSign false x ↔ 0 ≤ x := by simp [HasSign]

theorem hasSign_zero (neg : Bool) : HasSign neg 0 := by cases neg <;> simp

theorem hasSign_decide (x : ℝ) [Decidable (x < 0)] : HasSign (decide (x < 0)) x := by
  by_cases h : x < 0
  · simpa [h] using h.le
  · simpa [h] using not_lt.1 h

theorem HasSign.mul {s t : Bool} {x y : ℝ} (hx : HasSign s x) (hy : HasSign t y) : HasSign (s != t) (x * y) := by
  cases s <;> cases t <;> simp only [hasSign_true, hasSign_false] at hx hy
  · simpa using mul_nonneg hx hy
  · simpa using mul_nonpos_of_nonneg_of_nonpos hx hy
  · simpa using mul_nonpos_of_nonpos_of_nonneg hx hy
  · simpa using mul_nonneg_of_nonpos_of_nonpos hx hy

theorem HasSign.inv {s : Bool} {x : ℝ} (hx : HasSign s x) : HasSign s x⁻¹ := by
  cases s <;> simpa using hx

theorem hasSign_mul_pos_iff {s : Bool} {x c : ℝ} (hc : 0 < c) : HasSign s (x * c) ↔ HasSign s x := by
  cases s
  · rw [hasSign_false, hasSign_false, mul_nonneg_iff_of_pos_right hc]
  · rw [hasSign_true, hasSign_true, ← neg_nonneg, ← neg_mul, mul_nonneg_iff_of_pos_right hc, neg_nonneg]

theorem hasSign_toRat (a : Real64) : HasSign (fsign a) (toRat a) := by
  rw [← hasSign_mul_pos_iff (by positivity : (0 : ℝ) < 2 ^ 1074), toRat_mul_units, funits_eq_signedNat]
  cases fsign a <;> simp [signedNat]

/-- A distance to the reals, in units of 2^-1074. -/
theorem abs_toRat_sub (a : Real64) (x : ℝ) : |(toRat a : ℝ) - x| = |funits a - x * 2 ^ 1074| / 2 ^ 1074 := by
  have hpos : (0 : ℝ) < 2 ^ 1074 := by positivity
  rw [← toRat_mul_units, ← sub_mul, abs_mul, abs_of_pos hpos, mul_div_cancel_right₀ _ hpos.ne']

/-- The overflow threshold of `RoundsTo` in units of 2^-1074. -/
theorem overflow_threshold_iff (x : ℝ) :
    (2 : ℝ) ^ 1024 - 2 ^ 970 ≤ |x| ↔ (2 ^ 54 - 1) * (2 : ℝ) ^ 2044 ≤ |x| * 2 ^ 1074 := by
  have hunit : (2 : ℝ) ^ 2044 = 2 ^ 970 * 2 ^ 1074 := by rw [← pow_add]
  have htop : (2 : ℝ) ^ 1024 = 2 ^ 54 * 2 ^ 970 := by rw [← pow_add]
  rw [hunit, ← mul_assoc, mul_le_mul_iff_left₀ (by positivity), htop, sub_mul, one_mul]

/-- The sign of the exact value goes over to the rounding error. -/
theorem abs_signedNat_sub {neg : Bool} {x : ℝ} (hs : HasSign neg x) (m : ℕ) (v : ℝ) :
    |(signedNat neg m : ℝ) * v - x| = |m * v - (|x|)| := by
  cases neg with
  | false => rw [abs_of_nonneg ((hasSign_false x).1 hs)]; rfl
  | true =>
    rw [abs_of_nonpos ((hasSign_true x).1 hs), abs_sub_comm]
    congr 1
    simp only [signedNat, if_true, Int.cast_neg, Int.cast_natCast]
    ring

namespace GridRound

variable {y x : ℝ} {k m : ℕ}

theorem isFinite_iff (neg : Bool) (k m : ℕ) :
    isFinite (withSign neg (min (k * 2 ^ 52 + m) infMag)) = true ↔ k * 2 ^ 52 + m < infMag := by
  rw [isFinite_withSign neg (min_le_right _ _), min_lt_iff, or_iff_left (lt_irrefl _)]

theorem funits_withSign (h : GridRound y k m) (neg : Bool) (hlt : k * 2 ^ 52 + m < infMag) :
    funits (withSign neg (k * 2 ^ 52 + m)) = signedNat neg m * 2 ^ k := by
  have hlt63 : k * 2 ^ 52 + m < 2 ^ 63 := hlt.trans (by decide)
  rw [funits_eq_signedNat, fsign_withSign neg hlt63, fmag_withSign neg h.le_two_pow h.two_pow_le hlt63, signedNat_mul,
    Nat.cast_pow, Nat.cast_ofNat]

/-- What `withSign` makes of a rounded magnitude is the real rounded. -/
theorem roundsTo {neg : Bool} (h : GridRound |x * 2 ^ 1074| k m) (hs : HasSign neg x) :
    RoundsTo x (withSign neg (min (k * 2 ^ 52 + m) infMag)) := by
  have hU : (0 : ℝ) < 2 ^ 1074 := by positivity
  have hle : min (k * 2 ^ 52 + m) infMag ≤ infMag := min_le_right _ _
  have hlt63 : min (k * 2 ^ 52 + m) infMag < 2 ^ 63 := hle.trans_lt (by decide)
  have hinf : isFinite (withSign neg (min (k * 2 ^ 52 + m) infMag)) = false ↔ (2 : ℝ) ^ 1024 - 2 ^ 970 ≤ |x| := by
    rw [← Bool.not_eq_true, isFinite_iff, not_lt, h.overflows_iff, overflow_threshold_iff, abs_mul, abs_of_pos hU]
  refine ⟨isNaN_withSign neg hle, hinf, fun hf => ?_, fun hf c _ => ?_⟩
  · have hx : x ≠ 0 := by
      have hpow : (2 : ℝ) ^ 970 < 2 ^ 1024 := pow_lt_pow_right₀ one_lt_two (by decide)
      exact abs_pos.1 ((sub_pos.2 hpow).trans_le (hinf.1 hf))
    rw [fsign_withSign neg hlt63]
    cases neg with
    | false => simpa using hs
    | true => simpa using lt_of_le_of_ne ((hasSign_true x).1 hs) hx
  · have hlt := (isFinite_iff neg k m).1 hf
    rw [min_eq_left hlt.le] at hlt63 ⊢
    have hunits := h.funits_withSign neg hlt
    have hreal : (signedNat neg m : ℝ) * 2 ^ k = funits (withSign neg (k * 2 ^ 52 + m)) := by
      rw [hunits]
      push_cast
      rfl
    have hsign := abs_signedNat_sub ((hasSign_mul_pos_iff hU).2 hs) m (2 ^ k)
    have hunit : 2 ^ k ∣ (funits c).natAbs ∨ (funits c).natAbs < 2 ^ (52 + k) := by
      rw [natAbs_funits]
      exact two_pow_dvd_fmag_or_lt c k
    obtain ⟨hnear, heven⟩ := nearest (i := signedNat neg m) (by rwa [natAbs_signedNat])
      (by rwa [natAbs_signedNat]) hunit
    rw [hreal] at hnear
    rw [hreal, ← hunits, natAbs_signedNat] at heven
    rw [abs_toRat_sub, abs_toRat_sub, div_le_div_iff_of_pos_right hU, div_left_inj' hU.ne', ffrac_withSign neg hlt63]
    refine ⟨hnear, fun heq hne => ?_⟩
    have hm := heven heq fun hu => hne (by rw [toRat, toRat, hu])
    omega

end GridRound

end Sys2Proof.Machine
end

section
namespace Sys2Proof.Machine

/-! `roundMag` and the operations of the default record. -/

/-- `divNearestEven` is within one half of the quotient, and even at one half. -/
theorem divNearestEven_near (num : ℕ) {den : ℕ} (hden : 0 < den) :
    |(divNearestEven num den : ℝ) - num / den| ≤ 1 / 2 ∧
    (|(divNearestEven num den : ℝ) - num / den| = 1 / 2 → divNearestEven num den % 2 = 0) := by
  have hd : (0 : ℝ) < den := by exact_mod_cast hden
  have hquot : (num : ℝ) / den = (num / den : ℕ) + ((num % den : ℕ) : ℝ) / den := by
    rw [eq_comm, ← eq_sub_iff_add_eq', div_eq_iff hd.ne', sub_mul, div_mul_cancel₀ _ hd.ne', eq_sub_iff_add_eq']
    exact_mod_cast Nat.div_add_mod' num den
  have hrem : ((num % den : ℕ) : ℝ) / den < 1 := (div_lt_one hd).2 (by exact_mod_cast Nat.mod_lt num hden)
  have hrem0 : 0 ≤ ((num % den : ℕ) : ℝ) / den := by positivity
  have hhalf : (2 * (num % den) < den ↔ ((num % den : ℕ) : ℝ) / den < 1 / 2) ∧
      (den < 2 * (num % den) ↔ 1 / 2 < ((num % den : ℕ) : ℝ) / den) := by
    rw [div_lt_div_iff₀ hd two_pos, div_lt_div_iff₀ two_pos hd, one_mul, mul_comm 2]
    exact ⟨by norm_cast, by norm_cast⟩
  rw [hquot]
  simp only [divNearestEven, hhalf]
  generalize ((num % den : ℕ) : ℝ) / den = f at *
  split_ifs with hlow hhigh heven
  · rw [sub_add_cancel_left, abs_neg, abs_of_nonneg hrem0]
    exact ⟨hlow.le, fun h => absurd h hlow.ne⟩
  · have habs : |(((num / den + 1 : ℕ) : ℝ)) - ((num / den : ℕ) + f)| = 1 - f := by
      rw [abs_of_nonneg] <;> push_cast <;> linarith
    rw [habs]
    exact ⟨by linarith, fun h => by linarith⟩
  · rw [sub_add_cancel_left, abs_neg, abs_of_nonneg hrem0]
    exact ⟨not_lt.1 hhigh, fun _ => heven⟩
  · have habs : |(((num / den + 1 : ℕ) : ℝ)) - ((num / den : ℕ) + f)| = 1 - f := by
      rw [abs_of_nonneg] <;> push_cast <;> linarith
    rw [habs]
    exact ⟨by linarith, fun _ => by omega⟩

/-- `roundMag` rounds `num / den` on the grid of its 53-bit significands. -/
theorem roundMag_eq_of_gridRound (num : ℕ) {den : ℕ} (hden : 0 < den) :
    ∃ k m, roundMag num den = min (k * 2 ^ 52 + m) infMag ∧ GridRound ((num : ℝ) / den) k m := by
  obtain ⟨k, hk⟩ : ∃ k, k = (num / den).log2 - 52 := ⟨_, rfl⟩
  have hstep : (0 : ℝ) < 2 ^ k := by positivity
  obtain ⟨hnear, heven⟩ := divNearestEven_near num (show 0 < den * 2 ^ k by positivity)
  have hscale : |divNearestEven num (den * 2 ^ k) * 2 ^ k - (num : ℝ) / den| =
      |(divNearestEven num (den * 2 ^ k) : ℝ) - num / (den * 2 ^ k : ℕ)| * 2 ^ k := by
    rw [← abs_of_pos hstep, ← abs_mul, sub_mul, abs_of_pos hstep]
    push_cast
    rw [← div_div, div_mul_cancel₀ _ hstep.ne']
  refine ⟨k, divNearestEven num (den * 2 ^ k), by rw [hk, roundMag], ?_, ?_, ?_, fun htie => heven ?_⟩
  · have hlog : num / den < 2 ^ (53 + k) :=
      Nat.lt_log2_self.trans_le (Nat.pow_le_pow_right (by decide) (by omega))
    have hfloor := Nat.lt_floor_add_one ((num : ℝ) / den)
    rw [Nat.floor_div_eq_div] at hfloor
    exact hfloor.trans_le (by exact_mod_cast hlog)
  · refine or_iff_not_imp_left.2 fun hk0 => ?_
    have hlog : 2 ^ (52 + k) ≤ num / den := by
      rw [show 52 + k = (num / den).log2 by omega]
      exact Nat.log2_self_le fun h0 => hk0 (by rw [hk, h0]; decide)
    exact le_trans (by exact_mod_cast hlog) Nat.cast_div_le
  · rw [hscale]
    nlinarith
  · rw [hscale] at htie
    exact mul_right_cancel₀ hstep.ne' (htie.trans (by ring))

/-- The magnitude of `x` in units of 2^-1074 rounded, with the sign of `x`. -/
theorem roundReal_roundsTo {x : ℝ} {neg : Bool} {num den : ℕ} (hden : 0 < den)
    (habs : |x * 2 ^ 1074| = (num : ℝ) / den) (hs : HasSign neg x) : RoundsTo x (roundReal neg num den) := by
  obtain ⟨k, m, hmag, hgrid⟩ := roundMag_eq_of_gridRound num hden
  rw [roundReal, hmag]
  exact GridRound.roundsTo (habs ▸ hgrid) hs

theorem fZero_roundsTo (neg : Bool) : RoundsTo 0 (fZero neg) :=
  roundReal_roundsTo (num := 0) (den := 1) Nat.one_pos (by simp) (hasSign_zero neg)

theorem eq_fZero_of_isZero {a : Real64} (h : isZero a = true) : a = fZero (fsign a) := by
  obtain ⟨hexp, hfrac⟩ : fexp a = 0 ∧ ffrac a = 0 := by simpa [isZero] using h
  rw [fexp_eq_div_mod] at hexp
  rw [ffrac_eq_mod] at hfrac
  refine BitVec.eq_of_toNat_eq ?_
  rw [fZero, toNat_withSign _ (by decide), fsign_eq_decide]
  have hlt := a.isLt
  simp only [decide_eq_true_eq]
  split <;> omega

theorem addCore_roundsTo (op : NumOp) {a b : Real64} (a0 b0 : Real64) (ha : isFinite a = true) (hb : isFinite b = true) :
    RoundsTo (toRat a + toRat b) (addCore op a b a0 b0) := by
  have hunits : ((toRat a : ℝ) + toRat b) * 2 ^ 1074 = (funits a + funits b : ℤ) := by
    rw [add_mul, toRat_mul_units, toRat_mul_units, Int.cast_add]
  have hU : (0 : ℝ) < 2 ^ 1074 := by positivity
  simp only [addCore, isNaN_of_isFinite ha, isNaN_of_isFinite hb, isInf_of_isFinite ha, isInf_of_isFinite hb,
    Bool.or_self, Bool.false_eq_true, if_false]
  generalize funits a + funits b = z at *
  split_ifs with hz
  · rw [hz, Int.cast_zero, mul_eq_zero_iff_right hU.ne'] at hunits
    rw [hunits]
    exact fZero_roundsTo _
  · refine roundReal_roundsTo Nat.one_pos ?_ ?_
    · rw [hunits, Nat.cast_one, div_one, Nat.cast_natAbs, Int.cast_abs]
    · rw [← hasSign_mul_pos_iff hU, hunits]
      simpa using hasSign_decide (z : ℝ)

theorem flipSign_fields (a : Real64) : fsign (flipSign a) = !fsign a ∧ fexp (flipSign a) = fexp a ∧
    ffrac (flipSign a) = ffrac a := by
  simp [fsign, fexp, ffrac, flipSign, BitVec.extractLsb'_xor]

theorem isFinite_flipSign (a : Real64) : isFinite (flipSign a) = isFinite a := by
  simp [isFinite, flipSign_fields]

theorem toRat_flipSign (a : Real64) : toRat (flipSign a) = -toRat a := by
  have hunits : funits (flipSign a) = -funits a := by
    cases hs : fsign a <;> simp [funits, fmag, flipSign_fields, hs]
  rw [toRat, toRat, hunits, Int.cast_neg, neg_div]

theorem fsub_roundsTo {a b : Real64} (ha : isFinite a = true) (hb : isFinite b = true) :
    RoundsTo (toRat a - toRat b) (fsub a b) := by
  have h := addCore_roundsTo .sub a b ha ((isFinite_flipSign b).trans hb)
  rwa [toRat_flipSign, Rat.cast_neg, ← sub_eq_add_neg] at h

theorem fmul_roundsTo {a b : Real64} (ha : isFinite a = true) (hb : isFinite b = true) :
    RoundsTo (toRat a * toRat b) (fmul a b) := by
  simp only [fmul, isNaN_of_isFinite ha, isNaN_of_isFinite hb, isInf_of_isFinite ha, isInf_of_isFinite hb,
    Bool.or_self, Bool.false_eq_true, if_false]
  refine roundReal_roundsTo (by positivity) ?_ ((hasSign_toRat a).mul (hasSign_toRat b))
  have hU : (0 : ℝ) < 2 ^ 1074 := by positivity
  rw [abs_mul, abs_mul, abs_toRat, abs_toRat, abs_of_pos hU, Nat.cast_mul, Nat.cast_pow, Nat.cast_ofNat]
  generalize (2 : ℝ) ^ 1074 = u at *
  field_simp

theorem fdiv_roundsTo {a b : Real64} (ha : isFinite a = true) (hb : isFinite b = true) (hb0 : toRat b ≠ 0) :
    RoundsTo (toRat a / toRat b) (fdiv a b) := by
  have hzero : isZero b = false := by simpa [toRat_eq_zero_iff] using hb0
  have hmag : fmag b ≠ 0 := by simp [fmag_eq_zero_iff, hzero]
  simp only [fdiv, isNaN_of_isFinite ha, isNaN_of_isFinite hb, isInf_of_isFinite ha, isInf_of_isFinite hb,
    hzero, Bool.or_self, Bool.false_eq_true, if_false]
  refine roundReal_roundsTo (Nat.pos_of_ne_zero hmag) ?_ ((hasSign_toRat a).mul (hasSign_toRat b).inv)
  have hU : (0 : ℝ) < 2 ^ 1074 := by positivity
  have hmag' : (fmag b : ℝ) ≠ 0 := Nat.cast_ne_zero.2 hmag
  rw [abs_mul, abs_div, abs_toRat, abs_toRat, abs_of_pos hU, Nat.cast_mul, Nat.cast_pow, Nat.cast_ofNat]
  generalize (2 : ℝ) ^ 1074 = u at *
  field_simp

/-- Two reals with the same floor and the same ceiling compare alike with every whole number, and so do their distances from
one. -/
theorem abs_int_sub_congr {y z : ℝ} (hfloor : ⌊y⌋ = ⌊z⌋) (hceil : ⌈y⌉ = ⌈z⌉) (c d : ℤ) :
    (|c - y| ≤ d ↔ |c - z| ≤ d) ∧ (d ≤ |c - y| ↔ d ≤ |c - z|) := by
  have hle (t : ℤ) : (t : ℝ) ≤ y ↔ (t : ℝ) ≤ z := by rw [← Int.le_floor, ← Int.le_floor, hfloor]
  have hge (t : ℤ) : y ≤ t ↔ z ≤ t := by rw [← Int.ceil_le, ← Int.ceil_le, hceil]
  have hle1 := hle (c - d)
  have hle2 := hle (d + c)
  have hge1 := hge (c - d)
  have hge2 := hge (d + c)
  push_cast at hle1 hle2 hge1 hge2
  constructor
  · rw [abs_le', abs_le', neg_sub, neg_sub, sub_le_comm, hle1, sub_le_comm, sub_le_iff_le_add (a := y), hge2,
      sub_le_iff_le_add (a := z)]
  · rw [le_abs, le_abs, neg_sub, neg_sub, le_sub_comm, hge1, le_sub_comm, le_sub_iff_add_le (c := y), hle2,
      le_sub_iff_add_le (c := z)]

/-- On a grid of even step, rounding asks only how a real compares with whole numbers. -/
theorem GridRound.congr {y z : ℝ} {k m : ℕ} (h : GridRound y k m) (hk : k ≠ 0) (hfloor : ⌊y⌋ = ⌊z⌋)
    (hceil : ⌈y⌉ = ⌈z⌉) : GridRound z k m := by
  obtain ⟨j, rfl⟩ := Nat.exists_eq_succ_of_ne_zero hk
  have hhalf : (2 : ℝ) ^ (j + 1) / 2 = (2 ^ j : ℤ) := by
    rw [pow_succ, mul_div_cancel_right₀ _ two_ne_zero]
    norm_cast
  have hpoint : (m : ℝ) * 2 ^ (j + 1) = (m * 2 ^ (j + 1) : ℤ) := by norm_cast
  obtain ⟨hnear, hfar⟩ := abs_int_sub_congr hfloor hceil (m * 2 ^ (j + 1)) (2 ^ j)
  rw [← hhalf, ← hpoint] at hnear hfar
  have hpow (i : ℕ) : (2 : ℝ) ^ i = (2 ^ i : ℤ) := by norm_cast
  refine ⟨?_, h.normal.imp_right fun hlow => ?_, hnear.1 h.near, fun htie => ?_⟩
  · have htop := h.lt_top
    rw [hpow, ← Int.floor_lt] at htop ⊢
    exact hfloor ▸ htop
  · rw [hpow, ← Int.le_floor] at hlow ⊢
    exact hfloor ▸ hlow
  · exact h.even_of_tie (le_antisymm h.near (hfar.2 htie.ge))

theorem floor_ceil_of_between {y : ℝ} {r : ℕ} (hlow : (r : ℝ) < y) (hhigh : y < r + 1) : ⌊y⌋ = r ∧ ⌈y⌉ = r + 1 := by
  rw [Int.floor_eq_iff, Int.ceil_eq_iff]
  push_cast
  exact ⟨⟨hlow.le, hhigh⟩, by linarith, hhigh.le⟩

/-- The real square root of a number that is no square lies strictly between its integer root and the next number. -/
theorem sqrt_between_of_not_square {n : ℕ} (h : Nat.sqrt n * Nat.sqrt n ≠ n) :
    (Nat.sqrt n : ℝ) < √(n : ℝ) ∧ √(n : ℝ) < Nat.sqrt n + 1 := by
  rw [Real.lt_sqrt (by positivity), Real.sqrt_lt' (by positivity), sq, sq]
  exact ⟨by exact_mod_cast lt_of_le_of_ne (Nat.sqrt_le n) h, by exact_mod_cast Nat.lt_succ_sqrt n⟩

/-- The rounding of a square root of at least 53 bits sees only its integer part and whether it is exact. -/
theorem GridRound.sqrt {n k m : ℕ} (hn : 2 ^ 106 ≤ n)
    (h : GridRound (((2 * Nat.sqrt n + if Nat.sqrt n * Nat.sqrt n = n then 0 else 1 : ℕ) : ℝ) / (2 : ℕ)) k m) :
    GridRound √(n : ℝ) k m := by
  split_ifs at h with hsq
  · have hroot : √(n : ℝ) = Nat.sqrt n := by
      rw [← Nat.cast_inj (R := ℝ), Nat.cast_mul] at hsq
      rw [← hsq, Real.sqrt_mul_self (by positivity)]
    rw [hroot]
    simpa using h
  · have hk : k ≠ 0 := by
      rintro rfl
      have hroot : ((2 ^ 53 : ℕ) : ℝ) ≤ Nat.sqrt n := Nat.cast_le.2 (Nat.le_sqrt.2 (by rwa [← pow_add]))
      have htop := h.lt_top
      push_cast at hroot htop
      linarith
    obtain ⟨hlow, hhigh⟩ := sqrt_between_of_not_square hsq
    obtain ⟨hfloor, hceil⟩ := floor_ceil_of_between hlow hhigh
    obtain ⟨hfloor', hceil'⟩ := floor_ceil_of_between (r := Nat.sqrt n)
      (y := ((2 * Nat.sqrt n + 1 : ℕ) : ℝ) / (2 : ℕ)) (by push_cast; linarith) (by push_cast; linarith)
    exact h.congr hk (hfloor'.trans hfloor.symm) (hceil'.trans hceil.symm)

/-- The root of `m` units is that of `m·2^1074` units. -/
theorem abs_sqrt_toRat {a : Real64} (h0 : 0 ≤ toRat a) :
    |√(toRat a : ℝ) * 2 ^ 1074| = √((fmag a * 2 ^ 1074 : ℕ) : ℝ) := by
  have hU : (0 : ℝ) < 2 ^ 1074 := by positivity
  have hval : (toRat a : ℝ) = fmag a / 2 ^ 1074 := by rw [← abs_toRat, abs_of_nonneg (by exact_mod_cast h0)]
  rw [hval, Nat.cast_mul, Nat.cast_pow, Nat.cast_ofNat]
  generalize (2 : ℝ) ^ 1074 = u at hU
  have hsquare : (fmag a : ℝ) / u * (u * u) = fmag a * u := by field_simp
  rw [abs_of_nonneg (by positivity), ← hsquare, Real.sqrt_mul (by positivity), Real.sqrt_mul_self hU.le]

theorem fsqrt_roundsTo {a : Real64} (ha : isFinite a = true) (h0 : 0 ≤ toRat a) :
    RoundsTo (Real.sqrt (toRat a)) (fsqrt a) := by
  unfold fsqrt
  simp only [isNaN_of_isFinite ha, isInf_of_isFinite ha, Bool.false_eq_true, if_false]
  by_cases hz : isZero a = true
  · rw [if_pos hz, (toRat_eq_zero_iff a).2 hz, Rat.cast_zero, Real.sqrt_zero, eq_fZero_of_isZero hz]
    exact fZero_roundsTo _
  · have hmag : fmag a ≠ 0 := fun h => hz ((fmag_eq_zero_iff a).1 h)
    have hsign : fsign a = false := by
      rw [← Bool.not_eq_true]
      intro hneg
      rw [toRat_nonneg_iff, funits, if_pos hneg] at h0
      omega
    rw [if_neg hz, hsign, if_neg (by decide)]
    obtain ⟨k, m, hround, hgrid⟩ := roundMag_eq_of_gridRound
      (2 * (fmag a * 2 ^ 1074).sqrt +
        if (fmag a * 2 ^ 1074).sqrt * (fmag a * 2 ^ 1074).sqrt = fmag a * 2 ^ 1074 then 0 else 1) Nat.two_pos
    rw [roundReal, hround]
    refine GridRound.roundsTo ?_ ((hasSign_false _).2 (Real.sqrt_nonneg _))
    rw [abs_sqrt_toRat h0]
    exact hgrid.sqrt (le_mul_of_one_le_of_le (Nat.pos_of_ne_zero hmag) (Nat.pow_le_pow_right two_pos (by decide)))

/-- An integer below 2^53 is a whole number of steps of its grid. -/
theorem GridRound.exact_of_integer {z k m : ℕ} (hz : z < 2 ^ 53) (h : GridRound ((z * 2 ^ 1074 : ℕ) : ℝ) k m) :
    k ≤ 1074 ∧ m * 2 ^ k = z * 2 ^ 1074 := by
  have hlt : ((z * 2 ^ 1074 : ℕ) : ℝ) < 2 ^ (53 + 1074) := by
    rw [Nat.cast_mul, Nat.cast_pow, Nat.cast_ofNat, pow_add]
    exact mul_lt_mul_of_pos_right (by exact_mod_cast hz) (by positivity)
  have hk := h.step_le hlt
  have hsteps : z * 2 ^ 1074 = z * 2 ^ (1074 - k) * 2 ^ k := by rw [mul_assoc, ← pow_add, Nat.sub_add_cancel hk]
  have hexact := h.eq_of_dvd (j := z * 2 ^ (1074 - k)) (by rw [hsteps, Nat.cast_mul, Nat.cast_pow, Nat.cast_ofNat])
  rw [Nat.cast_mul, Nat.cast_pow, Nat.cast_ofNat] at hexact
  refine ⟨hk, Nat.cast_injective (R := ℝ) ?_⟩
  rw [Nat.cast_mul, Nat.cast_pow, Nat.cast_ofNat, hexact, Nat.cast_mul, Nat.cast_pow, Nat.cast_ofNat]

theorem i2f_exact {z : ℤ} (hz : |z| < 2 ^ 53) : isFinite (i2f z) = true ∧ toRat (i2f z) = z := by
  obtain ⟨k, m, hround, hgrid⟩ := roundMag_eq_of_gridRound (z.natAbs * 2 ^ 1074) Nat.one_pos
  rw [Nat.cast_one, div_one] at hgrid
  obtain ⟨hk, hexact⟩ := hgrid.exact_of_integer (by rw [Int.abs_eq_natAbs] at hz; omega)
  have hlt := hgrid.lt_infMag (hk.trans (by decide))
  have hunits := hgrid.funits_withSign (decide (z < 0)) hlt
  rw [i2f, roundReal, hround, GridRound.isFinite_iff, min_eq_left hlt.le]
  refine ⟨hlt, ?_⟩
  have hvalue : signedNat (decide (z < 0)) m * 2 ^ k = z * 2 ^ 1074 := by
    calc signedNat (decide (z < 0)) m * 2 ^ k = signedNat (decide (z < 0)) (m * 2 ^ k) := by
          rw [signedNat_mul, Nat.cast_pow, Nat.cast_ofNat]
      _ = z * 2 ^ 1074 := by rw [hexact, signedNat_mul, signedNat_natAbs, Nat.cast_pow, Nat.cast_ofNat]
  rw [toRat, hunits, hvalue, Int.cast_mul, Int.cast_pow, Int.cast_ofNat, mul_div_cancel_right₀ _ (by positivity)]

/-- Settles O19: every operation rounds its exact value on the grid of a 53-bit significand, which is rounding to the nearest
real, ties to even. -/
theorem realOperationsRoundToNearest : Obligations.RealOperationsRoundToNearest :=
  ⟨fun a b ha hb => ⟨addCore_roundsTo .add a b ha hb, fsub_roundsTo ha hb, fmul_roundsTo ha hb, fdiv_roundsTo ha hb⟩,
    fun _ ha h0 => fsqrt_roundsTo ha h0, fun _ hz => i2f_exact hz, rfl⟩

end Sys2Proof.Machine
end

section
namespace Sys2Proof.Machine

/-! The comparison, `clamp` and `round_haz` (00_scope.md R18). -/

theorem flt_iff {a b : Real64} (ha : isFinite a = true) (hb : isFinite b = true) :
    flt a b = true ↔ toRat a < toRat b := by
  simp [flt, isNaN_of_isFinite ha, isNaN_of_isFinite hb, isInf_of_isFinite ha, isInf_of_isFinite hb, toRat_lt_iff]

theorem lt_eq_false_of_isNaN (num : Numerics) {a b : Real64} (h : isNaN a = true ∨ isNaN b = true) :
    num.lt a b = false := by
  cases num with
  | binary64 => rw [lt_binary64, flt, if_pos (by simpa using h)]
  | other r => obtain h | h := h <;> simp [Numerics.lt, h]

theorem clamp_of_isNaN (num : Numerics) {x : Real64} (h : isNaN x = true) (lo hi : Real64) : num.clamp x lo hi = x := by
  simp [Numerics.clamp, lt_eq_false_of_isNaN num (.inl h), lt_eq_false_of_isNaN num (.inr h)]

/-- The magnitude of `round_haz`: the floor of the quotient and one half. -/
theorem round_half_up (u : ℕ) {d : ℕ} (hd : 0 < d) :
    |(u / d - ((2 * u + d) / (2 * d) : ℕ) : ℚ)| ≤ 1 / 2 ∧
    (|(u / d - ((2 * u + d) / (2 * d) : ℕ) : ℚ)| = 1 / 2 → (u / d : ℚ) < ((2 * u + d) / (2 * d) : ℕ)) := by
  have hd' : (0 : ℚ) < d := by exact_mod_cast hd
  have hquot : ((2 * u + d : ℕ) : ℚ) / (2 * d : ℕ) = u / d + 1 / 2 := by
    push_cast
    field_simp
  have hlow : (((2 * u + d) / (2 * d) : ℕ) : ℚ) ≤ u / d + 1 / 2 := hquot ▸ Nat.cast_div_le
  have hhigh : (u / d + 1 / 2 : ℚ) < ((2 * u + d) / (2 * d) : ℕ) + 1 := by
    rw [← hquot, ← Nat.floor_div_eq_div (K := ℚ)]
    exact Nat.lt_floor_add_one _
  generalize (((2 * u + d) / (2 * d) : ℕ) : ℚ) = m at *
  refine ⟨abs_le.2 ⟨by linarith, by linarith⟩, fun htie => ?_⟩
  obtain h | h := abs_choice ((u : ℚ) / d - m) <;> rw [h] at htie <;> linarith

theorem toRat_eq_signed (a : Real64) : toRat a = if fsign a then -(fmag a / 2 ^ 1074 : ℚ) else fmag a / 2 ^ 1074 := by
  cases hs : fsign a <;> simp [toRat, funits, hs, neg_div]

theorem roundHaz_nearest (a : Real64) : |toRat a - (roundHaz a : ℚ)| ≤ 1 / 2 ∧
    (|toRat a - (roundHaz a : ℚ)| = 1 / 2 → |toRat a| < |(roundHaz a : ℚ)|) := by
  have hround := round_half_up (fmag a) (d := 2 ^ 1074) (by positivity)
  rw [← pow_succ', Nat.cast_pow, Nat.cast_ofNat] at hround
  have hmag : (0 : ℚ) ≤ fmag a / 2 ^ 1074 := by positivity
  rw [toRat_eq_signed, roundHaz]
  generalize (fmag a : ℚ) / 2 ^ 1074 = x at *
  generalize (2 * fmag a + 2 ^ 1074) / 2 ^ 1075 = m at *
  cases fsign a with
  | false => simpa [abs_of_nonneg hmag, neg_add_eq_sub] using hround
  | true =>
    rw [abs_sub_comm] at hround
    simpa [abs_of_nonneg hmag, neg_add_eq_sub] using hround

/-- Settles O21: the value order is that of the units, and `round_haz` is the floor of the magnitude and one half. -/
theorem comparisonClampAndRounding : Obligations.ComparisonClampAndRounding :=
  ⟨fun _ _ ha hb => flt_iff ha hb, fun num _ _ h => lt_eq_false_of_isNaN num h, fun _ _ _ _ => rfl,
    fun num _ lo hi h => clamp_of_isNaN num h lo hi, fun a _ => roundHaz_nearest a⟩

end Sys2Proof.Machine
end

section
namespace Sys2Proof.Machine

/-! The open cosine (00_scope.md R17; U4). -/

theorem cosSeries_eq_sum (x2 : ℚ) (n i : ℕ) :
    cosSeries x2 n i ((-x2) ^ i / (2 * i).factorial) = ∑ j ∈ Finset.range n, (-x2) ^ (i + j) / (2 * (i + j)).factorial := by
  induction n generalizing i with
  | zero => simp [cosSeries]
  | succ n ih =>
    have hnext : -((-x2) ^ i / (2 * i).factorial * x2) / ((2 * i + 1) * (2 * i + 2)) =
        (-x2) ^ (i + 1) / ((2 * (i + 1)).factorial : ℚ) := by
      rw [show 2 * (i + 1) = 2 * i + 1 + 1 by ring, Nat.factorial_succ, Nat.factorial_succ]
      push_cast
      field_simp
      ring
    rw [cosSeries, hnext, ih, Finset.sum_range_succ', add_comm]
    simp only [add_zero, add_right_comm i, ← add_assoc]

theorem cosSum_eq_sum (x : ℚ) :
    cosSum x = ∑ j ∈ Finset.range (cosTerms x), (-(x * x)) ^ j / ((2 * j).factorial : ℚ) := by
  simpa [cosSum] using cosSeries_eq_sum (x * x) (cosTerms x) 0

/-- The even terms of the exponential series at `i·x` are the cosine's, and its odd terms are imaginary. -/
theorem re_sum_exp_series (x : ℝ) (n : ℕ) :
    (∑ j ∈ Finset.range (2 * n), (x * Complex.I) ^ j / (j.factorial : ℂ)).re =
      ∑ j ∈ Finset.range n, (-(x * x)) ^ j / ((2 * j).factorial : ℝ) := by
  induction n with
  | zero => simp
  | succ n ih =>
    have hsq : ((x : ℂ) * Complex.I) ^ (2 * n) = ((-(x * x)) ^ n : ℝ) := by
      rw [pow_mul, mul_pow, Complex.I_sq]
      push_cast
      ring
    rw [show 2 * (n + 1) = 2 * n + 1 + 1 by ring, Finset.sum_range_succ, Finset.sum_range_succ, Finset.sum_range_succ,
      Complex.add_re, Complex.add_re, ih, pow_succ, ← mul_assoc, hsq, Complex.div_natCast_re, Complex.div_natCast_re,
      ← Complex.ofReal_mul, Complex.re_ofReal_mul, Complex.ofReal_re, Complex.I_re]
    simp

/-- The number of terms is at least 100 and four times the argument are below twice that number. -/
theorem le_cosTerms (x : ℚ) : 4 * x ≤ (2 * cosTerms x : ℕ) ∧ 200 ≤ 2 * cosTerms x := by
  have hceil : x ≤ x.ceil.toNat :=
    Rat.le_ceil.trans (by exact_mod_cast Int.self_le_toNat x.ceil)
  rw [cosTerms]
  push_cast
  exact ⟨by linarith, by omega⟩

/-- The partial sum of the cosine's series misses the cosine by at most the model's own tail. -/
theorem abs_cosSum_sub_cos {x : ℚ} (h0 : 0 ≤ x) : |(cosSum x : ℝ) - Real.cos x| ≤ cosTail x := by
  have hx : (0 : ℝ) ≤ x := by exact_mod_cast h0
  obtain ⟨hfour, -⟩ := le_cosTerms x
  have hfour' : 4 * (x : ℝ) ≤ (2 * cosTerms x : ℕ) := by exact_mod_cast hfour
  have hnorm : ‖(x : ℝ) * Complex.I‖ = x := by
    rw [norm_mul, Complex.norm_I, mul_one, Complex.norm_real, Real.norm_of_nonneg hx]
  have hbound := Complex.exp_bound' (x := (x : ℝ) * Complex.I) (n := 2 * cosTerms x) (by
    rw [hnorm, div_le_div_iff₀ (by positivity) two_pos]
    push_cast at hfour' ⊢
    linarith)
  have hre := (Complex.abs_re_le_norm _).trans hbound
  rw [Complex.sub_re, Complex.exp_ofReal_mul_I_re, re_sum_exp_series, abs_sub_comm, hnorm] at hre
  rw [cosSum_eq_sum, cosTail]
  push_cast
  exact hre.trans_eq (by ring)

/-- The power of a number over a factorial is small from four times the number on. -/
theorem pow_div_factorial_le {x : ℝ} (h0 : 0 ≤ x) {n : ℕ} (hn : 4 * x ≤ n) (hn0 : 0 < n) :
    x ^ n / n.factorial ≤ (17 / 25) ^ n := by
  have hn' : (0 : ℝ) < n := by exact_mod_cast hn0
  have hquarter : x / n ≤ 1 / 4 := (div_le_iff₀ hn').2 (by linarith)
  calc x ^ n / n.factorial = (x / n) ^ n * (n ^ n / n.factorial) := by
        rw [div_pow]
        field_simp
    _ ≤ (1 / 4) ^ n * Real.exp n :=
        mul_le_mul (pow_le_pow_left₀ (by positivity) hquarter n) (Real.pow_div_factorial_le_exp _ hn'.le n)
          (by positivity) (by positivity)
    _ = (1 / 4 * Real.exp 1) ^ n := by rw [← Real.exp_one_pow, ← mul_pow]
    _ ≤ (17 / 25) ^ n := pow_le_pow_left₀ (by positivity) (by linarith [Real.exp_one_lt_d9]) n

/-- The tail is far below the model's allowance. -/
theorem cosTail_le {x : ℚ} (h0 : 0 ≤ x) : (cosTail x : ℝ) ≤ 1 / 2 ^ 101 := by
  obtain ⟨hfour, hmany⟩ := le_cosTerms x
  have hterm := pow_div_factorial_le (x := x) (by exact_mod_cast h0) (by exact_mod_cast hfour) (by omega)
  have hpow : (17 / 25 : ℝ) ^ (2 * cosTerms x) ≤ (17 / 25) ^ 200 :=
    pow_le_pow_of_le_one (by norm_num) (by norm_num) hmany
  have hsmall : (2 : ℝ) * (17 / 25) ^ 200 ≤ 1 / 2 ^ 101 := by norm_num
  rw [cosTail]
  push_cast
  rw [mul_div_assoc]
  linarith

/-- A rational below 2 in magnitude has a binary64 within 2^-53. -/
theorem ratNearest_near {q : ℚ} (hq : |q| < 2) :
    isFinite (ratNearest q) = true ∧ |(toRat (ratNearest q) : ℝ) - q| ≤ 1 / 2 ^ 53 := by
  have hU : (0 : ℝ) < 2 ^ 1074 := by positivity
  have hmag : |(q : ℝ) * 2 ^ 1074| = ((q.num.natAbs * 2 ^ 1074 : ℕ) : ℝ) / q.den := by
    rw [abs_mul, abs_of_pos hU, Rat.cast_def, abs_div, Nat.abs_cast, Nat.cast_mul, Nat.cast_pow, Nat.cast_ofNat,
      Nat.cast_natAbs, Int.cast_abs, mul_div_right_comm]
  obtain ⟨k, m, hround, hgrid⟩ := roundMag_eq_of_gridRound (q.num.natAbs * 2 ^ 1074) q.den_pos
  rw [← hmag] at hgrid
  have hk : k ≤ 1022 := by
    refine hgrid.step_le ?_
    have hq' : |(q : ℝ)| < 2 := by exact_mod_cast hq
    rw [abs_mul, abs_of_pos hU, show 53 + 1022 = 1074 + 1 by rfl, pow_succ' 2 1074]
    exact mul_lt_mul_of_pos_right hq' hU
  have hlt := hgrid.lt_infMag (hk.trans (by decide))
  have hs : HasSign (decide (q < 0)) ((q : ℝ) * 2 ^ 1074) := by
    rw [hasSign_mul_pos_iff hU]
    simpa using hasSign_decide (q : ℝ)
  rw [ratNearest, roundReal, hround, GridRound.isFinite_iff, min_eq_left hlt.le]
  refine ⟨hlt, ?_⟩
  rw [abs_toRat_sub, hgrid.funits_withSign _ hlt, Int.cast_mul, Int.cast_pow, Int.cast_ofNat, abs_signedNat_sub hs,
    div_le_iff₀ hU]
  calc |(m * 2 ^ k - |(q : ℝ) * 2 ^ 1074| : ℝ)| ≤ 2 ^ k / 2 := hgrid.near
    _ ≤ 2 ^ 1022 / 2 := by gcongr; exact one_le_two
    _ = 1 / 2 ^ 53 * 2 ^ 1074 := by
        rw [show 1074 = 52 + 1022 by rfl, pow_add 2 52 1022]
        generalize (2 : ℝ) ^ 1022 = u
        ring

theorem cosAdmits_near {a v : Real64} (h0 : 0 ≤ toRat a) (h : cosAdmits a v = true) :
    isFinite v = true ∧ |(toRat v : ℝ) - Real.cos (toRat a)| ≤ 1 / 2 ^ 52 + 1 / 2 ^ 100 := by
  simp only [cosAdmits, Bool.and_eq_true, decide_eq_true_eq] at h
  obtain ⟨⟨hfin, hlow⟩, hhigh⟩ := h
  have hlow' : ((cosSum (toRat a) - cosTail (toRat a) - 1 / 2 ^ 52 : ℚ) : ℝ) ≤ toRat v := by exact_mod_cast hlow
  have hhigh' : (toRat v : ℝ) ≤ ((cosSum (toRat a) + cosTail (toRat a) + 1 / 2 ^ 52 : ℚ) : ℝ) := by exact_mod_cast hhigh
  have htail := cosTail_le h0
  obtain ⟨hsumLow, hsumHigh⟩ := abs_le.1 (abs_cosSum_sub_cos h0)
  have hhalves : (1 : ℝ) / 2 ^ 101 + 1 / 2 ^ 101 = 1 / 2 ^ 100 := by norm_num
  push_cast at hlow' hhigh'
  exact ⟨hfin, abs_le.2 ⟨by linarith, by linarith⟩⟩

theorem ratNearest_cosSum_near {x : ℚ} (h0 : 0 ≤ x) : isFinite (ratNearest (cosSum x)) = true ∧
    |(toRat (ratNearest (cosSum x)) : ℝ) - Real.cos x| ≤ 1 / 2 ^ 52 + 1 / 2 ^ 100 := by
  have hsum := (abs_cosSum_sub_cos h0).trans (cosTail_le h0)
  have hlt : |cosSum x| < 2 := by
    have hreal : |(cosSum x : ℝ)| < 2 := by
      calc |(cosSum x : ℝ)| ≤ |(cosSum x : ℝ) - Real.cos x| + |Real.cos x| := by
            simpa using abs_add_le ((cosSum x : ℝ) - Real.cos x) (Real.cos x)
        _ ≤ 1 / 2 ^ 101 + 1 := add_le_add hsum (Real.abs_cos_le_one _)
        _ < 2 := by norm_num
    exact_mod_cast hreal
  obtain ⟨hfin, hnear⟩ := ratNearest_near hlt
  refine ⟨hfin, (abs_sub_le _ (cosSum x : ℝ) _).trans ((add_le_add hnear hsum).trans (by norm_num))⟩

/-- Where R17 bounds the cosine, it is the candidate if that is admitted and the rounded series otherwise. -/
theorem cos_of_cosBounded (num : Numerics) {nMax : ℕ} {a : Real64} (hz : isZero a = false)
    (h : cosBounded nMax a = true) : num.cos nMax a =
      if cosAdmits a (Config.fcosCandidate num a) = true then Config.fcosCandidate num a
      else ratNearest (cosSum (toRat a)) := by
  simp only [Numerics.cos, hz, h, Bool.false_eq_true, if_false, Bool.true_and, Bool.not_eq_true']
  cases cosAdmits a (Config.fcosCandidate num a) <;> rfl

theorem cos_of_isZero (num : Numerics) (nMax : ℕ) {a : Real64} (hz : isZero a = true) : num.cos nMax a = real1 :=
  if_pos hz

/-- Settles O20: where the free candidate is admitted, the series is within its tail of the cosine; where it is not, the series
is rounded. -/
theorem cosineWithinBound : Obligations.CosineWithinBound := by
  refine fun num nMax a => ⟨cos_of_isZero num nMax, fun hfin h0 hmax => ?_⟩
  have hbounded : cosBounded nMax a = true := by simp [cosBounded, hfin, h0, hmax]
  by_cases hz : isZero a = true
  · have hone : isFinite real1 = true ∧ toRat real1 = 1 := by decide +kernel
    rw [cos_of_isZero num nMax hz, (toRat_eq_zero_iff a).2 hz, hone.2, Rat.cast_zero, Real.cos_zero, Rat.cast_one]
    exact ⟨hone.1, by norm_num⟩
  · rw [cos_of_cosBounded num (by simpa using hz) hbounded]
    split_ifs with hadmits
    · exact cosAdmits_near h0 hadmits
    · exact ratNearest_cosSum_near h0

end Sys2Proof.Machine
end

section
namespace Sys2Proof.Machine

/-! The invariant at reset (10_state.md R44, R46), and what `STATUS` reads as (R23; 60_exceptions.md R241). -/

/-- Nothing is valid, both cursors stand at 0 of 0 and nothing is written. -/
theorem inv_atReset (p : Params) (epoch : ℕ) (h : p.ok = true) : Inv (State.atReset p epoch) :=
  have hcursor : CursorInv p { cap := 0#24, byte := 0#24, bitp := 0#3 } := ⟨le_rfl, Nat.zero_le _⟩
  ⟨h, wf_unwritten p, nofun, nofun, hcursor, hcursor, nofun, nofun, codesInv_unwritten _ rfl rfl⟩

/-- Settles O60: the invariant is that of the reset state, and the default parameters are legal. -/
theorem invariantAtReset : Obligations.InvariantAtReset :=
  ⟨inv_atReset, inv_atReset Params.default 0 (by decide)⟩

/-- Settles O10: every value is a field of `State.atReset`. -/
theorem resetRegisterValues : Obligations.ResetRegisterValues := fun _ _ =>
  have hstatus : Status.word { code := .ret .ok, op := 0#8, halt := false } = 0#32 := by decide
  have hvalid : Valid.word { tcv := false, qcv := false, wv := false, rv := false, ccv := false, trv := false } = 0#6 := by
    decide
  have hqcfg : QCfg.word { n := 0#12, quality := 0#8, adapt := false } = 0#21 := by decide
  ⟨hstatus, hvalid, rfl, hqcfg, rfl, rfl, rfl, rfl, rfl, rfl, rfl, rfl, rfl, rfl, rfl, rfl⟩

theorem statusWord_fields (st : Status) :
    st.word.extractLsb' 0 8 = st.code.byte ∧ st.word.extractLsb' 8 8 = st.op ∧ st.word.getLsbD 16 = st.halt ∧
      st.word.extractLsb' 17 15 = 0#15 := by
  unfold Status.word
  refine ⟨?_, ?_, ?_, ?_⟩
  · exact BitVec.extractLsb'_append_eq_right
  · rw [BitVec.extractLsb'_append_eq_of_le (by omega)]
    exact BitVec.extractLsb'_append_eq_right
  · rw [BitVec.getLsbD_append, BitVec.getLsbD_append, BitVec.getLsbD_append]
    simp
  · rw [BitVec.extractLsb'_append_eq_of_le (by omega)]
    rw [BitVec.extractLsb'_append_eq_of_le (by omega)]
    exact BitVec.extractLsb'_append_eq_left

theorem byte_class (c : Code) : c.byte.extractLsb' 4 4 = c.class.nibble := by
  obtain c | f := c
  · cases c <;> decide
  · cases f <;> decide

/-- The 22 codes of R241. -/
def statusCodes : List Code :=
  [.ret .ok, .ret .okSat, .ret .dUnderflow, .ret .dBadcode, .ret .dOverrun, .ret .dShort, .ret .eOverflow,
    .ret .eSymspace, .ret .eUnderflow, .ret .eCodelen, .ret .hTrunc, .ret .hCount, .ret .hLen0, .ret .hOversub,
    .fault .illegal, .fault .blocksize, .fault .quality, .fault .noctx, .fault .nobuf, .fault .capacity,
    .fault .numeric, .fault .state]

theorem mem_statusCodes (c : Code) : c ∈ statusCodes := by
  obtain c | f := c
  · cases c <;> decide
  · cases f <;> decide

theorem byte_injective {c d : Code} (h : c.byte = d.byte) : c = d :=
  List.inj_on_of_nodup_map (by decide : (statusCodes.map Code.byte).Nodup) (mem_statusCodes c) (mem_statusCodes d) h

/-- Settles O11: the word is a concatenation of its fields; the numbers of the 22 codes are all different. -/
theorem statusWordAndCodes : Obligations.StatusWordAndCodes :=
  ⟨statusWord_fields, by decide, byte_class, fun _ _ => byte_injective⟩

end Sys2Proof.Machine
end

section
namespace Sys2Proof.Machine

/-! What legal parameters and an admitted quality bound (00_scope.md R11; 60_exceptions.md R243). -/

theorem nMax_le {p : Params} (h : p.ok = true) : p.nMax ≤ 128 := by
  simp only [Params.ok, Bool.and_eq_true, decide_eq_true_eq] at h
  omega

theorem symMax_le {p : Params} (h : p.ok = true) : p.symMax ≤ 65535 := by
  simp only [Params.ok, Bool.and_eq_true, decide_eq_true_eq] at h
  omega

theorem base8_getD_le {p : Params} (h : p.ok = true) (k : ℕ) : p.base8.getD k 0 ≤ 255 := by
  obtain ⟨-, hall⟩ : _ ∧ ∀ b ∈ p.base8, 1 ≤ b ∧ b ≤ 255 := by simpa [Params.ok] using h
  rw [List.getD_eq_getElem?_getD]
  cases hk : p.base8[k]? with
  | none => exact Nat.zero_le _
  | some b => exact (hall b (List.mem_of_getElem? hk)).2

theorem qualityOk_iff (quality : ℕ) : qualityOk quality = true ↔ 1 ≤ quality ∧ quality ≤ 100 := by
  simp [qualityOk]

/-! What the quantisation steps are in the default record (41_quantization.md R127, R129): all that `qraw` computes is finite,
because its operands are bounded, and `clamp` puts a finite real between its bounds. -/

/-- A finite real of magnitude at most `2^e`. -/
def Bounded (e : ℕ) (a : Real64) : Prop := isFinite a = true ∧ |(toRat a : ℝ)| ≤ 2 ^ e

theorem Bounded.mono {d e : ℕ} {a : Real64} (h : Bounded d a) (hde : d ≤ e) : Bounded e a :=
  ⟨h.1, h.2.trans (pow_le_pow_right₀ one_le_two hde)⟩

/-- Zero is a candidate for the nearest real, so rounding at most doubles a magnitude. -/
theorem RoundsTo.bounded {x : ℝ} {r : Real64} {e : ℕ} (h : RoundsTo x r) (hx : |x| ≤ 2 ^ e) (he : e ≤ 970) :
    Bounded (e + 1) r := by
  obtain ⟨-, hoverflow, -, hnear⟩ := h
  have hfin : isFinite r = true := by
    by_contra hinf
    have hbig := hoverflow.1 (by simpa using hinf)
    have hpow : (2 : ℝ) ^ e ≤ 2 ^ 970 := pow_le_pow_right₀ one_le_two he
    have hpos : (0 : ℝ) < 2 ^ 970 := by positivity
    rw [show (2 : ℝ) ^ 1024 = 2 ^ 54 * 2 ^ 970 by rw [← pow_add]] at hbig
    generalize (2 : ℝ) ^ 970 = u at *
    linarith
  have hzero : isFinite 0#64 = true ∧ toRat 0#64 = 0 := ⟨by decide, (toRat_eq_zero_iff _).2 (by decide)⟩
  have hle := (hnear hfin 0#64 hzero.1).1
  rw [hzero.2, Rat.cast_zero, zero_sub, abs_neg] at hle
  refine ⟨hfin, ?_⟩
  calc |(toRat r : ℝ)| = |(toRat r - x) + x| := by rw [sub_add_cancel]
    _ ≤ |toRat r - x| + |x| := abs_add_le _ _
    _ ≤ 2 ^ (e + 1) := by rw [pow_succ]; linarith

theorem Bounded.add {e : ℕ} {a b : Real64} (ha : Bounded e a) (hb : Bounded e b) (he : e + 1 ≤ 970) :
    Bounded (e + 2) (fadd a b) := by
  refine (addCore_roundsTo .add a b ha.1 hb.1).bounded (e := e + 1) ?_ he
  calc |(toRat a + toRat b : ℝ)| ≤ |(toRat a : ℝ)| + |(toRat b : ℝ)| := abs_add_le _ _
    _ ≤ 2 ^ (e + 1) := by rw [pow_succ]; linarith [ha.2, hb.2]

theorem Bounded.mul {d e : ℕ} {a b : Real64} (ha : Bounded d a) (hb : Bounded e b) (he : d + e ≤ 970) :
    Bounded (d + e + 1) (fmul a b) := by
  refine (fmul_roundsTo ha.1 hb.1).bounded ?_ he
  rw [abs_mul, pow_add]
  exact mul_le_mul ha.2 hb.2 (abs_nonneg _) (by positivity)

theorem Bounded.div {e : ℕ} {a b : Real64} (ha : Bounded e a) (hb : isFinite b = true) (hb1 : 1 ≤ toRat b)
    (he : e ≤ 970) : Bounded (e + 1) (fdiv a b) := by
  have hb1' : (1 : ℝ) ≤ toRat b := by exact_mod_cast hb1
  refine (fdiv_roundsTo ha.1 hb (by linarith)).bounded ?_ he
  rw [abs_div, abs_of_pos (zero_lt_one.trans_le hb1')]
  exact (div_le_self (abs_nonneg _) hb1').trans ha.2

theorem Bounded.sqrt {e : ℕ} {a : Real64} (ha : Bounded e a) (h0 : 0 ≤ toRat a) (he : e ≤ 970) :
    Bounded (e + 1) (fsqrt a) := by
  refine (fsqrt_roundsTo ha.1 h0).bounded ?_ he
  rw [abs_of_nonneg (Real.sqrt_nonneg _), Real.sqrt_le_left (by positivity)]
  calc (toRat a : ℝ) ≤ 2 ^ e := (le_abs_self _).trans ha.2
    _ ≤ (2 ^ e) ^ 2 := le_self_pow₀ (one_le_pow₀ one_le_two) two_ne_zero

theorem bounded_i2f {e : ℕ} {z : ℤ} (hz : |z| < 2 ^ e) (he : e ≤ 53) : Bounded e (i2f z) := by
  obtain ⟨hfin, hval⟩ := i2f_exact (hz.trans_le (pow_le_pow_right₀ one_le_two he))
  refine ⟨hfin, ?_⟩
  rw [hval]
  exact_mod_cast hz.le

theorem bounded_qscale {quality : ℕ} (h : qualityOk quality = true) : Bounded 15 (qscale .binary64 quality) := by
  obtain ⟨h1, h100⟩ := (qualityOk_iff quality).1 h
  obtain ⟨-, -, -, c100, -, -, c5000⟩ := constants_are_integers
  obtain ⟨hfin, hval⟩ := i2f_exact (z := 100) (by decide)
  rw [qscale, div_binary64, ← c100]
  refine Bounded.div (e := 14) ?_ hfin (by rw [hval]; norm_num) (by decide)
  split_ifs with hlow
  · obtain ⟨hqfin, hqval⟩ := i2f_exact (z := quality) (by rw [Nat.abs_cast]; omega)
    rw [div_binary64, ← c5000]
    exact (bounded_i2f (by decide) (by decide)).div hqfin (by rw [ofInt_binary64, hqval]; exact_mod_cast h1) (by decide)
  · exact bounded_i2f (by rw [abs_lt]; omega) (by decide)

theorem isFinite_qraw {p : Params} (h : p.ok = true) {n quality i j : ℕ} (hq : qualityOk quality = true)
    (hi : i < 128) (hj : j < 128) : isFinite (qraw .binary64 p.base8 n quality i j) = true := by
  have hscale := bounded_qscale hq
  obtain ⟨c1, -, c8, -⟩ := constants_are_integers
  unfold qraw
  split_ifs
  · have hbase : Bounded 8 (i2f (p.base8.getD (i * 8 + j) 0 : ℕ)) :=
      bounded_i2f (by rw [Nat.abs_cast]; have := base8_getD_le h (i * 8 + j); omega) (by decide)
    exact (hbase.mul hscale (by decide)).1
  · have hsum : i * i + j * j < 2 ^ 15 := by nlinarith
    have habs : |((i * i + j * j : ℕ) : ℤ)| < 2 ^ 15 := by rw [Nat.abs_cast]; exact_mod_cast hsum
    have hroot : Bounded 16 (fsqrt (i2f (i * i + j * j : ℕ))) :=
      (bounded_i2f habs (by decide)).sqrt (by rw [(i2f_exact (by omega)).2]; positivity) (by decide)
    have hone : Bounded 16 real1 := c1 ▸ bounded_i2f (by decide) (by decide)
    have height : Bounded 4 real8 := c8 ▸ bounded_i2f (by decide) (by decide)
    exact (((hone.add hroot (by decide)).mul hscale (by decide)).mul height (by decide)).1

/-- The default record's `clamp` puts a finite real between its bounds. -/
theorem clamp_realIn {x lo hi : Real64} (hx : isFinite x = true) (hlo : isFinite lo = true) (hhi : isFinite hi = true)
    (h : toRat lo ≤ toRat hi) : RealIn (toRat lo) (toRat hi) (Numerics.binary64.clamp x lo hi) := by
  simp only [Numerics.clamp, lt_binary64, flt_iff hx hlo, flt_iff hhi hx]
  split_ifs with hbelow habove
  · exact ⟨hlo, le_rfl, h⟩
  · exact ⟨hhi, h, le_rfl⟩
  · exact ⟨hx, not_lt.1 hbelow, not_lt.1 habove⟩

/-- The steps of the default record lie in [1, 255] (R129, R130). -/
theorem qtable_realIn {p : Params} (h : p.ok = true) {n quality i j : ℕ} (hq : qualityOk quality = true)
    (hi : i < 128) (hj : j < 128) : RealIn 1 255 (qtable .binary64 p.base8 n quality i j) := by
  obtain ⟨c1, -, -, -, c255, -⟩ := constants_are_integers
  obtain ⟨hfin1, hval1⟩ := i2f_exact (z := 1) (by decide)
  obtain ⟨hfin255, hval255⟩ := i2f_exact (z := 255) (by decide)
  have hclamp := clamp_realIn (isFinite_qraw h (n := n) hq hi hj) hfin1 hfin255 (by rw [hval1, hval255]; norm_num)
  rw [hval1, hval255, c1, c255] at hclamp
  exact hclamp

end Sys2Proof.Machine
end

section
namespace Sys2Proof.Machine

/-! The codes that `HBUILD` and `HCANON` store are codes (10_state.md R39; 44_huffman.md R172 to R178). -/

/-- A bit string of a legal length makes a code. -/
theorem ofStr_ok {bits : List Bool} (h1 : 1 ≤ bits.length) (h255 : bits.length ≤ 255) : (HuffCode.ofStr bits).Ok :=
  mkCode_ok _ _ h1 h255 (bitsValue_lt bits)

theorem path_node_isSome (l r : HTree) (i : ℕ) :
    ((HTree.node l r).path i).isSome = true ↔ (l.path i).isSome = true ∨ (r.path i).isSome = true := by
  cases hl : l.path i <;> simp [HTree.path, hl]

theorem length_pos_of_path_node {l r : HTree} {i : ℕ} {p : List Bool} (h : (HTree.node l r).path i = some p) :
    1 ≤ p.length := by
  simp only [HTree.path] at h
  split at h
  · cases h; simp
  · obtain ⟨q, -, rfl⟩ := Option.map_eq_some_iff.1 h
    simp

/-- No leaf is lost on the way to the root. -/
theorem HuffBuilds.path_isSome {next : ℕ} {nodes : List HNode} {tree : HTree} (h : HuffBuilds next nodes tree)
    {x : HNode} (hx : x ∈ nodes) {i : ℕ} (hi : (x.tree.path i).isSome = true) : (tree.path i).isSome = true := by
  induction h generalizing x with
  | root next a => exact List.mem_singleton.1 hx ▸ hi
  | merge next nodes rest a b tree hperm _ _ _ ih =>
    have hmerged := ih (List.mem_cons_self)
    rw [path_node_isSome] at hmerged
    rcases List.mem_cons.1 (hperm.mem_iff.1 hx) with rfl | hx
    · exact hmerged (.inl hi)
    · rcases List.mem_cons.1 hx with rfl | hx
      · exact hmerged (.inr hi)
      · exact ih (List.mem_cons_of_mem _ hx) hi

/-- The root is an inner node where two nodes are merged at least once. -/
theorem HuffBuilds.exists_eq_node {next : ℕ} {nodes : List HNode} {tree : HTree} (h : HuffBuilds next nodes tree)
    (hnodes : 2 ≤ nodes.length ∨ ∀ x ∈ nodes, ∃ l r, x.tree = .node l r) : ∃ l r, tree = .node l r := by
  induction h with
  | root next a =>
    obtain hlen | hall := hnodes
    · exact absurd hlen (by simp)
    · exact hall a (List.mem_singleton_self a)
  | merge next nodes rest a b tree _ _ _ _ ih =>
    refine ih ?_
    cases rest with
    | nil => exact .inr fun x hx => ⟨a.tree, b.tree, by rw [List.mem_singleton.1 hx]⟩
    | cons c rest => exact .inl (by simp)

@[simp] theorem length_huffLeaves (freqs : List ℕ) : (huffLeaves freqs).length = freqs.length := by simp [huffLeaves]

theorem exists_mem_huffLeaves {freqs : List ℕ} {i : ℕ} (hi : i < freqs.length) :
    ∃ x ∈ huffLeaves freqs, x.tree = .leaf i :=
  ⟨{ freq := freqs[i], seq := i, tree := .leaf i },
    List.mem_map.2 ⟨(freqs[i], i), List.mem_zipIdx_iff_getElem?.2 (by simp [hi]), rfl⟩, rfl⟩

/-- The tree of at least two symbols: an inner node with a leaf for every symbol. -/
theorem huffTree_eq_node {freqs : List ℕ} (h : 2 ≤ freqs.length) :
    ∃ l r, huffTree freqs = some (.node l r) ∧ ∀ i < freqs.length, ((HTree.node l r).path i).isSome = true := by
  obtain ⟨root, hroot, hbuilds⟩ := huffMerge_builds (freqs.length - 1) freqs.length (huffLeaves freqs) (by simp; omega)
  obtain ⟨l, r, htree⟩ := hbuilds.exists_eq_node (.inl (by simpa using h))
  refine ⟨l, r, by simp [huffTree, hroot, htree], fun i hi => ?_⟩
  obtain ⟨x, hx, hleaf⟩ := exists_mem_huffLeaves hi
  exact htree ▸ hbuilds.path_isSome hx (by simp [hleaf, HTree.path])

theorem huffCodes_eq_of_two_le {freqs : List ℕ} (h : 2 ≤ freqs.length) {root : HTree} (hroot : huffTree freqs = some root) :
    huffCodes freqs = (List.range freqs.length).map fun i => (root.path i).getD [] := by
  rw [huffCodes, if_neg (by omega), hroot]

theorem length_huffCodes {freqs : List ℕ} (h : 1 ≤ freqs.length) : (huffCodes freqs).length = freqs.length := by
  obtain h1 | h2 : freqs.length = 1 ∨ 2 ≤ freqs.length := by omega
  · rw [huffCodes, if_pos h1, h1]; rfl
  · obtain ⟨l, r, hroot, -⟩ := huffTree_eq_node h2
    rw [huffCodes_eq_of_two_le h2 hroot]
    simp

/-- Every symbol gets a bit at least (R173). -/
theorem length_pos_of_mem_huffCodes {freqs : List ℕ} (h : 1 ≤ freqs.length) {code : List Bool}
    (hc : code ∈ huffCodes freqs) : 1 ≤ code.length := by
  obtain h1 | h2 : freqs.length = 1 ∨ 2 ≤ freqs.length := by omega
  · rw [huffCodes, if_pos h1, List.mem_singleton] at hc
    rw [hc]; rfl
  · obtain ⟨l, r, hroot, hall⟩ := huffTree_eq_node h2
    rw [huffCodes_eq_of_two_le h2 hroot] at hc
    obtain ⟨i, hi, rfl⟩ := List.mem_map.1 hc
    obtain ⟨p, hp⟩ := Option.isSome_iff_exists.1 (hall i (List.mem_range.1 hi))
    rw [hp]
    exact length_pos_of_path_node hp

/-- Every number `canonFrom` gives fits its symbol's length. -/
theorem lt_of_mem_canonFrom {lens : List ℕ} {code len : ℕ} {idxs : List ℕ} {codes : List (ℕ × ℕ)}
    (h : canonFrom lens code len idxs = some codes) {e : ℕ × ℕ} (he : e ∈ codes) : e.2 < 2 ^ lens.getD e.1 0 := by
  induction idxs generalizing code len codes with
  | nil =>
    cases h
    exact absurd he List.not_mem_nil
  | cons i rest ih =>
    simp only [canonFrom] at h
    split_ifs at h with hfit
    obtain ⟨more, hmore, rfl⟩ := Option.map_eq_some_iff.1 h
    rcases List.mem_cons.1 he with rfl | he
    · exact not_le.1 hfit
    · exact ih hmore he

/-- What `canon` answers for lengths of a byte: a code for every symbol. -/
theorem canon_ok {lens : List ℕ} {codes : List HuffCode} (h : canon lens = .ok codes) (hlens : ∀ l ∈ lens, l ≤ 255) :
    codes.length = lens.length ∧ ∀ c ∈ codes, c.Ok := by
  unfold canon at h
  split_ifs at h with hzero
  split at h
  · cases h
  · rename_i pairs hpairs
    cases h
    refine ⟨by simp, fun c hc => ?_⟩
    obtain ⟨i, hi, rfl⟩ := List.mem_map.1 hc
    have hmem : lens.getD i 0 ∈ lens := by
      rw [List.getD_eq_getElem _ _ (List.mem_range.1 hi)]
      exact List.getElem_mem _
    have hpos : 1 ≤ lens.getD i 0 := by
      refine Nat.pos_of_ne_zero fun h0 => hzero (List.any_eq_true.2 ⟨_, hmem, by rw [h0]; rfl⟩)
    refine mkCode_ok _ _ hpos (hlens _ hmem) ?_
    cases hlookup : pairs.lookup i with
    | none => exact Nat.two_pow_pos _
    | some v =>
      obtain ⟨l1, l2, hsplit, -⟩ := List.lookup_eq_some_iff.1 hlookup
      exact lt_of_mem_canonFrom hpairs (e := (i, v)) (by simp [hsplit])

end Sys2Proof.Machine
end

section
namespace Sys2Proof.Machine

/-! The trie that `HTRIE` builds (44_huffman.md R180 to R182): its root stays a node, its symbols are the indices inserted. -/

theorem symsBelow_insert {bound : ℕ} {i : BitVec 16} (hi : i.toNat < bound) {code : List Bool} {t u : Trie}
    (ht : t.symsBelow bound) (h : Trie.insert i code t = some u) : u.symsBelow bound := by
  induction code generalizing t u with
  | nil =>
    cases t with
    | absent => cases h; exact hi
    | leaf j => cases h
    | node l r => cases h
  | cons b code ih =>
    cases t with
    | leaf j => cases b <;> cases h
    | absent =>
      cases b <;> obtain ⟨v, hv, rfl⟩ := Option.map_eq_some_iff.1 h
      · exact ⟨ih (t := .absent) trivial hv, trivial⟩
      · exact ⟨trivial, ih (t := .absent) trivial hv⟩
    | node l r =>
      cases b <;> obtain ⟨v, hv, rfl⟩ := Option.map_eq_some_iff.1 h
      · exact ⟨ih ht.1 hv, ht.2⟩
      · exact ⟨ht.1, ih ht.2 hv⟩

theorem insert_node {i : BitVec 16} {code : List Bool} {l r u : Trie} (h : Trie.insert i code (.node l r) = some u) :
    ∃ l' r', u = .node l' r' := by
  rcases code with _ | ⟨_ | _, code⟩
  · cases h
  · obtain ⟨v, -, rfl⟩ := Option.map_eq_some_iff.1 h
    exact ⟨_, _, rfl⟩
  · obtain ⟨v, -, rfl⟩ := Option.map_eq_some_iff.1 h
    exact ⟨_, _, rfl⟩

theorem trieBuild_node {bound : ℕ} (hbound : bound ≤ 65535) {codes : List HuffCode} {i : ℕ} {l r u : Trie}
    (hi : i + codes.length ≤ bound) (ht : (Trie.node l r).symsBelow bound)
    (h : trieBuild i codes (.node l r) = some u) : ∃ l' r', u = .node l' r' ∧ u.symsBelow bound := by
  induction codes generalizing i l r with
  | nil =>
    cases h
    exact ⟨l, r, rfl, ht⟩
  | cons c codes ih =>
    obtain ⟨t, hinsert, hrest⟩ := Option.bind_eq_some_iff.1 h
    obtain ⟨l', r', rfl⟩ := insert_node hinsert
    rw [List.length_cons] at hi
    have hsym : (BitVec.ofNat 16 i).toNat < bound := by
      rw [BitVec.toNat_ofNat, Nat.mod_eq_of_lt (by omega)]
      omega
    exact ih (by omega) (symsBelow_insert hsym ht hinsert) hrest

end Sys2Proof.Machine
end

section
namespace Sys2Proof.Machine

/-! How many elements the commands store, and where (42_zigzag.md R150; 43_runlength.md; 46_blockcodec.md R209). -/

theorem mem_zzDiag {n d : ℕ} {cell : ℕ × ℕ} (h : cell ∈ zzDiag n d) :
    cell.1 + cell.2 = d ∧ cell.1 ≤ n - 1 ∧ cell.2 ≤ n - 1 := by
  obtain ⟨row, hrow, rfl⟩ := List.mem_map.1 h
  have hrow' : row ∈ (List.range (min d (n - 1) + 1 - (d - (n - 1)))).map fun t => d - (n - 1) + t := by
    split_ifs at hrow
    · exact List.mem_reverse.1 hrow
    · exact hrow
  obtain ⟨t, ht, rfl⟩ := List.mem_map.1 hrow'
  rw [List.mem_range] at ht
  dsimp only
  omega

theorem nodup_zzDiag (n d : ℕ) : (zzDiag n d).Nodup := by
  have hrows : ((List.range (min d (n - 1) + 1 - (d - (n - 1)))).map fun t => d - (n - 1) + t).Nodup :=
    List.nodup_range.map fun a b h => Nat.add_left_cancel h
  refine List.Nodup.map (fun a b h => (Prod.mk.inj h).1) ?_
  split_ifs
  · exact List.nodup_reverse.2 hrows
  · exact hrows

/-- No cell comes twice: the diagonals are apart. -/
theorem nodup_zz (n : ℕ) : (zz n).Nodup := by
  refine List.nodup_flatMap.2 ⟨fun d _ => nodup_zzDiag n d, List.nodup_range.imp fun {d e} hne cell hd he => hne ?_⟩
  rw [← (mem_zzDiag hd).1, (mem_zzDiag he).1]

theorem mem_zz_lt {n : ℕ} (hn : 1 ≤ n) {cell : ℕ × ℕ} (h : cell ∈ zz n) : cell.1 < n ∧ cell.2 < n := by
  obtain ⟨d, -, hcell⟩ := List.mem_flatMap.1 h
  have := mem_zzDiag hcell
  omega

theorem length_zzIndex_le {n : ℕ} (hn : 1 ≤ n) : (zzIndex n).length ≤ n * n := by
  have hsub : (zz n).toFinset ⊆ Finset.range n ×ˢ Finset.range n := fun cell hcell => by
    simpa using mem_zz_lt hn (List.mem_toFinset.1 hcell)
  calc (zzIndex n).length = (zz n).toFinset.card := by rw [zzIndex, List.length_map, List.toFinset_card_of_nodup (nodup_zz n)]
    _ ≤ (Finset.range n ×ˢ Finset.range n).card := Finset.card_le_card hsub
    _ = n * n := by rw [Finset.card_product, Finset.card_range]

theorem mem_zzIndex_lt {n : ℕ} (hn : 1 ≤ n) {i : ℕ} (h : i ∈ zzIndex n) : i < n * n := by
  obtain ⟨cell, hcell, rfl⟩ := List.mem_map.1 h
  obtain ⟨hrow, hcol⟩ := mem_zz_lt hn hcell
  unfold blockIndex
  nlinarith

/-- A symbol stands for at least one value. -/
theorem length_rlEncode_le (run : ℕ) (vs : List Word) : (rlEncode run vs).length ≤ vs.length + min run 1 := by
  induction vs generalizing run with
  | nil =>
    unfold rlEncode
    split_ifs with hrun
    · rw [List.length_singleton, List.length_nil]
      omega
    · exact Nat.zero_le _
  | cons v vs ih =>
    unfold rlEncode
    split_ifs
    · have := ih (run + 1)
      rw [List.length_cons]
      omega
    · have := ih 0
      rw [List.length_cons, List.length_cons]
      omega

/-- Run-length decoding never passes the end of the sequence. -/
theorem length_rlDecode_le (len pos : ℕ) (syms : List RleSym) : (rlDecode len pos syms).1.length ≤ len - pos := by
  induction syms generalizing pos with
  | nil => exact Nat.zero_le _
  | cons sym rest ih =>
    unfold rlDecode
    split_ifs with hend heob
    · exact Nat.zero_le _
    · exact Nat.zero_le _
    · have := ih (pos + min sym.run.toNat (len - pos) + 1)
      dsimp only
      split_ifs
      · simp only [List.length_append, List.length_replicate, List.length_cons]
        omega
      · simp only [List.length_replicate]
        omega

theorem length_bumpKey {key : Word} {tab tab' : List (Word × ℕ)} (h : bumpKey key tab = some tab') :
    tab'.length = tab.length := by
  induction tab generalizing tab' with
  | nil => cases h
  | cons e rest ih =>
    obtain ⟨k, f⟩ := e
    unfold bumpKey at h
    split_ifs at h
    · cases h; rfl
    · obtain ⟨more, hmore, rfl⟩ := Option.map_eq_some_iff.1 h
      rw [List.length_cons, List.length_cons, ih hmore]

/-- The symbol table never outgrows its buffer. -/
theorem length_mapSymbols_le (symMax : ℕ) {tab : List (Word × ℕ)} (sat : Bool) (syms : List RleSym)
    (h : tab.length ≤ symMax) : (mapSymbols symMax tab sat syms).1.length ≤ symMax := by
  induction syms generalizing tab sat with
  | nil => exact h
  | cons sym rest ih =>
    simp only [mapSymbols]
    split
    · rename_i tab' hbump
      exact ih _ ((length_bumpKey hbump).trans_le h)
    · split_ifs with hfull
      · exact h
      · refine ih _ ?_
        rw [List.length_append, List.length_singleton]
        omega

theorem length_quantAll {s : State} {idxs : List ℕ} {qs : List Word} (h : quantAll s idxs = some qs) :
    qs.length = idxs.length := by
  induction idxs generalizing qs with
  | nil => cases h; rfl
  | cons idx rest ih =>
    obtain ⟨q, -, hq⟩ := Option.bind_eq_some_iff.1 h
    obtain ⟨more, hmore, rfl⟩ := Option.map_eq_some_iff.1 hq
    rw [List.length_cons, List.length_cons, ih hmore]

end Sys2Proof.Machine
end

section
namespace Sys2Proof.Machine

/-! The invariant with its parts named, and what it means that a command's body keeps it. -/

/-- `Memory.wf`, a field per buffer. -/
structure Memory.Canonical (p : Params) (m : Memory) : Prop where
  cb : m.cb.wf p.lMax = true
  ct : m.ct.wf p.lMax = true
  qm : m.qm.wf p.lMax = true
  dqm : m.dqm.wf p.lMax = true
  xr : m.xr.wf p.lMax = true
  yr : m.yr.wf p.lMax = true
  ib : m.ib.wf p.lMax = true
  sq : m.sq.wf p.lMax = true
  rs : m.rs.wf p.lMax = true
  st : m.st.wf p.symMax = true
  fq : m.fq.wf p.symMax = true
  cl : m.cl.wf p.symMax = true
  tc : m.tc.wf p.symMax = true
  cc : m.cc.wf p.symMax = true
  bs : Buf.wf p.bufMax m.bs = true

theorem Memory.canonical_iff (p : Params) (m : Memory) : m.Canonical p ↔ Memory.wf p m = true := by
  simp only [Memory.wf, Bool.and_eq_true]
  constructor
  · rintro ⟨⟩
    simp only [*, and_self]
  · intro h
    constructor <;> simp only [h]

/-- `Inv`, a field per part. -/
structure Invariants (s : State) : Prop where
  legal : s.params.ok = true
  mem : s.mem.Canonical s.params
  transform : TransformInv s
  quant : QuantInv s
  writer : CursorInv s.params s.w
  reader : CursorInv s.params s.r
  trie : TrieInv s
  halt : HaltInv s
  codes : CodesInv s

theorem invariants_iff (s : State) : Invariants s ↔ Inv s := by
  constructor
  · rintro ⟨hlegal, hmem, htransform, hquant, hwriter, hreader, htrie, hhalt, hcodes⟩
    exact ⟨hlegal, (Memory.canonical_iff _ _).1 hmem, htransform, hquant, hwriter, hreader, htrie, hhalt, hcodes⟩
  · rintro ⟨hlegal, hmem, htransform, hquant, hwriter, hreader, htrie, hhalt, hcodes⟩
    exact ⟨hlegal, (Memory.canonical_iff _ _).2 hmem, htransform, hquant, hwriter, hreader, htrie, hhalt, hcodes⟩

/-- `t` meets the invariant and has the parameters and the `STATUS` of `s`: what a body's writes leave, since `STATUS` is
posted after them. -/
structure Keeps (s t : State) : Prop where
  inv : Invariants t
  params : t.params = s.params
  status : t.status = s.status

theorem Invariants.keeps {s : State} (h : Invariants s) : Keeps s s := ⟨h, rfl, rfl⟩

theorem Keeps.trans {s t u : State} (hst : Keeps s t) (htu : Keeps t u) : Keeps s u :=
  ⟨htu.inv, htu.params.trans hst.params, htu.status.trans hst.status⟩

/-- A result that returns, returns a state that keeps the invariant; the writes of one that faults are discarded. -/
def Result.KeepsInv (s : State) : Result → Prop
  | .ret _ t => Keeps s t
  | .raise _ => True

theorem keepsInv_ret {s t : State} {c : RetCode} (h : Keeps s t) : (Result.ret c t).KeepsInv s := h

theorem keepsInv_raise (s : State) (f : CoreFault) : (Result.raise f).KeepsInv s := trivial

/-- A body that keeps the invariant. -/
def BodyKeeps (body : State → Result) : Prop := ∀ s, Invariants s → (body s).KeepsInv s

theorem bodyKeeps_withBlock {n : ℕ} {body : State → Result}
    (h : ∀ s, Invariants s → blockSizeOk s.params n = true → (body s).KeepsInv s) : BodyKeeps (withBlock n body) := by
  intro s hs
  cases hn : blockSizeOk s.params n with
  | true => exact withBlock_ok n body s hn ▸ h s hs hn
  | false => exact withBlock_fault n body s hn ▸ keepsInv_raise s _

/-- A step of a composite command, and then the rest. -/
theorem BodyKeeps.andThen {body : State → Result} (hbody : BodyKeeps body) {s t : State} (ht : Keeps s t)
    {k : RetCode → State → Result} (hk : ∀ c u, Keeps s u → (k c u).KeepsInv s) : ((body t).andThen k).KeepsInv s := by
  have hres := hbody t ht.inv
  cases hb : body t with
  | ret c u =>
    rw [hb] at hres
    exact hk c u (ht.trans hres)
  | raise f => exact keepsInv_raise s f

/-- A command whose body keeps the invariant keeps it: `STATUS` halts only with a fault's code in it. -/
theorem BodyKeeps.runCommand {body : State → Result} (hbody : BodyKeeps body) (op : Byte) {s : State} (h : Invariants s) :
    Invariants (runCommand op body s) ∧ (runCommand op body s).params = s.params := by
  obtain ⟨-, heq⟩ | ⟨hrun, c, t, hb, heq⟩ | ⟨-, f, -, heq⟩ := runCommand_cases op body s
  · rw [heq]
    exact ⟨h, rfl⟩
  · have hres := hbody (recordOp op s) { h with }
    rw [hb] at hres
    obtain ⟨hinv, hparams, hstatus⟩ := hres
    have hhalt : t.status.halt = false := by rw [hstatus]; exact hrun
    rw [heq]
    exact ⟨{ hinv with halt := fun hh => absurd (hhalt.symm.trans hh) Bool.false_ne_true }, hparams⟩
  · rw [heq]
    exact ⟨{ h with halt := fun _ => ⟨f, rfl⟩ }, rfl⟩

end Sys2Proof.Machine
end

section
namespace Sys2Proof.Machine

/-! The bit writer, the bit reader and what is built on them keep the invariant. -/

theorem keeps_writeBits (bits : List Bool) {s : State} (h : Invariants s) : Keeps s (writeBits s bits).1 := by
  obtain ⟨hframe, hcap, hpos, -⟩ := writeBits_frame bits s
  obtain ⟨hle, hmax⟩ := h.writer
  have hwriter : CursorInv s.params (writeBits s bits).1.w := by
    refine ⟨?_, by rwa [hcap]⟩
    rw [hcap]
    unfold State.wpos at hpos
    omega
  have hmem := wf_writeBits s.params bits s hmax ((Memory.canonical_iff _ _).1 h.mem)
  rw [hframe]
  exact ⟨{ h with writer := hwriter, mem := { h.mem with bs := ((Memory.canonical_iff _ _).2 hmem).bs } }, rfl, rfl⟩

theorem keepsInv_afterWrite (bits : List Bool) {s : State} (h : Invariants s) :
    (afterWrite (writeBits s bits)).KeepsInv s := keepsInv_ret (keeps_writeBits bits h)

/-- A state that differs in the reader only, with the capacity kept and not passed. -/
theorem Invariants.keeps_of_reader {s t : State} (h : Invariants s) (hframe : t = { s with r := t.r })
    (hcap : t.r.cap = s.r.cap) (hpos : t.rpos ≤ 8 * s.r.cap.toNat) : Keeps s t := by
  have hreader : CursorInv s.params t.r := by
    rw [CursorInv, hcap]
    exact ⟨hpos, h.reader.2⟩
  rw [hframe]
  exact ⟨{ h with reader := hreader }, rfl, rfl⟩

theorem keeps_readBit {s t : State} (h : Invariants s) {b : Bool} (hr : readBit s = some (b, t)) : Keeps s t := by
  obtain ⟨-, hnone⟩ | ⟨hroom, c, u, hu, -, hpos, hcap, hframe⟩ := readBit_cases s
  · rw [hnone] at hr; cases hr
  · obtain ⟨rfl, rfl⟩ : c = b ∧ u = t := by simpa using hu.symm.trans hr
    exact h.keeps_of_reader hframe hcap (hpos.trans_le hroom)

theorem keeps_readField (width v : ℕ) {s : State} (h : Invariants s) : Keeps s (readField width v s).2 := by
  obtain ⟨hframe, hcap, hpos, -⟩ := readField_frame width v s
  have hle : s.rpos ≤ 8 * s.r.cap.toNat := h.reader.1
  exact h.keeps_of_reader hframe hcap (by omega)

theorem keeps_walk (trie : Trie) {s : State} (h : Invariants s) : Keeps s (walk trie s).2 := by
  induction trie generalizing s with
  | absent => exact h.keeps
  | leaf i => exact h.keeps
  | node l r ihl ihr =>
    simp only [walk]
    split
    · exact h.keeps
    · rename_i t ht
      have hkeeps := keeps_readBit h ht
      exact hkeeps.trans (ihl hkeeps.inv)
    · rename_i t ht
      have hkeeps := keeps_readBit h ht
      exact hkeeps.trans (ihr hkeeps.inv)

theorem Invariants.keeps_storeEntry {s : State} (h : Invariants s) {i : ℕ} (hi : i < s.params.symMax) (key : Word)
    (len : Byte) : Keeps s { s with mem := { s.mem with st := s.mem.st.set i key, cl := s.mem.cl.set i len } } :=
  ⟨{ h with mem := { h.mem with st := wf_set _ _ _ _ hi h.mem.st, cl := wf_set _ _ _ _ hi h.mem.cl } }, rfl, rfl⟩

/-- The entries of a header within the tables (R212). -/
theorem keeps_readEntries (left i : ℕ) {s : State} (h : Invariants s) (hi : i + left ≤ s.params.symMax) :
    Keeps s (readEntries left i s).2 := by
  induction left generalizing i s with
  | zero => exact h.keeps
  | succ left ih =>
    have hkey := keeps_readField 32 0 h
    have hlen := hkey.trans (keeps_readField 8 0 hkey.inv)
    unfold readEntries
    split
    · rename_i hread
      rw [hread] at hkey
      exact hkey
    · rename_i key t hread
      rw [hread] at hkey hlen
      split
      · rename_i hread2
        rw [hread2] at hlen
        exact hlen
      · rename_i l t hread2
        rw [hread2] at hlen
        replace hlen : Keeps s t := hlen
        have hroom : i < t.params.symMax := by rw [hlen.params]; omega
        split_ifs
        · exact hlen
        · have hstore := hlen.trans (hlen.inv.keeps_storeEntry hroom (BitVec.ofNat 32 key) (BitVec.ofNat 8 l))
          exact hstore.trans (ih (i + 1) hstore.inv (by rw [hstore.params]; omega))

theorem keeps_readSymbols (len fuel pos : ℕ) {s : State} (h : Invariants s) :
    Keeps s (readSymbols len fuel pos s).2.2 ∧ (readSymbols len fuel pos s).1.length ≤ fuel := by
  induction fuel generalizing pos s with
  | zero => exact ⟨h.keeps, le_rfl⟩
  | succ fuel ih =>
    have hwalk := keeps_walk s.readTrie h
    simp only [readSymbols]
    split_ifs
    · exact ⟨h.keeps, Nat.zero_le _⟩
    · split
      · rename_i heq
        rw [heq] at hwalk
        exact ⟨hwalk, Nat.zero_le _⟩
      · rename_i heq
        rw [heq] at hwalk
        exact ⟨hwalk, Nat.zero_le _⟩
      · rename_i i t heq
        rw [heq] at hwalk
        split_ifs
        · exact ⟨hwalk, Nat.succ_le_succ (Nat.zero_le _)⟩
        · obtain ⟨hkeeps, hlen⟩ := ih (pos + (unpack (t.readST i.toNat)).run.toNat + 1) hwalk.inv
          exact ⟨hwalk.trans hkeeps, Nat.succ_le_succ hlen⟩

end Sys2Proof.Machine
end

section
namespace Sys2Proof.Machine

/-! What a fill leaves to be read. -/

variable {α : Type}

theorem getD_fill_of_getElem? (b : Buf α) {vs : List α} {i : ℕ} {v : α} (h : vs[i]? = some v) (d : α) :
    ((b.fill vs).get i).getD d = v := by
  rw [get_fill, if_pos (List.getElem?_eq_some_iff.1 h).1, h, Option.getD_some]

/-- What holds of every element written and of the element that was there, holds of what is read. -/
theorem getD_fill_of_forall {P : α → Prop} {b : Buf α} {vs : List α} {i : ℕ} {d : α} (hvs : ∀ v ∈ vs, P v)
    (hb : P ((b.get i).getD d)) : P (((b.fill vs).get i).getD d) := by
  rw [get_fill]
  split_ifs with hi
  · rw [List.getElem?_eq_getElem hi, Option.getD_some]
    exact hvs _ (List.getElem_mem hi)
  · exact hb

theorem getElem?_rowMajor_idx {n : ℕ} (f : ℕ → ℕ → α) {idx : ℕ} (h : idx < n * n) :
    (rowMajor n f)[idx]? = some (f (idx / n) (idx % n)) := by
  simp [rowMajor, h]

end Sys2Proof.Machine
end

section
namespace Sys2Proof.Machine

/-! The bodies of the transform and quantisation commands keep the invariant. -/

theorem admitted_le_128 {p : Params} (hp : p.ok = true) {n : ℕ} (hn : blockSizeOk p n = true) : n ≤ 128 :=
  ((blockSizeOk_iff p n).1 hn).2.1.trans (nMax_le hp)

theorem toNat_ofNat_block {p : Params} (hp : p.ok = true) {n : ℕ} (hn : blockSizeOk p n = true) :
    (BitVec.ofNat 12 n).toNat = n := by
  have := admitted_le_128 hp hn
  rw [BitVec.toNat_ofNat, Nat.mod_eq_of_lt (by omega)]

theorem bodyKeeps_nop : BodyKeeps bodyNop := fun _ h => keepsInv_ret h.keeps

theorem bodyKeeps_tinit (n : ℕ) : BodyKeeps (bodyTinit n) := by
  refine bodyKeeps_withBlock fun s h hn => keepsInv_ret ⟨?_, rfl, rfl⟩
  have hroom := square_le_lMax _ _ hn
  refine { h with
    mem := { h.mem with
      cb := wf_fill _ _ _ (by simpa using hroom) h.mem.cb
      ct := wf_fill _ _ _ (by simpa using hroom) h.mem.ct }
    transform := fun _ => ?_ }
  dsimp only [State.readCB, State.readCT]
  rw [toNat_ofNat_block h.legal hn]
  exact ⟨hn, fun i j hi hj => ⟨getD_fill_of_getElem? _ (getElem?_rowMajor n i j _ hi hj) _,
    getD_fill_of_getElem? _ (getElem?_rowMajor n i j _ hi hj) _⟩⟩

theorem length_matmul3 (num : Numerics) (n : ℕ) (a b c : ℕ → ℕ → Real64) : (matmul3 num n a b c).length = n * n :=
  length_rowMajor n _

theorem bodyKeeps_tfwd : BodyKeeps bodyTfwd := by
  intro s h
  unfold bodyTfwd
  split_ifs with htcv
  · have hroom := square_le_lMax _ _ (h.transform htcv).1
    exact keepsInv_ret ⟨{ h with mem := { h.mem with yr := wf_fill _ _ _ (by rwa [length_matmul3]) h.mem.yr } }, rfl, rfl⟩
  · exact keepsInv_raise s _

theorem bodyKeeps_tinv : BodyKeeps bodyTinv := by
  intro s h
  unfold bodyTinv
  split_ifs with htcv
  · have hroom := square_le_lMax _ _ (h.transform htcv).1
    exact keepsInv_ret ⟨{ h with mem := { h.mem with xr := wf_fill _ _ _ (by rwa [length_matmul3]) h.mem.xr } }, rfl, rfl⟩
  · exact keepsInv_raise s _

theorem bodyKeeps_qinit (n quality : ℕ) (adaptive : Bool) : BodyKeeps (bodyQinit n quality adaptive) := by
  refine bodyKeeps_withBlock fun s h hn => ?_
  split_ifs with hq
  · have hroom := square_le_lMax _ _ hn
    have hquality : (BitVec.ofNat 8 quality).toNat = quality := by
      have := (qualityOk_iff quality).1 hq
      rw [BitVec.toNat_ofNat, Nat.mod_eq_of_lt (by omega)]
    refine keepsInv_ret ⟨{ h with
      mem := { h.mem with
        qm := wf_fill _ _ _ (by simpa using hroom) h.mem.qm
        dqm := wf_fill _ _ _ (by simpa using hroom) h.mem.dqm }
      quant := fun _ => ?_ }, rfl, rfl⟩
    dsimp only [State.readQM, State.readDQM]
    rw [toNat_ofNat_block h.legal hn, hquality]
    refine ⟨hn, hq, fun idx hidx => ?_⟩
    have hstep := getElem?_rowMajor_idx (qtable s.params.num s.params.base8 n quality) hidx
    rw [getD_fill_of_getElem? _ hstep, getD_fill_of_getElem? _ (by rw [List.getElem?_map, hstep]; rfl)]
    refine ⟨fun hnum => ?_, rfl⟩
    have hn128 := admitted_le_128 h.legal hn
    have hn0 : 0 < n := ((blockSizeOk_iff _ _).1 hn).1
    rw [hnum]
    exact qtable_realIn h.legal hq ((Nat.div_lt_of_lt_mul hidx).trans_le hn128) ((Nat.mod_lt _ hn0).trans_le hn128)
  · exact keepsInv_raise s _

theorem bodyKeeps_qvar (n : ℕ) : BodyKeeps (bodyQvar n) :=
  bodyKeeps_withBlock fun _ h _ => keepsInv_ret ⟨{ h with }, rfl, rfl⟩

theorem bodyKeeps_quant : BodyKeeps bodyQuant := by
  intro s h
  unfold bodyQuant
  split_ifs with hqcv
  · split
    · exact keepsInv_raise s _
    · rename_i qs hqs
      have hroom : qs.length ≤ s.params.lMax := by
        rw [length_quantAll hqs, List.length_range]
        exact square_le_lMax _ _ (h.quant hqcv).1
      exact keepsInv_ret ⟨{ h with mem := { h.mem with ib := wf_fill _ _ _ hroom h.mem.ib } }, rfl, rfl⟩
  · exact keepsInv_raise s _

theorem bodyKeeps_dequant : BodyKeeps bodyDequant := by
  intro s h
  unfold bodyDequant
  split_ifs with hqcv
  · have hroom := square_le_lMax _ _ (h.quant hqcv).1
    exact keepsInv_ret ⟨{ h with mem := { h.mem with yr := wf_fill _ _ _ (by simpa using hroom) h.mem.yr } }, rfl, rfl⟩
  · exact keepsInv_raise s _

end Sys2Proof.Machine
end

section
namespace Sys2Proof.Machine

/-! The bodies of the zigzag, run-length and Huffman commands keep the invariant. -/

theorem bodyKeeps_zscan (n : ℕ) : BodyKeeps (bodyZscan n) := by
  refine bodyKeeps_withBlock fun s h hn => ?_
  have hroom : ((zzIndex n).map s.readIB).length ≤ s.params.lMax := by
    rw [List.length_map]
    exact (length_zzIndex_le ((blockSizeOk_iff _ _).1 hn).1).trans (square_le_lMax _ _ hn)
  exact keepsInv_ret ⟨{ h with mem := { h.mem with sq := wf_fill _ _ _ hroom h.mem.sq } }, rfl, rfl⟩

theorem bodyKeeps_zunscan (n : ℕ) : BodyKeeps (bodyZunscan n) := by
  refine bodyKeeps_withBlock fun s h hn => ?_
  have hroom : ∀ i ∈ zzIndex n, i < s.params.lMax := fun i hi =>
    (mem_zzIndex_lt ((blockSizeOk_iff _ _).1 hn).1 hi).trans_le (square_le_lMax _ _ hn)
  exact keepsInv_ret ⟨{ h with mem := { h.mem with ib := wf_scatter _ _ _ _ _ hroom h.mem.ib } }, rfl, rfl⟩

theorem bodyKeeps_rlenc (n : ℕ) : BodyKeeps (bodyRlenc n) := by
  refine bodyKeeps_withBlock fun s h hn => ?_
  have hroom : (rlEncode 0 (readMany s.readSQ (n * n))).length ≤ s.params.lMax := by
    have := length_rlEncode_le 0 (readMany s.readSQ (n * n))
    rw [length_readMany] at this
    exact this.trans (square_le_lMax _ _ hn)
  exact keepsInv_ret ⟨{ h with mem := { h.mem with rs := wf_fill _ _ _ hroom h.mem.rs } }, rfl, rfl⟩

theorem bodyKeeps_rldec (n : ℕ) : BodyKeeps (bodyRldec n) := by
  refine bodyKeeps_withBlock fun s h hn => ?_
  split_ifs
  · exact keepsInv_raise s _
  · have hlen := length_rlDecode_le (n * n) 0 s.symbols
    have hroom := square_le_lMax _ _ hn
    rw [Nat.sub_zero] at hlen
    refine keepsInv_ret ⟨{ h with mem := { h.mem with sq := wf_fill _ _ _ ?_ h.mem.sq } }, rfl, rfl⟩
    rw [List.length_append, List.length_replicate, Nat.add_sub_cancel' hlen]
    exact hroom

theorem bodyKeeps_hbuild : BodyKeeps bodyHbuild := by
  intro s h
  unfold bodyHbuild
  dsimp only
  split_ifs with hk hlong
  · exact keepsInv_raise s _
  · exact keepsInv_ret ⟨{ h with }, rfl, rfl⟩
  · obtain ⟨hk0, hkmax⟩ := not_or.1 hk
    have hfreqs : 1 ≤ (readMany (fun i => (s.readFQ i).toNat) s.k.toNat).length := by
      rw [length_readMany]
      exact Nat.pos_of_ne_zero hk0
    have hroom : (huffCodes (readMany (fun i => (s.readFQ i).toNat) s.k.toNat)).length ≤ s.params.symMax := by
      rw [length_huffCodes hfreqs, length_readMany]
      exact not_lt.1 hkmax
    refine keepsInv_ret ⟨{ h with
      mem := { h.mem with
        cl := wf_fill _ _ _ (by rwa [List.length_map]) h.mem.cl
        tc := wf_fill _ _ _ (by rwa [List.length_map]) h.mem.tc }
      codes := fun i => ⟨getD_fill_of_forall (P := HuffCode.Ok) (fun c hc => ?_) (h.codes i).1, (h.codes i).2⟩ }, rfl, rfl⟩
    obtain ⟨bits, hbits, rfl⟩ := List.mem_map.1 hc
    refine ofStr_ok (length_pos_of_mem_huffCodes hfreqs hbits) (not_lt.1 fun hgt => hlong ?_)
    exact List.any_eq_true.2 ⟨bits, hbits, decide_eq_true hgt⟩

theorem bodyKeeps_hcanon : BodyKeeps bodyHcanon := by
  intro s h
  unfold bodyHcanon
  dsimp only
  split_ifs with hk
  · exact keepsInv_raise s _
  · split
    · exact keepsInv_ret ⟨{ h with }, rfl, rfl⟩
    · rename_i codes hcanon
      have hbytes : ∀ l ∈ readMany (fun i => (s.readCL i).toNat) s.k.toNat, l ≤ 255 := by
        intro l hl
        obtain ⟨i, -, rfl⟩ := List.mem_map.1 hl
        have := (s.readCL i).isLt
        omega
      obtain ⟨hcount, hok⟩ := canon_ok hcanon hbytes
      rw [length_readMany] at hcount
      exact keepsInv_ret ⟨{ h with
        mem := { h.mem with cc := wf_fill _ _ _ (hcount.trans_le (not_lt.1 hk)) h.mem.cc }
        codes := fun i => ⟨(h.codes i).1, getD_fill_of_forall hok (h.codes i).2⟩ }, rfl, rfl⟩

theorem bodyKeeps_htrie : BodyKeeps bodyHtrie := by
  intro s h
  unfold bodyHtrie
  dsimp only
  split_ifs with hk
  · exact keepsInv_raise s _
  · split
    · exact keepsInv_ret ⟨{ h with mem := { h.mem with }, trie := nofun }, rfl, rfl⟩
    · rename_i t ht
      obtain ⟨-, hkmax⟩ : s.valid.ccv = true ∧ s.k.toNat ≤ s.params.symMax := by simpa using hk
      have hbare : Trie.bare.symsBelow s.params.symMax := ⟨trivial, trivial⟩
      obtain ⟨l, r, rfl, hsyms⟩ := trieBuild_node (symMax_le h.legal) (by rwa [length_readMany, Nat.zero_add])
        hbare ht
      exact keepsInv_ret ⟨{ h with mem := { h.mem with }, trie := fun _ => ⟨l, r, rfl, hsyms⟩ }, rfl, rfl⟩

theorem bodyKeeps_hdecsym : BodyKeeps bodyHdecsym := by
  intro s h
  have hwalk := keeps_walk s.readTrie h
  unfold bodyHdecsym
  split_ifs
  · exact keepsInv_raise s _
  · exact keepsInv_raise s _
  · split <;> rename_i heq <;> rw [heq] at hwalk
    · exact keepsInv_ret ⟨{ hwalk.inv with }, hwalk.params, hwalk.status⟩
    · exact keepsInv_ret hwalk
    · exact keepsInv_ret hwalk

end Sys2Proof.Machine
end

section
namespace Sys2Proof.Machine

/-! The bodies of the bit stream commands and of the block codec keep the invariant. -/

/-- A cursor bound with an admitted capacity. -/
theorem cursorInv_bind {p : Params} {cap : ℕ} (hcap : capacityOk p cap = true) : CursorInv p (Cursor.bind cap) := by
  refine ⟨by rw [bind_pos]; exact Nat.zero_le _, ?_⟩
  rw [bind_cap, BitVec.toNat_ofNat]
  exact (Nat.mod_le _ _).trans (of_decide_eq_true hcap)

theorem cursorInv_rewind {p : Params} {c : Cursor} (h : CursorInv p c) : CursorInv p c.rewind :=
  ⟨by rw [rewind_pos]; exact Nat.zero_le _, h.2⟩

theorem bodyKeeps_bwinit (cap : ℕ) : BodyKeeps (bodyBwinit cap) := by
  intro s h
  unfold bodyBwinit
  split_ifs with hcap
  · exact keepsInv_ret ⟨{ h with writer := cursorInv_bind hcap }, rfl, rfl⟩
  · exact keepsInv_raise s _

theorem bodyKeeps_brinit (cap : ℕ) : BodyKeeps (bodyBrinit cap) := by
  intro s h
  unfold bodyBrinit
  split_ifs with hcap
  · exact keepsInv_ret ⟨{ h with reader := cursorInv_bind hcap }, rfl, rfl⟩
  · exact keepsInv_raise s _

theorem bodyKeeps_wbit (b : Bool) : BodyKeeps (bodyWbit b) := by
  intro s h
  unfold bodyWbit
  split_ifs
  · exact keepsInv_afterWrite _ h
  · exact keepsInv_raise s _

theorem bodyKeeps_wbits (cnt val : ℕ) : BodyKeeps (bodyWbits cnt val) := by
  intro s h
  unfold bodyWbits
  split_ifs
  · exact keepsInv_raise s _
  · exact keepsInv_afterWrite _ h
  · exact keepsInv_raise s _

theorem bodyKeeps_rbit : BodyKeeps bodyRbit := by
  intro s h
  unfold bodyRbit
  split_ifs
  · split
    · exact keepsInv_ret h.keeps
    · rename_i b t ht
      obtain ⟨hinv, hparams, hstatus⟩ := keeps_readBit h ht
      exact keepsInv_ret ⟨{ hinv with }, hparams, hstatus⟩
  · exact keepsInv_raise s _

theorem bodyKeeps_symmap : BodyKeeps bodySymmap := by
  intro s h
  unfold bodySymmap
  split_ifs
  · exact keepsInv_raise s _
  · have hroom := length_mapSymbols_le s.params.symMax (tab := []) false s.symbols (Nat.zero_le _)
    exact keepsInv_ret ⟨{ h with
      mem := { h.mem with
        st := wf_fill _ _ _ (by rwa [List.length_map]) h.mem.st
        fq := wf_fill _ _ _ (by rwa [List.length_map]) h.mem.fq } }, rfl, rfl⟩

theorem bodyKeeps_wrhdr : BodyKeeps bodyWrhdr := by
  intro s h
  unfold bodyWrhdr
  dsimp only
  split_ifs
  · exact keepsInv_raise s _
  · exact keepsInv_raise s _
  · exact keepsInv_afterWrite _ h

theorem bodyKeeps_wrpay : BodyKeeps bodyWrpay := by
  intro s h
  unfold bodyWrpay
  split_ifs
  · exact keepsInv_raise s _
  · exact keepsInv_raise s _
  · split
    · exact keepsInv_raise s _
    · exact keepsInv_afterWrite _ h

theorem bodyKeeps_rdhdr : BodyKeeps bodyRdhdr := by
  intro s h
  unfold bodyRdhdr
  split_ifs
  · exact keepsInv_raise s _
  · have hclear : Keeps s { s with valid := { s.valid with ccv := false, trv := false }, k := 0#16 } :=
      ⟨{ h with trie := nofun }, rfl, rfl⟩
    have hcount := hclear.trans (keeps_readField 16 0 hclear.inv)
    split
    · rename_i heq
      rw [heq] at hcount
      exact keepsInv_ret hcount
    · rename_i c t heq
      rw [heq] at hcount
      replace hcount : Keeps s t := hcount
      split_ifs with hc
      · exact keepsInv_ret hcount
      · have hentries := hcount.trans (keeps_readEntries c 0 hcount.inv (by rw [hcount.params]; omega))
        split <;> rename_i heq2 <;> rw [heq2] at hentries
        · exact keepsInv_ret ⟨{ hentries.inv with }, hentries.params, hentries.status⟩
        · exact keepsInv_ret hentries

theorem bodyKeeps_rdpay (n : ℕ) : BodyKeeps (bodyRdpay n) := by
  refine bodyKeeps_withBlock fun s h hn => ?_
  split_ifs
  · exact keepsInv_raise s _
  · exact keepsInv_raise s _
  · obtain ⟨⟨hinv, hparams, hstatus⟩, hlen⟩ := keeps_readSymbols (n * n) (n * n) 0 h
    have hroom := hlen.trans (square_le_lMax _ _ (hparams ▸ hn))
    exact keepsInv_ret ⟨{ hinv with mem := { hinv.mem with rs := wf_fill _ _ _ hroom hinv.mem.rs } }, hparams, hstatus⟩

theorem bodyKeeps_encblk (n : ℕ) : BodyKeeps (bodyEncblk n) := by
  refine bodyKeeps_withBlock fun s h _ => ?_
  split_ifs
  · exact keepsInv_raise s _
  have hrewind : Keeps s { s with w := s.w.rewind } := ⟨{ h with writer := cursorInv_rewind h.writer }, rfl, rfl⟩
  refine (bodyKeeps_zscan n).andThen hrewind fun _ s1 h1 => ?_
  refine (bodyKeeps_rlenc n).andThen h1 fun _ s2 h2 => ?_
  refine bodyKeeps_symmap.andThen h2 fun sat s3 h3 => ?_
  split_ifs
  · exact keepsInv_ret h3
  refine bodyKeeps_hbuild.andThen h3 fun e s4 h4 => ?_
  split_ifs
  · exact keepsInv_ret h4
  refine bodyKeeps_hcanon.andThen h4 fun _ s5 h5 => ?_
  refine bodyKeeps_wrhdr.andThen h5 fun e s6 h6 => ?_
  split_ifs
  · exact keepsInv_ret h6
  refine bodyKeeps_wrpay.andThen h6 fun e s7 h7 => ?_
  split_ifs
  · exact keepsInv_ret h7
  · exact keepsInv_ret h7

theorem bodyKeeps_decblk (n : ℕ) : BodyKeeps (bodyDecblk n) := by
  refine bodyKeeps_withBlock fun s h _ => ?_
  split_ifs
  · exact keepsInv_raise s _
  have hrewind : Keeps s { s with r := s.r.rewind } := ⟨{ h with reader := cursorInv_rewind h.reader }, rfl, rfl⟩
  refine bodyKeeps_rdhdr.andThen hrewind fun c s1 h1 => ?_
  split_ifs
  · exact keepsInv_ret h1
  refine bodyKeeps_hcanon.andThen h1 fun c s2 h2 => ?_
  split_ifs
  · exact keepsInv_ret h2
  refine bodyKeeps_htrie.andThen h2 fun _ s3 h3 => ?_
  refine (bodyKeeps_rdpay n).andThen h3 fun c1 s4 h4 => ?_
  refine (bodyKeeps_rldec n).andThen h4 fun c2 s5 h5 => ?_
  exact (bodyKeeps_zunscan n).andThen h5 fun _ s6 h6 => keepsInv_ret h6

end Sys2Proof.Machine
end

section
namespace Sys2Proof.Machine

/-! The host's write, element by element (10_state.md R45; 20_memory.md R61, R62). -/

theorem writeSlot_frame (s : State) (v : DWord) (i : ℕ) :
    s.writeSlot v i =
      { s with var := (s.writeSlot v i).var, k := (s.writeSlot v i).k, rsn := (s.writeSlot v i).rsn } := by
  unfold State.writeSlot
  split <;> rfl

/-- `s` with everything the host may write (R61) taken from `t`. -/
def hostWritesOf (s t : State) : State :=
  { s with
    var := t.var, k := t.k, rsn := t.rsn, reply := t.reply
    mem := { s.mem with
      xr := t.mem.xr, yr := t.mem.yr, ib := t.mem.ib, sq := t.mem.sq, rs := t.mem.rs, st := t.mem.st, fq := t.mem.fq
      cl := t.mem.cl, bs := t.mem.bs } }

theorem hostWrite_frame (space index : ℕ) (v : DWord) (s : State) :
    hostWrite space index v s = hostWritesOf s (hostWrite space index v s) := by
  unfold hostWrite
  split
  · rename_i sp _
    cases sp
    case reg => rw [State.writeElement, writeSlot_frame]; rfl
    all_goals rfl
  · rfl

theorem readSlot_writeSlot_of_ne (s : State) (v : DWord) {i j : ℕ} (h : j ≠ i) :
    (s.writeSlot v i).readSlot j = s.readSlot j := by
  unfold State.writeSlot
  split
  · unfold State.readSlot; split <;> trivial
  · unfold State.readSlot; split <;> trivial
  · unfold State.readSlot; split <;> trivial
  · rfl

/-- A write into one space leaves every other space alone. -/
theorem element_writeElement_of_space_ne (s : State) (v : DWord) {sp sp' : Space} (h : sp ≠ sp') (i j : ℕ) :
    (s.writeElement sp' i v).element sp j = s.element sp j := by
  cases sp'
  case reg =>
    rw [State.writeElement, writeSlot_frame]
    cases sp <;> trivial
  all_goals cases sp <;> trivial

/-- A write leaves the other elements of its space alone. -/
theorem element_writeElement_of_index_ne (s : State) (v : DWord) (sp : Space) {i j : ℕ} (h : j ≠ i) :
    (s.writeElement sp i v).element sp j = s.element sp j := by
  cases sp
  case reg => exact congrArg Reply.value (readSlot_writeSlot_of_ne s v h)
  all_goals simp [State.writeElement, State.element, State.readXR, State.readYR, State.readIB, State.readSQ, State.readRS,
    State.readST, State.readFQ, State.readCL, State.readBS, get_set, h]

theorem setWidth_narrow {w : ℕ} {v : DWord} (h : v.toNat < 2 ^ w) : (narrow w v).setWidth 64 = v := by
  rw [narrow, if_pos h]
  refine BitVec.eq_of_toNat_eq ?_
  rw [BitVec.toNat_setWidth, BitVec.toNat_setWidth, Nat.mod_eq_of_lt h, Nat.mod_eq_of_lt v.isLt]

theorem run_append_value_ofBits (raw : BitVec 48) : (RleSym.ofBits raw).run ++ (RleSym.ofBits raw).value = raw :=
  (BitVec.extractLsb'_append_extractLsb'_eq_extractLsb' (x := raw) (by rfl : 32 = 0 + 32)).trans BitVec.extractLsb'_eq_self

/-- The writable slots of `REG` are `VAR`, `K` and `RSN`. -/
theorem hostWidth_reg_eq_some {i width : ℕ} (h : hostWidth .reg i = some width) :
    i = 4 ∧ width = 64 ∨ i = 5 ∧ width = 16 ∨ i = 6 ∧ width = 16 := by
  unfold hostWidth at h
  split at h <;> simp_all

/-- A value that fits a writable element is read back. -/
theorem element_writeElement_same (s : State) {v : DWord} {sp : Space} {i width : ℕ} (hw : hostWidth sp i = some width)
    (hv : v.toNat < 2 ^ width) : (s.writeElement sp i v).element sp i = .value v := by
  cases sp
  case reg =>
    obtain ⟨rfl, rfl⟩ | ⟨rfl, rfl⟩ | ⟨rfl, rfl⟩ := hostWidth_reg_eq_some hw
    · rfl
    · exact congrArg Reply.value (setWidth_narrow hv)
    · exact congrArg Reply.value (setWidth_narrow hv)
  all_goals cases hw
  all_goals simp [State.writeElement, State.element, State.readXR, State.readYR, State.readIB, State.readSQ, State.readRS,
    State.readST, State.readFQ, State.readCL, State.readBS, get_set, run_append_value_ofBits, setWidth_narrow hv]

/-- A write to a read-only element does nothing. -/
theorem writeElement_of_readOnly (s : State) (v : DWord) {sp : Space} {i : ℕ} (h : hostWidth sp i = none) :
    s.writeElement sp i v = s := by
  cases sp
  case reg =>
    simp only [State.writeElement]
    unfold State.writeSlot
    split <;> trivial
  all_goals cases h <;> rfl

theorem spaceAt_eq_some_iff {p : Params} {space index : ℕ} {sp : Space} :
    spaceAt p space index = some sp ↔ Space.ofId space = some sp ∧ index < sp.length p := by
  simp [spaceAt, Option.filter_eq_some_iff]

theorem hostWrite_of_spaceAt {space index : ℕ} {v : DWord} {s : State} {sp : Space}
    (h : spaceAt s.params space index = some sp) :
    hostWrite space index v s = { s.writeElement sp index v with reply := .nothing } := by
  rw [hostWrite, h]

theorem hostWrite_of_spaceAt_none {space index : ℕ} {v : DWord} {s : State} (h : spaceAt s.params space index = none) :
    hostWrite space index v s = { s with reply := .nothing } := by
  rw [hostWrite, h]

theorem hostWrite_reply (space index : ℕ) (v : DWord) (s : State) : (hostWrite space index v s).reply = .nothing := by
  unfold hostWrite
  split <;> rfl

theorem element_hostWrite_of_ne {space index j : ℕ} {sp : Space} (h : Space.ofId space ≠ some sp ∨ j ≠ index) (v : DWord)
    (s : State) : (hostWrite space index v s).element sp j = s.element sp j := by
  cases hat : spaceAt s.params space index with
  | none => rw [hostWrite_of_spaceAt_none hat]; rfl
  | some sp' =>
    rw [hostWrite_of_spaceAt hat]
    by_cases hsp : sp = sp'
    · subst hsp
      exact element_writeElement_of_index_ne s v sp (h.resolve_left (not_not.2 (spaceAt_eq_some_iff.1 hat).1))
    · exact element_writeElement_of_space_ne s v hsp index j

theorem element_hostWrite_same {space index width : ℕ} {sp : Space} {v : DWord} {s : State}
    (hat : spaceAt s.params space index = some sp) (hw : hostWidth sp index = some width) (hv : v.toNat < 2 ^ width) :
    (hostWrite space index v s).element sp index = .value v := by
  rw [hostWrite_of_spaceAt hat]
  exact element_writeElement_same s hw hv

theorem hostWrite_of_readOnly {space index : ℕ} {s : State}
    (h : ∀ sp, spaceAt s.params space index = some sp → hostWidth sp index = none) (v : DWord) :
    hostWrite space index v s = { s with reply := .nothing } := by
  cases hat : spaceAt s.params space index with
  | none => exact hostWrite_of_spaceAt_none hat
  | some sp => rw [hostWrite_of_spaceAt hat, writeElement_of_readOnly s v (h sp hat)]

/-- Settles O57: a move that names an element writes that element, and one that names none writes nothing. -/
theorem hostWriteStoresOneElement : Obligations.HostWriteStoresOneElement := by
  intro s space index v rest hport
  have hstep : step s = .next (hostWrite space index v { s with port := rest }) := by
    rw [step, takeMove, hport]; rfl
  have hframe := hostWrite_frame space index v { s with port := rest }
  refine ⟨_, hstep, (congrArg State.port hframe :), hostWrite_reply _ _ _ _, fun sp idx hne => ?_,
    (congrArg (fun t => t.mem.trie) hframe :), (congrArg State.params hframe :), (congrArg State.epoch hframe :),
    (congrArg State.draws hframe :), fun sp width hid hidx hwidth hv => ?_, fun hnone => ?_⟩
  · exact element_hostWrite_of_ne hne v { s with port := rest }
  · exact element_hostWrite_same (s := { s with port := rest }) (spaceAt_eq_some_iff.2 ⟨hid, hidx⟩) hwidth hv
  · refine hostWrite_of_readOnly (s := { s with port := rest }) (fun sp hat => ?_) v
    obtain ⟨hid, hidx⟩ := spaceAt_eq_some_iff.1 hat
    exact hnone sp hid hidx

end Sys2Proof.Machine
end

section
namespace Sys2Proof.Machine

/-! Every command and every move of the host keeps the invariant and the parameters. -/

theorem BodyKeeps.command {body : State → Result} (hbody : BodyKeeps body) {op : Byte} {s t : State} (h : Invariants s)
    (ht : command op body s = .next t) : Invariants t ∧ t.params = s.params := by
  cases ht
  exact hbody.runCommand op h

theorem invariants_doReset {s : State} (h : Invariants s) : Invariants (doReset s) :=
  { (invariants_iff _).2 (inv_atReset s.params (s.epoch + 1) h.legal) with }

theorem invariants_exec {i : Instr} {s t : State} (h : Invariants s) (ht : exec i s = .next t) :
    Invariants t ∧ t.params = s.params := by
  cases i with
  | nop => exact bodyKeeps_nop.command h ht
  | sreset => cases ht; exact ⟨invariants_doReset h, rfl⟩
  | tinit n => exact (bodyKeeps_tinit n).command h ht
  | tfwd => exact bodyKeeps_tfwd.command h ht
  | tinv => exact bodyKeeps_tinv.command h ht
  | qinit n quality adaptive => exact (bodyKeeps_qinit n quality adaptive).command h ht
  | qvar n => exact (bodyKeeps_qvar n).command h ht
  | quant => exact bodyKeeps_quant.command h ht
  | dequant => exact bodyKeeps_dequant.command h ht
  | zscan n => exact (bodyKeeps_zscan n).command h ht
  | zunscan n => exact (bodyKeeps_zunscan n).command h ht
  | rlenc n => exact (bodyKeeps_rlenc n).command h ht
  | rldec n => exact (bodyKeeps_rldec n).command h ht
  | hbuild => exact bodyKeeps_hbuild.command h ht
  | hcanon => exact bodyKeeps_hcanon.command h ht
  | htrie => exact bodyKeeps_htrie.command h ht
  | hdecsym => exact bodyKeeps_hdecsym.command h ht
  | bwinit cap => exact (bodyKeeps_bwinit cap).command h ht
  | wbit b => exact (bodyKeeps_wbit b).command h ht
  | wbits cnt val => exact (bodyKeeps_wbits cnt val).command h ht
  | brinit cap => exact (bodyKeeps_brinit cap).command h ht
  | rbit => exact bodyKeeps_rbit.command h ht
  | symmap => exact bodyKeeps_symmap.command h ht
  | wrhdr => exact bodyKeeps_wrhdr.command h ht
  | wrpay => exact bodyKeeps_wrpay.command h ht
  | rdhdr => exact bodyKeeps_rdhdr.command h ht
  | rdpay n => exact (bodyKeeps_rdpay n).command h ht
  | encblk n => exact (bodyKeeps_encblk n).command h ht
  | decblk n => exact (bodyKeeps_decblk n).command h ht

theorem invariants_coreCommand {w : Word} {s t : State} (h : Invariants s) (ht : coreCommand w s = .next t) :
    Invariants t ∧ t.params = s.params := by
  unfold coreCommand at ht
  split_ifs at ht
  · exact invariants_exec h ht
  · cases ht; exact ⟨h, rfl⟩
  · split at ht
    · cases ht; exact ⟨{ h with halt := fun _ => ⟨.illegal, rfl⟩ }, rfl⟩
    · exact invariants_exec h ht

theorem invariants_hostWrite (space index : ℕ) (v : DWord) {s : State} (h : Invariants s) :
    Invariants (hostWrite space index v s) ∧ (hostWrite space index v s).params = s.params := by
  have hmem := (Memory.canonical_iff _ _).2 (wf_hostWrite space index v s ((Memory.canonical_iff _ _).1 h.mem))
  have hframe := hostWrite_frame space index v s
  refine ⟨?_, (congrArg State.params hframe :)⟩
  rw [hframe]
  exact { h with
    mem := { hmem with cb := h.mem.cb, ct := h.mem.ct, qm := h.mem.qm, dqm := h.mem.dqm, tc := h.mem.tc, cc := h.mem.cc } }

theorem invariants_hostRead (space index : ℕ) {s : State} (h : Invariants s) :
    Invariants (hostRead space index s) ∧ (hostRead space index s).params = s.params := by
  unfold hostRead
  split
  · exact ⟨{ h with }, rfl⟩
  · exact ⟨{ h with }, rfl⟩

theorem invariants_hostMove {m : HostMove} {s t : State} (h : Invariants s) (ht : hostMove m s = .next t) :
    Invariants t ∧ t.params = s.params := by
  cases m with
  | command w =>
    obtain ⟨u, hu⟩ := coreCommand_next w s
    obtain ⟨hinv, hparams⟩ := invariants_coreCommand h hu
    rw [hostMove, hu] at ht
    cases ht
    exact ⟨{ hinv with }, hparams⟩
  | write space index v => cases ht; exact invariants_hostWrite space index v h
  | read space index => cases ht; exact invariants_hostRead space index h
  | reset => cases ht; exact ⟨{ invariants_doReset h with }, rfl⟩

/-- Settles O59: a step is a move of the host or none; a move is a command, whose body keeps every part of the invariant, a
reset, or a host access. -/
theorem invariantKept : Obligations.InvariantKept := by
  intro s t hinv ht
  have h := (invariants_iff s).2 hinv
  rw [← invariants_iff]
  unfold step takeMove at ht
  split at ht
  · cases ht; exact ⟨h, rfl⟩
  · rename_i m rest _
    exact invariants_hostMove (s := { s with port := rest }) { h with } ht

end Sys2Proof.Machine
end

section
namespace Sys2Proof.Machine

/-! The host's read (20_memory.md R61, R62, R67). -/

/-- A read writes the model's answer and its counter of answers without an element, and nothing of the core. -/
theorem hostRead_frame (space index : ℕ) (s : State) :
    hostRead space index s =
      { s with reply := (hostRead space index s).reply, draws := (hostRead space index s).draws } := by
  unfold hostRead
  split <;> rfl

theorem hostRead_of_spaceAt {space index : ℕ} {s : State} {sp : Space} (h : spaceAt s.params space index = some sp) :
    hostRead space index s = { s with reply := s.element sp index } := by
  rw [hostRead, h]

/-- An element does not depend on the moves still waiting. -/
theorem element_with_port (s : State) (moves : List HostMove) (sp : Space) (i : ℕ) :
    { s with port := moves }.element sp i = s.element sp i := by
  cases sp <;> rfl

theorem toNat_append_eq_add {m n : ℕ} (x : BitVec m) (y : BitVec n) :
    (x ++ y).toNat = y.toNat + 2 ^ n * x.toNat := by
  rw [BitVec.toNat_append, ← Nat.shiftLeft_add_eq_or_of_lt y.isLt, Nat.shiftLeft_eq, Nat.add_comm, Nat.mul_comm]

/-- `QCFG` packed as R61 says: `N` from bit 0, `QUALITY` from bit 12, `ADAPT` at bit 20. -/
theorem toNat_qcfgWord (q : QCfg) :
    q.word.toNat = q.n.toNat + 2 ^ 12 * q.quality.toNat + 2 ^ 20 * q.adapt.toNat := by
  rw [QCfg.word, toNat_append_eq_add, toNat_append_eq_add, BitVec.toNat_ofBool]
  ring

theorem bcnt_lt (s : State) : s.bcnt < 2 ^ 64 := by
  have hbyte := s.w.byte.isLt
  unfold State.bcnt
  split <;> omega

theorem readSlot_of_ge (s : State) {i : ℕ} (h : 16 ≤ i) : s.readSlot i = 0#64 := by
  obtain ⟨j, rfl⟩ := Nat.exists_eq_add_of_le' h
  rfl

/-- Settles O56: a read is framed by its answer and its counter, and each register slot is its register zero-extended. -/
theorem hostReadAnswersTheElement : Obligations.HostReadAnswersTheElement := by
  refine ⟨fun s space index rest hport => ?_, fun s i => ?_⟩
  · have hstep : step s = .next (hostRead space index { s with port := rest }) := by
      rw [step, takeMove, hport]; rfl
    refine ⟨_, _, hstep.trans (congrArg _ (hostRead_frame space index _)), fun sp hid hidx => ?_⟩
    rw [hostRead_of_spaceAt (s := { s with port := rest }) (spaceAt_eq_some_iff.2 ⟨hid, hidx⟩)]
    exact ⟨element_with_port s rest sp index, rfl⟩
  · have zext {w : ℕ} (x : BitVec w) (hw : w ≤ 64) : (x.setWidth 64).toNat = x.toNat :=
      BitVec.toNat_setWidth_of_le hw
    exact ⟨rfl, zext _ (by decide), zext _ (by decide), zext _ (by decide),
      (zext _ (by decide)).trans (toNat_qcfgWord s.qcfg), rfl, zext _ (by decide), zext _ (by decide),
      (zext _ (by decide)).trans (BitVec.toNat_ofBool _), zext _ (by decide), zext _ (by decide), zext _ (by decide),
      zext _ (by decide), zext _ (by decide), zext _ (by decide), zext _ (by decide),
      Nat.mod_eq_of_lt (bcnt_lt s), readSlot_of_ge s⟩

end Sys2Proof.Machine
end

section
namespace Sys2Proof

open Machine

/-! The opcode map as a table of formats (30_encoding.md R81, R84): the decoder and the encoder, each read off one row. -/

/-- What the decoder reads from the operand bits of a word, by format. -/
def Operands.parse : Operands → Word → Except DecodeError Instr
  | .z i, word => formatZ word i
  | .n i, word => formatN word i
  | .q i, word => formatQ word i
  | .c i, word => formatC word i
  | .b i, word => formatB word i
  | .w i, word => formatW word i

/-- How many low bits a format leaves to operands; those between them and the opcode are zero (R81). -/
def Operands.freeBits : Operands → ℕ
  | .z _ => 0
  | .n _ => 12
  | .q _ => 21
  | .c _ => 24
  | .b _ => 1
  | .w _ => 21

/-- The 29 opcodes with their formats, in the order of `opcodeRows`. -/
def formatTable : List (Byte × Operands) :=
  [(0x00#8, .z .nop), (0x01#8, .z .sreset), (0x10#8, .n .tinit), (0x11#8, .z .tfwd), (0x12#8, .z .tinv),
   (0x20#8, .q .qinit), (0x21#8, .n .qvar), (0x22#8, .z .quant), (0x23#8, .z .dequant), (0x30#8, .n .zscan),
   (0x31#8, .n .zunscan), (0x40#8, .n .rlenc), (0x41#8, .n .rldec), (0x50#8, .z .hbuild), (0x51#8, .z .hcanon),
   (0x52#8, .z .htrie), (0x53#8, .z .hdecsym), (0x60#8, .c .bwinit), (0x61#8, .b .wbit), (0x62#8, .w .wbits),
   (0x63#8, .c .brinit), (0x64#8, .z .rbit), (0x70#8, .z .symmap), (0x71#8, .z .wrhdr), (0x72#8, .z .wrpay),
   (0x73#8, .z .rdhdr), (0x74#8, .n .rdpay), (0x78#8, .n .encblk), (0x79#8, .n .decblk)]

/-- The command is one of the row's. -/
def Operands.Has (i : Instr) : Operands → Prop
  | .z j => i = j
  | .n j => ∃ n, i = j n
  | .q j => ∃ n quality adaptive, i = j n quality adaptive
  | .c j => ∃ cap, i = j cap
  | .b j => ∃ b, i = j b
  | .w j => ∃ cnt val, i = j cnt val

/-- The commands of a row are encoded with its opcode and its operand fields, and a word can carry them when the operands
fit those fields. -/
def Operands.Encodes (op : Byte) : Operands → Prop
  | .z i => encode i = op ++ 0#24 ∧ i.wf = true
  | .n i => ∀ n, encode (i n) = op ++ (0#12 ++ BitVec.ofNat 12 n) ∧ (i n).wf = fitsN n
  | .q i => ∀ n quality adaptive,
      encode (i n quality adaptive) =
        op ++ (0#3 ++ BitVec.ofBool adaptive ++ BitVec.ofNat 8 quality ++ BitVec.ofNat 12 n) ∧
      (i n quality adaptive).wf = (fitsN n && fitsQuality quality)
  | .c i => ∀ cap, encode (i cap) = op ++ BitVec.ofNat 24 cap ∧ (i cap).wf = fitsCap cap
  | .b i => ∀ b, encode (i b) = op ++ (0#23 ++ BitVec.ofBool b) ∧ (i b).wf = true
  | .w i => ∀ cnt val, encode (i cnt val) = op ++ (0#3 ++ BitVec.ofNat 5 cnt ++ BitVec.ofNat 16 val) ∧
      (i cnt val).wf = (fitsCnt cnt && fitsVal val)

theorem encodes_of_mem_formatTable : ∀ row ∈ formatTable, row.2.Encodes row.1 := by
  simp only [formatTable, List.forall_mem_cons]
  exact ⟨⟨rfl, rfl⟩, ⟨rfl, rfl⟩, fun _ => ⟨rfl, rfl⟩, ⟨rfl, rfl⟩, ⟨rfl, rfl⟩, fun _ _ _ => ⟨rfl, rfl⟩,
    fun _ => ⟨rfl, rfl⟩, ⟨rfl, rfl⟩, ⟨rfl, rfl⟩, fun _ => ⟨rfl, rfl⟩, fun _ => ⟨rfl, rfl⟩, fun _ => ⟨rfl, rfl⟩,
    fun _ => ⟨rfl, rfl⟩, ⟨rfl, rfl⟩, ⟨rfl, rfl⟩, ⟨rfl, rfl⟩, ⟨rfl, rfl⟩, fun _ => ⟨rfl, rfl⟩, fun _ => ⟨rfl, rfl⟩,
    fun _ _ => ⟨rfl, rfl⟩, fun _ => ⟨rfl, rfl⟩, ⟨rfl, rfl⟩, ⟨rfl, rfl⟩, ⟨rfl, rfl⟩, ⟨rfl, rfl⟩, ⟨rfl, rfl⟩,
    fun _ => ⟨rfl, rfl⟩, fun _ => ⟨rfl, rfl⟩, fun _ => ⟨rfl, rfl⟩, nofun⟩

/-- Every command has its row. -/
theorem exists_row_of_instr : ∀ i : Instr, ∃ row ∈ formatTable, i.opcode = row.1 ∧ row.2.Has i
  | .nop => ⟨_, List.mem_of_getElem? (i := 0) rfl, rfl, rfl⟩
  | .sreset => ⟨_, List.mem_of_getElem? (i := 1) rfl, rfl, rfl⟩
  | .tinit n => ⟨_, List.mem_of_getElem? (i := 2) rfl, rfl, n, rfl⟩
  | .tfwd => ⟨_, List.mem_of_getElem? (i := 3) rfl, rfl, rfl⟩
  | .tinv => ⟨_, List.mem_of_getElem? (i := 4) rfl, rfl, rfl⟩
  | .qinit n quality adaptive => ⟨_, List.mem_of_getElem? (i := 5) rfl, rfl, n, quality, adaptive, rfl⟩
  | .qvar n => ⟨_, List.mem_of_getElem? (i := 6) rfl, rfl, n, rfl⟩
  | .quant => ⟨_, List.mem_of_getElem? (i := 7) rfl, rfl, rfl⟩
  | .dequant => ⟨_, List.mem_of_getElem? (i := 8) rfl, rfl, rfl⟩
  | .zscan n => ⟨_, List.mem_of_getElem? (i := 9) rfl, rfl, n, rfl⟩
  | .zunscan n => ⟨_, List.mem_of_getElem? (i := 10) rfl, rfl, n, rfl⟩
  | .rlenc n => ⟨_, List.mem_of_getElem? (i := 11) rfl, rfl, n, rfl⟩
  | .rldec n => ⟨_, List.mem_of_getElem? (i := 12) rfl, rfl, n, rfl⟩
  | .hbuild => ⟨_, List.mem_of_getElem? (i := 13) rfl, rfl, rfl⟩
  | .hcanon => ⟨_, List.mem_of_getElem? (i := 14) rfl, rfl, rfl⟩
  | .htrie => ⟨_, List.mem_of_getElem? (i := 15) rfl, rfl, rfl⟩
  | .hdecsym => ⟨_, List.mem_of_getElem? (i := 16) rfl, rfl, rfl⟩
  | .bwinit cap => ⟨_, List.mem_of_getElem? (i := 17) rfl, rfl, cap, rfl⟩
  | .wbit b => ⟨_, List.mem_of_getElem? (i := 18) rfl, rfl, b, rfl⟩
  | .wbits cnt val => ⟨_, List.mem_of_getElem? (i := 19) rfl, rfl, cnt, val, rfl⟩
  | .brinit cap => ⟨_, List.mem_of_getElem? (i := 20) rfl, rfl, cap, rfl⟩
  | .rbit => ⟨_, List.mem_of_getElem? (i := 21) rfl, rfl, rfl⟩
  | .symmap => ⟨_, List.mem_of_getElem? (i := 22) rfl, rfl, rfl⟩
  | .wrhdr => ⟨_, List.mem_of_getElem? (i := 23) rfl, rfl, rfl⟩
  | .wrpay => ⟨_, List.mem_of_getElem? (i := 24) rfl, rfl, rfl⟩
  | .rdhdr => ⟨_, List.mem_of_getElem? (i := 25) rfl, rfl, rfl⟩
  | .rdpay n => ⟨_, List.mem_of_getElem? (i := 26) rfl, rfl, n, rfl⟩
  | .encblk n => ⟨_, List.mem_of_getElem? (i := 27) rfl, rfl, n, rfl⟩
  | .decblk n => ⟨_, List.mem_of_getElem? (i := 28) rfl, rfl, n, rfl⟩

/-- The decoder reads a word of a row's opcode by the row's format. -/
theorem decode_eq_parse {w : Word} : ∀ row ∈ formatTable, opcodeOf w = row.1 → decode w = row.2.parse w := by
  intro row hrow hop
  unfold decode
  rw [hop]
  simp only [formatTable, List.mem_cons, List.not_mem_nil, or_false] at hrow
  rcases hrow with rfl | rfl | rfl | rfl | rfl | rfl | rfl | rfl | rfl | rfl | rfl | rfl | rfl | rfl | rfl | rfl | rfl |
    rfl | rfl | rfl | rfl | rfl | rfl | rfl | rfl | rfl | rfl | rfl | rfl <;> rfl

/-- A word that decodes has a row's opcode. -/
theorem exists_row_of_decode {w : Word} {i : Instr} (h : decode w = .ok i) : ∃ row ∈ formatTable, row.1 = opcodeOf w := by
  refine List.mem_map.1 ?_
  have hop {c : ℕ} (hc : (opcodeOf w).toNat = c) (hmem : BitVec.ofNat 8 c ∈ formatTable.map Prod.fst) :
      opcodeOf w ∈ formatTable.map Prod.fst := by
    rwa [← hc, BitVec.ofNat_toNat, BitVec.setWidth_eq] at hmem
  unfold decode at h
  split at h
  case h_30 => cases h
  all_goals exact hop ‹_› (by decide)

/-- Bits 31:24 of a command's word are its opcode (R80). -/
theorem opcodeOf_encode (i : Instr) : opcodeOf (encode i) = i.opcode := (Laws.OpcodeByte.of_append _ _).1

/-! The formats on the number a word is. -/

theorem extractLsb'_eq_iff {width : ℕ} (x : BitVec width) (start len : ℕ) (v : BitVec len) :
    x.extractLsb' start len = v ↔ x.toNat / 2 ^ start % 2 ^ len = v.toNat := by
  rw [BitVec.toNat_eq, BitVec.extractLsb'_toNat, Nat.shiftRight_eq_div_pow]

theorem opcodeOf_eq_iff (w : Word) (op : Byte) : opcodeOf w = op ↔ w.toNat / 2 ^ 24 = op.toNat := by
  have := w.isLt
  rw [opcodeOf, extractLsb'_eq_iff, Nat.mod_eq_of_lt (by omega)]

theorem toNat_append_operands (op : Byte) (bits : BitVec 24) :
    (op ++ bits : Word).toNat = bits.toNat + 2 ^ 24 * op.toNat := toNat_append_eq_add _ _


theorem ite_ok_error_eq_ok_iff {c : Prop} [Decidable c] {e : DecodeError} {i j : Instr} :
    (if c then Except.ok j else Except.error e) = Except.ok i ↔ c ∧ i = j := by
  split_ifs with h <;> simp [h, eq_comm]

theorem formatZ_eq_ok_iff (w : Word) (f i : Instr) : formatZ w f = .ok i ↔ w.toNat % 2 ^ 24 = 0 ∧ i = f := by
  rw [formatZ, ite_ok_error_eq_ok_iff, extractLsb'_eq_iff]
  refine and_congr_left' ?_
  simp only [BitVec.toNat_ofNat]
  omega

theorem formatN_eq_ok_iff (w : Word) (f : ℕ → Instr) (i : Instr) :
    formatN w f = .ok i ↔ w.toNat % 2 ^ 24 < 2 ^ 12 ∧ i = f (w.toNat % 2 ^ 12) := by
  rw [formatN, ite_ok_error_eq_ok_iff, extractLsb'_eq_iff, BitVec.extractLsb'_toNat, Nat.shiftRight_zero]
  refine and_congr_left' ?_
  simp only [BitVec.toNat_ofNat]
  omega

theorem formatQ_eq_ok_iff (w : Word) (f : ℕ → ℕ → Bool → Instr) (i : Instr) :
    formatQ w f = .ok i ↔
      w.toNat % 2 ^ 24 < 2 ^ 21 ∧ i = f (w.toNat % 2 ^ 12) (w.toNat / 2 ^ 12 % 2 ^ 8) (w.toNat.testBit 20) := by
  rw [formatQ, ite_ok_error_eq_ok_iff, extractLsb'_eq_iff, BitVec.extractLsb'_toNat, BitVec.extractLsb'_toNat,
    Nat.shiftRight_zero, Nat.shiftRight_eq_div_pow, BitVec.getLsbD]
  refine and_congr_left' ?_
  simp only [BitVec.toNat_ofNat]
  omega

theorem formatW_eq_ok_iff (w : Word) (f : ℕ → ℕ → Instr) (i : Instr) :
    formatW w f = .ok i ↔ w.toNat % 2 ^ 24 < 2 ^ 21 ∧ i = f (w.toNat / 2 ^ 16 % 2 ^ 5) (w.toNat % 2 ^ 16) := by
  rw [formatW, ite_ok_error_eq_ok_iff, extractLsb'_eq_iff, BitVec.extractLsb'_toNat, BitVec.extractLsb'_toNat,
    Nat.shiftRight_zero, Nat.shiftRight_eq_div_pow]
  refine and_congr_left' ?_
  simp only [BitVec.toNat_ofNat]
  omega

theorem formatB_eq_ok_iff (w : Word) (f : Bool → Instr) (i : Instr) :
    formatB w f = .ok i ↔ w.toNat % 2 ^ 24 < 2 ^ 1 ∧ i = f (w.toNat.testBit 0) := by
  rw [formatB, ite_ok_error_eq_ok_iff, extractLsb'_eq_iff, BitVec.getLsbD]
  refine and_congr_left' ?_
  simp only [BitVec.toNat_ofNat]
  omega

theorem formatC_eq_ok_iff (w : Word) (f : ℕ → Instr) (i : Instr) :
    formatC w f = .ok i ↔ i = f (w.toNat % 2 ^ 24) := by
  rw [formatC, Except.ok.injEq, BitVec.extractLsb'_toNat, Nat.shiftRight_zero, eq_comm]

/-- A format accepts the words whose zero bits are zero. -/
theorem exists_parse_iff (f : Operands) (w : Word) : (∃ i, f.parse w = .ok i) ↔ w.toNat % 2 ^ 24 < 2 ^ f.freeBits := by
  cases f <;> simp [Operands.parse, Operands.freeBits, formatZ_eq_ok_iff, formatN_eq_ok_iff, formatQ_eq_ok_iff,
    formatC_eq_ok_iff, formatB_eq_ok_iff, formatW_eq_ok_iff]
  exact Nat.mod_lt _ (by decide)

/-- A word of a known opcode is told by its operand bits. -/
theorem append_operands_eq_iff {op : Byte} {w : Word} (hw : opcodeOf w = op) (bits : BitVec 24) :
    op ++ bits = w ↔ w.toNat % 2 ^ 24 = bits.toNat := by
  have := bits.isLt
  rw [opcodeOf_eq_iff] at hw
  rw [BitVec.toNat_eq, toNat_append_operands]
  omega

/-! What a format reads off a word of the row's opcode is the one command of the row whose word it is, format by format. -/

section
variable {op : Byte} {w : Word} {i : Instr} (hw : opcodeOf w = op)
include hw

theorem parse_z_iff {j : Instr} (hj : (Operands.z j).Encodes op) :
    formatZ w j = .ok i ↔ (Operands.z j).Has i ∧ i.wf = true ∧ encode i = w := by
  obtain ⟨henc, hwf⟩ := hj
  have hword : encode j = w ↔ w.toNat % 2 ^ 24 = 0 := henc ▸ append_operands_eq_iff hw 0#24
  rw [formatZ_eq_ok_iff, ← hword]
  constructor
  · rintro ⟨h, rfl⟩
    exact ⟨rfl, hwf, h⟩
  · rintro ⟨rfl, -, h⟩
    exact ⟨h, rfl⟩

theorem parse_n_iff {j : ℕ → Instr} (hj : (Operands.n j).Encodes op) :
    formatN w j = .ok i ↔ (Operands.n j).Has i ∧ i.wf = true ∧ encode i = w := by
  have hwf (n : ℕ) : (j n).wf = true ↔ n < 2 ^ 12 := by rw [(hj n).2, fitsN, decide_eq_true_iff]
  have hword (n : ℕ) : encode (j n) = w ↔ w.toNat % 2 ^ 24 = n % 2 ^ 12 := by
    rw [(hj n).1, append_operands_eq_iff hw, toNat_append_eq_add, BitVec.toNat_ofNat, BitVec.toNat_ofNat]
    omega
  rw [formatN_eq_ok_iff]
  constructor
  · rintro ⟨hfree, rfl⟩
    exact ⟨⟨_, rfl⟩, (hwf _).2 (by omega), (hword _).2 (by omega)⟩
  · rintro ⟨⟨n, rfl⟩, hfits, henc⟩
    rw [hwf] at hfits
    rw [hword] at henc
    exact ⟨by omega, congrArg j (by omega)⟩

theorem parse_c_iff {j : ℕ → Instr} (hj : (Operands.c j).Encodes op) :
    formatC w j = .ok i ↔ (Operands.c j).Has i ∧ i.wf = true ∧ encode i = w := by
  have hwf (cap : ℕ) : (j cap).wf = true ↔ cap < 2 ^ 24 := by rw [(hj cap).2, fitsCap, decide_eq_true_iff]
  have hword (cap : ℕ) : encode (j cap) = w ↔ w.toNat % 2 ^ 24 = cap % 2 ^ 24 := by
    rw [(hj cap).1, append_operands_eq_iff hw, BitVec.toNat_ofNat]
  rw [formatC_eq_ok_iff]
  constructor
  · rintro rfl
    exact ⟨⟨_, rfl⟩, (hwf _).2 (by omega), (hword _).2 (by omega)⟩
  · rintro ⟨⟨cap, rfl⟩, hfits, henc⟩
    rw [hwf] at hfits
    rw [hword] at henc
    exact congrArg j (by omega)

theorem parse_b_iff {j : Bool → Instr} (hj : (Operands.b j).Encodes op) :
    formatB w j = .ok i ↔ (Operands.b j).Has i ∧ i.wf = true ∧ encode i = w := by
  have hword (b : Bool) : encode (j b) = w ↔ w.toNat % 2 ^ 24 = b.toNat := by
    rw [(hj b).1, append_operands_eq_iff hw, toNat_append_eq_add, BitVec.toNat_ofNat, BitVec.toNat_ofBool]
    omega
  have hbit := Nat.toNat_testBit w.toNat 0
  rw [formatB_eq_ok_iff]
  constructor
  · rintro ⟨hfree, rfl⟩
    exact ⟨⟨_, rfl⟩, (hj _).2, (hword _).2 (by omega)⟩
  · rintro ⟨⟨b, rfl⟩, -, henc⟩
    rw [hword] at henc
    have hb := b.toNat_le
    exact ⟨by omega, congrArg j ((Function.LeftInverse.injective Bool.ofNat_toNat) (by omega))⟩

theorem parse_w_iff {j : ℕ → ℕ → Instr} (hj : (Operands.w j).Encodes op) :
    formatW w j = .ok i ↔ (Operands.w j).Has i ∧ i.wf = true ∧ encode i = w := by
  have hwf (cnt val : ℕ) : (j cnt val).wf = true ↔ cnt < 2 ^ 5 ∧ val < 2 ^ 16 := by
    rw [(hj cnt val).2, Bool.and_eq_true, fitsCnt, fitsVal, decide_eq_true_iff, decide_eq_true_iff]
  have hword (cnt val : ℕ) : encode (j cnt val) = w ↔ w.toNat % 2 ^ 24 = val % 2 ^ 16 + 2 ^ 16 * (cnt % 2 ^ 5) := by
    rw [(hj cnt val).1, append_operands_eq_iff hw]
    simp only [toNat_append_eq_add, BitVec.toNat_ofNat]
    omega
  rw [formatW_eq_ok_iff]
  constructor
  · rintro ⟨hfree, rfl⟩
    exact ⟨⟨_, _, rfl⟩, (hwf _ _).2 (by omega), (hword _ _).2 (by omega)⟩
  · rintro ⟨⟨cnt, val, rfl⟩, hfits, henc⟩
    rw [hwf] at hfits
    rw [hword] at henc
    exact ⟨by omega, congrArg₂ j (by omega) (by omega)⟩

theorem parse_q_iff {j : ℕ → ℕ → Bool → Instr} (hj : (Operands.q j).Encodes op) :
    formatQ w j = .ok i ↔ (Operands.q j).Has i ∧ i.wf = true ∧ encode i = w := by
  have hwf (n quality : ℕ) (a : Bool) : (j n quality a).wf = true ↔ n < 2 ^ 12 ∧ quality < 2 ^ 8 := by
    rw [(hj n quality a).2, Bool.and_eq_true, fitsN, fitsQuality, decide_eq_true_iff, decide_eq_true_iff]
  have hword (n quality : ℕ) (a : Bool) : encode (j n quality a) = w ↔
      w.toNat % 2 ^ 24 = n % 2 ^ 12 + 2 ^ 12 * (quality % 2 ^ 8) + 2 ^ 20 * a.toNat := by
    rw [(hj n quality a).1, append_operands_eq_iff hw]
    simp only [toNat_append_eq_add, BitVec.toNat_ofNat, BitVec.toNat_ofBool]
    omega
  have hbit := Nat.toNat_testBit w.toNat 20
  rw [formatQ_eq_ok_iff]
  constructor
  · rintro ⟨hfree, rfl⟩
    exact ⟨⟨_, _, _, rfl⟩, (hwf _ _ _).2 (by omega), (hword _ _ _).2 (by omega)⟩
  · rintro ⟨⟨n, quality, a, rfl⟩, hfits, henc⟩
    rw [hwf] at hfits
    rw [hword] at henc
    have ha := a.toNat_le
    have hadaptive : w.toNat.testBit 20 = a := (Function.LeftInverse.injective Bool.ofNat_toNat) (by omega)
    exact ⟨by omega, hadaptive ▸ congrArg₂ (j · · _) (by omega) (by omega)⟩

theorem parse_eq_ok_iff {f : Operands} (hf : f.Encodes op) :
    f.parse w = .ok i ↔ f.Has i ∧ i.wf = true ∧ encode i = w := by
  cases f with
  | z j => exact parse_z_iff hw hf
  | n j => exact parse_n_iff hw hf
  | q j => exact parse_q_iff hw hf
  | c j => exact parse_c_iff hw hf
  | b j => exact parse_b_iff hw hf
  | w j => exact parse_w_iff hw hf

end

/-- Settles O1: a command's word is read by the format of the command's row. -/
theorem decodeEncodeRoundTrip : Obligations.DecodeEncodeRoundTrip := by
  intro i hwf
  obtain ⟨row, hrow, hop, hhas⟩ := exists_row_of_instr i
  have hword := (opcodeOf_encode i).trans hop
  rw [decode_eq_parse row hrow hword]
  exact (parse_eq_ok_iff hword (encodes_of_mem_formatTable row hrow)).2 ⟨hhas, hwf, rfl⟩

/-- Settles O2: a word that decodes has a row, and the row's format reads only commands whose word it is. -/
theorem encodeDecodeRoundTrip : Obligations.EncodeDecodeRoundTrip := by
  intro w i h
  obtain ⟨row, hrow, hop⟩ := exists_row_of_decode h
  rw [decode_eq_parse row hrow hop.symm] at h
  obtain ⟨-, hwf, henc⟩ := (parse_eq_ok_iff hop.symm (encodes_of_mem_formatTable row hrow)).1 h
  exact ⟨hwf, henc, henc ▸ opcodeOf_encode i⟩

/-! The rows as mask and match. -/

/-- The mask of a format: all bits but those of its operands. -/
def Operands.mask (f : Operands) : Word := BitVec.allOnes 32 <<< f.freeBits

theorem opcodeRows_eq_map : opcodeRows = formatTable.map fun row => (row.2.mask, row.1 ++ 0#24) := rfl

/-- A word matches a row when it has the row's opcode and its zero bits are zero. -/
theorem and_mask_eq_iff (f : Operands) (op : Byte) (w : Word) :
    w &&& f.mask = op ++ 0#24 ↔ opcodeOf w = op ∧ w.toNat % 2 ^ 24 < 2 ^ f.freeBits := by
  have hclear (k : ℕ) : w &&& (BitVec.allOnes 32 <<< k) = (w >>> k) <<< k := by
    ext j hj
    simp only [BitVec.getElem_and, BitVec.getElem_shiftLeft, BitVec.getElem_allOnes,
      BitVec.getElem_ushiftRight]
    by_cases h : j < k
    · simp [h]
    · simp [h, Nat.add_sub_cancel' (not_lt.1 h), BitVec.getLsbD_eq_getElem hj]
  rw [opcodeOf_eq_iff, Operands.mask, hclear, BitVec.toNat_eq, toNat_append_operands, BitVec.toNat_shiftLeft,
    BitVec.toNat_ushiftRight, Nat.shiftLeft_eq, Nat.shiftRight_eq_div_pow]
  have := w.isLt
  have := op.isLt
  cases f <;> simp only [Operands.freeBits, BitVec.toNat_ofNat] <;> omega

/-- Settles O3: each row of mask and match is a row of formats, no two with one opcode, and a format accepts the words that
match. -/
theorem legalWordsAreTheTableRows : Obligations.LegalWordsAreTheTableRows := by
  have hopcodes : (formatTable.map Prod.fst).Nodup := by decide
  refine ⟨rfl, ?_, fun w => ?_⟩
  · rw [opcodeRows_eq_map, List.pairwise_map]
    refine (List.pairwise_map.1 hopcodes).imp fun hne w h => ?_
    rw [and_mask_eq_iff, and_mask_eq_iff] at h
    exact hne (h.1.1.symm.trans h.2.1)
  · have hmatch : (∃ row ∈ opcodeRows, w &&& row.1 = row.2) ↔
        ∃ row ∈ formatTable, opcodeOf w = row.1 ∧ ∃ i, row.2.parse w = .ok i := by
      simp only [opcodeRows_eq_map, List.mem_map, exists_exists_and_eq_and, and_mask_eq_iff, exists_parse_iff]
    rw [hmatch]
    constructor
    · rintro ⟨i, hi⟩
      obtain ⟨row, hrow, hop⟩ := exists_row_of_decode hi
      exact ⟨row, hrow, hop.symm, i, decode_eq_parse row hrow hop.symm ▸ hi⟩
    · rintro ⟨row, hrow, hop, i, hi⟩
      exact ⟨i, (decode_eq_parse row hrow hop).trans hi⟩

/-- Settles O4: each word is that of its command. -/
theorem sampleWordsDecode : Obligations.SampleWordsDecode := by
  have h (i : Instr) (hwf : i.wf = true) := decodeEncodeRoundTrip i hwf
  exact ⟨h .nop rfl, h .sreset rfl, h (.tinit 8) rfl, h .tfwd rfl, h (.qinit 8 50 true) rfl, h (.qinit 8 50 false) rfl,
    h (.zscan 4) rfl, h (.rldec 4) rfl, h .hbuild rfl, h (.bwinit 64) rfl, h (.wbit true) rfl, h (.wbits 8 0xAA) rfl,
    h (.decblk 16) rfl⟩

/-- Settles O6: fault entry from the state whose `STATUS.OP` is the word's opcode byte. -/
theorem illegalWordFaults : Obligations.IllegalWordFaults := by
  intro s w e hrun hdec
  simp only [coreCommand, hrun, hdec]
  rfl

end Sys2Proof
end

section
namespace Sys2Proof.Machine

/-! Pseudo-commands as sequences of the host (30_encoding.md R89; 60_exceptions.md R250). -/

theorem blockSizeOk_iff_admitted (p : Params) (n : ℕ) : blockSizeOk p n = true ↔ Admitted p n := blockSizeOk_iff p n

/-- A running core runs the command whose word it is handed. -/
theorem coreCommand_encode {i : Instr} {s : State} (hwf : i.wf = true) (hrun : s.status.halt = false) :
    coreCommand (encode i) s = exec i s := by
  simp only [coreCommand, hrun, decodeEncodeRoundTrip i hwf]
  rfl

/-- The host goes on after a command of class OK or D, and stops after the others. -/
theorem hostSequence_cons {i : Instr} {s t : State} (hwf : i.wf = true) (hrun : s.status.halt = false)
    (h : exec i s = .next t) (rest : List Instr) :
    hostSequence (i :: rest) s = if hostContinues t.status.code then hostSequence rest t else t := by
  rw [hostSequence, coreCommand_encode hwf hrun, h]

/-- A command outside its block sizes takes the fault of its range check (R243). -/
theorem runCommand_withBlock_fault (op : Byte) {n : ℕ} (body : State → Result) {s : State} (hrun : s.status.halt = false)
    (hn : ¬ Admitted s.params n) : runCommand op (withBlock n body) s = faulted op .blocksize s := by
  have hfault := withBlock_fault n body (recordOp op s) (Bool.eq_false_iff.2 fun h => hn ((blockSizeOk_iff _ _).1 h))
  exact runCommand_raise op _ s .blocksize hrun hfault

theorem exec_tinit_of_admitted {n : ℕ} {s : State} (hrun : s.status.halt = false) (hn : Admitted s.params n) :
    ∃ t, exec (.tinit n) s = .next t ∧ t.status = retStatus 0x10#8 .ok ∧ t.params = s.params ∧
      t.valid = { s.valid with tcv := true } := by
  have hret : bodyTinit n (recordOp 0x10#8 s) = _ := withBlock_ok n _ _ ((blockSizeOk_iff_admitted _ _).2 hn)
  refine ⟨_, congrArg Host.Outcome.next (runCommand_ret 0x10#8 (bodyTinit n) s _ .ok hrun hret), ?_, rfl, rfl⟩
  simp [retStatus, hrun]

theorem exec_qinit_of_admitted {n quality : ℕ} (adaptive : Bool) {s : State} (hrun : s.status.halt = false)
    (hn : Admitted s.params n) (hquality : qualityOk quality = true) :
    ∃ t, exec (.qinit n quality adaptive) s = .next t ∧ t.valid = { s.valid with qcv := true } := by
  have hret : bodyQinit n quality adaptive (recordOp 0x20#8 s) = _ :=
    withBlock_ok n _ _ ((blockSizeOk_iff_admitted _ _).2 hn)
  exact ⟨_, congrArg Host.Outcome.next (runCommand_ret 0x20#8 (bodyQinit n quality adaptive) s _ .ok hrun
    (hret.trans (if_pos hquality))), rfl⟩

/-- Settles O58: `TINIT` completes and the host goes on with `QINIT`; or it faults and the host stops. -/
theorem pseudoInitBuildsBothContexts : Obligations.PseudoInitBuildsBothContexts := by
  rintro n quality a s ⟨-, hrun⟩ hn hquality
  have hfitsN : fitsN n = true := decide_eq_true hn
  have hwf : (Instr.qinit n quality a).wf = true := Bool.and_eq_true_iff.2 ⟨hfitsN, decide_eq_true hquality⟩
  have hinit {t : State} (ht : exec (.tinit n) s = .next t) :=
    hostSequence_cons (i := .tinit n) hfitsN hrun ht [.qinit n quality a]
  refine ⟨fun hadm h1 h100 => ?_, fun hadm => ?_⟩
  · obtain ⟨t, ht, hstatus, hparams, hvalid⟩ := exec_tinit_of_admitted hrun hadm
    have hrunt : t.status.halt = false := by rw [hstatus]; rfl
    obtain ⟨u, hu, huvalid⟩ := exec_qinit_of_admitted a hrunt (hparams ▸ hadm) ((qualityOk_iff quality).2 ⟨h1, h100⟩)
    have hpseudo : runPseudo (.init n quality a) s = u := by
      calc runPseudo (.init n quality a) s = hostSequence [.qinit n quality a] t := by
            rw [runPseudo, Pseudo.expand, hinit ht, hstatus]; rfl
        _ = u := by rw [hostSequence_cons hwf hrunt hu, hostSequence, ite_self]
    rw [hpseudo, huvalid, hvalid]
    exact ⟨by simp only [runInstrs, ht, hu], rfl, rfl⟩
  · rw [runPseudo, Pseudo.expand, hinit (congrArg Host.Outcome.next (runCommand_withBlock_fault 0x10#8 _ hrun hadm))]
    rfl

end Sys2Proof.Machine
end

section
namespace Sys2Proof.Machine

/-! The "writes" column of 30_encoding.md R85 as a relation, and what it means that a command's body stays within it. -/

/-- `t` differs from `s` only in what the column names for the command. -/
def Writes (i : Instr) (s t : State) : Prop := t = writesOf i s t

theorem Writes.refl (i : Instr) (s : State) : Writes i s s := by cases i <;> rfl

theorem writesOf_writesOf (i : Instr) (s t u : State) : writesOf i (writesOf i s t) u = writesOf i s u := by
  cases i <;> rfl

theorem Writes.trans {i : Instr} {s t u : State} (hst : Writes i s t) (htu : Writes i t u) : Writes i s u := by
  calc u = writesOf i t u := htu
    _ = writesOf i (writesOf i s t) u := by rw [← hst]
    _ = writesOf i s u := writesOf_writesOf i s t u

/-- The column of `j` names all that the column of `i` names. -/
def Covers (j i : Instr) : Prop := ∀ s t, writesOf i s t = writesOf j s (writesOf i s t)

theorem Writes.mono {i j : Instr} (hcover : Covers j i) {s t : State} (h : Writes i s t) : Writes j s t := by
  have := hcover s t
  rwa [← h] at this

/-- A result that returns stays within the column; the writes of one that faults are discarded. -/
def Result.Writes (i : Instr) (s : State) : Result → Prop
  | .ret _ t => Machine.Writes i s t
  | .raise _ => True

theorem writes_ret {i : Instr} {s t : State} (c : RetCode) (h : Writes i s t) : (Result.ret c t).Writes i s := h

theorem writes_raise (i : Instr) (s : State) (f : CoreFault) : (Result.raise f).Writes i s := trivial

/-- A body that stays within the column. -/
def BodyWrites (i : Instr) (body : State → Result) : Prop := ∀ s, (body s).Writes i s

theorem bodyWrites_withBlock {i : Instr} {n : ℕ} {body : State → Result} (h : BodyWrites i body) :
    BodyWrites i (withBlock n body) := by
  intro s
  unfold withBlock
  split_ifs
  · exact h s
  · exact writes_raise i s _

/-- A step of a composite command, and then the rest. -/
theorem BodyWrites.andThen {i j : Instr} {body : State → Result} (hbody : BodyWrites i body) (hcover : Covers j i)
    {s t : State} (ht : Writes j s t) {k : RetCode → State → Result} (hk : ∀ c u, Writes j s u → (k c u).Writes j s) :
    ((body t).andThen k).Writes j s := by
  have hres := hbody t
  cases hb : body t with
  | ret c u =>
    rw [hb] at hres
    exact hk c u (ht.trans (Writes.mono hcover hres))
  | raise f => exact writes_raise j s f

/-- Posting and fault entry change `STATUS` only, which every column names. -/
theorem BodyWrites.runCommand {i : Instr} {body : State → Result} (hbody : BodyWrites i body) (op : Byte) (s : State) :
    Writes i s (runCommand op body s) := by
  have hop : Writes i s (recordOp op s) := by cases i <;> rfl
  obtain ⟨-, heq⟩ | ⟨-, c, t, hb, heq⟩ | ⟨-, f, -, heq⟩ := runCommand_cases op body s
  · rw [heq]; exact Writes.refl i s
  · have hres := hbody (recordOp op s)
    rw [hb] at hres
    have hpost : Writes i t (postReturn c t) := by cases i <;> rfl
    rw [heq]; exact (hop.trans hres).trans hpost
  · have hfault : Writes i (recordOp op s) (takeFault f (recordOp op s)) := by cases i <;> rfl
    rw [heq]; exact hop.trans hfault

/-! The bit writer, the bit reader and what is built on them. -/

theorem writes_of_writer {s : State} {c : Cursor} (hcap : c.cap = s.w.cap) (bs : List Host.Cell) :
    Writes .wrhdr s { s with mem := { s.mem with bs := bs }, w := c } := by
  rw [Writes, writesOf, ← hcap]

theorem writes_writeBits (bits : List Bool) (s : State) : Writes .wrhdr s (writeBits s bits).1 := by
  obtain ⟨hframe, hcap, -, -⟩ := writeBits_frame bits s
  rw [hframe]
  exact writes_of_writer hcap _

theorem writes_afterWrite (bits : List Bool) (s : State) : (afterWrite (writeBits s bits)).Writes .wrhdr s :=
  writes_writeBits bits s

/-- The column names the reader's position. -/
def NamesReader (i : Instr) : Prop :=
  ∀ (s : State) (c : Cursor), writesOf i s { s with r := c } = { s with r := { c with cap := s.r.cap } }

theorem NamesReader.writes {i : Instr} (hi : NamesReader i) {s t : State} (hframe : t = { s with r := t.r })
    (hcap : t.r.cap = s.r.cap) : Writes i s t := by
  rw [hframe, Writes, hi, ← hcap]

theorem NamesReader.writes_readBit {i : Instr} (hi : NamesReader i) {s t : State} {b : Bool}
    (hr : readBit s = some (b, t)) : Writes i s t := by
  obtain ⟨-, hnone⟩ | ⟨-, c, u, hu, -, -, hcap, hframe⟩ := readBit_cases s
  · rw [hnone] at hr; cases hr
  · obtain ⟨-, rfl⟩ : c = b ∧ u = t := by simpa using hu.symm.trans hr
    exact hi.writes hframe hcap

theorem NamesReader.writes_readField {i : Instr} (hi : NamesReader i) (width v : ℕ) (s : State) :
    Writes i s (readField width v s).2 := by
  obtain ⟨hframe, hcap, -, -⟩ := readField_frame width v s
  exact hi.writes hframe hcap

theorem NamesReader.writes_walk {i : Instr} (hi : NamesReader i) (trie : Trie) (s : State) :
    Writes i s (walk trie s).2 := hi.writes (walk_frame trie s).1 (walk_frame trie s).2

theorem namesReader_rbit : NamesReader .rbit := fun _ _ => rfl
theorem namesReader_hdecsym : NamesReader .hdecsym := fun _ _ => rfl
theorem namesReader_rdhdr : NamesReader .rdhdr := fun _ _ => rfl
theorem namesReader_rdpay (n : ℕ) : NamesReader (.rdpay n) := fun _ _ => rfl

theorem writes_storeEntry (s : State) (i : ℕ) (key : Word) (len : Byte) :
    Writes .rdhdr s { s with mem := { s.mem with st := s.mem.st.set i key, cl := s.mem.cl.set i len } } := rfl

theorem writes_readEntries (left i : ℕ) (s : State) : Writes .rdhdr s (readEntries left i s).2 := by
  induction left generalizing i s with
  | zero => exact Writes.refl _ s
  | succ left ih =>
    have hkey := namesReader_rdhdr.writes_readField 32 0 s
    have hlen := hkey.trans (namesReader_rdhdr.writes_readField 8 0 _)
    unfold readEntries
    split
    · rename_i hread
      rw [hread] at hkey
      exact hkey
    · rename_i hread
      rw [hread] at hlen
      split
      · rename_i hread2
        rw [hread2] at hlen
        exact hlen
      · rename_i hread2
        rw [hread2] at hlen
        split_ifs
        · exact hlen
        · exact (hlen.trans (writes_storeEntry _ i _ _)).trans (ih _ _)

theorem writes_readSymbols (n len fuel pos : ℕ) (s : State) :
    Writes (.rdpay n) s (readSymbols len fuel pos s).2.2 := by
  induction fuel generalizing pos s with
  | zero => exact Writes.refl _ s
  | succ fuel ih =>
    have hwalk := (namesReader_rdpay n).writes_walk s.readTrie s
    simp only [readSymbols]
    split_ifs
    · exact Writes.refl _ s
    · split
      · rename_i heq
        rw [heq] at hwalk
        exact hwalk
      · rename_i heq
        rw [heq] at hwalk
        exact hwalk
      · rename_i heq
        rw [heq] at hwalk
        split_ifs
        · exact hwalk
        · exact hwalk.trans (ih _ _)

/-! The bodies. -/

theorem bodyWrites_nop : BodyWrites .nop bodyNop := fun s => writes_ret _ (Writes.refl _ s)

theorem bodyWrites_tinit (n : ℕ) : BodyWrites (.tinit n) (bodyTinit n) :=
  bodyWrites_withBlock fun _ => writes_ret _ rfl

theorem bodyWrites_tfwd : BodyWrites .tfwd bodyTfwd := by
  intro s
  unfold bodyTfwd
  split_ifs
  · exact writes_ret _ rfl
  · exact writes_raise _ s _

theorem bodyWrites_tinv : BodyWrites .tinv bodyTinv := by
  intro s
  unfold bodyTinv
  split_ifs
  · exact writes_ret _ rfl
  · exact writes_raise _ s _

theorem bodyWrites_qinit (n quality : ℕ) (adaptive : Bool) :
    BodyWrites (.qinit n quality adaptive) (bodyQinit n quality adaptive) := by
  refine bodyWrites_withBlock fun s => ?_
  split_ifs
  · exact writes_ret _ rfl
  · exact writes_raise _ s _

theorem bodyWrites_qvar (n : ℕ) : BodyWrites (.qvar n) (bodyQvar n) :=
  bodyWrites_withBlock fun _ => writes_ret _ rfl

theorem bodyWrites_quant : BodyWrites .quant bodyQuant := by
  intro s
  unfold bodyQuant
  split_ifs
  · split
    · exact writes_raise _ s _
    · exact writes_ret _ rfl
  · exact writes_raise _ s _

theorem bodyWrites_dequant : BodyWrites .dequant bodyDequant := by
  intro s
  unfold bodyDequant
  split_ifs
  · exact writes_ret _ rfl
  · exact writes_raise _ s _

theorem bodyWrites_zscan (n : ℕ) : BodyWrites (.zscan n) (bodyZscan n) :=
  bodyWrites_withBlock fun _ => writes_ret _ rfl

theorem bodyWrites_zunscan (n : ℕ) : BodyWrites (.zunscan n) (bodyZunscan n) :=
  bodyWrites_withBlock fun _ => writes_ret _ rfl

theorem bodyWrites_rlenc (n : ℕ) : BodyWrites (.rlenc n) (bodyRlenc n) :=
  bodyWrites_withBlock fun _ => writes_ret _ rfl

theorem bodyWrites_rldec (n : ℕ) : BodyWrites (.rldec n) (bodyRldec n) := by
  refine bodyWrites_withBlock fun s => ?_
  split_ifs
  · exact writes_raise _ s _
  · exact writes_ret _ rfl

theorem bodyWrites_hbuild : BodyWrites .hbuild bodyHbuild := by
  intro s
  unfold bodyHbuild
  dsimp only
  split_ifs
  · exact writes_raise _ s _
  · exact writes_ret _ rfl
  · exact writes_ret _ rfl

theorem bodyWrites_hcanon : BodyWrites .hcanon bodyHcanon := by
  intro s
  unfold bodyHcanon
  dsimp only
  split_ifs
  · exact writes_raise _ s _
  · split
    · exact writes_ret _ rfl
    · exact writes_ret _ rfl

theorem bodyWrites_htrie : BodyWrites .htrie bodyHtrie := by
  intro s
  unfold bodyHtrie
  dsimp only
  split_ifs
  · exact writes_raise _ s _
  · split
    · exact writes_ret _ rfl
    · exact writes_ret _ rfl

theorem bodyWrites_hdecsym : BodyWrites .hdecsym bodyHdecsym := by
  intro s
  have hwalk := namesReader_hdecsym.writes_walk s.readTrie s
  unfold bodyHdecsym
  split_ifs
  · exact writes_raise _ s _
  · exact writes_raise _ s _
  · split <;> rename_i heq <;> rw [heq] at hwalk
    · exact writes_ret _ (hwalk.trans rfl)
    · exact writes_ret _ hwalk
    · exact writes_ret _ hwalk

theorem bodyWrites_bwinit (cap : ℕ) : BodyWrites (.bwinit cap) (bodyBwinit cap) := by
  intro s
  unfold bodyBwinit
  split_ifs
  · exact writes_ret _ rfl
  · exact writes_raise _ s _

theorem bodyWrites_brinit (cap : ℕ) : BodyWrites (.brinit cap) (bodyBrinit cap) := by
  intro s
  unfold bodyBrinit
  split_ifs
  · exact writes_ret _ rfl
  · exact writes_raise _ s _

theorem bodyWrites_wbit (b : Bool) : BodyWrites (.wbit b) (bodyWbit b) := by
  intro s
  unfold bodyWbit
  split_ifs
  · exact writes_afterWrite _ s
  · exact writes_raise _ s _

theorem bodyWrites_wbits (cnt val : ℕ) : BodyWrites (.wbits cnt val) (bodyWbits cnt val) := by
  intro s
  unfold bodyWbits
  split_ifs
  · exact writes_raise _ s _
  · exact writes_afterWrite _ s
  · exact writes_raise _ s _

theorem bodyWrites_rbit : BodyWrites .rbit bodyRbit := by
  intro s
  unfold bodyRbit
  split_ifs
  · split
    · exact writes_ret _ (Writes.refl _ s)
    · exact writes_ret _ ((namesReader_rbit.writes_readBit ‹_›).trans rfl)
  · exact writes_raise _ s _

theorem bodyWrites_symmap : BodyWrites .symmap bodySymmap := by
  intro s
  unfold bodySymmap
  split_ifs
  · exact writes_raise _ s _
  · exact writes_ret _ rfl

theorem bodyWrites_wrhdr : BodyWrites .wrhdr bodyWrhdr := by
  intro s
  unfold bodyWrhdr
  dsimp only
  split_ifs
  · exact writes_raise _ s _
  · exact writes_raise _ s _
  · exact writes_afterWrite _ s

theorem bodyWrites_wrpay : BodyWrites .wrpay bodyWrpay := by
  intro s
  unfold bodyWrpay
  split_ifs
  · exact writes_raise _ s _
  · exact writes_raise _ s _
  · split
    · exact writes_raise _ s _
    · exact writes_afterWrite _ s

theorem bodyWrites_rdhdr : BodyWrites .rdhdr bodyRdhdr := by
  intro s
  unfold bodyRdhdr
  split_ifs
  · exact writes_raise _ s _
  · have hclear : Writes .rdhdr s { s with valid := { s.valid with ccv := false, trv := false }, k := 0#16 } := rfl
    have hcount := hclear.trans (namesReader_rdhdr.writes_readField 16 0 _)
    split <;> rename_i heq <;> rw [heq] at hcount
    · exact writes_ret _ hcount
    · rename_i c t
      replace hcount : Writes .rdhdr s t := hcount
      split_ifs
      · exact writes_ret _ hcount
      · have hentries := hcount.trans (writes_readEntries c 0 t)
        split <;> rename_i heq2 <;> rw [heq2] at hentries
        · exact writes_ret _ (hentries.trans rfl)
        · exact writes_ret _ hentries

theorem bodyWrites_rdpay (n : ℕ) : BodyWrites (.rdpay n) (bodyRdpay n) := by
  refine bodyWrites_withBlock fun s => ?_
  split_ifs
  · exact writes_raise _ s _
  · exact writes_raise _ s _
  · exact writes_ret _ ((writes_readSymbols n (n * n) (n * n) 0 s).trans rfl)

theorem bodyWrites_encblk (n : ℕ) : BodyWrites (.encblk n) (bodyEncblk n) := by
  refine bodyWrites_withBlock fun s => ?_
  split_ifs
  · exact writes_raise _ s _
  have hrewind : Writes (.encblk n) s { s with w := s.w.rewind } := rfl
  refine (bodyWrites_zscan n).andThen (fun _ _ => rfl) hrewind fun _ s1 h1 => ?_
  refine (bodyWrites_rlenc n).andThen (fun _ _ => rfl) h1 fun _ s2 h2 => ?_
  refine bodyWrites_symmap.andThen (fun _ _ => rfl) h2 fun sat s3 h3 => ?_
  split_ifs
  · exact writes_ret _ h3
  refine bodyWrites_hbuild.andThen (fun _ _ => rfl) h3 fun e s4 h4 => ?_
  split_ifs
  · exact writes_ret _ h4
  refine bodyWrites_hcanon.andThen (fun _ _ => rfl) h4 fun _ s5 h5 => ?_
  refine bodyWrites_wrhdr.andThen (fun _ _ => rfl) h5 fun e s6 h6 => ?_
  split_ifs
  · exact writes_ret _ h6
  refine bodyWrites_wrpay.andThen (fun _ _ => rfl) h6 fun e s7 h7 => ?_
  split_ifs
  · exact writes_ret _ h7
  · exact writes_ret _ h7

theorem bodyWrites_decblk (n : ℕ) : BodyWrites (.decblk n) (bodyDecblk n) := by
  refine bodyWrites_withBlock fun s => ?_
  split_ifs
  · exact writes_raise _ s _
  have hrewind : Writes (.decblk n) s { s with r := s.r.rewind } := rfl
  refine bodyWrites_rdhdr.andThen (fun _ _ => rfl) hrewind fun c s1 h1 => ?_
  split_ifs
  · exact writes_ret _ h1
  refine bodyWrites_hcanon.andThen (fun _ _ => rfl) h1 fun c s2 h2 => ?_
  split_ifs
  · exact writes_ret _ h2
  refine bodyWrites_htrie.andThen (fun _ _ => rfl) h2 fun _ s3 h3 => ?_
  refine (bodyWrites_rdpay n).andThen (fun _ _ => rfl) h3 fun c1 s4 h4 => ?_
  refine (bodyWrites_rldec n).andThen (fun _ _ => rfl) h4 fun c2 s5 h5 => ?_
  exact (bodyWrites_zunscan n).andThen (fun _ _ => rfl) h5 fun _ s6 h6 => writes_ret _ h6

/-- The frame of every command; a reset keeps the parameters and the host's side. -/
theorem writes_exec {i : Instr} {s t : State} (h : exec i s = .next t) : Writes i s t := by
  cases i <;> cases h
  case sreset => rfl
  case nop => exact bodyWrites_nop.runCommand _ s
  case tinit n => exact (bodyWrites_tinit n).runCommand _ s
  case tfwd => exact bodyWrites_tfwd.runCommand _ s
  case tinv => exact bodyWrites_tinv.runCommand _ s
  case qinit n quality adaptive => exact (bodyWrites_qinit n quality adaptive).runCommand _ s
  case qvar n => exact (bodyWrites_qvar n).runCommand _ s
  case quant => exact bodyWrites_quant.runCommand _ s
  case dequant => exact bodyWrites_dequant.runCommand _ s
  case zscan n => exact (bodyWrites_zscan n).runCommand _ s
  case zunscan n => exact (bodyWrites_zunscan n).runCommand _ s
  case rlenc n => exact (bodyWrites_rlenc n).runCommand _ s
  case rldec n => exact (bodyWrites_rldec n).runCommand _ s
  case hbuild => exact bodyWrites_hbuild.runCommand _ s
  case hcanon => exact bodyWrites_hcanon.runCommand _ s
  case htrie => exact bodyWrites_htrie.runCommand _ s
  case hdecsym => exact bodyWrites_hdecsym.runCommand _ s
  case bwinit cap => exact (bodyWrites_bwinit cap).runCommand _ s
  case wbit b => exact (bodyWrites_wbit b).runCommand _ s
  case wbits cnt val => exact (bodyWrites_wbits cnt val).runCommand _ s
  case brinit cap => exact (bodyWrites_brinit cap).runCommand _ s
  case rbit => exact bodyWrites_rbit.runCommand _ s
  case symmap => exact bodyWrites_symmap.runCommand _ s
  case wrhdr => exact bodyWrites_wrhdr.runCommand _ s
  case wrpay => exact bodyWrites_wrpay.runCommand _ s
  case rdhdr => exact bodyWrites_rdhdr.runCommand _ s
  case rdpay n => exact (bodyWrites_rdpay n).runCommand _ s
  case encblk n => exact (bodyWrites_encblk n).runCommand _ s
  case decblk n => exact (bodyWrites_decblk n).runCommand _ s

/-- Settles O17: each body stays within its column, and so do posting and fault entry. -/
theorem writesOnlyItsOperands : Obligations.WritesOnlyItsOperands := fun _ _ _ => writes_exec

end Sys2Proof.Machine
end

section
namespace Sys2Proof.Machine

/-! What the bit writer leaves in the stream (20_memory.md R63; 45_bitstream.md R192). -/

/-- The byte `write_bit` stores: the bits before the new one are kept, those after it are zero. -/
theorem getLsbD_putBit (old : Byte) {p j : ℕ} (hp : p < 8) (hj : j < 8) (b : Bool) :
    (putBit old p b).getLsbD (7 - j) = if j < p then old.getLsbD (7 - j) else if j = p then b else false := by
  have hnew : ∀ p < 8, ∀ j < 8, (0x80#8 >>> p).getLsbD (7 - j) = decide (j = p) := by decide
  have hkept : ∀ p < 8, ∀ j < 8, p ≠ 0 → (~~~(2#8 * (0x80#8 >>> p) - 1#8)).getLsbD (7 - j) = decide (j < p) := by decide
  have hbit : (if b then 0x80#8 >>> p else 0#8).getLsbD (7 - j) = (decide (j = p) && b) := by
    cases b
    · simp
    · simp [← hnew p hp j hj]
  have hold : (if p = 0 then 0#8 else old &&& ~~~(2#8 * (0x80#8 >>> p) - 1#8)).getLsbD (7 - j) =
      (decide (j < p) && old.getLsbD (7 - j)) := by
    split_ifs with h0
    · simp [h0]
    · rw [BitVec.getLsbD_and, hkept p hp j hj h0, Bool.and_comm]
  rw [putBit, BitVec.getLsbD_or, hold, hbit]
  rcases lt_trichotomy j p with h | h | h
  · simp [h, h.ne]
  · simp [h]
  · simp [h.not_gt, h.ne']

theorem wpos_div_eight (s : State) : s.wpos / 8 = s.w.byte.toNat := by
  have := s.w.bitp.isLt
  unfold State.wpos Cursor.pos
  omega

theorem wpos_mod_eight (s : State) : s.wpos % 8 = s.w.bitp.toNat := by
  have := s.w.bitp.isLt
  unfold State.wpos Cursor.pos
  omega

/-- The bytes used are those that hold a bit before the writer's position (10_state.md R30). -/
theorem bcnt_eq (s : State) : s.bcnt = (s.wpos + 7) / 8 := by
  have hbit := s.w.bitp.isLt
  have hzero : s.w.bitp = 0#3 ↔ s.w.bitp.toNat = 0 := by rw [BitVec.toNat_eq]; rfl
  unfold State.bcnt State.wpos Cursor.pos
  simp only [hzero]
  split_ifs <;> omega

/-- A byte is its eight bits of the stream. -/
theorem readBS_eq_of_streamBit {s t : State} {a : ℕ} (h : ∀ p, p / 8 = a → t.streamBit p = s.streamBit p) :
    t.readBS a = s.readBS a := by
  refine BitVec.eq_of_getLsbD_eq fun j hj => ?_
  have hbit := h (8 * a + (7 - j)) (by omega)
  have h1 : (8 * a + (7 - j)) / 8 = a := by omega
  have h2 : 7 - (8 * a + (7 - j)) % 8 = j := by omega
  rwa [State.streamBit, State.streamBit, h1, h2] at hbit

theorem wpos_writeBit {s t : State} {b : Bool} (h : writeBit s b = some t) : t.wpos = s.wpos + 1 := by
  obtain ⟨-, hnone⟩ | ⟨-, u, hu, hpos, -⟩ := writeBit_cases s b
  · cases hnone.symm.trans h
  · cases hu.symm.trans h
    exact hpos

/-- The stream after one bit written. -/
theorem streamBit_writeBit {s t : State} {b : Bool} (h : writeBit s b = some t) (p : ℕ) :
    t.streamBit p = if p < s.wpos then s.streamBit p else if p = s.wpos then b
      else if p / 8 = s.wpos / 8 then false else s.streamBit p := by
  obtain ⟨-, hnone⟩ | ⟨-, u, hu, -, -, hbs, hframe⟩ := writeBit_cases s b
  · cases hnone.symm.trans h
  cases hu.symm.trans h
  have hepoch : t.epoch = s.epoch := by rw [hframe]
  have hread (a : ℕ) : t.readBS a =
      if a = s.wpos / 8 then putBit (s.readBS (s.wpos / 8)) (s.wpos % 8) b else s.readBS a := by
    rw [State.readBS, hbs, get_set, wpos_div_eight, wpos_mod_eight, hepoch]
    split_ifs <;> rfl
  rw [State.streamBit, hread]
  by_cases hbyte : p / 8 = s.wpos / 8
  · rw [if_pos hbyte, getLsbD_putBit _ (by omega) (by omega), ← hbyte, if_pos rfl]
    have hlt : p % 8 < s.wpos % 8 ↔ p < s.wpos := by omega
    have heq : p % 8 = s.wpos % 8 ↔ p = s.wpos := by omega
    simp only [hlt, heq, State.streamBit]
  · have hne : p ≠ s.wpos := fun heq => hbyte (by rw [heq])
    rw [if_neg hbyte, if_neg hne, if_neg hbyte, ite_self]
    rfl

theorem writeBits_cons_of_none {s : State} {b : Bool} (h : writeBit s b = none) (rest : List Bool) :
    writeBits s (b :: rest) = (s, false) := by simp only [writeBits, h]

theorem writeBits_cons_of_some {s t : State} {b : Bool} (h : writeBit s b = some t) (rest : List Bool) :
    writeBits s (b :: rest) = writeBits t rest := by simp only [writeBits, h]

/-- Bits written after bits that fitted. -/
theorem writeBits_append {s : State} {first : List Bool} (h : (writeBits s first).2 = true) (second : List Bool) :
    writeBits s (first ++ second) = writeBits (writeBits s first).1 second := by
  induction first generalizing s with
  | nil => rfl
  | cons b rest ih =>
    cases hw : writeBit s b with
    | none => rw [writeBits_cons_of_none hw] at h; cases h
    | some t =>
      rw [writeBits_cons_of_some hw] at h ⊢
      rw [List.cons_append, writeBits_cons_of_some hw]
      exact ih h

/-- The stream after some bits written: what stood before them, the bits that fit, zeros to the end of the last byte reached,
and what stood after that. -/
theorem streamBit_writeBits (bits : List Bool) (s : State) (p : ℕ) :
    (writeBits s bits).1.streamBit p =
      if p < s.wpos then s.streamBit p
      else if p < (writeBits s bits).1.wpos then bits.getD (p - s.wpos) false
      else if s.wpos < (writeBits s bits).1.wpos ∧ p < 8 * (writeBits s bits).1.bcnt then false
      else s.streamBit p := by
  have hsame : s.streamBit p = if p < s.wpos then s.streamBit p
      else if p < s.wpos then bits.getD (p - s.wpos) false
      else if s.wpos < s.wpos ∧ p < 8 * s.bcnt then false
      else s.streamBit p := by simp +contextual
  induction bits generalizing s with
  | nil => exact hsame
  | cons b rest ih =>
    cases hw : writeBit s b with
    | none => simpa only [writeBits_cons_of_none hw] using hsame
    | some t =>
      have hpos := wpos_writeBit hw
      obtain ⟨-, -, hend, -⟩ := writeBits_frame rest t
      rw [writeBits_cons_of_some hw, ih t (by simp +contextual), bcnt_eq, hpos, streamBit_writeBit hw]
      rcases lt_trichotomy p s.wpos with hp | rfl | hp
      · rw [if_pos (by omega), if_pos hp, if_pos hp]
      · simp [show s.wpos < (writeBits t rest).1.wpos by omega]
      · rw [if_neg (by omega : ¬ p < s.wpos + 1), if_neg hp.not_gt, if_neg hp.not_gt, if_neg hp.ne']
        by_cases hin : p < (writeBits t rest).1.wpos
        · rw [if_pos hin, if_pos hin, show p - s.wpos = p - (s.wpos + 1) + 1 by omega, List.getD_cons_succ]
        · rw [if_neg hin, if_neg hin]
          generalize (writeBits t rest).1.wpos = stop at *
          by_cases hbyte : p < 8 * ((stop + 7) / 8)
          · have hmoved : s.wpos < stop := by omega
            have hlast : ¬ s.wpos + 1 < stop → p / 8 = s.wpos / 8 := by omega
            by_cases hmore : s.wpos + 1 < stop
            · simp [hbyte, hmoved, hmore]
            · simp [hbyte, hmoved, hmore, hlast]
          · have hpast : p / 8 ≠ s.wpos / 8 := by omega
            simp [hbyte, hpast]

theorem writeBits_eq_self {s : State} {bits : List Bool} (h : min bits.length (8 * s.w.cap.toNat - s.wpos) = 0) :
    (writeBits s bits).1 = s := by
  cases bits with
  | nil => rfl
  | cons b rest =>
    obtain ⟨-, hw⟩ | ⟨hroom, -⟩ := writeBit_cases s b
    · rw [writeBits_cons_of_none hw]
    · rw [List.length_cons] at h
      omega

/-- Writing a bit string is what `Wrote` says. -/
theorem wrote_writeBits (s : State) (bits : List Bool) : Wrote s (writeBits s bits).1 bits := by
  obtain ⟨-, hcap, hpos, -⟩ := writeBits_frame bits s
  have hstream := streamBit_writeBits bits s
  have hbcnt := bcnt_eq (writeBits s bits).1
  refine ⟨hcap, hpos, fun k hk => ?_, fun p hp => ?_, fun hfit p hp hp8 => ?_, fun a ha => ?_, fun hfit => ?_⟩
  · rw [List.length_take] at hk
    rw [hstream, if_neg (by omega), if_pos (by omega), Nat.add_sub_cancel_left, List.getD_eq_getElem?_getD,
      List.getD_eq_getElem?_getD, List.getElem?_take_of_lt (by omega)]
  · rw [hstream, if_pos hp]
  · rw [hstream, if_neg (by omega), if_neg (by omega), if_pos ⟨by omega, hp8⟩]
  · refine readBS_eq_of_streamBit fun p hp => ?_
    rw [hstream]
    rcases ha with hbefore | hafter
    · rw [if_pos (by omega)]
    · rw [if_neg (by omega), if_neg (by omega), if_neg (by omega)]
  · rw [writeBits_eq_self hfit]

end Sys2Proof.Machine
end

section
namespace Sys2Proof.Machine

/-! The zigzag scan reads every element of a block (42_zigzag.md R150, R151). -/

theorem mem_zzDiag_of_lt {n row col : ℕ} (hrow : row < n) (hcol : col < n) : (row, col) ∈ zzDiag n (row + col) := by
  have hmem : row ∈ (List.range (min (row + col) (n - 1) + 1 - (row + col - (n - 1)))).map
      fun t => row + col - (n - 1) + t := by
    rw [List.mem_map]
    exact ⟨row - (row + col - (n - 1)), List.mem_range.2 (by omega), by omega⟩
  refine List.mem_map.2 ⟨row, ?_, by rw [Nat.add_sub_cancel_left]⟩
  split_ifs
  · exact List.mem_reverse.2 hmem
  · exact hmem

theorem mem_zz_of_lt {n row col : ℕ} (hrow : row < n) (hcol : col < n) : (row, col) ∈ zz n :=
  List.mem_flatMap.2 ⟨row + col, List.mem_range.2 (by omega), mem_zzDiag_of_lt hrow hcol⟩

theorem mem_zzIndex_iff {n : ℕ} (hn : 1 ≤ n) {idx : ℕ} : idx ∈ zzIndex n ↔ idx < n * n := by
  refine ⟨mem_zzIndex_lt hn, fun h => List.mem_map.2 ⟨(idx / n, idx % n), ?_, Nat.div_add_mod' idx n⟩⟩
  exact mem_zz_of_lt (Nat.div_lt_of_lt_mul h) (Nat.mod_lt _ hn)

theorem length_zzIndex {n : ℕ} (hn : 1 ≤ n) : (zzIndex n).length = n * n := by
  refine le_antisymm (length_zzIndex_le hn) ?_
  have hsub : Finset.range (n * n) ⊆ (zzIndex n).toFinset := fun idx hidx =>
    List.mem_toFinset.2 ((mem_zzIndex_iff hn).2 (Finset.mem_range.1 hidx))
  calc n * n = (Finset.range (n * n)).card := (Finset.card_range _).symm
    _ ≤ (zzIndex n).toFinset.card := Finset.card_le_card hsub
    _ ≤ (zzIndex n).length := List.toFinset_card_le _

/-! Reading back what a fill stored. -/

theorem readMany_fill {α : Type} (b : Buf α) (vs : List α) (d : ℕ → α) :
    readMany (fun i => ((b.fill vs).get i).getD (d i)) vs.length = vs := by
  refine List.ext_getElem? fun i => ?_
  rw [getElem?_readMany]
  split_ifs with hi
  · rw [getD_fill_of_getElem? b (List.getElem?_eq_getElem hi), List.getElem?_eq_getElem hi]
  · rw [List.getElem?_eq_none (not_lt.1 hi)]

/-! What saturates (43_runlength.md R161; 46_blockcodec.md R206, R207, R209). -/

/-- A property of zero holds of all values exactly when it holds of those the symbols carry. -/
theorem forall_mem_rlEncode_iff {P : Word → Prop} (hzero : P 0#32) (run : ℕ) (vs : List Word) :
    (∀ sym ∈ rlEncode run vs, P sym.value) ↔ ∀ v ∈ vs, P v := by
  induction vs generalizing run with
  | nil =>
    unfold rlEncode
    split_ifs <;> simp [eob, hzero]
  | cons v vs ih =>
    unfold rlEncode
    split_ifs with hv
    · rw [ih, List.forall_mem_cons, hv]
      exact (and_iff_right hzero).symm
    · rw [List.forall_mem_cons, ih, List.forall_mem_cons]

theorem fold16_exact_iff (v : ℤ) : (fold16 v).2 = false ↔ -32768 ≤ v ∧ v ≤ 32767 := by
  unfold fold16
  split_ifs
  · simp only [true_iff]; omega
  · simp only [decide_eq_false_iff_not]; omega
  · simp only [decide_eq_false_iff_not]; omega

theorem pack_exact_iff (sym : RleSym) :
    (pack sym).2 = false ↔ (-32768 ≤ sym.value.toInt ∧ sym.value.toInt ≤ 32767) ∧ sym.run.toNat ≤ 255 := by
  simp only [pack, Bool.or_eq_false_iff, fold16_exact_iff, decide_eq_false_iff_not, not_lt]

/-- The symbol table saturates where a symbol does, if it does not run full. -/
theorem mapSymbols_saturated (symMax : ℕ) (tab : List (Word × ℕ)) (sat : Bool) (syms : List RleSym)
    (h : (mapSymbols symMax tab sat syms).2.2 = false) :
    (mapSymbols symMax tab sat syms).2.1 = (sat || syms.any fun sym => (pack sym).2) := by
  induction syms generalizing tab sat with
  | nil => simp [mapSymbols]
  | cons sym rest ih =>
    rw [List.any_cons, ← Bool.or_assoc]
    cases hbump : bumpKey (pack sym).1 tab with
    | some tab' =>
      simp only [mapSymbols, hbump] at h ⊢
      exact ih _ _ h
    | none =>
      simp only [mapSymbols, hbump] at h ⊢
      split_ifs at h ⊢
      exact ih _ _ h

end Sys2Proof.Machine
end

section
namespace Sys2Proof.Machine

/-! `ENCBLK` by its steps (46_blockcodec.md R215), and the stream it leaves (30_encoding.md R90, R91). -/

theorem andThen_eq_ret_iff {r : Result} {k : RetCode → State → Result} {c : RetCode} {t : State} :
    r.andThen k = .ret c t ↔ ∃ d u, r = .ret d u ∧ k d u = .ret c t := by
  cases r <;> simp

/-- What a column does not name is unchanged. -/
theorem Writes.same {α : Type} {i : Instr} {s t : State} (h : Writes i s t) (f : State → α)
    (hf : f (writesOf i s t) = f s) : f t = f s := (congrArg f h).trans hf

theorem BodyWrites.writes {i : Instr} {body : State → Result} (hbody : BodyWrites i body) {s t : State} {c : RetCode}
    (h : body s = .ret c t) : Writes i s t := by
  have hres := hbody s
  rwa [h] at hres

theorem bodyZscan_eq_ret {n : ℕ} {s t : State} {c : RetCode} (hn : blockSizeOk s.params n = true)
    (h : bodyZscan n s = .ret c t) : readMany t.readSQ (n * n) = (zzIndex n).map s.readIB := by
  rw [bodyZscan, withBlock_ok n _ s hn] at h
  cases h
  rw [← length_zzIndex ((blockSizeOk_iff _ _).1 hn).1, ← List.length_map (as := zzIndex n) (f := s.readIB)]
  exact readMany_fill _ _ _

theorem bodyRlenc_eq_ret {n : ℕ} {s t : State} {c : RetCode} (hp : s.params.ok = true)
    (hn : blockSizeOk s.params n = true) (h : bodyRlenc n s = .ret c t) :
    t.symbols = rlEncode 0 (readMany s.readSQ (n * n)) := by
  rw [bodyRlenc, withBlock_ok n _ s hn] at h
  cases h
  have hlen := length_rlEncode_le 0 (readMany s.readSQ (n * n))
  rw [length_readMany] at hlen
  have hsquare := Nat.mul_le_mul (admitted_le_128 hp hn) (admitted_le_128 hp hn)
  rw [State.symbols, BitVec.toNat_ofNat, Nat.mod_eq_of_lt (by omega)]
  exact readMany_fill _ _ _

/-- `SYMMAP` posts `OK_SAT` where a symbol saturates and `OK` where none does, if the table does not run full. -/
theorem bodySymmap_eq_ret {s t : State} {c : RetCode} (h : bodySymmap s = .ret c t) (hc : c ≠ .eSymspace) :
    c = if s.symbols.any (fun sym => (pack sym).2) then .okSat else .ok := by
  have hrsn : ¬ s.params.lMax < s.rsn.toNat := fun hlt => by rw [bodySymmap, if_pos hlt] at h; cases h
  rw [bodySymmap, if_neg hrsn] at h
  obtain ⟨hcode, -⟩ := Result.ret.inj h
  cases hfull : (mapSymbols s.params.symMax [] false s.symbols).2.2 with
  | true => exact absurd (hcode.symm.trans (if_pos hfull)) hc
  | false => rw [← hcode, hfull, mapSymbols_saturated _ _ _ _ hfull, Bool.false_or, if_neg Bool.false_ne_true]

theorem afterWrite_fits {r : State × Bool} {c : RetCode} {t : State} (h : afterWrite r = .ret c t)
    (hc : c ≠ .eOverflow) : r.1 = t ∧ r.2 = true := by
  obtain ⟨hcode, ht⟩ := Result.ret.inj h
  cases hfit : r.2 with
  | true => exact ⟨ht, rfl⟩
  | false => rw [hfit] at hcode; exact absurd hcode.symm hc

/-- The header of a block's stream (R90). -/
def State.header (s : State) : List Bool := headerBits (readMany s.readST s.k.toNat) (readMany s.readCL s.k.toNat)

theorem length_header_pos (s : State) : 0 < s.header.length := by
  rw [State.header, headerBits, List.length_append, length_fieldBits]
  omega

theorem blockStream_eq (s : State) : blockStream s = (payloadBits s s.symbols).map (s.header ++ ·) := rfl

theorem bodyWrhdr_fits {s t : State} {c : RetCode} (h : bodyWrhdr s = .ret c t) (hc : c ≠ .eOverflow) :
    (writeBits s s.header).1 = t ∧ (writeBits s s.header).2 = true := by
  unfold bodyWrhdr at h
  dsimp only at h
  split_ifs at h
  exact afterWrite_fits h hc

theorem bodyWrpay_fits {s t : State} {c : RetCode} (h : bodyWrpay s = .ret c t) (hc : c ≠ .eOverflow) :
    ∃ payload, payloadBits s s.symbols = some payload ∧ (writeBits s payload).1 = t ∧ (writeBits s payload).2 = true := by
  unfold bodyWrpay at h
  split_ifs at h
  split at h
  · cases h
  · exact ⟨_, ‹_›, afterWrite_fits h hc⟩

theorem payloadBits_congr {s t : State} (hindex : t.symbolIndex = s.symbolIndex) (hcode : t.readCC = s.readCC)
    (syms : List RleSym) : payloadBits t syms = payloadBits s syms := by
  induction syms with
  | nil => rfl
  | cons sym rest ih => rw [payloadBits, payloadBits, hindex, hcode, ih]

/-- Writing leaves the block that is written. -/
theorem Writes.blockStream_eq {s t : State} (h : Writes .wrhdr s t) : blockStream t = blockStream s := by
  rw [Machine.blockStream_eq, Machine.blockStream_eq, h.same State.symbols rfl, h.same State.header rfl,
    payloadBits_congr (h.same State.symbolIndex rfl) (h.same State.readCC rfl)]

/-- `WRHDR` and `WRPAY` complete write the stream of the block. -/
theorem wrhdr_wrpay_write_blockStream {s t u : State} {c d : RetCode} (hheader : bodyWrhdr s = .ret c t)
    (hc : c ≠ .eOverflow) (hpayload : bodyWrpay t = .ret d u) (hd : d ≠ .eOverflow) :
    ∃ bits, blockStream u = some bits ∧ s.header.length ≤ bits.length ∧ (writeBits s bits).1 = u ∧
      (writeBits s bits).2 = true := by
  have hst := bodyWrites_wrhdr.writes hheader
  have htu : Writes .wrhdr t u := bodyWrites_wrpay.writes hpayload
  obtain ⟨rfl, hfit⟩ := bodyWrhdr_fits hheader hc
  obtain ⟨payload, hbits, hu, hfitp⟩ := bodyWrpay_fits hpayload hd
  rw [← writeBits_append hfit] at hu hfitp
  refine ⟨s.header ++ payload, ?_, by rw [List.length_append]; exact Nat.le_add_right _ _, hu, hfitp⟩
  rw [htu.blockStream_eq, blockStream_eq, hbits, hst.same State.header rfl, Option.map_some]

/-- What stands when `ENCBLK n` comes to the header, if it then completes with the code `c`: the writer rewound, the symbols of
the block, and the code that they ask for. -/
structure Encoded (n : ℕ) (s : State) (c : RetCode) (u : State) : Prop where
  writer : u.w = s.w.rewind
  bytes : u.readBS = s.readBS
  symbols : u.symbols = rlEncode 0 ((zzIndex n).map s.readIB)
  code : c = if u.symbols.any (fun sym => (pack sym).2) then .okSat else .ok

/-- A step of a composite that ends it with a code of another class did not end it. -/
theorem ret_of_ite_ret {e bad c : RetCode} {s t : State} {r : Result} (hbad : (Code.ret bad).class ≠ .success)
    (hc : (Code.ret c).class = .success) (h : (if e = bad then .ret e s else r) = Result.ret c t) :
    e ≠ bad ∧ r = .ret c t := by
  by_cases he : e = bad
  · rw [if_pos he, he] at h
    cases h
    exact absurd hc hbad
  · exact ⟨he, (if_neg he).symm.trans h⟩

theorem bodyEncblk_eq_ret {n : ℕ} {s t : State} {c : RetCode} (hp : s.params.ok = true)
    (hn : blockSizeOk s.params n = true) (h : bodyEncblk n s = .ret c t) (hc : (Code.ret c).class = .success) :
    ∃ u v d e, Encoded n s c u ∧ bodyWrhdr u = .ret d v ∧ d ≠ .eOverflow ∧ bodyWrpay v = .ret e t ∧ e ≠ .eOverflow := by
  rw [bodyEncblk, withBlock_ok n _ s hn] at h
  split_ifs at h
  obtain ⟨_, s1, hzscan, h⟩ := andThen_eq_ret_iff.1 h
  obtain ⟨_, s2, hrlenc, h⟩ := andThen_eq_ret_iff.1 h
  obtain ⟨sat, s3, hsymmap, h⟩ := andThen_eq_ret_iff.1 h
  obtain ⟨hspace, h⟩ := ret_of_ite_ret (by decide) hc h
  obtain ⟨_, s4, hhbuild, h⟩ := andThen_eq_ret_iff.1 h
  obtain ⟨-, h⟩ := ret_of_ite_ret (by decide) hc h
  obtain ⟨_, s5, hhcanon, h⟩ := andThen_eq_ret_iff.1 h
  obtain ⟨d, s6, hwrhdr, h⟩ := andThen_eq_ret_iff.1 h
  obtain ⟨hd, h⟩ := ret_of_ite_ret (by decide) hc h
  obtain ⟨e, s7, hwrpay, h⟩ := andThen_eq_ret_iff.1 h
  obtain ⟨he, h⟩ := ret_of_ite_ret (by decide) hc h
  cases h
  have h1 := (bodyWrites_zscan n).writes hzscan
  have h2 := (bodyWrites_rlenc n).writes hrlenc
  have h3 := bodyWrites_symmap.writes hsymmap
  have h4 := bodyWrites_hbuild.writes hhbuild
  have h5 := bodyWrites_hcanon.writes hhcanon
  have hsyms : s5.symbols = s2.symbols :=
    ((h5.same State.symbols rfl).trans (h4.same State.symbols rfl)).trans (h3.same State.symbols rfl)
  have hparams : s1.params = s.params := h1.same State.params rfl
  refine ⟨s5, s6, d, e, ⟨?_, ?_, ?_, ?_⟩, hwrhdr, hd, hwrpay, he⟩
  · rw [h5.same State.w rfl, h4.same State.w rfl, h3.same State.w rfl, h2.same State.w rfl, h1.same State.w rfl]
  · rw [h5.same State.readBS rfl, h4.same State.readBS rfl, h3.same State.readBS rfl, h2.same State.readBS rfl,
      h1.same State.readBS rfl]
    rfl
  · rw [hsyms, bodyRlenc_eq_ret (hparams ▸ hp) (hparams ▸ hn) hrlenc,
      bodyZscan_eq_ret (s := { s with w := s.w.rewind }) hn hzscan]
    rfl
  · rw [hsyms]
    exact bodySymmap_eq_ret hsymmap hspace

/-- The code asked for is `OK` exactly when every element and every run is within the clamps. -/
theorem Encoded.code_eq_ok_iff {n : ℕ} {s u : State} {c : RetCode} (h : Encoded n s c u) (hn : 1 ≤ n) :
    c = .ok ↔ (∀ idx, idx < n * n → -32768 ≤ (s.readIB idx).toInt ∧ (s.readIB idx).toInt ≤ 32767) ∧
      ∀ sym ∈ u.symbols, sym.run.toNat ≤ 255 := by
  have hexact : c = .ok ↔ ∀ sym ∈ u.symbols, (pack sym).2 = false := by
    rw [h.code]
    simp only [ite_eq_right_iff, reduceCtorEq, imp_false, List.any_eq_true, not_exists, not_and, Bool.not_eq_true]
  have hvalues := forall_mem_rlEncode_iff (P := fun v => -32768 ≤ v.toInt ∧ v.toInt ≤ 32767) (by decide) 0
    ((zzIndex n).map s.readIB)
  rw [← h.symbols, List.forall_mem_map] at hvalues
  simp only [mem_zzIndex_iff hn] at hvalues
  rw [hexact, ← hvalues, ← forall₂_and]
  simp only [pack_exact_iff]

/-- The stream of a block written from bit 0 on: it stands there, zeros fill its last byte, and no later byte changed. -/
theorem written_from_bit_zero {s t : State} {bits : List Bool} (hpos : s.wpos = 0) (hne : 0 < bits.length)
    (ht : (writeBits s bits).1 = t) (hfit : (writeBits s bits).2 = true) :
    t.wpos = bits.length ∧ t.bcnt = (bits.length + 7) / 8 ∧ t.holds 0 bits ∧
      (∀ p, bits.length ≤ p → p < 8 * t.bcnt → t.streamBit p = false) ∧ ∀ a, t.bcnt ≤ a → t.readBS a = s.readBS a := by
  obtain ⟨-, -, -, hfits⟩ := writeBits_frame bits s
  have hroom := hfits.1 hfit
  obtain ⟨-, hend, hholds, -, hpad, hbytes, -⟩ := ht ▸ wrote_writeBits s bits
  rw [min_eq_left hroom, hpos] at hend
  rw [min_eq_left hroom] at hholds hpad
  rw [hpos, List.take_length] at hholds
  rw [Nat.zero_add] at hend
  exact ⟨hend, by rw [bcnt_eq, hend], hholds, fun p hp => hpad hne p (hend ▸ hp), fun a ha => hbytes a (.inr ha)⟩

/-- Settles O53: the steps before the header leave the writer at bit 0, and header and payload are written from there on. -/
theorem encblkWritesTheWireFormat : Obligations.EncblkWritesTheWireFormat := by
  rintro n s t ⟨hp, hrun⟩ hadm - hexec hclass
  have hn := (blockSizeOk_iff_admitted s.params n).2 hadm
  cases hexec
  obtain ⟨hhalt, -⟩ | ⟨-, c, t, hbody, heq⟩ | ⟨-, f, -, heq⟩ := runCommand_cases 0x78#8 (bodyEncblk n) s
  · exact absurd (hrun.symm.trans hhalt) Bool.false_ne_true
  · rw [heq] at hclass ⊢
    obtain ⟨u, v, d, e, hencoded, hwrhdr, hd, hwrpay, he⟩ :=
      bodyEncblk_eq_ret (s := recordOp 0x78#8 s) hp hn hbody hclass
    obtain ⟨bits, hstream, hheader, ht, hfit⟩ := wrhdr_wrpay_write_blockStream hwrhdr hd hwrpay he
    have hpos : u.wpos = 0 := by rw [State.wpos, hencoded.writer, rewind_pos]
    have hne : 0 < bits.length := (length_header_pos u).trans_le hheader
    have hwritten := written_from_bit_zero hpos hne ht hfit
    rw [hencoded.bytes] at hwritten
    have hpost : Writes .wrhdr t (postReturn c t) := rfl
    refine ⟨⟨bits, hpost.blockStream_eq.trans hstream, hwritten⟩, ?_⟩
    have hsyms : (postReturn c t).symbols = u.symbols :=
      ((bodyWrites_wrpay.writes hwrpay).same State.symbols rfl).trans
        ((bodyWrites_wrhdr.writes hwrhdr).same State.symbols rfl)
    rw [hsyms, postReturn_status, Code.ret.injEq]
    exact hencoded.code_eq_ok_iff hadm.1
  · rw [heq] at hclass; cases hclass

end Sys2Proof.Machine
end

section
namespace Sys2Proof.Machine

/-! Rounding keeps what is a real already: a multiplication by 1.0 in the default record, and row 0 of the basis
(40_transform.md R111). -/

theorem eq_withSign (a : Real64) : a = withSign (fsign a) (fexp a * 2 ^ 52 + ffrac a) := by
  have hlt := a.isLt
  refine BitVec.eq_of_toNat_eq ?_
  rw [fexp_eq_div_mod, ffrac_eq_mod, toNat_withSign _ (by omega), fsign_eq_decide]
  simp only [decide_eq_true_eq]
  split <;> omega

theorem divNearestEven_mul_right (q : ℕ) {den : ℕ} (hden : 0 < den) : divNearestEven (q * den) den = q := by
  simp [divNearestEven, Nat.mul_div_cancel q hden, hden]

/-- The magnitude of a finite real is `m` units of size `2^k`, in the form in which `roundMag` keeps it. -/
theorem fmag_normal_form (a : Real64) :
    ∃ k m, fmag a = m * 2 ^ k ∧ k = (fmag a).log2 - 52 ∧ k * 2 ^ 52 + m = fexp a * 2 ^ 52 + ffrac a := by
  have hfrac := ffrac_lt a
  by_cases hexp : fexp a = 0
  · have hmag : fmag a = ffrac a := if_pos hexp
    refine ⟨0, ffrac a, by omega, ?_, by omega⟩
    have hlog := Nat.log_mono_right (b := 2) (hmag.trans_le hfrac.le)
    rw [Nat.log_pow one_lt_two, ← Nat.log2_eq_log_two] at hlog
    omega
  · have hmag : fmag a = (2 ^ 52 + ffrac a) * 2 ^ (fexp a - 1) := if_neg hexp
    refine ⟨fexp a - 1, 2 ^ 52 + ffrac a, hmag, ?_, by omega⟩
    have hlog : (fmag a).log2 = 52 + (fexp a - 1) := by
      rw [hmag, Nat.log2_eq_iff (by positivity), add_right_comm, pow_add, pow_add]
      exact ⟨Nat.mul_le_mul_right _ (by omega), Nat.mul_lt_mul_of_pos_right (by omega) (by positivity)⟩
    omega

theorem roundMag_fmag {a : Real64} (ha : isFinite a = true) {den : ℕ} (hden : 0 < den) :
    roundMag (fmag a * den) den = fexp a * 2 ^ 52 + ffrac a := by
  obtain ⟨k, m, hmag, hk, hcode⟩ := fmag_normal_form a
  have hle : fexp a * 2 ^ 52 + ffrac a ≤ infMag := by
    have hexp : fexp a ≠ 2047 := by simpa [isFinite] using ha
    have hfrac := ffrac_lt a
    have hlt := Nat.mod_lt (a.toNat / 2 ^ 52) (show 0 < 2 ^ 11 by decide)
    rw [← fexp_eq_div_mod] at hlt
    rw [infMag_eq]
    omega
  calc roundMag (fmag a * den) den
      = min (k * 2 ^ 52 + divNearestEven (fmag a * den) (den * 2 ^ k)) infMag := by
        rw [roundMag, Nat.mul_div_cancel _ hden, ← hk]
    _ = min (k * 2 ^ 52 + m) infMag := by
        rw [hmag, mul_assoc, mul_comm (2 ^ k), divNearestEven_mul_right m (by positivity)]
    _ = fexp a * 2 ^ 52 + ffrac a := by rw [hcode, min_eq_left hle]

theorem fmul_real1 {a : Real64} (ha : isFinite a = true) : fmul a real1 = a := by
  obtain ⟨hfin, hsign, hmag⟩ : isFinite real1 = true ∧ fsign real1 = false ∧ fmag real1 = 2 ^ 1074 := by decide +kernel
  simp only [fmul, isNaN_of_isFinite ha, isNaN_of_isFinite hfin, isInf_of_isFinite ha, isInf_of_isFinite hfin, hsign, hmag,
    Bool.or_self, Bool.false_eq_true, if_false, Bool.bne_false]
  rw [roundReal, roundMag_fmag ha (by positivity), ← eq_withSign]

/-- A real not above `x` is not above `x` rounded. -/
theorem RoundsTo.le_of_le {x : ℝ} {r c : Real64} (h : RoundsTo x r) (hr : isFinite r = true) (hc : isFinite c = true)
    (hcx : (toRat c : ℝ) ≤ x) : toRat c ≤ toRat r := by
  obtain ⟨-, -, -, hnear⟩ := h
  have hle := (hnear hr c hc).1
  rw [abs_sub_comm _ x, abs_sub_comm _ x, abs_of_nonneg (sub_nonneg.2 hcx)] at hle
  have hle' := (le_abs_self _).trans hle
  exact_mod_cast (sub_le_sub_iff_left x).1 hle'

theorem isZero_of_roundsTo_zero {r : Real64} (h : RoundsTo 0 r) : isZero r = true := by
  have hfin := (h.bounded (e := 0) (by simp) (by decide)).1
  have hzero : toRat 0#64 = 0 := (toRat_eq_zero_iff _).2 (by decide)
  obtain ⟨-, -, -, hnear⟩ := h
  have hle := (hnear hfin 0#64 (by decide)).1
  rw [hzero, Rat.cast_zero, sub_zero, sub_zero, abs_zero, abs_nonpos_iff] at hle
  exact (toRat_eq_zero_iff r).1 (by exact_mod_cast hle)

theorem i2f_nat_exact {n : ℕ} (hn : n ≤ 256) : isFinite (i2f n) = true ∧ toRat (i2f n) = n := by
  have h := i2f_exact (z := n) (by rw [Nat.abs_cast]; omega)
  exact_mod_cast h

/-- The factor of row 0 is finite: the root divided by is at least 1. -/
theorem isFinite_basisScale_zero {n : ℕ} (hn : 1 ≤ n) (hn128 : n ≤ 128) :
    isFinite (basisScale .binary64 n 0) = true := by
  obtain ⟨c1, -⟩ := constants_are_integers
  obtain ⟨hfin1, hval1⟩ := i2f_exact (z := 1) (by decide)
  obtain ⟨hfin, hval⟩ := i2f_nat_exact (n := n) (by omega)
  have hnonneg : 0 ≤ toRat (i2f n) := hval ▸ Nat.cast_nonneg n
  have hroot : isFinite (fsqrt (i2f n)) = true :=
    ((bounded_i2f (e := 8) (by rw [Nat.abs_cast]; omega) (by decide)).sqrt hnonneg (by decide)).1
  have hroot1 : 1 ≤ toRat (fsqrt (i2f n)) := by
    have hle := (fsqrt_roundsTo hfin hnonneg).le_of_le hroot hfin1 (by
      rw [hval1, hval]; exact_mod_cast Real.one_le_sqrt.2 (by exact_mod_cast hn))
    simpa [hval1] using hle
  have hone : Bounded 1 real1 := c1 ▸ bounded_i2f (by decide) (by decide)
  rw [basisScale, if_pos rfl, div_binary64, sqrt_binary64, ofInt_binary64]
  exact (hone.div hroot hroot1 (by decide)).1

/-- The factor of row 0 at size 1 (R112). -/
theorem basisScale_one_zero : basisScale .binary64 1 0 = real1 := by decide +kernel

/-- The angles of row 0 are zero. -/
theorem isZero_basisAngle_zero {n : ℕ} (hn : 1 ≤ n) (hn128 : n ≤ 128) (j : ℕ) :
    isZero (basisAngle .binary64 n 0 j) = true := by
  obtain ⟨hfin, hval⟩ := i2f_nat_exact (n := 2 * n) (by omega)
  have hne : toRat (i2f (2 * n : ℕ)) ≠ 0 := by rw [hval]; positivity
  have hdividend : fmul numPi (i2f 0) = 0#64 := by decide +kernel
  have hround := fdiv_roundsTo (a := 0#64) (by decide) hfin hne
  rw [(toRat_eq_zero_iff _).2 (by decide : isZero 0#64 = true), Rat.cast_zero, zero_div] at hround
  have hangle : basisAngle .binary64 n 0 j = fdiv 0#64 (i2f (2 * n : ℕ)) := by
    rw [basisAngle, mul_zero, ← hdividend]; rfl
  exact hangle ▸ isZero_of_roundsTo_zero hround

/-- Row 0 of the default record's basis is its factor, whatever the cosine: the cosine of zero is 1.0. -/
theorem basis_zero_binary64 {n : ℕ} (hn : 1 ≤ n) (hn128 : n ≤ 128) (nMax j : ℕ) :
    basis .binary64 nMax n 0 j = basisScale .binary64 n 0 := by
  rw [basis, cos_of_isZero _ _ (isZero_basisAngle_zero hn hn128 j), mul_binary64,
    fmul_real1 (isFinite_basisScale_zero hn hn128)]

end Sys2Proof.Machine
end

section
namespace Sys2Proof.Machine

/-! The matrices the transform commands write, read element by element (40_transform.md R112 to R115). -/

section
variable {α : Type} (b : Buf α) {n : ℕ} (f : ℕ → ℕ → α)

theorem getD_fill_rowMajor {i j : ℕ} (hi : i < n) (hj : j < n) (d : α) :
    ((b.fill (rowMajor n f)).get (i * n + j)).getD d = f i j :=
  getD_fill_of_getElem? b (getElem?_rowMajor n i j f hi hj) d

theorem getD_fill_rowMajor_zero {j : ℕ} (hj : j < n) (d : α) : ((b.fill (rowMajor n f)).get j).getD d = f 0 j := by
  simpa using getD_fill_rowMajor b f (Nat.zero_lt_of_lt hj) hj d

theorem getD_fill_rowMajor_of_le {idx : ℕ} (h : n * n ≤ idx) (d : α) :
    ((b.fill (rowMajor n f)).get idx).getD d = (b.get idx).getD d := by
  rw [get_fill, length_rowMajor, if_neg (not_lt.2 h)]

end

theorem entry_rowMajor {n i j : ℕ} (f : ℕ → ℕ → Real64) (hi : i < n) (hj : j < n) :
    entry n (rowMajor n f) i j = f i j := by
  rw [entry, List.getD_eq_getElem?_getD, getElem?_rowMajor n i j f hi hj, Option.getD_some]

/-- Row `i` of a product needs row `i` of the left factor only. -/
theorem matmul_congr_left (num : Numerics) {n i : ℕ} {a a' : ℕ → ℕ → Real64} (h : ∀ k, k < n → a i k = a' i k)
    (b : ℕ → ℕ → Real64) (j : ℕ) : matmul num n a b i j = matmul num n a' b i j :=
  List.foldl_ext _ _ _ fun _ k hk => by rw [h k (List.mem_range.1 hk)]

theorem matmul3_eq (num : Numerics) (n : ℕ) (a b c : ℕ → ℕ → Real64) :
    matmul3 num n a b c = rowMajor n (matmul num n (entry n (rowMajor n (matmul num n a b))) c) := rfl

/-- The left product is stored and its rows are read back as they were computed. -/
theorem getD_fill_matmul3 (buf : Buf Real64) (num : Numerics) {n i j : ℕ} (a b c : ℕ → ℕ → Real64) (hi : i < n)
    (hj : j < n) (d : Real64) :
    ((buf.fill (matmul3 num n a b c)).get (i * n + j)).getD d = matmul num n (matmul num n a b) c i j := by
  rw [matmul3_eq, getD_fill_rowMajor buf _ hi hj]
  exact matmul_congr_left num (fun _ hk => entry_rowMajor _ hi hk) c j

/-- Settles O22: the basis and its transpose are filled in row by row; in the default record row 0 is its factor. -/
theorem tinitBuildsContext : Obligations.TinitBuildsContext := by
  rintro n s ⟨hp, hrun⟩ hadm
  have hn := (blockSizeOk_iff_admitted s.params n).2 hadm
  have hn128 := admitted_le_128 hp hn
  have hret : bodyTinit n (recordOp 0x10#8 s) = _ := withBlock_ok n _ _ hn
  refine ⟨_, congrArg Host.Outcome.next (runCommand_ret 0x10#8 (bodyTinit n) s _ .ok hrun hret), by simp [retStatus, hrun],
    toNat_ofNat_block hp hn, rfl, fun i j hi hj => ?_, fun hnum => ?_, fun idx hidx => ?_⟩
  · exact ⟨getD_fill_rowMajor _ _ hi hj _, getD_fill_rowMajor _ _ hi hj _⟩
  · have hbasis (j : ℕ) : basis s.params.num s.params.nMax n 0 j = basisScale s.params.num n 0 := by
      rw [hnum, basis_zero_binary64 hadm.1 hn128]
    refine ⟨fun j hj => (getD_fill_rowMajor_zero _ _ hj _).trans (hbasis j), fun hn1 => ?_⟩
    exact (getD_fill_rowMajor_zero _ _ hadm.1 _).trans ((hbasis 0).trans (by rw [hnum, hn1, basisScale_one_zero]))
  · exact ⟨getD_fill_rowMajor_of_le _ _ hidx _, getD_fill_rowMajor_of_le _ _ hidx _⟩

/-- Settles O23: each command fills its buffer with the product of three matrices. -/
theorem transformsMultiply : Obligations.TransformsMultiply := by
  intro s ⟨_, hrun⟩ htcv
  have hfwd : bodyTfwd (recordOp 0x11#8 s) = _ := if_pos htcv
  have hinv : bodyTinv (recordOp 0x12#8 s) = _ := if_pos htcv
  exact ⟨⟨_, congrArg Host.Outcome.next (runCommand_ret 0x11#8 bodyTfwd s _ .ok hrun hfwd), by simp [retStatus, hrun],
      fun i j hi hj => getD_fill_matmul3 _ _ _ _ _ hi hj _, fun idx hidx => getD_fill_rowMajor_of_le _ _ hidx _⟩,
    ⟨_, congrArg Host.Outcome.next (runCommand_ret 0x12#8 bodyTinv s _ .ok hrun hinv), by simp [retStatus, hrun],
      fun i j hi hj => getD_fill_matmul3 _ _ _ _ _ hi hj _, fun idx hidx => getD_fill_rowMajor_of_le _ _ hidx _⟩⟩

end Sys2Proof.Machine
end

section
namespace Sys2Proof.Machine

/-! What a command answers on a running core, and what a fill with a matrix or a sequence leaves to be read. -/

/-- A body that returns without touching `STATUS` leaves its writes and the status posted. -/
theorem command_ret {op : Byte} {body : State → Result} {s t : State} {c : RetCode} (hrun : s.status.halt = false)
    (hbody : body (recordOp op s) = .ret c t) (hstatus : t.status = (recordOp op s).status) :
    command op body s = .next { t with status := retStatus op c } := by
  rw [command_eq, runCommand_ret op body s t c hrun hbody]
  simp [postReturn, retStatus, hstatus, recordOp, hrun]

/-- A body that raises leaves only the fault's status. -/
theorem command_raise {op : Byte} {body : State → Result} {s : State} {f : CoreFault} (hrun : s.status.halt = false)
    (hbody : body (recordOp op s) = .raise f) : command op body s = .next (faulted op f s) :=
  congrArg Host.Outcome.next (runCommand_raise op body s f hrun hbody)

theorem map_rowMajor {α β : Type} (n : ℕ) (f : ℕ → ℕ → α) (g : α → β) :
    (rowMajor n f).map g = rowMajor n fun i j => g (f i j) := List.map_map

theorem getD_fill_readMany {α : Type} (b : Buf α) (read : ℕ → α) {len idx : ℕ} (h : idx < len) (d : α) :
    ((b.fill (readMany read len)).get idx).getD d = read idx :=
  getD_fill_of_getElem? b ((getElem?_readMany read len idx).trans (if_pos h)) d

theorem getD_fill_readMany_of_le {α : Type} (b : Buf α) (read : ℕ → α) {len idx : ℕ} (h : len ≤ idx) (d : α) :
    ((b.fill (readMany read len)).get idx).getD d = (b.get idx).getD d := by
  rw [get_fill, length_readMany, if_neg (not_lt.2 h)]

end Sys2Proof.Machine
end

section
namespace Sys2Proof.Machine

/-! `QINIT` and `QVAR` (41_quantization.md R126, R127, R129, R131). -/

/-- The scale of R127 is written with the integer difference in the model, with the difference of numbers in the rule. -/
theorem qscale_eq (num : Numerics) {quality : ℕ} (h : quality ≤ 100) : qscale num quality =
    num.div (if quality < 50 then num.div real5000 (num.ofInt quality) else num.ofInt ((200 - 2 * quality : ℕ) : ℤ))
      real100 := by
  rw [qscale, Nat.cast_sub (by omega)]
  rfl

/-- What `QINIT` leaves: the configuration, the flag, and at each position the step and its reciprocal. -/
theorem exec_qinit_context {n quality : ℕ} (adaptive : Bool) {s : State} (hrun : Running s) (hadm : Admitted s.params n)
    (hq : qualityOk quality = true) :
    ∃ t, exec (.qinit n quality adaptive) s = .next t ∧ t.status = retStatus 0x20#8 .ok ∧ t.qcfg.n.toNat = n ∧
      t.qcfg.quality.toNat = quality ∧ t.qcfg.adapt = adaptive ∧ t.valid.qcv = true ∧
      (∀ i j, i < n → j < n → t.readQM (i * n + j) = qtable s.params.num s.params.base8 n quality i j ∧
        t.readDQM (i * n + j) = s.params.num.div real1 (qtable s.params.num s.params.base8 n quality i j)) ∧
      ∀ idx, n * n ≤ idx → t.readQM idx = s.readQM idx ∧ t.readDQM idx = s.readDQM idx := by
  obtain ⟨hp, hrun⟩ := hrun
  have hn := (blockSizeOk_iff_admitted s.params n).2 hadm
  have hret : bodyQinit n quality adaptive (recordOp 0x20#8 s) = _ := withBlock_ok n _ _ hn
  simp only [if_pos hq, map_rowMajor] at hret
  have hquality : (BitVec.ofNat 8 quality).toNat = quality := by
    have := (qualityOk_iff quality).1 hq
    rw [BitVec.toNat_ofNat, Nat.mod_eq_of_lt (by omega)]
  refine ⟨_, command_ret hrun hret rfl, rfl, toNat_ofNat_block hp hn, hquality, rfl, rfl,
    fun i j hi hj => ?_, fun idx hidx => ?_⟩
  · exact ⟨getD_fill_rowMajor _ _ hi hj _, getD_fill_rowMajor _ _ hi hj _⟩
  · exact ⟨getD_fill_rowMajor_of_le _ _ hidx _, getD_fill_rowMajor_of_le _ _ hidx _⟩

/-- Settles O24: the table of the model is that of R129, and the buffers are filled with it and with its reciprocals. -/
theorem qinitBuildsContext : Obligations.QinitBuildsContext := by
  intro n quality a s hrun hadm h1 h100
  have hcontext := exec_qinit_context a hrun hadm ((qualityOk_iff quality).2 ⟨h1, h100⟩)
  simp only [qtable, qraw, qscale_eq s.params.num h100, Numerics.clamp] at hcontext
  exact hcontext

/-- The two running sums do not see each other. -/
theorem varSums_eq (num : Numerics) (xs : List Real64) : varSums num xs =
    (xs.foldl num.add 0#64, xs.foldl (fun acc x => num.add acc (num.mul x x)) 0#64) :=
  List.foldl_hom₂ xs Prod.mk _ _ _ _ _ fun _ _ _ => rfl

theorem variance_readMany (num : Numerics) (read : ℕ → Real64) (len : ℕ) : variance num (readMany read len) =
    let sum := (List.range len).foldl (fun acc idx => num.add acc (read idx)) 0#64
    let squares := (List.range len).foldl (fun acc idx => num.add acc (num.mul (read idx) (read idx))) 0#64
    num.sub (num.div squares (num.ofInt len)) (num.mul (num.div sum (num.ofInt len)) (num.div sum (num.ofInt len))) := by
  rw [variance, varSums_eq, length_readMany, readMany, List.foldl_map, List.foldl_map]

/-- Settles O26: the sums over the samples read are sums over their positions. -/
theorem qvarComputesVariance : Obligations.QvarComputesVariance := by
  rintro n s ⟨-, hrun⟩ hadm
  have hret : bodyQvar n (recordOp 0x21#8 s) = _ :=
    withBlock_ok n _ _ ((blockSizeOk_iff_admitted s.params n).2 hadm)
  rw [variance_readMany] at hret
  exact command_ret hrun hret rfl

end Sys2Proof.Machine
end

section
namespace Sys2Proof.Machine

/-! The quantisation steps at quality 50 and 100 in the default record (41_quantization.md R130). -/

theorem qscale_fifty : qscale .binary64 50 = real1 := by decide +kernel

theorem isZero_qscale_hundred : isZero (qscale .binary64 100) = true := by decide +kernel

/-- A finite real times a zero is a zero, on either side. -/
theorem isZero_fmul {a b : Real64} (ha : isFinite a = true) (hb : isFinite b = true)
    (h : isZero a = true ∨ isZero b = true) : isZero (fmul a b) = true := by
  have hround := fmul_roundsTo ha hb
  have hzero : (toRat a * toRat b : ℝ) = 0 := by
    rw [mul_eq_zero, Rat.cast_eq_zero, Rat.cast_eq_zero, toRat_eq_zero_iff, toRat_eq_zero_iff]
    exact h
  exact isZero_of_roundsTo_zero (hzero ▸ hround)

theorem isFinite_of_isZero {a : Real64} (h : isZero a = true) : isFinite a = true := by
  simp_all [isZero, isFinite]

/-- The factor of the synthetic table is finite. -/
theorem isFinite_one_add_root {i j : ℕ} (hi : i < 128) (hj : j < 128) :
    isFinite (fadd real1 (fsqrt (i2f (i * i + j * j : ℕ)))) = true := by
  obtain ⟨c1, -⟩ := constants_are_integers
  have habs : |((i * i + j * j : ℕ) : ℤ)| < 2 ^ 15 := by
    rw [Nat.abs_cast]
    exact_mod_cast (by nlinarith : i * i + j * j < 2 ^ 15)
  have hone : Bounded 16 real1 := c1 ▸ bounded_i2f (by decide) (by decide)
  have hroot := (bounded_i2f habs (by decide)).sqrt (by rw [(i2f_exact (by omega)).2]; positivity) (by decide)
  exact (hone.add hroot (by decide)).1

/-- The entries of the base table are integers in 1..255 (R128), exact as reals. -/
theorem i2f_base8_exact {p : Params} (h : p.ok = true) (k : ℕ) :
    isFinite (i2f (p.base8.getD k 0 : ℕ)) = true ∧ toRat (i2f (p.base8.getD k 0 : ℕ)) = (p.base8.getD k 0 : ℕ) :=
  i2f_nat_exact ((base8_getD_le h k).trans (by decide))

theorem one_le_base8_getD {p : Params} (h : p.ok = true) {k : ℕ} (hk : k < 64) : 1 ≤ p.base8.getD k 0 := by
  obtain ⟨⟨-, hlen⟩, hall⟩ : (_ ∧ p.base8.length = 64) ∧ ∀ b ∈ p.base8, 1 ≤ b ∧ b ≤ 255 := by
    simpa [Params.ok] using h
  rw [List.getD_eq_getElem _ _ (hlen ▸ hk)]
  exact (hall _ (List.getElem_mem _)).1

/-- At quality 100 the scale is zero, and so is every product with it. -/
theorem isZero_qraw_hundred {p : Params} (h : p.ok = true) {n i j : ℕ} (hi : i < 128) (hj : j < 128) :
    isZero (qraw .binary64 p.base8 n 100 i j) = true := by
  have hzero := isZero_qscale_hundred
  have hfin := isFinite_of_isZero hzero
  unfold qraw
  split_ifs
  · exact isZero_fmul (i2f_base8_exact h _).1 hfin (.inr hzero)
  · have hinner := isZero_fmul (isFinite_one_add_root hi hj) hfin (.inr hzero)
    exact isZero_fmul (isFinite_of_isZero hinner) (by decide) (.inl hinner)

/-- A real below the lower bound is clamped to it. -/
theorem clamp_of_lt {x lo : Real64} (h : flt x lo = true) (hi : Real64) : Numerics.binary64.clamp x lo hi = lo :=
  if_pos h

/-- A real between the bounds stays. -/
theorem clamp_of_realIn {x lo hi : Real64} (hlo : isFinite lo = true) (hhi : isFinite hi = true)
    (h : RealIn (toRat lo) (toRat hi) x) : Numerics.binary64.clamp x lo hi = x := by
  obtain ⟨hx, hlow, hhigh⟩ := h
  rw [Numerics.clamp, lt_binary64, lt_binary64, if_neg ((flt_iff hx hlo).not.2 (not_lt.2 hlow)),
    if_neg ((flt_iff hhi hx).not.2 (not_lt.2 hhigh))]

theorem real1_exact : isFinite real1 = true ∧ toRat real1 = 1 := by
  obtain ⟨c1, -⟩ := constants_are_integers
  exact c1 ▸ i2f_exact (z := 1) (by decide)

theorem real255_exact : isFinite real255 = true ∧ toRat real255 = 255 := by
  obtain ⟨-, -, -, -, c255, -⟩ := constants_are_integers
  exact c255 ▸ i2f_exact (z := 255) (by decide)

/-- At quality 100 every step is clamped up to 1.0. -/
theorem qtable_hundred {p : Params} (h : p.ok = true) {n i j : ℕ} (hi : i < 128) (hj : j < 128) :
    qtable .binary64 p.base8 n 100 i j = real1 := by
  have hzero := isZero_qraw_hundred h (n := n) hi hj
  obtain ⟨hfin1, hval1⟩ := real1_exact
  refine clamp_of_lt ((flt_iff (isFinite_of_isZero hzero) hfin1).2 ?_) _
  rw [(toRat_eq_zero_iff _).2 hzero, hval1]
  exact zero_lt_one

/-- At quality 50 the steps of size 8 are the entries of the base table. -/
theorem qtable_fifty {p : Params} (h : p.ok = true) {i j : ℕ} (hi : i < 8) (hj : j < 8) :
    qtable .binary64 p.base8 8 50 i j = i2f (p.base8.getD (i * 8 + j) 0 : ℕ) := by
  obtain ⟨hfin, hval⟩ := i2f_base8_exact h (i * 8 + j)
  obtain ⟨hfin1, hval1⟩ := real1_exact
  obtain ⟨hfin255, hval255⟩ := real255_exact
  have hlow := one_le_base8_getD h (k := i * 8 + j) (by omega)
  have hhigh := base8_getD_le h (i * 8 + j)
  have hraw : qraw .binary64 p.base8 8 50 i j = i2f (p.base8.getD (i * 8 + j) 0 : ℕ) := by
    rw [qraw, if_pos rfl, qscale_fifty]
    exact fmul_real1 hfin
  rw [qtable, hraw]
  refine clamp_of_realIn hfin1 hfin255 ⟨hfin, ?_⟩
  rw [hval, hval1, hval255]
  exact ⟨by exact_mod_cast hlow, by exact_mod_cast hhigh⟩

/-- Settles O25: every step is clamped to [1, 255]; a zero is clamped to 1.0, and an entry of `BASE8` times 1.0 stays. -/
theorem quantMatrixRange : Obligations.QuantMatrixRange := by
  intro n quality a s t hrun hnum hadm h1 h100 ht i j hi hj
  have hq := (qualityOk_iff quality).2 ⟨h1, h100⟩
  obtain ⟨u, hu, -, -, -, -, -, hsteps, -⟩ := exec_qinit_context a hrun hadm hq
  obtain rfl := Host.Outcome.next.inj (hu.symm.trans ht)
  rw [(hsteps i j hi hj).1, hnum]
  obtain ⟨hp, -⟩ := hrun
  have hn128 := admitted_le_128 hp ((blockSizeOk_iff_admitted s.params n).2 hadm)
  have hi128 := hi.trans_le hn128
  have hj128 := hj.trans_le hn128
  have hrange := qtable_realIn hp (n := n) hq hi128 hj128
  refine ⟨hrange, ?_, ?_⟩
  · rintro rfl
    exact qtable_hundred hp hi128 hj128
  · rintro rfl rfl
    rw [qtable_fifty hp hi hj]
    exact i2f_base8_exact hp _

end Sys2Proof.Machine
end

section
namespace Sys2Proof.Machine

/-! `QUANT` and `DEQUANT` (41_quantization.md R133, R134). -/

/-- The quotient that `QUANT` rounds at a position. -/
def State.quotient (s : State) (idx : ℕ) : Real64 := s.params.num.div (s.readYR idx) (s.stepAt idx)

/-- A quotient that `QUANT` converts: finite, and rounded into the signed 32-bit range. -/
def FitsWord (r : Real64) : Prop := isFinite r = true ∧ -(2 ^ 31) ≤ roundHaz r ∧ roundHaz r ≤ 2 ^ 31 - 1

theorem quantOne_of_fits {r : Real64} (h : FitsWord r) : quantOne r = some (BitVec.ofInt 32 (roundHaz r)) := by
  obtain ⟨hfin, hlow, hhigh⟩ := h
  rw [quantOne, if_pos hfin]
  exact if_neg (by omega)

theorem quantOne_of_not_fits {r : Real64} (h : ¬ FitsWord r) : quantOne r = none := by
  unfold quantOne
  split_ifs with hfin
  · exact if_pos (by simp only [FitsWord, hfin, true_and] at h; omega)
  · rfl

theorem quantAll_of_fits {s : State} {idxs : List ℕ} (h : ∀ idx ∈ idxs, FitsWord (s.quotient idx)) :
    quantAll s idxs = some (idxs.map fun idx => BitVec.ofInt 32 (roundHaz (s.quotient idx))) := by
  induction idxs with
  | nil => rfl
  | cons idx rest ih =>
    obtain ⟨hfits, hrest⟩ := List.forall_mem_cons.1 h
    rw [quantAll, ← State.quotient, quantOne_of_fits hfits, ih hrest]
    rfl

theorem quantAll_of_not_fits {s : State} {idxs : List ℕ} (h : ∃ idx ∈ idxs, ¬ FitsWord (s.quotient idx)) :
    quantAll s idxs = none := by
  induction idxs with
  | nil => simp at h
  | cons idx rest ih =>
    rw [quantAll, ← State.quotient]
    obtain hfits | hrest := (List.exists_mem_cons_iff _ _ _).1 h
    · rw [quantOne_of_not_fits hfits, Option.bind_none]
    · rw [ih hrest]
      cases quantOne (s.quotient idx) <;> rfl

theorem bodyQuant_of_fits {s : State} (hqcv : s.valid.qcv = true)
    (h : ∀ idx, idx < s.qcfg.n.toNat * s.qcfg.n.toNat → FitsWord (s.quotient idx)) :
    bodyQuant s = .ret .ok { s with mem := { s.mem with
      ib := s.mem.ib.fill (readMany (fun idx => BitVec.ofInt 32 (roundHaz (s.quotient idx)))
        (s.qcfg.n.toNat * s.qcfg.n.toNat)) } } := by
  rw [bodyQuant, if_pos hqcv, quantAll_of_fits fun idx hidx => h idx (List.mem_range.1 hidx)]
  rfl

theorem bodyQuant_of_not_fits {s : State} (hqcv : s.valid.qcv = true)
    (h : ∃ idx, idx < s.qcfg.n.toNat * s.qcfg.n.toNat ∧ ¬ FitsWord (s.quotient idx)) :
    bodyQuant s = .raise .numeric := by
  obtain ⟨idx, hidx, hnot⟩ := h
  rw [bodyQuant, if_pos hqcv, quantAll_of_not_fits ⟨idx, List.mem_range.2 hidx, hnot⟩]

/-- Settles O27: `IB` is filled with the rounded quotients where they all fit a word, and `F_NUMERIC` is raised where not. -/
theorem quantRoundsOrFaults : Obligations.QuantRoundsOrFaults := by
  rintro s ⟨-, hrun⟩ hqcv
  refine ⟨fun hfits => ?_, fun hnot => command_raise hrun (bodyQuant_of_not_fits (s := recordOp 0x22#8 s) hqcv hnot)⟩
  refine ⟨_, command_ret hrun (bodyQuant_of_fits (s := recordOp 0x22#8 s) hqcv hfits) rfl, rfl, fun idx hidx => ?_,
    fun idx hidx => getD_fill_readMany_of_le _ _ hidx _⟩
  obtain ⟨-, hlow, hhigh⟩ := hfits idx hidx
  refine (congrArg BitVec.toInt (getD_fill_readMany _ _ hidx _)).trans ?_
  exact BitVec.toInt_ofInt_eq_self (by decide) hlow (Int.lt_of_le_sub_one hhigh)

/-- Settles O28: `YR` is filled with the products. -/
theorem dequantMultiplies : Obligations.DequantMultiplies := by
  rintro s ⟨-, hrun⟩ hqcv
  have hbody : bodyDequant (recordOp 0x23#8 s) = _ := if_pos hqcv
  exact ⟨_, command_ret hrun hbody rfl, rfl, fun idx hidx => getD_fill_readMany _ _ hidx _,
    fun idx hidx => getD_fill_readMany_of_le _ _ hidx _⟩

end Sys2Proof.Machine
end

section
namespace Sys2Proof.Machine

/-! `VAR` and the adaptive flag (41_quantization.md R132; 10_state.md R27). -/

/-- `VAR` replaced. -/
def State.setVar (v : Real64) (s : State) : State := { s with var := v }

@[simp] theorem State.setVar_valid (v : Real64) (s : State) : (s.setVar v).valid = s.valid := rfl

@[simp] theorem State.setVar_qcfg (v : Real64) (s : State) : (s.setVar v).qcfg = s.qcfg := rfl

/-- A result with `VAR` replaced in the state returned. -/
def Result.setVar (v : Real64) : Result → Result
  | .ret c s => .ret c (s.setVar v)
  | .raise f => .raise f

/-- A body that neither reads nor writes `VAR` makes a command that does not. -/
theorem runCommand_setVar {op : Byte} {body : State → Result} {s : State} {v : Real64}
    (h : body ((recordOp op s).setVar v) = (body (recordOp op s)).setVar v) :
    runCommand op body (s.setVar v) = (runCommand op body s).setVar v := by
  obtain ⟨hhalt, hsame⟩ | ⟨hrun, c, t, hbody, hret⟩ | ⟨hrun, f, hbody, hraise⟩ := runCommand_cases op body s
  · rw [hsame]
    exact runCommand_halted _ _ _ hhalt
  · rw [hbody] at h
    rw [hret]
    exact runCommand_ret op body (s.setVar v) _ c hrun h
  · rw [hbody] at h
    rw [hraise]
    exact runCommand_raise op body (s.setVar v) f hrun h

theorem stepAt_of_not_adapt {s : State} (h : s.qcfg.adapt = false) (idx : ℕ) : s.stepAt idx = s.readQM idx := by
  simp [State.stepAt, h]

theorem stepAt_zero (s : State) : s.stepAt 0 = s.readQM 0 := by simp [State.stepAt]

theorem stepAt_of_adapt {s : State} (h : s.qcfg.adapt = true) {idx : ℕ} (hidx : idx ≠ 0) :
    s.stepAt idx = s.params.num.mul (s.readQM idx) (adaptScale s.params.num s.var) := by
  simp [State.stepAt, h, hidx]

theorem stepAt_setVar {s : State} (h : s.qcfg.adapt = false) (v : Real64) : (s.setVar v).stepAt = s.stepAt :=
  funext fun idx => (stepAt_of_not_adapt (s := s.setVar v) h idx).trans (stepAt_of_not_adapt h idx).symm

theorem quantAll_setVar {s : State} (h : s.qcfg.adapt = false) (v : Real64) (idxs : List ℕ) :
    quantAll (s.setVar v) idxs = quantAll s idxs := by
  induction idxs with
  | nil => rfl
  | cons idx rest ih =>
    rw [quantAll, ih, stepAt_setVar h]
    rfl

theorem bodyQuant_setVar {s : State} (h : s.qcfg.adapt = false) (v : Real64) :
    bodyQuant (s.setVar v) = (bodyQuant s).setVar v := by
  simp only [bodyQuant, quantAll_setVar h, State.setVar_valid, State.setVar_qcfg]
  split_ifs
  · cases quantAll s (List.range (s.qcfg.n.toNat * s.qcfg.n.toNat)) <;> rfl
  · rfl

theorem bodyDequant_setVar {s : State} (h : s.qcfg.adapt = false) (v : Real64) :
    bodyDequant (s.setVar v) = (bodyDequant s).setVar v := by
  simp only [bodyDequant, stepAt_setVar h, State.setVar_valid, State.setVar_qcfg]
  split_ifs <;> rfl

/-- Settles O29: without the flag no step reads `VAR`, so neither body does. -/
theorem adaptiveStepsReadVariance : Obligations.AdaptiveStepsReadVariance := by
  refine fun s v => ⟨fun idx h => ?_, fun idx hadapt hidx => stepAt_of_adapt hadapt hidx, fun h =>
    ⟨fun t ht => ?_, fun t ht => ?_⟩⟩
  · obtain h | rfl := h
    · exact stepAt_of_not_adapt h idx
    · exact stepAt_zero s
  · obtain rfl := Host.Outcome.next.inj ht
    exact congrArg Host.Outcome.next (runCommand_setVar (bodyQuant_setVar (s := recordOp 0x22#8 s) h v))
  · obtain rfl := Host.Outcome.next.inj ht
    exact congrArg Host.Outcome.next (runCommand_setVar (bodyDequant_setVar (s := recordOp 0x23#8 s) h v))

end Sys2Proof.Machine
end

section
namespace Sys2Proof.Machine

/-! The zigzag order (42_zigzag.md R150): the cells of the block, each after those before it. -/

theorem mem_zz_iff {n : ℕ} (hn : 1 ≤ n) {cell : ℕ × ℕ} : cell ∈ zz n ↔ cell.1 < n ∧ cell.2 < n :=
  ⟨mem_zz_lt hn, fun ⟨hrow, hcol⟩ => mem_zz_of_lt hrow hcol⟩

/-- The direction of a diagonal: the row falls on an even one and rises on an odd one. -/
def RowsInScanOrder (d row row' : ℕ) : Prop := if d % 2 = 0 then row' < row else row < row'

theorem pairwise_zzDiag (n d : ℕ) : (zzDiag n d).Pairwise fun a b => RowsInScanOrder d a.1 b.1 := by
  have hrows : ((List.range (min d (n - 1) + 1 - (d - (n - 1)))).map fun t => d - (n - 1) + t).Pairwise (· < ·) :=
    List.pairwise_map.2 (List.pairwise_lt_range.imp fun h => Nat.add_lt_add_left h _)
  rw [zzDiag, List.pairwise_map]
  unfold RowsInScanOrder
  split_ifs
  · exact List.pairwise_reverse.2 hrows
  · exact hrows

/-- The order of R150: the lower diagonal first, and on one diagonal its direction. -/
def ZigzagBefore (a b : ℕ × ℕ) : Prop :=
  a.1 + a.2 < b.1 + b.2 ∨ a.1 + a.2 = b.1 + b.2 ∧ RowsInScanOrder (a.1 + a.2) a.1 b.1

theorem pairwise_zz (n : ℕ) : (zz n).Pairwise ZigzagBefore := by
  refine List.pairwise_flatMap.2 ⟨fun d _ => ?_, List.pairwise_lt_range.imp fun {d e} hlt a ha b hb => .inl ?_⟩
  · refine (pairwise_zzDiag n d).imp_of_mem fun {a b} ha hb hrows => .inr ?_
    obtain ⟨rfl, -⟩ := mem_zzDiag ha
    exact ⟨(mem_zzDiag hb).1.symm, hrows⟩
  · rwa [(mem_zzDiag ha).1, (mem_zzDiag hb).1]

/-- The position of a cell is where it stands, since it stands nowhere else. -/
theorem zzi_of_getElem? {n k row col : ℕ} (h : (zz n)[k]? = some (row, col)) : zzi n row col = k := by
  obtain ⟨hk, hcell⟩ := List.getElem?_eq_some_iff.1 h
  rw [zzi, ← hcell]
  exact (nodup_zz n).idxOf_getElem k hk

/-- Settles O30: the order is sorted within each diagonal and from each to the next. -/
theorem zigzagOrder : Obligations.ZigzagOrder :=
  fun n hn => ⟨fun _ => mem_zz_iff hn, pairwise_zz n, fun _ _ _ => zzi_of_getElem?⟩

end Sys2Proof.Machine
end

section
namespace Sys2Proof.Machine

/-! `ZSCAN` and `ZUNSCAN` (42_zigzag.md R151, R152, R153): what each leaves, and that each undoes the other. -/

variable {n k idx : ℕ}

theorem getElem?_zzIndex {row col : ℕ} (h : (zz n)[k]? = some (row, col)) : (zzIndex n)[k]? = some (row * n + col) := by
  rw [zzIndex, List.getElem?_map, h, Option.map_some, blockIndex]

/-- No index comes twice: as many stand in the list as there are below its bound. -/
theorem nodup_zzIndex (hn : 1 ≤ n) : (zzIndex n).Nodup := by
  have hset : (zzIndex n).toFinset = Finset.range (n * n) :=
    Finset.ext fun idx => by rw [List.mem_toFinset, mem_zzIndex_iff hn, Finset.mem_range]
  have hcard : (zzIndex n).toFinset.card = (zzIndex n).length := by rw [hset, Finset.card_range, length_zzIndex hn]
  exact Multiset.toFinset_card_eq_card_iff_nodup.1 hcard

/-- The state `ZSCAN n` leaves on a running core. -/
def State.zscan (n : ℕ) (s : State) : State :=
  { s with status := retStatus 0x30#8 .ok, mem := { s.mem with sq := s.mem.sq.fill ((zzIndex n).map s.readIB) } }

/-- The state `ZUNSCAN n` leaves on a running core. -/
def State.zunscan (n : ℕ) (s : State) : State :=
  { s with status := retStatus 0x31#8 .ok, mem := { s.mem with ib := scatter s.readSQ 0 (zzIndex n) s.mem.ib } }

theorem exec_zscan {s : State} (hrun : Running s) (hadm : Admitted s.params n) :
    exec (.zscan n) s = .next (s.zscan n) := by
  have hret : bodyZscan n (recordOp 0x30#8 s) = _ := withBlock_ok n _ _ ((blockSizeOk_iff_admitted s.params n).2 hadm)
  exact command_ret hrun.2 hret rfl

theorem exec_zunscan {s : State} (hrun : Running s) (hadm : Admitted s.params n) :
    exec (.zunscan n) s = .next (s.zunscan n) := by
  have hret : bodyZunscan n (recordOp 0x31#8 s) = _ := withBlock_ok n _ _ ((blockSizeOk_iff_admitted s.params n).2 hadm)
  exact command_ret hrun.2 hret rfl

@[simp] theorem State.zscan_readIB (n : ℕ) (s : State) : (s.zscan n).readIB = s.readIB := rfl

@[simp] theorem State.zunscan_readSQ (n : ℕ) (s : State) : (s.zunscan n).readSQ = s.readSQ := rfl

theorem State.zscan_readSQ (s : State) (h : (zzIndex n)[k]? = some idx) : (s.zscan n).readSQ k = s.readIB idx :=
  getD_fill_of_getElem? _ (by rw [List.getElem?_map, h, Option.map_some]) _

theorem State.zunscan_readIB (hn : 1 ≤ n) (s : State) (h : (zzIndex n)[k]? = some idx) :
    (s.zunscan n).readIB idx = s.readSQ k := by
  have hget : (s.zunscan n).mem.ib.get idx = some (s.readSQ (0 + k)) := get_scatter _ _ _ _ _ _ (nodup_zzIndex hn) h
  rw [State.readIB, hget, Option.getD_some, Nat.zero_add]

theorem State.zscan_readSQ_of_le (hn : 1 ≤ n) (s : State) (h : n * n ≤ idx) : (s.zscan n).readSQ idx = s.readSQ idx := by
  have hget : (s.zscan n).mem.sq.get idx = s.mem.sq.get idx := by
    rw [State.zscan, get_fill, List.length_map, length_zzIndex hn, if_neg (not_lt.2 h)]
  rw [State.readSQ, hget]
  rfl

theorem State.zunscan_readIB_of_le (hn : 1 ≤ n) (s : State) (h : n * n ≤ idx) :
    (s.zunscan n).readIB idx = s.readIB idx := by
  have hget : (s.zunscan n).mem.ib.get idx = s.mem.ib.get idx :=
    get_scatter_of_not_mem _ _ _ _ _ ((mem_zzIndex_iff hn).not.2 (not_lt.2 h))
  rw [State.readIB, hget]
  rfl

/-- Settles O31: `ZSCAN` fills the sequence in the order of the cells, `ZUNSCAN` writes each cell once. -/
theorem zigzagMovesElements : Obligations.ZigzagMovesElements := by
  intro n s hrun hadm
  refine ⟨⟨_, exec_zscan hrun hadm, rfl, fun k row col h => ?_, fun idx => s.zscan_readSQ_of_le hadm.1⟩,
    ⟨_, exec_zunscan hrun hadm, rfl, fun k row col h => ?_, fun idx => s.zunscan_readIB_of_le hadm.1⟩⟩
  · exact s.zscan_readSQ (getElem?_zzIndex h)
  · exact s.zunscan_readIB hadm.1 (getElem?_zzIndex h)

theorem runInstrs_pair {i j : Instr} {s t u : State} (hi : exec i s = .next t) (hj : exec j t = .next u) :
    runInstrs [i, j] s = some u := by
  simp only [runInstrs, hi, hj]

/-- Settles O32: an element goes to the position of its cell and comes back from there. -/
theorem zigzagRoundTrip : Obligations.ZigzagRoundTrip := by
  intro n s hrun hadm
  have hn := hadm.1
  refine ⟨⟨_, runInstrs_pair (exec_zscan hrun hadm) (exec_zunscan ⟨hrun.1, rfl⟩ hadm), fun idx hidx => ?_⟩,
    ⟨_, runInstrs_pair (exec_zunscan hrun hadm) (exec_zscan ⟨hrun.1, rfl⟩ hadm), fun k hk => ?_⟩⟩
  · obtain ⟨k, hk⟩ := List.mem_iff_getElem?.1 ((mem_zzIndex_iff hn).2 hidx)
    rw [State.zunscan_readIB hn _ hk, State.zscan_readSQ s hk]
  · have hcell := List.getElem?_eq_getElem (hk.trans_eq (length_zzIndex hn).symm)
    rw [State.zscan_readSQ _ hcell, State.zunscan_readIB hn s hcell]

end Sys2Proof.Machine
end

section
namespace Sys2Proof.Machine

/-! What run-length symbols stand for (43_runlength.md R160), and how the two functions of R161 and R162 relate to it. -/

theorem getD_append_replicate_self {α : Type} (l : List α) (zeros i : ℕ) (d : α) :
    (l ++ List.replicate zeros d).getD i d = l.getD i d := by
  obtain hi | hi := lt_or_ge i l.length
  · exact List.getD_append l _ d i hi
  · rw [List.getD_append_right l _ d i hi, List.getD_eq_default l d hi, List.getD_eq_getElem?_getD, List.getElem?_replicate]
    split_ifs <;> rfl

theorem getD_fill_of_lt {α : Type} (b : Buf α) {vs : List α} {i : ℕ} (h : i < vs.length) (d e : α) :
    ((b.fill vs).get i).getD d = vs.getD i e := by
  rw [getD_fill_of_getElem? b (List.getElem?_eq_getElem h), List.getD_eq_getElem vs e h]

theorem getD_fill_of_length_le {α : Type} (b : Buf α) {vs : List α} {i : ℕ} (h : vs.length ≤ i) (d : α) :
    ((b.fill vs).get i).getD d = (b.get i).getD d := by
  rw [get_fill, if_neg (not_lt.2 h)]

section
variable {sym : RleSym} {syms rest : List RleSym}

theorem expandRle_cons_eob : expandRle (eob :: rest) = [] := if_pos rfl

theorem expandRle_cons (h : sym ≠ eob) :
    expandRle (sym :: rest) = List.replicate sym.run.toNat 0#32 ++ sym.value :: expandRle rest := if_neg h

theorem length_expandRle_cons (h : sym ≠ eob) :
    (expandRle (sym :: rest)).length = sym.run.toNat + 1 + (expandRle rest).length := by
  rw [expandRle_cons h, List.length_append, List.length_replicate, List.length_cons]
  omega

theorem ne_eob_of_value (h : sym.value ≠ 0#32) : sym ≠ eob := fun heq => h (heq ▸ rfl)

theorem expandRle_append (h : eob ∉ syms) : expandRle (syms ++ rest) = expandRle syms ++ expandRle rest := by
  induction syms with
  | nil => rfl
  | cons sym syms ih =>
    rw [List.mem_cons, not_or] at h
    obtain ⟨hsym, hsyms⟩ := h
    rw [List.cons_append, expandRle_cons (Ne.symm hsym), expandRle_cons (Ne.symm hsym), ih hsyms, List.append_assoc,
      List.cons_append]

theorem length_expandRle_take_le (syms : List RleSym) (m : ℕ) :
    (expandRle (syms.take m)).length ≤ (expandRle syms).length := by
  induction syms generalizing m with
  | nil => rw [List.take_nil]
  | cons sym rest ih =>
    cases m with
    | zero => exact Nat.zero_le _
    | succ m =>
      rw [List.take_succ_cons]
      by_cases hsym : sym = eob
      · rw [hsym, expandRle_cons_eob]; exact Nat.zero_le _
      · rw [length_expandRle_cons hsym, length_expandRle_cons hsym]
        exact Nat.add_le_add_left (ih m) _

end

/-! Encoding. -/

theorem rlEncode_nil (zeros : ℕ) : rlEncode zeros [] = if 0 < zeros then [eob] else [] := rfl

theorem expandRle_rlEncode_nil (zeros : ℕ) : expandRle (rlEncode zeros []) = [] := by
  rw [rlEncode_nil]
  split_ifs
  · exact expandRle_cons_eob
  · rfl

/-- The symbols of a sequence: those of its values other than 0, then what stands for the zeros left at the end. -/
theorem exists_rlEncode_eq_append {run : ℕ} {vs : List Word} (hlen : run + vs.length < 2 ^ 16) :
    ∃ syms zeros, rlEncode run vs = syms ++ rlEncode zeros [] ∧ (∀ sym ∈ syms, sym.value ≠ 0#32) ∧
      List.replicate run 0#32 ++ vs = expandRle syms ++ List.replicate zeros 0#32 := by
  induction vs generalizing run with
  | nil => exact ⟨[], run, rfl, by simp, List.append_nil _⟩
  | cons v vs ih =>
    rw [List.length_cons] at hlen
    rw [rlEncode]
    split_ifs with hv
    · obtain ⟨syms, zeros, heq, hne, hexpand⟩ := ih (run := run + 1) (by omega)
      refine ⟨syms, zeros, heq, hne, ?_⟩
      rw [← hexpand, hv, List.replicate_succ', List.append_assoc, List.singleton_append]
    · obtain ⟨syms, zeros, heq, hne, hexpand⟩ := ih (run := 0) (by omega)
      refine ⟨⟨BitVec.ofNat 16 run, v⟩ :: syms, zeros, by rw [heq, List.cons_append],
        List.forall_mem_cons.2 ⟨hv, hne⟩, ?_⟩
      have hvs : vs = expandRle syms ++ List.replicate zeros 0#32 := hexpand
      rw [expandRle_cons (ne_eob_of_value hv), BitVec.toNat_ofNat, Nat.mod_eq_of_lt (by omega), List.append_assoc,
        List.cons_append, ← hvs]

/-- The symbols of a whole sequence: they expand to it but for zeros at its end, which an EOB at the end stands for. -/
theorem rlEncode_encodes {vs : List Word} (hlen : vs.length < 2 ^ 16) :
    ∃ zeros, vs = expandRle (rlEncode 0 vs) ++ List.replicate zeros 0#32 ∧
      (∀ sym ∈ (rlEncode 0 vs).dropLast, sym.value ≠ 0#32) ∧
      ∀ sym, (rlEncode 0 vs).getLast? = some sym → (sym.value = 0#32 ↔ sym = eob) ∧ (sym = eob ↔ 0 < zeros) := by
  obtain ⟨syms, zeros, heq, hne, hexpand⟩ := exists_rlEncode_eq_append (run := 0) (vs := vs) (by omega)
  have heob : eob ∉ syms := fun hmem => hne eob hmem rfl
  refine ⟨zeros, ?_⟩
  rw [heq, expandRle_append heob, expandRle_rlEncode_nil, List.append_nil]
  refine ⟨hexpand, ?_⟩
  rw [rlEncode_nil]
  split_ifs with hzeros
  · rw [List.dropLast_concat, List.getLast?_concat]
    refine ⟨hne, fun sym hsym => ?_⟩
    obtain rfl := Option.some.inj hsym
    exact ⟨iff_of_true rfl rfl, iff_of_true rfl hzeros⟩
  · rw [List.append_nil]
    refine ⟨fun sym hsym => hne sym (List.mem_of_mem_dropLast hsym), fun sym hsym => ?_⟩
    have hvalue := hne sym (List.mem_of_getLast? hsym)
    exact ⟨iff_of_false hvalue (ne_eob_of_value hvalue), iff_of_false (ne_eob_of_value hvalue) hzeros⟩

/-- A sequence that is not empty has a symbol. -/
theorem rlEncode_ne_nil {vs : List Word} (hlen : vs.length < 2 ^ 16) (hvs : vs ≠ []) : rlEncode 0 vs ≠ [] := by
  obtain ⟨syms, zeros, heq, -, hexpand⟩ := exists_rlEncode_eq_append (run := 0) (vs := vs) (by omega)
  rw [heq, rlEncode_nil]
  split_ifs with hzeros
  · exact List.append_ne_nil_of_right_ne_nil _ (List.cons_ne_nil _ _)
  · rintro h
    obtain rfl : syms = [] := (List.append_eq_nil_iff.1 h).1
    obtain rfl : zeros = 0 := by omega
    exact hvs hexpand

/-! Decoding. -/

/-- A symbol reaches past the end of the room there is: the symbols before it fall short of the end. -/
def Overruns (room : ℕ) (syms : List RleSym) : Prop :=
  ∃ m, (expandRle (syms.take m)).length < room ∧ room < (expandRle (syms.take (m + 1))).length

section
variable {room : ℕ} {sym : RleSym} {syms rest : List RleSym}

theorem not_overruns_of_length_le (h : (expandRle syms).length ≤ room) : ¬ Overruns room syms :=
  fun ⟨m, _, hpast⟩ => absurd ((length_expandRle_take_le syms (m + 1)).trans h) (not_le.2 hpast)

theorem not_overruns_nil : ¬ Overruns room [] := not_overruns_of_length_le (Nat.zero_le _)

theorem not_overruns_cons_eob : ¬ Overruns room (eob :: rest) :=
  not_overruns_of_length_le (by rw [expandRle_cons_eob]; exact Nat.zero_le _)

theorem not_overruns_zero : ¬ Overruns 0 syms := fun ⟨_, hshort, _⟩ => Nat.not_lt_zero _ hshort

/-- The first symbol passes the end, or a later one passes the end of the room it leaves. -/
theorem overruns_cons_iff (h : sym ≠ eob) :
    Overruns room (sym :: rest) ↔ 0 < room ∧ room ≤ sym.run.toNat ∨ Overruns (room - (sym.run.toNat + 1)) rest := by
  unfold Overruns
  rw [← Nat.or_exists_add_one]
  simp only [List.take_succ_cons, length_expandRle_cons h]
  refine or_congr ?_ (exists_congr fun m => ?_)
  · simp only [List.take_zero, expandRle, List.length_nil]
    omega
  · omega

end

section
variable {len pos : ℕ} {sym : RleSym} {rest : List RleSym}

theorem rlDecode_of_le (h : len ≤ pos) (syms : List RleSym) : rlDecode len pos syms = ([], false, false) := by
  cases syms with
  | nil => rfl
  | cons sym rest => exact if_pos h

theorem rlDecode_cons_eob (h : pos < len) : rlDecode len pos (eob :: rest) = ([], true, false) := by
  rw [rlDecode, if_neg (not_le.2 h), if_pos rfl]

theorem rlDecode_cons_fits (hsym : sym ≠ eob) (h : pos + sym.run.toNat < len) :
    rlDecode len pos (sym :: rest) =
      (List.replicate sym.run.toNat 0#32 ++ sym.value :: (rlDecode len (pos + sym.run.toNat + 1) rest).1,
        (rlDecode len (pos + sym.run.toNat + 1) rest).2) := by
  rw [rlDecode, if_neg (by omega), if_neg hsym, min_eq_left (by omega)]
  exact if_pos h

theorem rlDecode_cons_overruns (hsym : sym ≠ eob) (hpos : pos < len) (h : len ≤ pos + sym.run.toNat) :
    rlDecode len pos (sym :: rest) = (List.replicate (len - pos) 0#32, false, true) := by
  rw [rlDecode, if_neg (by omega), if_neg hsym, min_eq_right (by omega)]
  exact if_neg (by omega)

end

/-- The values decoded are those the symbols stand for, as far as there is room; the last flag says that a symbol overran;
where the values leave room, the first flag says that an EOB was met. -/
theorem rlDecode_spec (len pos : ℕ) (syms : List RleSym) :
    (rlDecode len pos syms).1 = (expandRle syms).take (len - pos) ∧
    ((rlDecode len pos syms).2.2 = true ↔ Overruns (len - pos) syms) ∧
    ((expandRle syms).length < len - pos → ((rlDecode len pos syms).2.1 = true ↔ eob ∈ syms)) := by
  induction syms generalizing pos with
  | nil => exact ⟨List.take_nil.symm, iff_of_false Bool.false_ne_true not_overruns_nil, fun _ => by simp [rlDecode]⟩
  | cons sym rest ih =>
    obtain hpos | hpos := le_or_gt len pos
    · rw [rlDecode_of_le hpos, Nat.sub_eq_zero_of_le hpos]
      exact ⟨rfl, iff_of_false Bool.false_ne_true not_overruns_zero, fun h => absurd h (Nat.not_lt_zero _)⟩
    by_cases hsym : sym = eob
    · rw [hsym, rlDecode_cons_eob hpos, expandRle_cons_eob]
      exact ⟨List.take_nil.symm, iff_of_false Bool.false_ne_true not_overruns_cons_eob,
        fun _ => iff_of_true rfl List.mem_cons_self⟩
    rw [overruns_cons_iff hsym, length_expandRle_cons hsym, expandRle_cons hsym]
    obtain hfits | hpast := lt_or_ge (pos + sym.run.toNat) len
    · obtain ⟨hvalues, hover, heob⟩ := ih (pos + sym.run.toNat + 1)
      have hroom : len - pos - (sym.run.toNat + 1) = len - (pos + sym.run.toNat + 1) := by omega
      rw [rlDecode_cons_fits hsym hfits, hroom]
      refine ⟨?_, hover.trans (or_iff_right (by omega)).symm, fun h => ?_⟩
      · have hzeros : len - pos - sym.run.toNat = len - (pos + sym.run.toNat + 1) + 1 := by omega
        rw [hvalues, List.take_append, List.take_replicate, min_eq_right (by omega), List.length_replicate, hzeros,
          List.take_succ_cons]
      · rw [heob (by omega), List.mem_cons, or_iff_right (Ne.symm hsym)]
    · rw [rlDecode_cons_overruns hsym hpos hpast]
      refine ⟨?_, iff_of_true rfl (.inl (by omega)), fun h => by omega⟩
      rw [List.take_append_of_le_length (by rw [List.length_replicate]; omega), List.take_replicate,
        min_eq_left (by omega)]

end Sys2Proof.Machine
end

section
namespace Sys2Proof.Machine

/-! `RLENC` and `RLDEC` (43_runlength.md R161, R162, R163): what each leaves, and that the second undoes the first. -/

variable {n : ℕ} {s : State}

theorem length_symbols (s : State) : s.symbols.length = s.rsn.toNat := length_readMany _ _

/-- The state `RLENC n` leaves on a running core. -/
def State.rlenc (n : ℕ) (s : State) : State :=
  { s with
    status := retStatus 0x40#8 .ok
    mem := { s.mem with rs := s.mem.rs.fill (rlEncode 0 (readMany s.readSQ (n * n))) }
    rsn := BitVec.ofNat 16 (rlEncode 0 (readMany s.readSQ (n * n))).length }

theorem exec_rlenc (hrun : Running s) (hadm : Admitted s.params n) : exec (.rlenc n) s = .next (s.rlenc n) := by
  have hret : bodyRlenc n (recordOp 0x40#8 s) = _ := withBlock_ok n _ _ ((blockSizeOk_iff_admitted s.params n).2 hadm)
  exact command_ret hrun.2 hret rfl

theorem State.rlenc_symbols (hrun : Running s) (hadm : Admitted s.params n) :
    (s.rlenc n).symbols = rlEncode 0 (readMany s.readSQ (n * n)) := by
  have hn := (blockSizeOk_iff_admitted s.params n).2 hadm
  have hret : bodyRlenc n s = _ := withBlock_ok n _ s hn
  exact (bodyRlenc_eq_ret hrun.1 hn hret :)

/-- A block's sequence is short enough for its runs to fit the field of a symbol. -/
theorem square_lt_of_admitted (hrun : Running s) (hadm : Admitted s.params n) : n * n < 2 ^ 16 := by
  have hn := admitted_le_128 hrun.1 ((blockSizeOk_iff_admitted s.params n).2 hadm)
  have hsquare := Nat.mul_le_mul hn hn
  omega

/-- Settles O33: the symbols are those of the list of values read, and are stored from entry 0 on. -/
theorem rlencEncodes : Obligations.RlencEncodes := by
  intro n s hrun hadm
  have hsymbols := State.rlenc_symbols hrun hadm
  have hlen : (readMany s.readSQ (n * n)).length < 2 ^ 16 :=
    (length_readMany _ _).trans_lt (square_lt_of_admitted hrun hadm)
  have hrsn := (congrArg List.length hsymbols).symm.trans (length_symbols _)
  obtain ⟨zeros, hexpand, hvalues, hlast⟩ := rlEncode_encodes hlen
  refine ⟨_, zeros, exec_rlenc hrun hadm, rfl, ?_⟩
  rw [hsymbols, ← hrsn]
  refine ⟨hexpand, hvalues, hlast, ?_, ?_, fun idx hidx => getD_fill_of_length_le _ hidx _⟩
  · have hpos : 0 < (readMany s.readSQ (n * n)).length :=
      (Nat.mul_pos hadm.1 hadm.1).trans_eq (length_readMany _ _).symm
    exact List.length_pos_iff.2 (rlEncode_ne_nil hlen (List.length_pos_iff.1 hpos))
  · exact (length_rlEncode_le 0 _).trans_eq (length_readMany _ _)

/-- The code `RLDEC` returns for symbols decoded into a sequence of length `len`. -/
def rldecCode (len : ℕ) (syms : List RleSym) : RetCode :=
  if (rlDecode len 0 syms).2.2 then .dOverrun
  else if !(rlDecode len 0 syms).2.1 && decide ((rlDecode len 0 syms).1.length < len) then .dShort
  else .ok

theorem rldecCode_of_overruns {len : ℕ} {syms : List RleSym} (h : Overruns len syms) :
    rldecCode len syms = .dOverrun := by
  obtain ⟨-, hover, -⟩ := rlDecode_spec len 0 syms
  exact if_pos (hover.2 h)

/-- Short of the end without an EOB: the code is `D_SHORT`; at the end or with an EOB, `OK`. -/
theorem rldecCode_of_not_overruns {len : ℕ} {syms : List RleSym} (h : ¬ Overruns len syms) :
    rldecCode len syms = if eob ∉ syms ∧ (expandRle syms).length < len then .dShort else .ok := by
  obtain ⟨hvalues, hover, heob⟩ := rlDecode_spec len 0 syms
  have hlen : (rlDecode len 0 syms).1.length < len ↔ (expandRle syms).length < len := by
    rw [hvalues, List.length_take, Nat.sub_zero, min_lt_iff, or_iff_right (lt_irrefl len)]
  rw [rldecCode, if_neg (hover.not.2 h)]
  refine if_congr ?_ rfl rfl
  rw [Bool.and_eq_true, Bool.not_eq_true', decide_eq_true_iff, hlen, ← Bool.not_eq_true]
  exact and_congr_left fun hshort => (heob hshort).not

/-- The sequence `RLDEC` leaves: the values the symbols stand for, cut at its length and filled with zeros. -/
def rldecValues (len : ℕ) (syms : List RleSym) : List Word :=
  (rlDecode len 0 syms).1 ++ List.replicate (len - (rlDecode len 0 syms).1.length) 0#32

theorem length_rldecValues (len : ℕ) (syms : List RleSym) : (rldecValues len syms).length = len := by
  have hle : (rlDecode len 0 syms).1.length ≤ len := length_rlDecode_le len 0 syms
  rw [rldecValues, List.length_append, List.length_replicate, Nat.add_sub_cancel' hle]

theorem getD_rldecValues {len k : ℕ} (h : k < len) (syms : List RleSym) :
    (rldecValues len syms).getD k 0#32 = (expandRle syms).getD k 0#32 := by
  obtain ⟨hvalues, -, -⟩ := rlDecode_spec len 0 syms
  rw [rldecValues, getD_append_replicate_self, hvalues, Nat.sub_zero, List.getD_eq_getElem?_getD,
    List.getElem?_take_of_lt h, List.getD_eq_getElem?_getD]

/-- The state `RLDEC n` leaves on a running core. -/
def State.rldec (n : ℕ) (s : State) : State :=
  { s with
    status := retStatus 0x41#8 (rldecCode (n * n) s.symbols)
    mem := { s.mem with sq := s.mem.sq.fill (rldecValues (n * n) s.symbols) } }

theorem exec_rldec (hrun : Running s) (hadm : Admitted s.params n) (hrsn : s.rsn.toNat ≤ s.params.lMax) :
    exec (.rldec n) s = .next (s.rldec n) := by
  have hret : bodyRldec n (recordOp 0x41#8 s) = _ := withBlock_ok n _ _ ((blockSizeOk_iff_admitted s.params n).2 hadm)
  exact command_ret hrun.2 (hret.trans (if_neg (not_lt.2 hrsn))) rfl

theorem State.rldec_readSQ {k : ℕ} (h : k < n * n) (s : State) :
    (s.rldec n).readSQ k = (expandRle s.symbols).getD k 0#32 :=
  (getD_fill_of_lt _ (h.trans_eq (length_rldecValues _ _).symm) _ 0#32).trans (getD_rldecValues h _)

theorem State.rldec_readSQ_of_le {idx : ℕ} (h : n * n ≤ idx) (s : State) : (s.rldec n).readSQ idx = s.readSQ idx :=
  getD_fill_of_length_le _ ((length_rldecValues _ _).trans_le h) _

/-- Settles O34: the sequence is filled with the values decoded, and the code is that of the three cases. -/
theorem rldecDecodes : Obligations.RldecDecodes := by
  intro n s hrun hadm hrsn
  dsimp only
  rw [List.take_length]
  exact ⟨_, exec_rldec hrun hadm hrsn, fun k hk => s.rldec_readSQ hk, fun idx hidx => s.rldec_readSQ_of_le hidx,
    fun hover => congrArg (retStatus 0x41#8) (rldecCode_of_overruns hover),
    fun hfits hshort => congrArg (retStatus 0x41#8) ((rldecCode_of_not_overruns hfits).trans (if_pos hshort)),
    fun hfits hdone => congrArg (retStatus 0x41#8) ((rldecCode_of_not_overruns hfits).trans (if_neg hdone))⟩

/-- Settles O35: the symbols fall short of the end only by zeros, which an EOB stands for and the decoder fills in. -/
theorem runLengthRoundTrip : Obligations.RunLengthRoundTrip := by
  intro n s hrun hadm
  obtain ⟨t, zeros, ht, -, hexpand, -, hlast, hpos, hrsn, -⟩ := rlencEncodes n s hrun hadm
  obtain rfl := Host.Outcome.next.inj ((exec_rlenc hrun hadm).symm.trans ht)
  have hlMax := hrsn.trans (square_le_lMax _ _ ((blockSizeOk_iff_admitted s.params n).2 hadm))
  have hlen : n * n = (expandRle (s.rlenc n).symbols).length + zeros := by
    simpa using congrArg List.length hexpand
  have heob (hzeros : 0 < zeros) : eob ∈ (s.rlenc n).symbols := by
    have hne := List.length_pos_iff.1 (hpos.trans_eq (length_symbols _).symm)
    obtain ⟨-, hmark⟩ := hlast _ (List.getLast?_eq_some_getLast hne)
    exact hmark.2 hzeros ▸ List.getLast_mem hne
  refine ⟨_, runInstrs_pair ht (exec_rldec ⟨hrun.1, rfl⟩ hadm hlMax), ?_, fun idx hidx => ?_⟩
  · have hfits : ¬ Overruns (n * n) (s.rlenc n).symbols := not_overruns_of_length_le (by omega)
    have hdone : ¬ (eob ∉ (s.rlenc n).symbols ∧ (expandRle (s.rlenc n).symbols).length < n * n) :=
      fun ⟨hnone, hshort⟩ => hnone (heob (by omega))
    exact congrArg (retStatus 0x41#8) ((rldecCode_of_not_overruns hfits).trans (if_neg hdone))
  · rw [State.rldec_readSQ hidx, ← getD_append_replicate_self _ zeros, ← hexpand, List.getD_eq_getElem?_getD,
      List.getElem?_map, List.getElem?_range hidx]
    rfl

end Sys2Proof.Machine
end

section
namespace Sys2Proof.Machine

/-! Bit strings as binary fractions: a code and its extensions fill the interval of width `2^-length` from its value on
(44_huffman.md, opening; R179). -/

theorem bitsValue_append (a b : List Bool) : bitsValue (a ++ b) = bitsValue a * 2 ^ b.length + bitsValue b := by
  induction b using List.reverseRecOn with
  | nil => simp [bitsValue]
  | append_singleton b x ih =>
    rw [← List.append_assoc, bitsValue_append_singleton, ih, bitsValue_append_singleton, List.length_append,
      List.length_singleton, pow_succ]
    ring

/-- A code read as a binary fraction. -/
def HuffCode.fraction (c : HuffCode) : ℚ := (c.bits.toNat : ℚ) / 2 ^ c.len.toNat

/-- The part of the unit interval that a code of the length takes. -/
def kraftShare (len : ℕ) : ℚ := 1 / 2 ^ len

theorem kraftShare_pos (len : ℕ) : 0 < kraftShare len := by unfold kraftShare; positivity

theorem kraftShare_succ (len : ℕ) : kraftShare (len + 1) + kraftShare (len + 1) = kraftShare len := by
  unfold kraftShare
  rw [pow_succ]
  field_simp
  norm_num

theorem sum_kraftShare_nonneg {α : Type} (len : α → ℕ) (l : List α) : 0 ≤ (l.map fun i => kraftShare (len i)).sum :=
  List.sum_nonneg fun x hx => by
    obtain ⟨i, -, rfl⟩ := List.mem_map.1 hx
    exact (kraftShare_pos _).le

theorem length_str (c : HuffCode) : c.str.length = c.len.toNat := length_fieldBits _ _

theorem bitsValue_str {c : HuffCode} (h : c.bits.toNat < 2 ^ c.len.toNat) : bitsValue c.str = c.bits.toNat :=
  bitsValue_fieldBits _ _ h

/-- A code that goes on from another one lies in the other one's interval. -/
theorem fraction_mem_of_isPrefix {c d : HuffCode} (hc : c.bits.toNat < 2 ^ c.len.toNat)
    (hd : d.bits.toNat < 2 ^ d.len.toNat) (h : c.str <+: d.str) :
    c.fraction ≤ d.fraction ∧ d.fraction < c.fraction + kraftShare c.len.toNat := by
  obtain ⟨rest, hrest⟩ := h
  have hlen : d.len.toNat = c.len.toNat + rest.length := by
    rw [← length_str d, ← hrest, List.length_append, length_str]
  have hvalue : (d.bits.toNat : ℚ) = c.bits.toNat * 2 ^ rest.length + bitsValue rest := by
    rw [← bitsValue_str hd, ← hrest, bitsValue_append, bitsValue_str hc]
    push_cast
    rfl
  have hlt : (bitsValue rest : ℚ) < 2 ^ rest.length := by exact_mod_cast bitsValue_lt rest
  have hnonneg : (0 : ℚ) ≤ bitsValue rest := Nat.cast_nonneg _
  have hsplit : d.fraction = c.fraction + bitsValue rest / 2 ^ rest.length * kraftShare c.len.toNat := by
    rw [HuffCode.fraction, HuffCode.fraction, kraftShare, hvalue, hlen, pow_add]
    field_simp
  have hpos := kraftShare_pos c.len.toNat
  have hratio : (bitsValue rest : ℚ) / 2 ^ rest.length < 1 := (div_lt_one (by positivity)).2 hlt
  rw [hsplit]
  exact ⟨le_add_of_nonneg_right (by positivity), by nlinarith⟩

theorem PrefixFree.congr {str str' : ℕ → List Bool} {k : ℕ} (h : PrefixFree str k) (hstr : ∀ i < k, str' i = str i) :
    PrefixFree str' k := by
  intro i j hi hj hne hprefix
  rw [hstr i hi, hstr j hj] at hprefix
  exact h i j hi hj hne hprefix

/-- No code goes on from another one whose interval is apart from its own. -/
theorem prefixFree_of_apart {code : ℕ → HuffCode} {k : ℕ}
    (hfits : ∀ i < k, (code i).bits.toNat < 2 ^ (code i).len.toNat)
    (hapart : ∀ i < k, ∀ j < k, i ≠ j → (code i).fraction + kraftShare (code i).len.toNat ≤ (code j).fraction ∨
      (code j).fraction + kraftShare (code j).len.toNat ≤ (code i).fraction) :
    PrefixFree (fun i => (code i).str) k := by
  intro i j hi hj hne hprefix
  obtain ⟨hle, hlt⟩ := fraction_mem_of_isPrefix (hfits i hi) (hfits j hj) hprefix
  have hpos := kraftShare_pos (code j).len.toNat
  obtain hij | hji := hapart i hi j hj hne
  · exact absurd hlt (not_lt.2 hij)
  · linarith

end Sys2Proof.Machine
end

section
namespace Sys2Proof.Machine

/-! The canonical order (44_huffman.md R177): ascending by (length, index). -/

/-- `j` comes before `i` by (length, index). -/
abbrev CanonBefore (len : ℕ → ℕ) (j i : ℕ) : Prop := len j < len i ∨ len j = len i ∧ j < i

variable {lens : List ℕ}

theorem pairwise_canonOrder (lens : List ℕ) : (canonOrder lens).Pairwise (CanonBefore fun i => lens.getD i 0) := by
  refine List.pairwise_flatMap.2 ⟨fun len _ => ?_, List.pairwise_lt_range.imp fun {a b} hab j hj i hi => .inl ?_⟩
  · refine (List.pairwise_lt_range.sublist List.filter_sublist).imp_of_mem fun {j i} hj hi hji => .inr ⟨?_, hji⟩
    exact (beq_iff_eq.1 (List.mem_filter.1 hj).2).trans (beq_iff_eq.1 (List.mem_filter.1 hi).2).symm
  · exact (beq_iff_eq.1 (List.mem_filter.1 hj).2).trans_lt (hab.trans_eq (beq_iff_eq.1 (List.mem_filter.1 hi).2).symm)

theorem mem_canonOrder (hlens : ∀ l ∈ lens, l ≤ lenMax) {i : ℕ} : i ∈ canonOrder lens ↔ i < lens.length := by
  simp only [canonOrder, List.mem_flatMap, List.mem_filter, List.mem_range, beq_iff_eq]
  refine ⟨fun ⟨_, _, hi, _⟩ => hi, fun hi => ⟨lens.getD i 0, ?_, hi, rfl⟩⟩
  rw [List.getD_eq_getElem _ _ hi]
  exact Nat.lt_succ_of_le (hlens _ (List.getElem_mem hi))

theorem canonOrder_perm (hlens : ∀ l ∈ lens, l ≤ lenMax) : (canonOrder lens).Perm (List.range lens.length) := by
  have hnodup : (canonOrder lens).Nodup :=
    (pairwise_canonOrder lens).imp fun {j i} h heq => by subst heq; unfold CanonBefore at h; omega
  refine (List.perm_ext_iff_of_nodup hnodup List.nodup_range).2 fun i => ?_
  rw [mem_canonOrder hlens, List.mem_range]

/-- The symbols before one in the canonical order are those before it by (length, index). -/
theorem perm_filter_canonBefore (hlens : ∀ l ∈ lens, l ≤ lenMax) {pre post : List ℕ} {i : ℕ}
    (h : canonOrder lens = pre ++ i :: post) :
    pre.Perm ((List.range lens.length).filter fun j => decide (CanonBefore (fun i => lens.getD i 0) j i)) := by
  have hsorted := pairwise_canonOrder lens
  rw [h, List.pairwise_append, List.pairwise_cons] at hsorted
  obtain ⟨-, ⟨hpost, -⟩, hpre⟩ := hsorted
  have hkeep : pre.filter (fun j => decide (CanonBefore (fun i => lens.getD i 0) j i)) = pre :=
    List.filter_eq_self.2 fun j hj => decide_eq_true (hpre j hj i List.mem_cons_self)
  have hdrop : (i :: post).filter (fun j => decide (CanonBefore (fun i => lens.getD i 0) j i)) = [] := by
    refine List.filter_eq_nil_iff.2 fun j hj => ?_
    rw [decide_eq_true_iff]
    rcases List.mem_cons.1 hj with rfl | hj
    · omega
    · have := hpost j hj
      omega
  have hperm := (canonOrder_perm hlens).filter fun j => decide (CanonBefore (fun i => lens.getD i 0) j i)
  rwa [h, List.filter_append, hkeep, hdrop, List.append_nil] at hperm

end Sys2Proof.Machine
end

section
namespace Sys2Proof.Machine

/-! The numbers `canon` gives (44_huffman.md R177): as a binary fraction each is the sum of the shares before it, and
`canon` fails where that sum leaves no room. -/

variable {lens : List ℕ} {code len : ℕ}

/-- The share of a symbol. -/
def shareOf (lens : List ℕ) (i : ℕ) : ℚ := kraftShare (lens.getD i 0)

/-- Shifting a code to the length of the next symbol keeps its value. -/
theorem shiftLeft_div_two_pow {l : ℕ} (h : len ≤ l) : ((code <<< (l - len) : ℕ) : ℚ) / 2 ^ l = code / 2 ^ len := by
  obtain ⟨d, rfl⟩ := Nat.exists_eq_add_of_le h
  rw [Nat.add_sub_cancel_left, Nat.shiftLeft_eq, pow_add]
  push_cast
  field_simp

/-- The value handed on from a symbol to the next one: that of its code and its share. -/
theorem succ_shiftLeft_div {i : ℕ} (h : len ≤ lens.getD i 0) :
    ((code <<< (lens.getD i 0 - len) + 1 : ℕ) : ℚ) / 2 ^ lens.getD i 0 = code / 2 ^ len + shareOf lens i := by
  rw [Nat.cast_succ, add_div, shiftLeft_div_two_pow h, shareOf, kraftShare]

/-- Indices in ascending order of length, from the length `len` on. -/
def Ascending (lens : List ℕ) (len : ℕ) (idxs : List ℕ) : Prop :=
  (∀ i ∈ idxs, len ≤ lens.getD i 0) ∧ idxs.Pairwise fun i j => lens.getD i 0 ≤ lens.getD j 0

theorem Ascending.tail {i : ℕ} {rest : List ℕ} (h : Ascending lens len (i :: rest)) :
    Ascending lens (lens.getD i 0) rest := List.pairwise_cons.1 h.2

/-- The numbering fails exactly where the shares do not fit the unit interval. -/
theorem canonFrom_eq_none_iff {idxs : List ℕ} (hidxs : Ascending lens len idxs) (hroom : code ≤ 2 ^ len) :
    canonFrom lens code len idxs = none ↔ 1 < (code : ℚ) / 2 ^ len + (idxs.map (shareOf lens)).sum := by
  induction idxs generalizing code len with
  | nil =>
    have : (code : ℚ) / 2 ^ len ≤ 1 := (div_le_one (by positivity)).2 (by exact_mod_cast hroom)
    simpa [canonFrom] using this
  | cons i rest ih =>
    have hlen := hidxs.1 i List.mem_cons_self
    have hshift := shiftLeft_div_two_pow (code := code) hlen
    have hshare : 0 < shareOf lens i := kraftShare_pos _
    have hrest : 0 ≤ (rest.map (shareOf lens)).sum := sum_kraftShare_nonneg _ rest
    rw [canonFrom, List.map_cons, List.sum_cons]
    split_ifs with hfull
    · have hone : 1 ≤ (code : ℚ) / 2 ^ len := by
        rw [← hshift]
        exact (one_le_div (by positivity)).2 (by exact_mod_cast hfull)
      simp only [true_iff]
      linarith
    · rw [Option.map_eq_none_iff, ih hidxs.tail (by omega), succ_shiftLeft_div hlen, add_assoc]

/-- Each number, as a binary fraction, is where the numbering started and the shares before it. -/
theorem canonFrom_lookup {pre post : List ℕ} {i : ℕ} {codes : List (ℕ × ℕ)} (hidxs : Ascending lens len (pre ++ i :: post))
    (hnot : i ∉ pre) (h : canonFrom lens code len (pre ++ i :: post) = some codes) :
    ∃ c, codes.lookup i = some c ∧ (c : ℚ) / 2 ^ lens.getD i 0 = code / 2 ^ len + (pre.map (shareOf lens)).sum := by
  induction pre generalizing code len codes with
  | nil =>
    rw [List.nil_append, canonFrom] at h
    split_ifs at h
    obtain ⟨more, -, rfl⟩ := Option.map_eq_some_iff.1 h
    refine ⟨_, List.lookup_cons_self, ?_⟩
    rw [shiftLeft_div_two_pow (hidxs.1 i List.mem_cons_self), List.map_nil, List.sum_nil, add_zero]
  | cons j pre ih =>
    rw [List.cons_append, canonFrom] at h
    split_ifs at h
    obtain ⟨more, hmore, rfl⟩ := Option.map_eq_some_iff.1 h
    obtain ⟨hne, hnot⟩ := not_or.1 (List.mem_cons.not.1 hnot)
    obtain ⟨c, hc, hvalue⟩ := ih hidxs.tail hnot hmore
    refine ⟨c, by rw [List.lookup_cons, beq_false_of_ne hne]; exact hc, ?_⟩
    rw [hvalue, succ_shiftLeft_div (hidxs.1 j List.mem_cons_self), List.map_cons, List.sum_cons, add_assoc]

theorem ascending_canonOrder (lens : List ℕ) : Ascending lens 0 (canonOrder lens) :=
  ⟨fun _ _ => Nat.zero_le _, (pairwise_canonOrder lens).imp fun h => h.elim le_of_lt fun h => h.1.le⟩

/-- `canon` fails on a length of zero. -/
theorem canon_of_zero (h : 0 ∈ lens) : canon lens = .error .hLen0 :=
  if_pos (List.any_eq_true.2 ⟨0, h, rfl⟩)

theorem canon_of_pos (h : 0 ∉ lens) {codes : Option (List (ℕ × ℕ))} (hcodes : canonFrom lens 0 0 (canonOrder lens) = codes) :
    canon lens = codes.elim (.error .hOversub) fun codes =>
      .ok ((List.range lens.length).map fun i => HuffCode.mkCode (lens.getD i 0) ((codes.lookup i).getD 0)) := by
  have hany : ¬ lens.any (fun l => l == 0) = true := fun hany => by
    obtain ⟨l, hl, hzero⟩ := List.any_eq_true.1 hany
    exact h (beq_iff_eq.1 hzero ▸ hl)
  rw [canon, if_neg hany, hcodes]
  cases codes <;> rfl

/-- `canon` fails where the shares of the lengths exceed the unit interval, and only there. -/
theorem canonFrom_canonOrder_eq_none_iff (hlens : ∀ l ∈ lens, l ≤ lenMax) :
    canonFrom lens 0 0 (canonOrder lens) = none ↔ 1 < ((List.range lens.length).map (shareOf lens)).sum := by
  rw [canonFrom_eq_none_iff (ascending_canonOrder lens) (Nat.zero_le _), Nat.cast_zero, zero_div, zero_add,
    ((canonOrder_perm hlens).map (shareOf lens)).sum_eq]

theorem canon_of_oversub (h : 0 ∉ lens) (hlens : ∀ l ∈ lens, l ≤ lenMax)
    (hsum : 1 < ((List.range lens.length).map (shareOf lens)).sum) : canon lens = .error .hOversub :=
  canon_of_pos h ((canonFrom_canonOrder_eq_none_iff hlens).2 hsum)

/-- Codes canonical for the lengths: each of its length, its value the sum of the shares before it in the canonical order. -/
def Canonical (lens : List ℕ) (codes : ℕ → HuffCode) : Prop :=
  ∀ pre i post, canonOrder lens = pre ++ i :: post →
    (codes i).Ok ∧ (codes i).len.toNat = lens.getD i 0 ∧ (codes i).fraction = (pre.map (shareOf lens)).sum

theorem mkCode_len {len bits : ℕ} (h : len ≤ lenMax) : (HuffCode.mkCode len bits).len.toNat = len :=
  (BitVec.toNat_ofNat _ _).trans (Nat.mod_eq_of_lt (Nat.lt_succ_of_le h))

theorem mkCode_fraction {len bits : ℕ} (h : len ≤ lenMax) (hbits : bits < 2 ^ len) :
    (HuffCode.mkCode len bits).fraction = bits / 2 ^ len := by
  have hpow : 2 ^ len ≤ 2 ^ 255 := Nat.pow_le_pow_right (by omega) h
  have hval : (HuffCode.mkCode len bits).bits.toNat = bits :=
    (BitVec.toNat_ofNat _ _).trans (Nat.mod_eq_of_lt (hbits.trans_le hpow))
  rw [HuffCode.fraction, mkCode_len h, hval]

/-- Where the shares fit the unit interval `canon` gives the canonical codes. -/
theorem canon_of_sum_le_one (h : 0 ∉ lens) (hlens : ∀ l ∈ lens, l ≤ lenMax)
    (hsum : ((List.range lens.length).map (shareOf lens)).sum ≤ 1) :
    ∃ codes, canon lens = .ok (readMany codes lens.length) ∧ Canonical lens codes := by
  obtain ⟨pairs, hpairs⟩ := Option.ne_none_iff_exists'.1 ((canonFrom_canonOrder_eq_none_iff hlens).not.2 (not_lt.2 hsum))
  refine ⟨_, canon_of_pos h hpairs, fun pre i post hsplit => ?_⟩
  have hi : i < lens.length := (mem_canonOrder hlens).1 (by simp [hsplit])
  have hnot : i ∉ pre := fun hmem => by
    have hnodup := (canonOrder_perm hlens).nodup_iff.2 List.nodup_range
    rw [hsplit] at hnodup
    exact (List.nodup_append.1 hnodup).2.2 i hmem i List.mem_cons_self rfl
  obtain ⟨c, hc, hvalue⟩ := canonFrom_lookup (hsplit ▸ ascending_canonOrder lens) hnot (hsplit ▸ hpairs)
  have hfits : c < 2 ^ lens.getD i 0 := by
    obtain ⟨l1, l2, hmem, -⟩ := List.lookup_eq_some_iff.1 hc
    exact lt_of_mem_canonFrom hpairs (e := (i, c)) (by simp [hmem])
  have hmem : lens.getD i 0 ∈ lens := by
    rw [List.getD_eq_getElem _ _ hi]
    exact List.getElem_mem hi
  have hmax := hlens _ hmem
  have hpos : lens.getD i 0 ≠ 0 := fun hzero => h (hzero ▸ hmem)
  rw [hc, Option.getD_some]
  refine ⟨mkCode_ok _ _ (Nat.pos_of_ne_zero hpos) hmax hfits, mkCode_len hmax, ?_⟩
  rw [mkCode_fraction hmax hfits, hvalue, Nat.cast_zero, zero_div, zero_add]

variable {codes : ℕ → HuffCode}

theorem Canonical.of_lt (hcanon : Canonical lens codes) (hlens : ∀ l ∈ lens, l ≤ lenMax) {i : ℕ} (hi : i < lens.length) :
    (codes i).Ok ∧ (codes i).len.toNat = lens.getD i 0 ∧ (codes i).fraction =
      (((List.range lens.length).filter fun j => decide (CanonBefore (fun i => lens.getD i 0) j i)).map (shareOf lens)).sum := by
  obtain ⟨pre, post, hsplit⟩ := List.append_of_mem ((mem_canonOrder hlens).2 hi)
  obtain ⟨hok, hlen, hvalue⟩ := hcanon pre i post hsplit
  exact ⟨hok, hlen, hvalue.trans ((perm_filter_canonBefore hlens hsplit).map _).sum_eq⟩

/-- A code starts past the share of every code before it. -/
theorem Canonical.apart (hcanon : Canonical lens codes) {pre mid post : List ℕ} {i j : ℕ}
    (hsplit : canonOrder lens = pre ++ i :: (mid ++ j :: post)) :
    (codes i).fraction + kraftShare (codes i).len.toNat ≤ (codes j).fraction := by
  obtain ⟨-, hlen, hi⟩ := hcanon pre i _ hsplit
  obtain ⟨-, -, hj⟩ := hcanon (pre ++ i :: mid) j post (by simp [hsplit])
  have hmid : 0 ≤ (mid.map (shareOf lens)).sum := sum_kraftShare_nonneg _ mid
  rw [hi, hj, hlen, List.map_append, List.map_cons, List.sum_append, List.sum_cons, ← shareOf]
  linarith

theorem Canonical.prefixFree (hcanon : Canonical lens codes) (hlens : ∀ l ∈ lens, l ≤ lenMax) :
    PrefixFree (fun i => (codes i).str) lens.length := by
  refine prefixFree_of_apart (fun i hi => (hcanon.of_lt hlens hi).1.2) fun i hi j hj hne => ?_
  obtain ⟨pre, post, hsplit⟩ := List.append_of_mem ((mem_canonOrder hlens).2 hi)
  have hmem : j ∈ pre ++ i :: post := hsplit ▸ (mem_canonOrder hlens).2 hj
  rcases List.mem_append.1 hmem with hbefore | hafter
  · obtain ⟨pre1, pre2, rfl⟩ := List.append_of_mem hbefore
    exact .inr (hcanon.apart (pre := pre1) (mid := pre2) (post := post) (by simp [hsplit]))
  · obtain ⟨mid, post', rfl⟩ := List.append_of_mem ((List.mem_cons.1 hafter).resolve_left (Ne.symm hne))
    exact .inl (hcanon.apart hsplit)

end Sys2Proof.Machine
end

section
namespace Sys2Proof.Machine

/-! `HCANON` (44_huffman.md R177, R178). -/

variable {s : State}

/-- The lengths `HCANON` reads. -/
def State.lens (s : State) : List ℕ := readMany (fun i => (s.readCL i).toNat) s.k.toNat

@[simp] theorem length_lens (s : State) : s.lens.length = s.k.toNat := length_readMany _ _

theorem lens_le (s : State) : ∀ l ∈ s.lens, l ≤ lenMax := by
  intro l hl
  obtain ⟨i, -, rfl⟩ := List.mem_map.1 hl
  exact Nat.le_of_lt_succ (s.readCL i).isLt

theorem getD_lens {i : ℕ} (hi : i < s.k.toNat) : s.lens.getD i 0 = (s.readCL i).toNat := by
  rw [List.getD_eq_getElem?_getD, State.lens, getElem?_readMany, if_pos hi, Option.getD_some]

theorem zero_mem_lens : 0 ∈ s.lens ↔ ∃ i, i < s.k.toNat ∧ (s.readCL i).toNat = 0 := by
  simp [State.lens, readMany]

theorem zero_notMem_lens (h : ∀ i, i < s.k.toNat → (s.readCL i).toNat ≠ 0) : 0 ∉ s.lens := fun hmem => by
  obtain ⟨i, hi, hzero⟩ := zero_mem_lens.1 hmem
  exact h i hi hzero

theorem shareOf_lens {i : ℕ} (hi : i < s.k.toNat) : shareOf s.lens i = 1 / 2 ^ (s.readCL i).toNat := by
  rw [shareOf, getD_lens hi, kraftShare]

theorem sum_shareOf_lens (s : State) : ((List.range s.lens.length).map (shareOf s.lens)).sum =
    kraftSum (fun i => (s.readCL i).toNat) s.k.toNat := by
  rw [kraftSum, length_lens]
  exact congrArg List.sum (List.map_congr_left fun i hi => shareOf_lens (List.mem_range.1 hi))

theorem canon_lens_of_oversub (hpos : ∀ i, i < s.k.toNat → (s.readCL i).toNat ≠ 0)
    (hsum : 1 < kraftSum (fun i => (s.readCL i).toNat) s.k.toNat) : canon s.lens = .error .hOversub :=
  canon_of_oversub (zero_notMem_lens hpos) (lens_le s) (hsum.trans_eq (sum_shareOf_lens s).symm)

theorem bodyHcanon_of_error (hk : s.k.toNat ≤ s.params.symMax) {c : RetCode} (h : canon s.lens = .error c) :
    bodyHcanon s = .ret c { s with valid := { s.valid with ccv := false } } := by
  unfold State.lens at h
  simp only [bodyHcanon, if_neg (not_lt.2 hk), h]

theorem bodyHcanon_of_ok (hk : s.k.toNat ≤ s.params.symMax) {codes : List HuffCode} (h : canon s.lens = .ok codes) :
    bodyHcanon s = .ret .ok
      { s with mem := { s.mem with cc := s.mem.cc.fill codes }, valid := { s.valid with ccv := true } } := by
  unfold State.lens at h
  simp only [bodyHcanon, if_neg (not_lt.2 hk), h]

theorem exec_hcanon_of_error (hrun : Running s) (hk : s.k.toNat ≤ s.params.symMax) {c : RetCode}
    (h : canon s.lens = .error c) :
    exec .hcanon s = .next { s with status := retStatus 0x51#8 c, valid := { s.valid with ccv := false } } :=
  command_ret hrun.2 (bodyHcanon_of_error (s := recordOp 0x51#8 s) hk h) rfl

/-- The state `HCANON` leaves where it assigns the codes. -/
def State.hcanon (codes : ℕ → HuffCode) (s : State) : State :=
  { s with
    status := retStatus 0x51#8 .ok
    mem := { s.mem with cc := s.mem.cc.fill (readMany codes s.k.toNat) }
    valid := { s.valid with ccv := true } }

theorem exec_hcanon_of_ok (hrun : Running s) (hk : s.k.toNat ≤ s.params.symMax) {codes : ℕ → HuffCode}
    (h : canon s.lens = .ok (readMany codes s.k.toNat)) : exec .hcanon s = .next (s.hcanon codes) :=
  command_ret hrun.2 (bodyHcanon_of_ok (s := recordOp 0x51#8 s) hk h) rfl

/-- Where the lengths are positive and their shares fit, `HCANON` completes with the canonical codes. -/
theorem exists_exec_hcanon (hrun : Running s) (hk : s.k.toNat ≤ s.params.symMax)
    (hpos : ∀ i, i < s.k.toNat → (s.readCL i).toNat ≠ 0) (hsum : kraftSum (fun i => (s.readCL i).toNat) s.k.toNat ≤ 1) :
    ∃ codes, Canonical s.lens codes ∧ exec .hcanon s = .next (s.hcanon codes) := by
  obtain ⟨codes, hok, hcanon⟩ := canon_of_sum_le_one (zero_notMem_lens hpos) (lens_le s)
    ((sum_shareOf_lens s).trans_le hsum)
  exact ⟨codes, hcanon, exec_hcanon_of_ok hrun hk (length_lens s ▸ hok)⟩

/-- The sum of the shares before a symbol, in the terms of the lengths in `CL`. -/
theorem sum_shareOf_before {i : ℕ} (hi : i < s.k.toNat) :
    (((List.range s.lens.length).filter fun j => decide (CanonBefore (fun i => s.lens.getD i 0) j i)).map
      (shareOf s.lens)).sum =
    (((List.range s.k.toNat).filter fun j => decide (CanonBefore (fun i => (s.readCL i).toNat) j i)).map
      fun j => (1 : ℚ) / 2 ^ (s.readCL j).toNat).sum := by
  have hbefore : (List.range s.k.toNat).filter (fun j => decide (CanonBefore (fun i => s.lens.getD i 0) j i)) =
      (List.range s.k.toNat).filter fun j => decide (CanonBefore (fun i => (s.readCL i).toNat) j i) :=
    List.filter_congr fun j hj => by
      simp only [CanonBefore, getD_lens hi, getD_lens (List.mem_range.1 hj)]
  rw [length_lens, hbefore]
  exact congrArg List.sum (List.map_congr_left fun j hj => shareOf_lens (List.mem_range.1 (List.mem_filter.1 hj).1))

/-- What `HCANON` did where it returned `OK` (R178). -/
theorem exec_hcanon_inv {a : State} (hrun : Running s) (hexec : exec .hcanon s = .next a)
    (hok : a.status.code = .ret .ok) : s.k.toNat ≤ s.params.symMax ∧ ∃ codes, Canonical s.lens codes ∧
      a = s.hcanon codes := by
  by_cases hk : s.k.toNat ≤ s.params.symMax
  · refine ⟨hk, ?_⟩
    by_cases hzero : ∃ i, i < s.k.toNat ∧ (s.readCL i).toNat = 0
    · cases (exec_hcanon_of_error hrun hk (canon_of_zero (zero_mem_lens.2 hzero))).symm.trans hexec
      cases hok
    · have hpos : ∀ i, i < s.k.toNat → (s.readCL i).toNat ≠ 0 := fun i hi h0 => hzero ⟨i, hi, h0⟩
      by_cases hsum : kraftSum (fun i => (s.readCL i).toNat) s.k.toNat ≤ 1
      · obtain ⟨codes, hcanon, hnext⟩ := exists_exec_hcanon hrun hk hpos hsum
        exact ⟨codes, hcanon, Host.Outcome.next.inj (hexec.symm.trans hnext)⟩
      · cases (exec_hcanon_of_error hrun hk (canon_lens_of_oversub hpos (not_le.1 hsum))).symm.trans hexec
        cases hok
  · have hraise : bodyHcanon (recordOp 0x51#8 s) = .raise .state := if_pos (not_le.1 hk)
    cases (command_raise hrun.2 hraise).symm.trans hexec
    cases hok

variable {codes : ℕ → HuffCode}

theorem State.hcanon_readCC {i : ℕ} (hi : i < s.k.toNat) : (s.hcanon codes).readCC i = codes i :=
  getD_fill_readMany _ _ hi _

/-- What `CC` holds of a symbol after `HCANON`: a code of the length in `CL`, its value the sum of the shares before it. -/
theorem Canonical.readCC (h : Canonical s.lens codes) {i : ℕ} (hi : i < s.k.toNat) :
    ((s.hcanon codes).readCC i).Ok ∧ ((s.hcanon codes).readCC i).len.toNat = (s.readCL i).toNat ∧
      ((s.hcanon codes).readCC i).fraction =
        (((List.range s.k.toNat).filter fun j => decide (CanonBefore (fun i => (s.readCL i).toNat) j i)).map
          fun j => (1 : ℚ) / 2 ^ (s.readCL j).toNat).sum := by
  rw [State.hcanon_readCC hi, ← sum_shareOf_before hi, ← getD_lens hi]
  exact h.of_lt (lens_le s) (hi.trans_eq (length_lens s).symm)

theorem Canonical.prefixFree_readCC (h : Canonical s.lens codes) :
    PrefixFree (fun i => ((s.hcanon codes).readCC i).str) s.k.toNat :=
  (length_lens s ▸ h.prefixFree (lens_le s)).congr fun _ hi => congrArg HuffCode.str (State.hcanon_readCC hi)

/-- Settles O38: by the canonical order, the symbols before one are those of a smaller (length, index), and `canon` fails where
their shares leave no room. -/
theorem hcanonAssignsCanonicalCodes : Obligations.HcanonAssignsCanonicalCodes := by
  intro s hrun hk
  refine ⟨fun hzero => ?_, fun hpos hsum => ?_, fun hpos hsum => ?_⟩
  · exact exec_hcanon_of_error hrun hk (canon_of_zero (zero_mem_lens.2 hzero))
  · exact exec_hcanon_of_error hrun hk (canon_lens_of_oversub hpos hsum)
  · obtain ⟨codes, hcanon, hexec⟩ := exists_exec_hcanon hrun hk hpos hsum
    refine ⟨_, hexec, rfl, rfl, hcanon.prefixFree_readCC, fun i hi => ?_,
      fun i hi => getD_fill_readMany_of_le _ _ hi _⟩
    obtain ⟨-, hlen, hvalue⟩ := hcanon.readCC hi
    rw [HuffCode.fraction, hlen] at hvalue
    exact ⟨BitVec.eq_of_toNat_eq hlen, hvalue⟩

end Sys2Proof.Machine
end

section
namespace Sys2Proof.Machine

/-! When an insertion conflicts (44_huffman.md R180): with the strings of the trie that the code goes on from or that go on
from the code. -/

/-- Two bit strings of which one is the beginning of the other. -/
def Conflicting (a b : List Bool) : Prop := a <+: b ∨ b <+: a

theorem conflicting_cons_iff {x y : Bool} {a b : List Bool} :
    Conflicting (x :: a) (y :: b) ↔ x = y ∧ Conflicting a b := by
  rw [Conflicting, List.cons_prefix_cons, List.cons_prefix_cons, eq_comm (a := y), ← and_or_left, Conflicting]

theorem prefixFree_succ_iff {str : ℕ → List Bool} {k : ℕ} :
    PrefixFree str (k + 1) ↔ PrefixFree str k ∧ ∀ j < k, ¬ Conflicting (str k) (str j) := by
  constructor
  · refine fun h => ⟨fun i j hi hj => h i j (by omega) (by omega), fun j hj hconflict => ?_⟩
    exact hconflict.elim (h k j (by omega) (by omega) (by omega)) (h j k (by omega) (by omega) (by omega))
  · rintro ⟨hfree, hlast⟩ i j hi hj hne hprefix
    obtain hi | rfl := Nat.lt_succ_iff_lt_or_eq.1 hi
    · obtain hj | rfl := Nat.lt_succ_iff_lt_or_eq.1 hj
      · exact hfree i j hi hj hne hprefix
      · exact hlast i hi (.inr hprefix)
    · exact hlast j (by omega) (.inl hprefix)

/-- The child of a node at a bit. -/
def Trie.child (l r : Trie) (b : Bool) : Trie := if b then r else l

/-- A node with its child at a bit replaced. -/
def Trie.withChild (l r : Trie) (b : Bool) (t : Trie) : Trie := if b then .node l t else .node t r

theorem lookup_node_cons (l r : Trie) (b : Bool) (bits : List Bool) :
    (Trie.node l r).lookup (b :: bits) = (Trie.child l r b).lookup bits := by cases b <;> rfl

theorem insert_node_cons (i : BitVec 16) (l r : Trie) (b : Bool) (code : List Bool) :
    Trie.insert i (b :: code) (.node l r) = (Trie.insert i code (Trie.child l r b)).map (Trie.withChild l r b) := by
  cases b <;> rfl

theorem insert_absent_cons (i : BitVec 16) (b : Bool) (code : List Bool) :
    Trie.insert i (b :: code) .absent = (Trie.insert i code .absent).map (Trie.withChild .absent .absent b) := by
  cases b <;> rfl

@[simp] theorem lookup_absent (bits : List Bool) : Trie.absent.lookup bits = none := by cases bits <;> rfl

/-- Below every node of the trie there is a leaf: what insertions build below the root. -/
def Trie.Grown : Trie → Prop
  | .absent => True
  | .leaf _ => True
  | .node l r => (l ≠ .absent ∨ r ≠ .absent) ∧ l.Grown ∧ r.Grown

/-- A node whose children are grown: the root, bare or not. -/
def Trie.Rooted (t : Trie) : Prop := ∃ l r, t = .node l r ∧ l.Grown ∧ r.Grown

theorem Trie.Grown.exists_lookup {t : Trie} (h : t.Grown) (hne : t ≠ .absent) : ∃ bits i, t.lookup bits = some i := by
  induction t with
  | absent => exact absurd rfl hne
  | leaf i => exact ⟨[], i, rfl⟩
  | node l r ihl ihr =>
    obtain ⟨hl | hr, hgl, hgr⟩ := h
    · obtain ⟨bits, i, hbits⟩ := ihl hgl hl
      exact ⟨false :: bits, i, hbits⟩
    · obtain ⟨bits, i, hbits⟩ := ihr hgr hr
      exact ⟨true :: bits, i, hbits⟩

theorem Trie.Grown.child {l r : Trie} (hl : l.Grown) (hr : r.Grown) (b : Bool) : (Trie.child l r b).Grown := by
  cases b
  · exact hl
  · exact hr

theorem Trie.Grown.withChild {l r t : Trie} (hl : l.Grown) (hr : r.Grown) (ht : t.Grown) (hne : t ≠ .absent) (b : Bool) :
    (Trie.withChild l r b t).Grown ∧ (Trie.withChild l r b t).Rooted := by
  cases b
  · exact ⟨⟨.inl hne, ht, hr⟩, t, r, rfl, ht, hr⟩
  · exact ⟨⟨.inr hne, hl, ht⟩, l, t, rfl, hl, ht⟩

theorem rooted_bare : Trie.bare.Rooted := ⟨.absent, .absent, rfl, trivial, trivial⟩

theorem Trie.Rooted.ne_absent {t : Trie} (h : t.Rooted) : t ≠ .absent := by
  obtain ⟨l, r, rfl, -⟩ := h
  exact nofun

theorem Trie.Grown.insert {i : BitVec 16} {code : List Bool} {t u : Trie} (ht : t.Grown)
    (h : Trie.insert i code t = some u) : u.Grown ∧ u ≠ .absent := by
  induction code generalizing t u with
  | nil =>
    cases t with
    | absent => cases h; exact ⟨trivial, nofun⟩
    | leaf j => cases h
    | node l r => cases h
  | cons b code ih =>
    cases t with
    | leaf j => cases b <;> cases h
    | absent =>
      obtain ⟨v, hv, rfl⟩ := Option.map_eq_some_iff.1 ((insert_absent_cons i b code).symm.trans h)
      obtain ⟨hgrown, hne⟩ := ih (t := .absent) trivial hv
      obtain ⟨hu, hroot⟩ := Trie.Grown.withChild (l := .absent) (r := .absent) trivial trivial hgrown hne b
      exact ⟨hu, hroot.ne_absent⟩
    | node l r =>
      obtain ⟨v, hv, rfl⟩ := Option.map_eq_some_iff.1 ((insert_node_cons i l r b code).symm.trans h)
      obtain ⟨-, hl, hr⟩ := ht
      obtain ⟨hgrown, hne⟩ := ih (Trie.Grown.child hl hr b) hv
      obtain ⟨hu, hroot⟩ := Trie.Grown.withChild hl hr hgrown hne b
      exact ⟨hu, hroot.ne_absent⟩

/-- The code conflicts with a string of the trie. -/
def Trie.Conflicts (t : Trie) (code : List Bool) : Prop := ∃ bits i, t.lookup bits = some i ∧ Conflicting code bits

theorem conflicts_node_cons_iff {l r : Trie} {b : Bool} {code : List Bool} :
    (Trie.node l r).Conflicts (b :: code) ↔ (Trie.child l r b).Conflicts code := by
  constructor
  · rintro ⟨_ | ⟨c, bits⟩, i, hlookup, hconflict⟩
    · cases hlookup
    · obtain ⟨rfl, hrest⟩ := conflicting_cons_iff.1 hconflict
      exact ⟨bits, i, (lookup_node_cons l r b bits).symm.trans hlookup, hrest⟩
  · rintro ⟨bits, i, hlookup, hconflict⟩
    exact ⟨b :: bits, i, (lookup_node_cons l r b bits).trans hlookup, conflicting_cons_iff.2 ⟨rfl, hconflict⟩⟩

theorem insert_absent_ne_none (i : BitVec 16) (code : List Bool) : Trie.insert i code .absent ≠ none := by
  induction code with
  | nil => nofun
  | cons b code ih => rwa [insert_absent_cons, Ne, Option.map_eq_none_iff]

theorem Trie.Grown.insert_eq_none_iff {t : Trie} (ht : t.Grown) (i : BitVec 16) (code : List Bool) :
    Trie.insert i code t = none ↔ t.Conflicts code := by
  induction code generalizing t with
  | nil =>
    have hnil (hne : t ≠ .absent) : t.Conflicts [] := by
      obtain ⟨bits, j, hbits⟩ := ht.exists_lookup hne
      exact ⟨bits, j, hbits, .inl List.nil_prefix⟩
    cases t with
    | absent => exact iff_of_false nofun fun ⟨bits, j, hbits, _⟩ => by simp at hbits
    | leaf j => exact iff_of_true rfl (hnil nofun)
    | node l r => exact iff_of_true rfl (hnil nofun)
  | cons b code ih =>
    cases t with
    | absent => exact iff_of_false (insert_absent_ne_none i _) fun ⟨bits, j, hbits, _⟩ => by simp at hbits
    | leaf j =>
      refine iff_of_true ?_ ⟨[], j, rfl, .inr List.nil_prefix⟩
      cases b <;> rfl
    | node l r =>
      obtain ⟨-, hl, hr⟩ := ht
      rw [insert_node_cons, Option.map_eq_none_iff, ih (Trie.Grown.child hl hr b), conflicts_node_cons_iff]

/-- An insertion of a code at the root: the root stays one, and a conflict is one with a string of the trie. -/
theorem Trie.Rooted.insert_cases {t : Trie} (ht : t.Rooted) (i : BitVec 16) {code : List Bool} (hcode : code ≠ []) :
    (∃ u, Trie.insert i code t = some u ∧ u.Rooted ∧ ¬ t.Conflicts code) ∨
    (Trie.insert i code t = none ∧ t.Conflicts code) := by
  obtain ⟨l, r, rfl, hl, hr⟩ := ht
  cases code with
  | nil => exact absurd rfl hcode
  | cons b code =>
    have hchild := Trie.Grown.child hl hr b
    have hnone := hchild.insert_eq_none_iff i code
    rw [insert_node_cons, conflicts_node_cons_iff, ← hnone]
    cases hinsert : Trie.insert i code (Trie.child l r b) with
    | none => exact .inr ⟨rfl, rfl⟩
    | some v =>
      obtain ⟨hgrown, hne⟩ := hchild.insert hinsert
      exact .inl ⟨_, rfl, (Trie.Grown.withChild hl hr hgrown hne b).2, nofun⟩

end Sys2Proof.Machine
end

section
namespace Sys2Proof.Machine

/-! `HTRIE` (44_huffman.md R180, R181). -/

/-- The trie maps exactly the bit strings of the first `k` codes, each to its index. -/
def Trie.Represents (t : Trie) (codes : ℕ → HuffCode) (k : ℕ) : Prop :=
  ∀ (bits : List Bool) (i : BitVec 16), t.lookup bits = some i ↔ i.toNat < k ∧ bits = (codes i.toNat).str

variable {codes : ℕ → HuffCode} {k : ℕ} {t u : Trie}

theorem represents_bare (codes : ℕ → HuffCode) : Trie.bare.Represents codes 0 := by
  intro bits i
  refine iff_of_false ?_ fun h => Nat.not_lt_zero _ h.1
  rcases bits with _ | ⟨b, bits⟩
  · exact nofun
  · cases b <;> simp [Trie.bare, Trie.lookup]

theorem toNat_ofNat_sym (h : k < 2 ^ 16) : (BitVec.ofNat 16 k).toNat = k :=
  (BitVec.toNat_ofNat _ _).trans (Nat.mod_eq_of_lt h)

/-- A trie conflicts with a code exactly where the codes it stands for do. -/
theorem Trie.Represents.conflicts_iff (h : t.Represents codes k) (hk : k < 2 ^ 16) {code : List Bool} :
    t.Conflicts code ↔ ∃ j < k, Conflicting code (codes j).str := by
  constructor
  · rintro ⟨bits, i, hlookup, hconflict⟩
    obtain ⟨hi, rfl⟩ := (h bits i).1 hlookup
    exact ⟨_, hi, hconflict⟩
  · rintro ⟨j, hj, hconflict⟩
    have hsym : (BitVec.ofNat 16 j).toNat = j := toNat_ofNat_sym (by omega)
    exact ⟨_, _, (h _ (BitVec.ofNat 16 j)).2 ⟨by omega, rfl⟩, hsym.symm ▸ hconflict⟩

theorem Trie.Represents.insert (h : t.Represents codes k) (hk : k < 2 ^ 16) (hfree : ¬ t.Conflicts (codes k).str)
    (hinsert : Trie.insert (BitVec.ofNat 16 k) (codes k).str t = some u) : u.Represents codes (k + 1) := by
  intro bits i
  have hsym := toNat_ofNat_sym hk
  rw [lookup_insert _ _ _ _ hinsert]
  split_ifs with hbits
  · rw [Option.some_inj]
    constructor
    · rintro rfl
      exact ⟨by omega, by rw [hsym, hbits]⟩
    · rintro ⟨hi, hstr⟩
      refine BitVec.eq_of_toNat_eq (hsym.trans (Nat.eq_of_lt_succ_of_not_lt hi fun hlt => hfree ?_).symm)
      exact ⟨_, i, (h bits i).2 ⟨hlt, hstr⟩, .inl (hbits ▸ List.prefix_rfl)⟩
  · rw [h bits i]
    refine and_congr_left fun hstr => ⟨fun hi => by omega, fun hi => ?_⟩
    exact lt_of_le_of_ne (Nat.lt_succ_iff.1 hi) fun heq => hbits (heq ▸ hstr)

/-- Building on with codes of at least one bit: the trie stands for the codes added too, or one of them goes on from
another. -/
theorem trieBuild_spec {n : ℕ} (hroot : t.Rooted) (h : t.Represents codes k) (hfree : PrefixFree (fun i => (codes i).str) k)
    (hk : k + n ≤ 2 ^ 16) (hcodes : ∀ i, i < k + n → (codes i).str ≠ []) :
    (∃ u, trieBuild k ((List.range' k n).map codes) t = some u ∧ u.Represents codes (k + n) ∧
      PrefixFree (fun i => (codes i).str) (k + n)) ∨
    (trieBuild k ((List.range' k n).map codes) t = none ∧ ¬ PrefixFree (fun i => (codes i).str) (k + n)) := by
  induction n generalizing k t with
  | zero => exact .inl ⟨t, rfl, h, hfree⟩
  | succ n ih =>
    have hlt : k < 2 ^ 16 := by omega
    rw [List.range'_succ, List.map_cons, trieBuild]
    rw [show k + (n + 1) = k + 1 + n by omega] at hk hcodes ⊢
    obtain ⟨u, hinsert, hu, hno⟩ | ⟨hinsert, hyes⟩ := hroot.insert_cases (BitVec.ofNat 16 k) (hcodes k (by omega))
    · have hnext : PrefixFree (fun i => (codes i).str) (k + 1) := by
        refine prefixFree_succ_iff.2 ⟨hfree, fun j hj hconflict => hno ?_⟩
        exact (h.conflicts_iff hlt).2 ⟨j, hj, hconflict⟩
      rw [hinsert]
      exact ih hu (h.insert hlt hno hinsert) hnext (by omega) fun i hi => hcodes i (by omega)
    · obtain ⟨j, hj, hconflict⟩ := (h.conflicts_iff hlt).1 hyes
      refine .inr ⟨by rw [hinsert]; rfl, fun hall => ?_⟩
      exact hconflict.elim (hall k j (by omega) (by omega) (by omega)) (hall j k (by omega) (by omega) (by omega))

variable {s : State}

theorem bodyHtrie_of_none (hccv : s.valid.ccv = true) (hk : s.k.toNat ≤ s.params.symMax)
    (h : trieBuild 0 (readMany s.readCC s.k.toNat) Trie.bare = none) :
    bodyHtrie s = .ret .hOversub
      { s with mem := { s.mem with trie := none }, valid := { s.valid with trv := false } } := by
  simp [bodyHtrie, hccv, hk, h]

theorem bodyHtrie_of_some (hccv : s.valid.ccv = true) (hk : s.k.toNat ≤ s.params.symMax)
    (h : trieBuild 0 (readMany s.readCC s.k.toNat) Trie.bare = some t) :
    bodyHtrie s = .ret .ok
      { s with mem := { s.mem with trie := some t }, valid := { s.valid with trv := true } } := by
  simp [bodyHtrie, hccv, hk, h]

/-- The state `HTRIE` leaves where it builds the trie. -/
def State.htrie (t : Trie) (s : State) : State :=
  { s with
    status := retStatus 0x52#8 .ok
    mem := { s.mem with trie := some t }
    valid := { s.valid with trv := true } }

/-- What `HTRIE` answers with valid codes and `K` in range. -/
theorem exec_htrie_cases (hrun : Running s) (hccv : s.valid.ccv = true) (hk : s.k.toNat ≤ s.params.symMax)
    (hlen : ∀ i, i < s.k.toNat → 1 ≤ (s.readCC i).len.toNat) :
    (PrefixFree (fun i => (s.readCC i).str) s.k.toNat ∧ ∃ t : Trie, t.Represents s.readCC s.k.toNat ∧
      exec .htrie s = .next (s.htrie t)) ∨
    (¬ PrefixFree (fun i => (s.readCC i).str) s.k.toNat ∧
      exec .htrie s = .next { s with
        status := retStatus 0x52#8 .hOversub
        mem := { s.mem with trie := none }
        valid := { s.valid with trv := false } }) := by
  have hcodes : ∀ i, i < 0 + s.k.toNat → (s.readCC i).str ≠ [] := fun i hi hnil => by
    have hpos := hlen i (by omega)
    rw [← length_str, hnil] at hpos
    exact Nat.not_succ_le_zero _ hpos
  have hbuild := trieBuild_spec (n := s.k.toNat) rooted_bare (represents_bare s.readCC)
    (fun i _ hi => absurd hi (Nat.not_lt_zero i)) (by have := s.k.isLt; omega) hcodes
  rw [Nat.zero_add, ← List.range_eq_range'] at hbuild
  obtain ⟨t, ht, hrep, hfree⟩ | ⟨hnone, hnot⟩ := hbuild
  · exact .inl ⟨hfree, t, hrep, command_ret hrun.2 (bodyHtrie_of_some (s := recordOp 0x52#8 s) hccv hk ht) rfl⟩
  · exact .inr ⟨hnot, command_ret hrun.2 (bodyHtrie_of_none (s := recordOp 0x52#8 s) hccv hk hnone) rfl⟩

/-- Settles O39: an insertion conflicts exactly with the codes before it that it goes on from or that go on from it. -/
theorem htrieBuildsTheFunction : Obligations.HtrieBuildsTheFunction := by
  intro s hrun hccv hk hlen
  obtain ⟨hfree, t, hrep, hexec⟩ | ⟨hnot, hexec⟩ := exec_htrie_cases hrun hccv hk hlen
  · exact ⟨fun _ => ⟨_, t, hexec, rfl, rfl, rfl, hrep⟩, fun hnot => absurd hfree hnot⟩
  · exact ⟨fun hfree => absurd hfree hnot, fun _ => ⟨_, hexec, rfl, rfl⟩⟩

end Sys2Proof.Machine
end

section
namespace Sys2Proof.Machine

/-! `HDECSYM` (44_huffman.md R182, R183): the walk along the stream the reader has yet to read. -/

variable {s : State} {t : Trie}

/-- `u` is `s` with the reader moved by `n` bits. -/
def ReadOn (s u : State) (n : ℕ) : Prop := u = { s with r := u.r } ∧ u.r.cap = s.r.cap ∧ u.rpos = s.rpos + n

theorem ReadOn.refl (s : State) : ReadOn s s 0 := ⟨rfl, rfl, rfl⟩

theorem ReadOn.trans {s u v : State} {m n : ℕ} (h1 : ReadOn s u m) (h2 : ReadOn u v n) : ReadOn s v (m + n) := by
  obtain ⟨hframe1, hcap1, hpos1⟩ := h1
  obtain ⟨hframe2, hcap2, hpos2⟩ := h2
  exact ⟨by rw [hframe2, hframe1], hcap2.trans hcap1, by rw [hpos2, hpos1, Nat.add_assoc]⟩

theorem readBit_of_rest_nil (h : s.rest = []) : readBit s = none := by
  obtain ⟨-, hnone⟩ | ⟨hroom, -⟩ := readBit_cases s
  · exact hnone
  · have hlen := congrArg List.length h
    simp only [State.rest, List.length_map, List.length_range, List.length_nil] at hlen
    omega

/-- The next bit of the stream is read, and the reader goes on from the bit after it. -/
theorem readBit_of_rest_cons {b : Bool} {after : List Bool} (h : s.rest = b :: after) :
    ∃ u, readBit s = some (b, u) ∧ u.rest = after ∧ ReadOn s u 1 := by
  have hlen := congrArg List.length h
  simp only [State.rest, List.length_map, List.length_range, List.length_cons] at hlen
  obtain ⟨hfull, -⟩ | ⟨-, c, u, hread, hbit, hpos, hcap, hframe⟩ := readBit_cases s
  · omega
  · have hsplit : s.rest = s.streamBit s.rpos :: u.rest := by
      have hbits : u.streamBit = s.streamBit := by rw [hframe]; rfl
      rw [State.rest, State.rest, hcap, hpos, hbits,
        show 8 * s.r.cap.toNat - s.rpos = 8 * s.r.cap.toNat - (s.rpos + 1) + 1 by omega, List.range_succ_eq_map,
        List.map_cons, List.map_map]
      refine congrArg (List.cons _) (List.map_congr_left fun k _ => ?_)
      exact congrArg s.streamBit (by rw [Nat.succ_eq_add_one]; omega)
    obtain ⟨hb, hafter⟩ := List.cons.inj (hsplit.symm.trans h)
    exact ⟨u, by rw [hread, hbit, ← hb]; rfl, hafter, hframe, hcap, hpos⟩

theorem walk_node {l r : Trie} {b : Bool} {u : State} (h : readBit s = some (b, u)) :
    walk (.node l r) s = walk (Trie.child l r b) u := by
  simp only [walk, h]
  cases b <;> rfl

theorem walk_node_of_rest_nil {l r : Trie} (h : s.rest = []) : walk (.node l r) s = (.underflow, s) := by
  simp only [walk, readBit_of_rest_nil h]

theorem descend_node_cons (l r : Trie) (b : Bool) (path : List Bool) :
    (Trie.node l r).descend (b :: path) = (Trie.child l r b).descend path := by cases b <;> rfl

@[simp] theorem descend_nil (t : Trie) : t.descend [] = t := by cases t <;> rfl

@[simp] theorem descend_leaf_cons (i : BitVec 16) (b : Bool) (path : List Bool) :
    (Trie.leaf i).descend (b :: path) = .absent := by simp [Trie.descend]

@[simp] theorem descend_absent (path : List Bool) : Trie.absent.descend path = .absent := by
  cases path <;> simp [Trie.descend]

theorem descend_append (t : Trie) (path path' : List Bool) : t.descend (path ++ path') = (t.descend path).descend path' := by
  induction path generalizing t with
  | nil => rw [List.nil_append, descend_nil]
  | cons b path ih =>
    cases t with
    | node l r => rw [List.cons_append, descend_node_cons, descend_node_cons, ih]
    | leaf i => simp
    | absent => simp

theorem descend_of_lookup {code : List Bool} {i : BitVec 16} (h : t.lookup code = some i) : t.descend code = .leaf i := by
  induction code generalizing t with
  | nil =>
    cases t with
    | leaf j => cases h; rfl
    | node l r => cases h
    | absent => cases h
  | cons b code ih =>
    cases t with
    | leaf j => cases h
    | node l r => exact (descend_node_cons l r b code).trans (ih ((lookup_node_cons l r b code).symm.trans h))
    | absent => cases h

/-- While the stream goes on with a path of the trie, the walk follows it. -/
theorem walk_descend {path after : List Bool} (hrest : s.rest = path ++ after) (hpath : t.descend path ≠ .absent) :
    ∃ u, walk t s = walk (t.descend path) u ∧ u.rest = after ∧ ReadOn s u path.length := by
  induction path generalizing t s with
  | nil => exact ⟨s, by rw [descend_nil], hrest, .refl s⟩
  | cons b path ih =>
    cases t with
    | leaf i => exact absurd (descend_leaf_cons i b path) hpath
    | absent => exact absurd (descend_absent _) hpath
    | node l r =>
      rw [descend_node_cons] at hpath ⊢
      obtain ⟨u, hread, hu, hon⟩ := readBit_of_rest_cons hrest
      obtain ⟨v, hwalk, hv, hon'⟩ := ih hu hpath
      rw [List.length_cons, Nat.add_comm]
      exact ⟨v, (walk_node hread).trans hwalk, hv, hon.trans hon'⟩

theorem Trie.isNode_iff : t.isNode = true ↔ ∃ l r, t = .node l r := by
  cases t <;> simp [Trie.isNode]

theorem length_rest (s : State) : s.rest.length = 8 * s.r.cap.toNat - s.rpos := by simp [State.rest]

/-- The result of a walk's end (R183): the symbol goes to `SYMR`. -/
def walkResult : Walk × State → Result
  | (.sym i, u) => .ret .ok { u with symr := i }
  | (.underflow, u) => .ret .eUnderflow u
  | (.dead, u) => .ret .dBadcode u

theorem bodyHdecsym_eq (htrv : s.valid.trv = true) (hrv : s.valid.rv = true) (htrie : s.mem.trie = some t) :
    bodyHdecsym s = walkResult (walk t s) := by
  rw [bodyHdecsym, State.readTrie, htrie]
  simp only [htrv, hrv, Bool.not_true, Bool.false_eq_true, if_false, Option.getD_some]
  rcases walk t s with ⟨_ | _ | _, u⟩ <;> rfl

theorem ReadOn.status {u : State} {n : ℕ} (h : ReadOn s u n) : u.status = s.status := by rw [h.1]

theorem ReadOn.symr {u : State} {n : ℕ} (h : ReadOn s u n) : u.symr = s.symr := by rw [h.1]

section
variable (hrun : Running s) (htrv : s.valid.trv = true) (hrv : s.valid.rv = true) (htrie : s.mem.trie = some t)
include hrun htrv hrv htrie

/-- A stream that goes on with a code of the trie. -/
theorem exec_hdecsym_of_lookup {code after : List Bool} {i : BitVec 16} (hrest : s.rest = code ++ after)
    (hlookup : t.lookup code = some i) :
    ∃ u, exec .hdecsym s = .next u ∧ u.status = retStatus 0x53#8 .ok ∧ u.symr = i ∧ u.rpos = s.rpos + code.length := by
  have hleaf := descend_of_lookup hlookup
  obtain ⟨u, hwalk, -, hon⟩ := walk_descend (s := recordOp 0x53#8 s) hrest (t := t) (by rw [hleaf]; nofun)
  have hbody := (bodyHdecsym_eq (s := recordOp 0x53#8 s) htrv hrv htrie).trans (congrArg walkResult hwalk)
  rw [hleaf] at hbody
  exact ⟨_, command_ret hrun.2 hbody hon.status, rfl, rfl, hon.2.2⟩

/-- A stream that ends at a node of the trie. -/
theorem exec_hdecsym_of_isNode (hnode : (t.descend s.rest).isNode = true) :
    ∃ u, exec .hdecsym s = .next u ∧ u.status = retStatus 0x53#8 .eUnderflow ∧ u.symr = s.symr ∧
      u.rpos = s.rpos + s.rest.length := by
  obtain ⟨l, r, hdescend⟩ := Trie.isNode_iff.1 hnode
  obtain ⟨u, hwalk, hnil, hon⟩ := walk_descend (s := recordOp 0x53#8 s) (List.append_nil _).symm (t := t)
    (hdescend.trans_ne nofun)
  have hend : walk (t.descend s.rest) u = (.underflow, u) := hdescend ▸ walk_node_of_rest_nil hnil
  have hbody := (bodyHdecsym_eq (s := recordOp 0x53#8 s) htrv hrv htrie).trans
    (congrArg walkResult (hwalk.trans hend))
  exact ⟨_, command_ret hrun.2 hbody hon.status, rfl, hon.symr, hon.2.2⟩

/-- A stream that leaves the trie. -/
theorem exec_hdecsym_of_absent {path after : List Bool} {b : Bool} (hrest : s.rest = path ++ b :: after)
    (hnode : (t.descend path).isNode = true) (habsent : t.descend (path ++ [b]) = .absent) :
    ∃ u, exec .hdecsym s = .next u ∧ u.status = retStatus 0x53#8 .dBadcode ∧ u.symr = s.symr ∧
      u.rpos = s.rpos + path.length + 1 := by
  obtain ⟨l, r, hdescend⟩ := Trie.isNode_iff.1 hnode
  rw [descend_append, hdescend, descend_node_cons, descend_nil] at habsent
  obtain ⟨u, hwalk, hnext, hon⟩ := walk_descend (s := recordOp 0x53#8 s) hrest (t := t) (hdescend.trans_ne nofun)
  obtain ⟨v, hread, -, hon'⟩ := readBit_of_rest_cons hnext
  have hend : walk (t.descend path) u = (.dead, v) := by
    rw [hdescend, walk_node hread, habsent]
    rfl
  have hbody := (bodyHdecsym_eq (s := recordOp 0x53#8 s) htrv hrv htrie).trans
    (congrArg walkResult (hwalk.trans hend))
  have hboth := hon.trans hon'
  exact ⟨_, command_ret hrun.2 hbody hboth.status, rfl, hboth.symr, hboth.2.2.trans (Nat.add_assoc _ _ _).symm⟩

end

/-- Settles O40: the walk follows the stream as long as it is a path of the trie. -/
theorem hdecsymWalksTheTrie : Obligations.HdecsymWalksTheTrie := by
  intro s t hrun htrv hrv htrie hpos
  refine ⟨fun code after i => exec_hdecsym_of_lookup hrun htrv hrv htrie, fun hnode => ?_,
    fun path b after => exec_hdecsym_of_absent hrun htrv hrv htrie⟩
  obtain ⟨u, hexec, hstatus, hsymr, hend⟩ := exec_hdecsym_of_isNode hrun htrv hrv htrie hnode
  rw [length_rest, Nat.add_sub_cancel' hpos] at hend
  exact ⟨u, hexec, hstatus, hsymr, hend⟩

/-- Settles O41: the trie of the canonical codes maps the string of each to its symbol, and the walk follows the string. -/
theorem decodingInvertsCanonicalCodes : Obligations.DecodingInvertsCanonicalCodes := by
  intro s a hrun hexec hok
  obtain ⟨hk, codes, hcanon, rfl⟩ := exec_hcanon_inv hrun hexec hok
  have hrun' : Running (s.hcanon codes) := ⟨hrun.1, rfl⟩
  have hpos : ∀ i, i < s.k.toNat → 1 ≤ ((s.hcanon codes).readCC i).len.toNat := fun i hi =>
    (hcanon.readCC hi).1.1
  obtain ⟨-, t, hrep, hnext⟩ | ⟨hnot, -⟩ := exec_htrie_cases hrun' rfl hk hpos
  · refine ⟨_, hnext, rfl, fun i after hi hrv hroom hrest => ?_⟩
    have hsym : (BitVec.ofNat 16 i).toNat = i := toNat_ofNat_sym (hi.trans s.k.isLt)
    have hlookup := (hrep ((s.hcanon codes).readCC i).str (BitVec.ofNat 16 i)).2 ⟨hsym.trans_lt hi, by rw [hsym]⟩
    obtain ⟨u, hdec, hstatus, hsymr, hend⟩ :=
      exec_hdecsym_of_lookup (s := (s.hcanon codes).htrie t) ⟨hrun.1, rfl⟩ rfl hrv rfl hrest hlookup
    rw [length_str, (hcanon.readCC hi).2.1] at hend
    exact ⟨u, hdec, by rw [hstatus]; rfl, by rw [hsymr, hsym], hend⟩
  · exact absurd hcanon.prefixFree_readCC hnot

end Sys2Proof.Machine
end

section
namespace Sys2Proof.Machine

/-! The leaves of a Huffman tree and the paths to them (44_huffman.md R174). -/

/-- The symbols of the leaves, from left to right. -/
def HTree.leaves : HTree → List ℕ
  | .leaf i => [i]
  | .node l r => l.leaves ++ r.leaves

theorem length_leaves_pos (t : HTree) : 0 < t.leaves.length := by
  induction t with
  | leaf i => exact Nat.one_pos
  | node l r ihl _ => rw [HTree.leaves, List.length_append]; omega

theorem mem_leaves_of_leafAt {t : HTree} {p : List Bool} {i : ℕ} (h : t.leafAt p = some i) : i ∈ t.leaves := by
  induction t generalizing p with
  | leaf j =>
    cases p with
    | nil => cases h; exact List.mem_singleton_self _
    | cons b p => cases h
  | node l r ihl ihr =>
    rcases p with _ | ⟨_ | _, p⟩
    · cases h
    · exact List.mem_append_left _ (ihl h)
    · exact List.mem_append_right _ (ihr h)

theorem mem_leaves_of_path {t : HTree} {p : List Bool} {i : ℕ} (h : t.path i = some p) : i ∈ t.leaves :=
  mem_leaves_of_leafAt (leafAt_of_path _ _ _ h)

/-- In a tree whose leaves are distinct, `HTree.path` finds the path to each. -/
theorem path_of_leafAt {t : HTree} (hnodup : t.leaves.Nodup) {p : List Bool} {i : ℕ} (h : t.leafAt p = some i) :
    t.path i = some p := by
  induction t generalizing p with
  | leaf j =>
    cases p with
    | nil => cases h; exact if_pos rfl
    | cons b p => cases h
  | node l r ihl ihr =>
    obtain ⟨hl, hr, hdisjoint⟩ := List.nodup_append.1 hnodup
    rcases p with _ | ⟨_ | _, p⟩
    · cases h
    · rw [HTree.path, ihl hl h]
    · have hright : r.leafAt p = some i := h
      cases hleft : l.path i with
      | none => rw [HTree.path, hleft]; exact congrArg (Option.map _) (ihr hr hright)
      | some q => exact absurd rfl (hdisjoint i (mem_leaves_of_path hleft) i (mem_leaves_of_leafAt hright))

/-- A path is shorter than the number of leaves. -/
theorem length_lt_of_leafAt {t : HTree} {p : List Bool} {i : ℕ} (h : t.leafAt p = some i) :
    p.length < t.leaves.length := by
  induction t generalizing p with
  | leaf j =>
    cases p with
    | nil => exact Nat.one_pos
    | cons b p => cases h
  | node l r ihl ihr =>
    have hl := length_leaves_pos l
    have hr := length_leaves_pos r
    rw [HTree.leaves, List.length_append]
    rcases p with _ | ⟨_ | _, p⟩
    · cases h
    · have := ihl h
      rw [List.length_cons]
      omega
    · have := ihr h
      rw [List.length_cons]
      omega

/-- No path to a leaf goes on from a path to a leaf. -/
theorem eq_of_leafAt_of_isPrefix {t : HTree} {p q : List Bool} {i j : ℕ} (hp : t.leafAt p = some i)
    (hq : t.leafAt q = some j) (h : p <+: q) : i = j := by
  induction t generalizing p q with
  | leaf s =>
    cases p with
    | cons b p => cases hp
    | nil =>
      cases q with
      | cons b q => cases hq
      | nil => exact Option.some.inj (hp.symm.trans hq)
  | node l r ihl ihr =>
    cases p with
    | nil => cases hp
    | cons b p =>
      cases q with
      | nil => cases hq
      | cons c q =>
        obtain ⟨rfl, hrest⟩ := List.cons_prefix_cons.1 h
        cases b
        · exact ihl hp hq hrest
        · exact ihr hp hq hrest

/-- The loop of R172 keeps every leaf. -/
theorem HuffBuilds.leaves_perm {next : ℕ} {nodes : List HNode} {tree : HTree} (h : HuffBuilds next nodes tree) :
    tree.leaves.Perm (nodes.flatMap fun x => x.tree.leaves) := by
  induction h with
  | root next a => simp
  | merge next nodes rest a b tree hperm _ _ _ ih =>
    refine ih.trans (.trans ?_ (hperm.flatMap_right _).symm)
    simp [HTree.leaves]

end Sys2Proof.Machine
end

section
namespace Sys2Proof.Machine

/-! Where the loop of R172 puts its nodes: the shares of their depths fill the unit interval, and a deeper node is no more
frequent (44_huffman.md R179). -/

/-- A list of nodes as (frequency, depth): a node deeper than another one by `gap + 1` is lighter by `gap` times the least
frequency at least. Without the gap the claim would not survive a merge: the children of a light node can be deep. -/
def DepthOrdered (l : List (ℕ × ℕ)) : Prop :=
  ∀ least, (∀ z ∈ l, least ≤ z.1) → ∀ x ∈ l, ∀ y ∈ l, ∀ gap, y.2 + 1 + gap ≤ x.2 → x.1 + gap * least ≤ y.1

theorem DepthOrdered.perm {l l' : List (ℕ × ℕ)} (h : DepthOrdered l) (hperm : l.Perm l') : DepthOrdered l' :=
  fun least hleast x hx y hy =>
    h least (fun z hz => hleast z (hperm.mem_iff.1 hz)) x (hperm.mem_iff.2 hx) y (hperm.mem_iff.2 hy)

/-- Splitting a node into the two least nodes it was merged from. -/
theorem DepthOrdered.split {l : List (ℕ × ℕ)} {f g d : ℕ} (h : DepthOrdered ((f + g, d) :: l)) (hfg : f ≤ g)
    (hg : ∀ z ∈ l, g ≤ z.1) : DepthOrdered ((f, d + 1) :: (g, d + 1) :: l) := by
  intro least hleast
  have hf : least ≤ f := hleast (f, d + 1) (by simp)
  have hrest : ∀ z ∈ l, least ≤ z.1 := fun z hz => hleast z (by simp [hz])
  have hmerged : ∀ z ∈ (f + g, d) :: l, least ≤ z.1 := List.forall_mem_cons.2 ⟨by dsimp only; omega, hrest⟩
  have hmerged' : ∀ z ∈ (f + g, d) :: l, g ≤ z.1 := List.forall_mem_cons.2 ⟨Nat.le_add_left g f, hg⟩
  have hchild : ∀ c, c = (f, d + 1) ∨ c = (g, d + 1) → c.2 = d + 1 ∧ f ≤ c.1 ∧ c.1 ≤ g ∧ c.1 + least ≤ f + g := by
    rintro c (rfl | rfl)
    · exact ⟨rfl, le_rfl, hfg, Nat.add_le_add_left (hf.trans hfg) f⟩
    · exact ⟨rfl, hfg, le_rfl, by dsimp only; omega⟩
  intro x hx y hy gap hgap
  rw [List.mem_cons, List.mem_cons, ← or_assoc] at hx hy
  obtain hx | hx := hx <;> obtain hy | hy := hy
  · have := hchild x hx
    have := hchild y hy
    omega
  · obtain ⟨hdepth, -, hle, hroom⟩ := hchild x hx
    cases gap with
    | zero => rw [Nat.zero_mul]; exact hle.trans (hg y hy)
    | succ gap =>
      have := h least hmerged _ List.mem_cons_self y (List.mem_cons_of_mem _ hy) gap (by dsimp only; omega)
      rw [Nat.succ_mul]
      dsimp only at this
      omega
  · obtain ⟨hdepth, hle, -⟩ := hchild y hy
    have hdeep := h g hmerged' x (List.mem_cons_of_mem _ hx) _ List.mem_cons_self (gap + 1) (by dsimp only; omega)
    have hmul : gap * least ≤ gap * g := Nat.mul_le_mul_left gap (hf.trans hfg)
    rw [Nat.succ_mul] at hdeep
    dsimp only at hdeep
    omega
  · exact h least hmerged x (List.mem_cons_of_mem _ hx) y (List.mem_cons_of_mem _ hy) gap hgap

/-- The nodes of a list, each with the path to it in the tree. -/
structure Placement (nodes : List HNode) (tree : HTree) (placed : List (HNode × List Bool)) : Prop where
  perm : (placed.map Prod.fst).Perm nodes
  leafAt : ∀ e ∈ placed, ∀ p, tree.leafAt (e.2 ++ p) = e.1.tree.leafAt p
  kraft : (placed.map fun e => kraftShare e.2.length).sum = 1
  ordered : DepthOrdered (placed.map fun e => (e.1.freq, e.2.length))

theorem Placement.of_perm {nodes : List HNode} {tree : HTree} {placed placed' : List (HNode × List Bool)}
    (h : Placement nodes tree placed) (hperm : placed.Perm placed') : Placement nodes tree placed' where
  perm := (hperm.map _).symm.trans h.perm
  leafAt := fun e he => h.leafAt e (hperm.mem_iff.2 he)
  kraft := (hperm.map _).sum_eq.symm.trans h.kraft
  ordered := h.ordered.perm (hperm.map _)

/-- The placement of a list with its first node placed first. -/
theorem Placement.exists_cons {a : HNode} {nodes : List HNode} {tree : HTree} {placed : List (HNode × List Bool)}
    (h : Placement (a :: nodes) tree placed) :
    ∃ p placed', Placement (a :: nodes) tree ((a, p) :: placed') ∧ (placed'.map Prod.fst).Perm nodes := by
  obtain ⟨⟨x, p⟩, he, rfl⟩ := List.mem_map.1 (h.perm.mem_iff.2 List.mem_cons_self)
  obtain ⟨l1, l2, rfl⟩ := List.append_of_mem he
  have h' := h.of_perm List.perm_middle
  exact ⟨p, l1 ++ l2, h', h'.perm.cons_inv⟩

/-- Splitting a merged node: the left child at `0` and the right child at `1` below its path. -/
theorem Placement.split {a b : HNode} {seq : ℕ} {rest : List HNode} {tree : HTree} {p : List Bool}
    {placed : List (HNode × List Bool)} {merged : List HNode}
    (h : Placement merged tree (({ freq := a.freq + b.freq, seq := seq, tree := .node a.tree b.tree }, p) :: placed))
    (hperm : (placed.map Prod.fst).Perm rest) (hab : a.freq ≤ b.freq) (hb : ∀ x ∈ rest, b.freq ≤ x.freq) :
    Placement (a :: b :: rest) tree ((a, p ++ [false]) :: (b, p ++ [true]) :: placed) where
  perm := (hperm.cons b).cons a
  leafAt := by
    have hnode := h.leafAt _ List.mem_cons_self
    refine List.forall_mem_cons.2 ⟨fun q => ?_, List.forall_mem_cons.2 ⟨fun q => ?_, fun e he => ?_⟩⟩
    · rw [List.append_assoc]; exact hnode (false :: q)
    · rw [List.append_assoc]; exact hnode (true :: q)
    · exact h.leafAt e (List.mem_cons_of_mem _ he)
  kraft := by
    have hsum := h.kraft
    rw [List.map_cons, List.sum_cons, ← kraftShare_succ, add_assoc] at hsum
    simpa using hsum
  ordered := by
    have hsplit := DepthOrdered.split h.ordered hab fun z hz => by
      obtain ⟨e, he, rfl⟩ := List.mem_map.1 hz
      exact hb _ (hperm.mem_iff.1 (List.mem_map_of_mem he))
    simpa using hsplit

/-- The tree of R172 places every node of the list it is built from. -/
theorem HuffBuilds.exists_placement {next : ℕ} {nodes : List HNode} {tree : HTree} (h : HuffBuilds next nodes tree) :
    ∃ placed, Placement nodes tree placed := by
  induction h with
  | root next a =>
    refine ⟨[(a, [])], .refl _, by simp, by simp [kraftShare], fun least _ x hx y hy gap hgap => ?_⟩
    rw [List.map_singleton, List.mem_singleton] at hx hy
    subst hx hy
    omega
  | merge next nodes rest a b tree hperm ha hb _ ih =>
    obtain ⟨placed, hplaced⟩ := ih
    obtain ⟨p, placed', hplaced', hrest⟩ := hplaced.exists_cons
    have hab : a.freq ≤ b.freq := by
      have := ha b (hperm.mem_iff.2 (by simp))
      omega
    have hleast : ∀ x ∈ rest, b.freq ≤ x.freq := fun x hx => by
      have := hb x (List.mem_cons_of_mem _ hx)
      omega
    have hsplit := hplaced'.split hrest hab hleast
    exact ⟨_, { hsplit with perm := hsplit.perm.trans hperm.symm }⟩

end Sys2Proof.Machine
end

section
namespace Sys2Proof.Machine

/-! The codes of `HBUILD` (44_huffman.md R172 to R175, R179). -/

variable {freq : ℕ → ℕ} {k : ℕ} {root : HTree}

/-- The leaves of R172. -/
def symbolLeaves (freq : ℕ → ℕ) (k : ℕ) : List HNode :=
  (List.range k).map fun i => { freq := freq i, seq := i, tree := .leaf i }

@[simp] theorem length_symbolLeaves (freq : ℕ → ℕ) (k : ℕ) : (symbolLeaves freq k).length = k := by simp [symbolLeaves]

theorem huffLeaves_readMany (freq : ℕ → ℕ) (k : ℕ) : huffLeaves (readMany freq k) = symbolLeaves freq k := by
  refine List.ext_getElem (by simp) fun i _ _ => ?_
  simp [huffLeaves, symbolLeaves, readMany]

theorem flatMap_leaves_symbolLeaves (freq : ℕ → ℕ) (k : ℕ) :
    ((symbolLeaves freq k).flatMap fun x => x.tree.leaves) = List.range k := by
  simp [symbolLeaves, List.flatMap_map, HTree.leaves]

/-- The code of a symbol: the path to its leaf, and one bit where there is no path to take (R173). -/
def symbolCode (root : HTree) (k i : ℕ) : List Bool := if k = 1 then [false] else (root.path i).getD []

/-- The codes the model derives are those of a tree of R172. -/
theorem exists_huffCodes_eq (freq : ℕ → ℕ) (hk : 1 ≤ k) : ∃ root, HuffBuilds k (symbolLeaves freq k) root ∧
    huffCodes (readMany freq k) = readMany (symbolCode root k) k := by
  obtain ⟨a, ha, hbuilds⟩ := huffMerge_builds (k - 1) k (symbolLeaves freq k) (by rw [length_symbolLeaves]; omega)
  refine ⟨a.tree, hbuilds, ?_⟩
  obtain rfl | h2 := hk.eq_or_lt
  · rfl
  · have hroot : huffTree (readMany freq k) = some a.tree := by
      rw [huffTree, length_readMany, huffLeaves_readMany, ha]
      rfl
    rw [huffCodes_eq_of_two_le ((length_readMany freq k).symm ▸ h2) hroot, length_readMany]
    refine List.map_congr_left fun i _ => ?_
    rw [symbolCode, if_neg (by omega)]

section
variable (h : HuffBuilds k (symbolLeaves freq k) root)
include h

theorem HuffBuilds.leaves_perm_range : root.leaves.Perm (List.range k) :=
  flatMap_leaves_symbolLeaves freq k ▸ h.leaves_perm

theorem HuffBuilds.leafAt_symbolCode (h2 : 2 ≤ k) {i : ℕ} (hi : i < k) : root.leafAt (symbolCode root k i) = some i := by
  have hleaf : (⟨freq i, i, .leaf i⟩ : HNode) ∈ symbolLeaves freq k :=
    List.mem_map.2 ⟨i, List.mem_range.2 hi, rfl⟩
  obtain ⟨p, hp⟩ := Option.isSome_iff_exists.1 (h.path_isSome hleaf (i := i) (by simp [HTree.path]))
  rw [symbolCode, if_neg (by omega), hp]
  exact leafAt_of_path _ _ _ hp

theorem HuffBuilds.length_symbolCode_lt (h2 : 2 ≤ k) {i : ℕ} (hi : i < k) : (symbolCode root k i).length < k := by
  have hlt := length_lt_of_leafAt (h.leafAt_symbolCode h2 hi)
  rwa [h.leaves_perm_range.length_eq, List.length_range] at hlt

theorem HuffBuilds.length_symbolCode_pos (h1 : 1 ≤ k) {i : ℕ} (hi : i < k) : 1 ≤ (symbolCode root k i).length := by
  obtain rfl | h2 := h1.eq_or_lt
  · exact le_rfl
  · obtain ⟨l, r, rfl⟩ := h.exists_eq_node (.inl (h2.trans_eq (length_symbolLeaves freq k).symm))
    have hleaf := h.leafAt_symbolCode h2 hi
    cases hcode : symbolCode (.node l r) k i with
    | nil => rw [hcode] at hleaf; cases hleaf
    | cons b p => exact Nat.succ_pos _

theorem HuffBuilds.prefixFree_symbolCode : PrefixFree (symbolCode root k) k := by
  intro i j hi hj hne hprefix
  exact hne (eq_of_leafAt_of_isPrefix (h.leafAt_symbolCode (by omega) hi) (h.leafAt_symbolCode (by omega) hj) hprefix)

/-- Every leaf is placed at its code. -/
theorem HuffBuilds.exists_placement_symbolCode (h2 : 2 ≤ k) :
    ∃ placed, Placement (symbolLeaves freq k) root placed ∧ ∀ e ∈ placed, e.2 = symbolCode root k e.1.seq := by
  obtain ⟨placed, hplaced⟩ := h.exists_placement
  refine ⟨placed, hplaced, fun e he => ?_⟩
  obtain ⟨i, -, hi⟩ := List.mem_map.1 (hplaced.perm.mem_iff.1 (List.mem_map_of_mem he))
  have hleaf := hplaced.leafAt e he []
  rw [List.append_nil, ← hi] at hleaf
  have hnodup := h.leaves_perm_range.nodup_iff.2 List.nodup_range
  rw [← hi, symbolCode, if_neg (by omega), path_of_leafAt hnodup hleaf, Option.getD_some]

/-- With two symbols or more the shares of the codes fill the unit interval. -/
theorem HuffBuilds.kraftSum_symbolCode (h2 : 2 ≤ k) : kraftSum (fun i => (symbolCode root k i).length) k = 1 := by
  obtain ⟨placed, hplaced, hcode⟩ := h.exists_placement_symbolCode h2
  calc kraftSum (fun i => (symbolCode root k i).length) k
      = ((symbolLeaves freq k).map fun x => kraftShare (symbolCode root k x.seq).length).sum := by
        rw [kraftSum, symbolLeaves, List.map_map]; rfl
    _ = ((placed.map Prod.fst).map fun x => kraftShare (symbolCode root k x.seq).length).sum :=
        (hplaced.perm.map _).sum_eq.symm
    _ = (placed.map fun e => kraftShare e.2.length).sum := by
        rw [List.map_map]
        exact congrArg List.sum (List.map_congr_left fun e he => by rw [hcode e he]; rfl)
    _ = 1 := hplaced.kraft

/-- A more frequent symbol has no longer code. -/
theorem HuffBuilds.length_symbolCode_le (h1 : 1 ≤ k) {i j : ℕ} (hi : i < k) (hj : j < k) (hfreq : freq j < freq i) :
    (symbolCode root k i).length ≤ (symbolCode root k j).length := by
  obtain rfl | h2 := h1.eq_or_lt
  · exact le_rfl
  obtain ⟨placed, hplaced, hcode⟩ := h.exists_placement_symbolCode h2
  have hmem (m) (hm : m < k) :
      (freq m, (symbolCode root k m).length) ∈ placed.map fun e => (e.1.freq, e.2.length) := by
    have hleaf : (⟨freq m, m, .leaf m⟩ : HNode) ∈ placed.map Prod.fst :=
      hplaced.perm.mem_iff.2 (List.mem_map.2 ⟨m, List.mem_range.2 hm, rfl⟩)
    obtain ⟨e, he, hnode⟩ := List.mem_map.1 hleaf
    exact List.mem_map.2 ⟨e, he, by rw [hcode e he, hnode]⟩
  refine not_lt.1 fun hlt => ?_
  have hle := hplaced.ordered 0 (fun _ _ => Nat.zero_le _) _ (hmem i hi) _ (hmem j hj) 0 hlt
  dsimp only at hle
  omega

end

end Sys2Proof.Machine
end

section
namespace Sys2Proof.Machine

/-! `HBUILD` (44_huffman.md R173 to R176), and what `HCANON` makes of its lengths (R179). -/

variable {s : State}

/-- The frequencies `HBUILD` reads. -/
def State.freq (s : State) (i : ℕ) : ℕ := (s.readFQ i).toNat

/-- The state `HBUILD` leaves where the codes fit. -/
def State.hbuild (codes : List (List Bool)) (s : State) : State :=
  { s with
    status := retStatus 0x50#8 .ok
    valid := { s.valid with ccv := false }
    mem := { s.mem with
      cl := s.mem.cl.fill (codes.map fun c => BitVec.ofNat 8 c.length)
      tc := s.mem.tc.fill (codes.map HuffCode.ofStr) } }

/-- Every code is at most 255 bits long (R176). -/
def CodesFit (codes : List (List Bool)) : Prop := ∀ c ∈ codes, c.length ≤ lenMax

theorem not_any_long_iff (codes : List (List Bool)) :
    ¬ codes.any (fun c => decide (lenMax < c.length)) = true ↔ CodesFit codes := by simp [CodesFit]

section
variable (hk : 1 ≤ s.k.toNat) (hmax : s.k.toNat ≤ s.params.symMax)
include hk hmax

theorem bodyHbuild_of_fit (hfit : CodesFit (huffCodes (readMany s.freq s.k.toNat))) :
    bodyHbuild s = .ret .ok { s.hbuild (huffCodes (readMany s.freq s.k.toNat)) with status := s.status } :=
  (if_neg (by omega)).trans (if_neg ((not_any_long_iff _).2 hfit))

theorem bodyHbuild_of_not_fit (hlong : ¬ CodesFit (huffCodes (readMany s.freq s.k.toNat))) :
    bodyHbuild s = .ret .eCodelen { s with valid := { s.valid with ccv := false } } :=
  (if_neg (by omega)).trans (if_pos (not_not.1 ((not_any_long_iff _).not.2 hlong)))

/-- What `HBUILD` answers with `K` in range: by the tree of R172, and by whether its paths fit. -/
theorem exec_hbuild_cases (hrun : Running s) : ∃ root, HuffBuilds s.k.toNat (symbolLeaves s.freq s.k.toNat) root ∧
    ((CodesFit (readMany (symbolCode root s.k.toNat) s.k.toNat) ∧
      exec .hbuild s = .next (s.hbuild (readMany (symbolCode root s.k.toNat) s.k.toNat))) ∨
    (¬ CodesFit (readMany (symbolCode root s.k.toNat) s.k.toNat) ∧
      exec .hbuild s = .next { s with status := retStatus 0x50#8 .eCodelen, valid := { s.valid with ccv := false } })) := by
  obtain ⟨root, hbuilds, hcodes⟩ := exists_huffCodes_eq s.freq hk
  refine ⟨root, hbuilds, ?_⟩
  rw [← hcodes]
  by_cases hfit : CodesFit (huffCodes (readMany s.freq s.k.toNat))
  · exact .inl ⟨hfit, command_ret hrun.2 (bodyHbuild_of_fit (s := recordOp 0x50#8 s) hk hmax hfit) rfl⟩
  · exact .inr ⟨hfit, command_ret hrun.2 (bodyHbuild_of_not_fit (s := recordOp 0x50#8 s) hk hmax hfit) rfl⟩

end

section
variable {code : ℕ → List Bool} {k i : ℕ}

theorem codesFit_readMany_iff : CodesFit (readMany code k) ↔ ∀ i < k, (code i).length ≤ lenMax := by
  simp [CodesFit, readMany]

theorem State.hbuild_readTC (hi : i < k) : (s.hbuild (readMany code k)).readTC i = HuffCode.ofStr (code i) :=
  getD_fill_of_getElem? _ (by rw [List.getElem?_map, getElem?_readMany, if_pos hi]; rfl) _

theorem State.hbuild_readCL (hi : i < k) : (s.hbuild (readMany code k)).readCL i = BitVec.ofNat 8 (code i).length :=
  getD_fill_of_getElem? _ (by rw [List.getElem?_map, getElem?_readMany, if_pos hi]; rfl) _

theorem State.hbuild_readCL_eq_len (hi : i < k) :
    (s.hbuild (readMany code k)).readCL i = ((s.hbuild (readMany code k)).readTC i).len := by
  rw [State.hbuild_readCL hi, State.hbuild_readTC hi]
  rfl

theorem State.hbuild_readCL_of_le (hi : k ≤ i) : (s.hbuild (readMany code k)).readCL i = s.readCL i :=
  getD_fill_of_length_le _ (by rwa [List.length_map, length_readMany]) _

theorem State.hbuild_readTC_of_le (hi : k ≤ i) : (s.hbuild (readMany code k)).readTC i = s.readTC i :=
  getD_fill_of_length_le _ (by rwa [List.length_map, length_readMany]) _

variable (hfit : CodesFit (readMany code k)) (hi : i < k)
include hfit hi

theorem State.hbuild_str : ((s.hbuild (readMany code k)).readTC i).str = code i := by
  rw [State.hbuild_readTC hi, str_ofStr _ (codesFit_readMany_iff.1 hfit i hi)]

theorem State.hbuild_toNat_readCL : ((s.hbuild (readMany code k)).readCL i).toNat = (code i).length := by
  rw [State.hbuild_readCL hi, BitVec.toNat_ofNat]
  exact Nat.mod_eq_of_lt (Nat.lt_succ_of_le (codesFit_readMany_iff.1 hfit i hi))

end

/-- Settles O36: the codes are the paths of a tree of R172, shorter than the number of symbols. -/
theorem hbuildDerivesCodes : Obligations.HbuildDerivesCodes := by
  intro s hrun hk hmax
  obtain ⟨root, hbuilds, ⟨hfit, hexec⟩ | ⟨hlong, hexec⟩⟩ := exec_hbuild_cases hk hmax hrun
  · refine ⟨_, root, hexec, hbuilds, rfl, fun _ => rfl, .inl rfl, fun _ => ⟨fun h1 => ?_, fun h2 i hi => ?_,
      fun i hi => ⟨State.hbuild_readCL_eq_len hi, ?_⟩,
      fun i hi => ⟨State.hbuild_readCL_of_le hi, State.hbuild_readTC_of_le hi⟩⟩, nofun⟩
    · rw [State.hbuild_str hfit hk, symbolCode, if_pos h1]
    · rw [State.hbuild_str hfit hi]
      exact hbuilds.leafAt_symbolCode h2 hi
    · rw [State.hbuild_toNat_readCL hfit hi]
      exact hbuilds.length_symbolCode_pos hk hi
  · rw [codesFit_readMany_iff] at hlong
    push Not at hlong
    obtain ⟨i, hi, hlen⟩ := hlong
    have h2 : 2 ≤ s.k.toNat := by
      refine Nat.lt_of_le_of_ne hk fun h1 => ?_
      rw [symbolCode, if_pos h1.symm] at hlen
      exact absurd hlen (by decide)
    have hbound := hbuilds.length_symbolCode_lt h2 hi
    refine ⟨_, root, hexec, hbuilds, rfl, fun h256 => ?_, .inr rfl, nofun, fun _ => ⟨rfl, rfl, i, _, hi,
      hbuilds.leafAt_symbolCode h2 hi, hlen⟩⟩
    have hmaximum : lenMax = 255 := rfl
    omega

/-- What `HBUILD` did where it returned `OK`. -/
theorem exec_hbuild_inv {t : State} (hrun : Running s) (hexec : exec .hbuild s = .next t)
    (hok : t.status.code = .ret .ok) : 1 ≤ s.k.toNat ∧ s.k.toNat ≤ s.params.symMax ∧
      ∃ root, HuffBuilds s.k.toNat (symbolLeaves s.freq s.k.toNat) root ∧
        CodesFit (readMany (symbolCode root s.k.toNat) s.k.toNat) ∧
        t = s.hbuild (readMany (symbolCode root s.k.toNat) s.k.toNat) := by
  by_cases hk : s.k.toNat = 0 ∨ s.params.symMax < s.k.toNat
  · have hraise : bodyHbuild (recordOp 0x50#8 s) = .raise .state := if_pos hk
    cases (command_raise hrun.2 hraise).symm.trans hexec
    cases hok
  · have h1 : 1 ≤ s.k.toNat := by omega
    have hmax : s.k.toNat ≤ s.params.symMax := by omega
    obtain ⟨root, hbuilds, ⟨hfit, hnext⟩ | ⟨-, hnext⟩⟩ := exec_hbuild_cases h1 hmax hrun
    · exact ⟨h1, hmax, root, hbuilds, hfit, Host.Outcome.next.inj (hexec.symm.trans hnext)⟩
    · cases hnext.symm.trans hexec
      cases hok

theorem kraftSum_congr {len len' : ℕ → ℕ} {k : ℕ} (h : ∀ i < k, len i = len' i) : kraftSum len k = kraftSum len' k :=
  congrArg List.sum (List.map_congr_left fun i hi => by rw [h i (List.mem_range.1 hi)])

/-- The one code `0` takes half of the unit interval. -/
theorem kraftSum_symbolCode_one (root : HTree) {k : ℕ} (hk : k = 1) :
    kraftSum (fun i => (symbolCode root k i).length) k = 1 / 2 := by
  subst hk
  simp [kraftSum, symbolCode]

/-- Settles O37: the tree is full and light nodes are deep, and canonical codes of the same lengths exist. -/
theorem huffmanCodeSet : Obligations.HuffmanCodeSet := by
  intro s t hrun hexec hok
  obtain ⟨hk, hmax, root, hbuilds, hfit, rfl⟩ := exec_hbuild_inv hrun hexec hok
  have hlen (i) (hi : i < s.k.toNat) := State.hbuild_toNat_readCL (s := s) hfit hi
  have hkraft := kraftSum_congr hlen
  have hfull (h2 : 2 ≤ s.k.toNat) := hkraft.trans (hbuilds.kraftSum_symbolCode h2)
  have hhalf (h1 : s.k.toNat = 1) := hkraft.trans (kraftSum_symbolCode_one root h1)
  refine ⟨hfull, hhalf, hbuilds.prefixFree_symbolCode.congr fun i hi => State.hbuild_str hfit hi,
    fun i j hi hj hfreq => ?_, ?_⟩
  · rw [hlen i hi, hlen j hj]
    exact hbuilds.length_symbolCode_le hk hi hj hfreq
  · have hpos (i) (hi : i < s.k.toNat) :=
      Nat.ne_of_gt ((hbuilds.length_symbolCode_pos hk hi).trans_eq (hlen i hi).symm)
    have hsum := hk.eq_or_lt.elim (fun h1 => (hhalf h1.symm).trans_le (by norm_num)) fun h2 => (hfull h2).le
    obtain ⟨codes, hcanon, hnext⟩ :=
      exists_exec_hcanon (s := s.hbuild (readMany (symbolCode root s.k.toNat) s.k.toNat)) ⟨hrun.1, rfl⟩ hmax hpos hsum
    refine ⟨_, hnext, rfl, hcanon.prefixFree_readCC, fun i hi => ⟨?_, State.hbuild_readCL_eq_len hi⟩⟩
    exact BitVec.eq_of_toNat_eq (hcanon.readCC hi).2.1

end Sys2Proof.Machine
end

section
namespace Sys2Proof.Machine

/-! What the five commands of 45_bitstream.md answer on a running core: a cursor bound (R191, R195), bits written (R193, R194), a
bit read (R197). -/

variable {s : State}

theorem bufMax_le {p : Params} (h : p.ok = true) : p.bufMax ≤ 2 ^ 24 - 1 := by
  simp only [Params.ok, Bool.and_eq_true, decide_eq_true_eq] at h
  omega

/-- A legal capacity fits the field of a cursor (00_scope.md R11). -/
theorem toNat_bind_cap (hrun : Running s) {cap : ℕ} (hcap : cap ≤ s.params.bufMax) : (Cursor.bind cap).cap.toNat = cap :=
  Nat.mod_eq_of_lt ((hcap.trans (bufMax_le hrun.1)).trans_lt (by decide))

/-- The state that `BWINIT` leaves (R191). -/
def State.bwinit (cap : ℕ) (s : State) : State :=
  { s with status := retStatus 0x60#8 .ok, w := Cursor.bind cap, valid := { s.valid with wv := true } }

/-- The state that `BRINIT` leaves (R195). -/
def State.brinit (cap : ℕ) (s : State) : State :=
  { s with status := retStatus 0x63#8 .ok, r := Cursor.bind cap, valid := { s.valid with rv := true } }

theorem exec_bwinit (hrun : Running s) {cap : ℕ} (hcap : cap ≤ s.params.bufMax) :
    exec (.bwinit cap) s = .next (s.bwinit cap) := by
  have hok : capacityOk s.params cap = true := decide_eq_true hcap
  exact command_ret (op := 0x60#8) (body := bodyBwinit cap) hrun.2 (if_pos hok) rfl

theorem exec_brinit (hrun : Running s) {cap : ℕ} (hcap : cap ≤ s.params.bufMax) :
    exec (.brinit cap) s = .next (s.brinit cap) := by
  have hok : capacityOk s.params cap = true := decide_eq_true hcap
  exact command_ret (op := 0x63#8) (body := bodyBrinit cap) hrun.2 (if_pos hok) rfl

/-- Settles O42: the cursor that either command binds stands at bit 0 with the capacity given. -/
theorem bindingRewindsTheCursor : Obligations.BindingRewindsTheCursor := fun _ _ hrun hcap =>
  ⟨⟨_, exec_bwinit hrun hcap, rfl, toNat_bind_cap hrun hcap, bind_pos _, rfl, rfl, rfl⟩,
    ⟨_, exec_brinit hrun hcap, rfl, toNat_bind_cap hrun hcap, bind_pos _, rfl, rfl, rfl⟩⟩

/-! Writing does not look at `STATUS`. -/

theorem writeBit_withStatus (s : State) (st : Status) (b : Bool) :
    writeBit { s with status := st } b = (writeBit s b).map fun t => { t with status := st } := by
  unfold writeBit
  split_ifs
  · rfl
  · rfl

theorem writeBits_withStatus (s : State) (st : Status) (bits : List Bool) :
    writeBits { s with status := st } bits = ({ (writeBits s bits).1 with status := st }, (writeBits s bits).2) := by
  induction bits generalizing s with
  | nil => rfl
  | cons b rest ih =>
    have hb := writeBit_withStatus s st b
    cases hw : writeBit s b with
    | none => rw [writeBits_cons_of_none hw, writeBits_cons_of_none (hb.trans (congrArg _ hw))]
    | some t => rw [writeBits_cons_of_some hw, writeBits_cons_of_some (hb.trans (congrArg _ hw)), ih]

/-- The two bit commands, and that `WBITS` writes no more than 16 bits (R194). -/
theorem writtenBits_eq_some_iff {i : Instr} {bits : List Bool} : writtenBits i = some bits ↔
    (∃ b, i = .wbit b ∧ bits = [b]) ∨ ∃ cnt val, i = .wbits cnt val ∧ cnt ≤ 16 ∧ bits = fieldBits cnt val := by
  cases i <;> simp [writtenBits, eq_comm, and_comm]

/-- The code of a write: whether all bits fit. -/
def State.writeCode (s : State) (bits : List Bool) : RetCode :=
  if bits.length ≤ 8 * s.w.cap.toNat - s.wpos then .ok else .eOverflow

theorem afterWrite_writeBits (s : State) (bits : List Bool) :
    afterWrite (writeBits s bits) = .ret (s.writeCode bits) (writeBits s bits).1 := by
  obtain ⟨-, -, -, hfits⟩ := writeBits_frame bits s
  exact congrArg (Result.ret · _) (if_congr hfits rfl rfl)

/-- The state that a command leaves which writes a bit string. -/
def State.written (op : Byte) (bits : List Bool) (s : State) : State :=
  { (writeBits s bits).1 with status := retStatus op (s.writeCode bits) }

/-- A body that writes a bit string and returns its code. -/
theorem command_afterWrite (hrun : Running s) {op : Byte} {body : State → Result} {bits : List Bool}
    (hbody : body (recordOp op s) = afterWrite (writeBits (recordOp op s) bits)) :
    command op body s = .next (s.written op bits) := by
  have hwrite : writeBits (recordOp op s) bits = _ := writeBits_withStatus s { s.status with op := op } bits
  rw [afterWrite_writeBits, hwrite] at hbody
  exact (command_ret hrun.2 hbody rfl :)

theorem exec_of_writtenBits (hrun : Running s) (hwv : s.valid.wv = true) {i : Instr} {bits : List Bool}
    (hbits : writtenBits i = some bits) : exec i s = .next (s.written i.opcode bits) := by
  obtain ⟨b, rfl, rfl⟩ | ⟨cnt, val, rfl, hcnt, rfl⟩ := writtenBits_eq_some_iff.1 hbits
  · exact command_afterWrite hrun (if_pos hwv)
  · have hok : ¬ (!cntOk cnt) = true := by simp [cntOk, hcnt]
    exact command_afterWrite hrun ((if_neg hok).trans (if_pos hwv))

/-- Settles O43: both commands are a run of `write_bit`s. -/
theorem bitWritesAppend : Obligations.BitWritesAppend := fun _ bits s hrun hwv hbits =>
  ⟨_, exec_of_writtenBits hrun hwv hbits, wrote_writeBits s bits, rfl⟩

/-! Reading. -/

theorem exec_rbit_of_rest_cons (hrun : Running s) (hrv : s.valid.rv = true) {b : Bool} {after : List Bool}
    (hrest : s.rest = b :: after) : ∃ t, exec .rbit s = .next t ∧ t.status = retStatus 0x64#8 .ok ∧ t.bitr = b ∧
      t.rest = after ∧ t.rpos = s.rpos + 1 := by
  obtain ⟨u, hread, hafter, hon⟩ := readBit_of_rest_cons (s := recordOp 0x64#8 s) hrest
  have hbody : bodyRbit (recordOp 0x64#8 s) = .ret .ok { u with bitr := b } := by
    rw [bodyRbit, recordOp_valid, if_pos hrv, hread]
  exact ⟨_, command_ret hrun.2 hbody hon.status, rfl, rfl, hafter, hon.2.2⟩

theorem exec_rbit_of_rest_nil (hrun : Running s) (hrv : s.valid.rv = true) (hrest : s.rest = []) :
    exec .rbit s = .next { s with status := retStatus 0x64#8 .eUnderflow } := by
  have hbody : bodyRbit (recordOp 0x64#8 s) = .ret .eUnderflow (recordOp 0x64#8 s) := by
    rw [bodyRbit, recordOp_valid, if_pos hrv, readBit_of_rest_nil (s := recordOp 0x64#8 s) hrest]
  exact command_ret (t := recordOp 0x64#8 s) hrun.2 hbody rfl

/-- Settles O44: `read_bit` takes the next bit of the stream left to read, and fails where none is left. -/
theorem rbitReadsNextBit : Obligations.RbitReadsNextBit := fun _ hrun hrv =>
  ⟨fun _ _ => exec_rbit_of_rest_cons hrun hrv, exec_rbit_of_rest_nil hrun hrv⟩

end Sys2Proof.Machine
end

section
namespace Sys2Proof.Machine

/-! Bits written from a writer at bit 0 and read back (45_bitstream.md R199). -/

variable {s : State}

theorem runInstrs_cons {i : Instr} {rest : List Instr} {t : State} (h : exec i s = .next t) :
    runInstrs (i :: rest) s = runInstrs rest t := by
  simp only [runInstrs, h]

/-- The bits that a list of commands writes, one command's after the other's. -/
def writtenStream (writes : List Instr) : List Bool := writes.flatMap fun i => (writtenBits i).getD []

theorem writtenStream_cons {i : Instr} {bits : List Bool} (h : writtenBits i = some bits) (writes : List Instr) :
    writtenStream (i :: writes) = bits ++ writtenStream writes := by
  rw [writtenStream, List.flatMap_cons, h, Option.getD_some]
  rfl

/-- A write leaves a core that can write on. -/
theorem State.written_ready (hrun : Running s) (hwv : s.valid.wv = true) (op : Byte) (bits : List Bool) :
    Running (s.written op bits) ∧ (s.written op bits).valid.wv = true := by
  have hframe := writes_writeBits bits s
  have hparams : (s.written op bits).params = s.params := hframe.same State.params rfl
  have hvalid : (s.written op bits).valid = s.valid := hframe.same State.valid rfl
  exact ⟨⟨hparams ▸ hrun.1, rfl⟩, hvalid ▸ hwv⟩

/-- Bit commands whose bits all fit write their bits as one string. -/
theorem runInstrs_writes {writes : List Instr} (hwrites : ∀ i ∈ writes, (writtenBits i).isSome = true) (hrun : Running s)
    (hwv : s.valid.wv = true) (hok : s.status.code = .ret .ok)
    (hfit : (writtenStream writes).length ≤ 8 * s.w.cap.toNat - s.wpos) :
    ∃ st : Status, st.code = .ret .ok ∧ st.halt = false ∧
      runInstrs writes s = some { (writeBits s (writtenStream writes)).1 with status := st } := by
  induction writes generalizing s with
  | nil => exact ⟨s.status, hok, hrun.2, rfl⟩
  | cons i rest ih =>
    obtain ⟨bits, hbits⟩ := Option.isSome_iff_exists.1 (hwrites i List.mem_cons_self)
    rw [writtenStream_cons hbits] at hfit ⊢
    rw [List.length_append] at hfit
    obtain ⟨-, hcap, hpos, hfits⟩ := writeBits_frame bits s
    have hfirst : bits.length ≤ 8 * s.w.cap.toNat - s.wpos := by omega
    have hcode : (s.written i.opcode bits).status.code = .ret .ok := congrArg Code.ret (if_pos hfirst)
    have hrest : (writtenStream rest).length ≤
        8 * (writeBits s bits).1.w.cap.toNat - (writeBits s bits).1.wpos := by rw [hcap, hpos]; omega
    obtain ⟨hrun', hwv'⟩ := s.written_ready hrun hwv i.opcode bits
    obtain ⟨st, hst, hhalt, hruns⟩ := ih (fun j hj => hwrites j (List.mem_cons_of_mem i hj)) hrun' hwv' hcode hrest
    refine ⟨st, hst, hhalt, ?_⟩
    rw [runInstrs_cons (exec_of_writtenBits hrun hwv hbits), hruns, writeBits_append (hfits.2 hfirst), State.written,
      writeBits_withStatus]

/-- A stream written from bit 0 on, with the zeros that fill its last byte. -/
theorem streamBit_writeBits_from_zero {bits : List Bool} (hpos : s.wpos = 0) (hfit : bits.length ≤ 8 * s.w.cap.toNat) :
    (writeBits s bits).1.bcnt = (bits.length + 7) / 8 ∧
      ∀ p, p < 8 * (writeBits s bits).1.bcnt → (writeBits s bits).1.streamBit p = bits.getD p false := by
  obtain ⟨-, -, hend, -⟩ := writeBits_frame bits s
  rw [hpos, Nat.sub_zero, min_eq_left hfit, Nat.zero_add] at hend
  have hbcnt : (writeBits s bits).1.bcnt = (bits.length + 7) / 8 := by rw [bcnt_eq, hend]
  refine ⟨hbcnt, fun p hp => ?_⟩
  rw [streamBit_writeBits, hend, hpos, if_neg p.not_lt_zero, Nat.sub_zero]
  by_cases hin : p < bits.length
  · rw [if_pos hin]
  · rw [if_neg hin, if_pos ⟨by omega, hp⟩, List.getD_eq_default _ _ (by omega)]

/-- What bit commands leave after `BWINIT`, if their bits fit the capacity: their bits, and zeros to the end of the last byte
used. -/
theorem exists_runInstrs_bwinit_writes (hrun : Running s) {cap : ℕ} (hcap : cap ≤ s.params.bufMax) {writes : List Instr}
    (hwrites : ∀ i ∈ writes, (writtenBits i).isSome = true) (hfit : (writtenStream writes).length ≤ 8 * cap) :
    ∃ t, runInstrs (.bwinit cap :: writes) s = some t ∧ t.status.code = .ret .ok ∧ Running t ∧ t.params = s.params ∧
      t.bcnt = ((writtenStream writes).length + 7) / 8 ∧
      ∀ p, p < 8 * t.bcnt → t.streamBit p = (writtenStream writes).getD p false := by
  have hbound : (s.bwinit cap).w.cap.toNat = cap := toNat_bind_cap hrun hcap
  have hpos : (s.bwinit cap).wpos = 0 := bind_pos cap
  obtain ⟨st, hcode, hhalt, hruns⟩ := runInstrs_writes (s := s.bwinit cap) hwrites ⟨hrun.1, rfl⟩ rfl rfl
    (by rw [hbound, hpos]; exact hfit)
  have hparams : (writeBits (s.bwinit cap) (writtenStream writes)).1.params = s.params :=
    (writes_writeBits (writtenStream writes) (s.bwinit cap)).same State.params rfl
  exact ⟨_, (runInstrs_cons (exec_bwinit hrun hcap)).trans hruns, hcode, ⟨hparams ▸ hrun.1, hhalt⟩, hparams,
    streamBit_writeBits_from_zero hpos (hbound.symm ▸ hfit)⟩

/-- A reader bound with a legal capacity has the stream from bit 0 up to it left to read (R196). -/
theorem rest_brinit (hrun : Running s) {cap : ℕ} (hcap : cap ≤ s.params.bufMax) :
    (s.brinit cap).rest = (List.range (8 * cap)).map s.streamBit := by
  have hbound : (s.brinit cap).r.cap.toNat = cap := toNat_bind_cap hrun hcap
  have hzero : (s.brinit cap).rpos = 0 := bind_pos cap
  rw [State.rest, hbound, hzero, Nat.sub_zero]
  simp only [Nat.zero_add]
  rfl

/-- `RBIT` leaves a core that can read on. -/
theorem exec_rbit_ready {t : State} (hrun : Running s) (hrv : s.valid.rv = true) (hexec : exec .rbit s = .next t)
    (hhalt : t.status.halt = false) : Running t ∧ t.valid.rv = true := by
  have hframe := writes_exec hexec
  exact ⟨⟨hframe.same State.params rfl ▸ hrun.1, hhalt⟩, hframe.same State.valid rfl ▸ hrv⟩

/-- The last of some reads: the bit at its place while the stream lasts, and an underflow after it. -/
theorem runInstrs_rbit (m : ℕ) (hrun : Running s) (hrv : s.valid.rv = true) :
    ∃ u, runInstrs (List.replicate (m + 1) .rbit) s = some u ∧
      (m < s.rest.length → u.status.code = .ret .ok ∧ u.bitr = s.rest.getD m false) ∧
      (s.rest.length ≤ m → u.status.code = .ret .eUnderflow) := by
  induction m generalizing s with
  | zero =>
    cases hrest : s.rest with
    | nil => exact ⟨_, runInstrs_cons (exec_rbit_of_rest_nil hrun hrv hrest), nofun, fun _ => rfl⟩
    | cons b after =>
      obtain ⟨t, hexec, hstatus, hbitr, -⟩ := exec_rbit_of_rest_cons hrun hrv hrest
      exact ⟨t, runInstrs_cons hexec, fun _ => ⟨congrArg Status.code hstatus, hbitr⟩, nofun⟩
  | succ m ih =>
    rw [List.replicate_succ]
    cases hrest : s.rest with
    | nil =>
      have hexec := exec_rbit_of_rest_nil hrun hrv hrest
      obtain ⟨u, hruns, -, hend⟩ := ih (s := { s with status := retStatus 0x64#8 .eUnderflow }) ⟨hrun.1, rfl⟩ hrv
      exact ⟨u, (runInstrs_cons hexec).trans hruns, nofun, fun _ => hend ((congrArg List.length hrest).trans_le m.zero_le)⟩
    | cons b after =>
      obtain ⟨t, hexec, hstatus, -, hafter, -⟩ := exec_rbit_of_rest_cons hrun hrv hrest
      obtain ⟨hrun', hrv'⟩ := exec_rbit_ready hrun hrv hexec (congrArg Status.halt hstatus)
      obtain ⟨u, hruns, hbit, hend⟩ := ih hrun' hrv'
      rw [hafter] at hbit hend
      exact ⟨u, (runInstrs_cons hexec).trans hruns, fun hm => hbit (Nat.lt_of_succ_lt_succ hm),
        fun hm => hend (Nat.le_of_succ_le_succ hm)⟩

/-- Settles O45: the commands write one bit string from bit 0 on, and a reader bound with the bytes used has that string and its
padding to read. -/
theorem bitIoIsExact : Obligations.BitIoIsExact := by
  intro cap writes s hrun hcap hwrites bits hfit
  obtain ⟨t, hruns, hcode, ht, hparams, hbcnt, hstream⟩ := exists_runInstrs_bwinit_writes hrun hcap hwrites hfit
  replace hbcnt : t.bcnt = (bits.length + 7) / 8 := hbcnt
  refine ⟨t, hruns, hcode, fun m => ?_⟩
  have hused : t.bcnt ≤ t.params.bufMax := by rw [hparams]; omega
  have hrest := rest_brinit ht hused
  have hlength : (t.brinit t.bcnt).rest.length = 8 * t.bcnt := by rw [hrest, List.length_map, List.length_range]
  obtain ⟨u, hreads, hbit, hend⟩ := runInstrs_rbit (s := t.brinit t.bcnt) m ⟨ht.1, rfl⟩ rfl
  rw [hlength] at hbit hend
  refine ⟨u, (runInstrs_cons (exec_brinit ht hused)).trans hreads, fun hm => ?_, fun hm => hend hm.ge, by omega, by omega⟩
  obtain ⟨hret, hbitr⟩ := hbit hm
  refine ⟨hret, hbitr.trans ?_⟩
  rw [hrest, List.getD_eq_getElem?_getD, List.getElem?_map, List.getElem?_range hm]
  exact hstream m hm

end Sys2Proof.Machine
end

section
namespace Sys2Proof.Machine

/-! Which bytes of `BS` a command can store to (20_memory.md R68; 45_bitstream.md R192; 46_blockcodec.md R210, R211, R215). -/

/-- `t` is `s` with its stream gone on: the writer not behind and within its capacity, no byte changed below the one it stood in
or past those now used. -/
structure Appended (s t : State) : Prop where
  forward : s.wpos ≤ t.wpos
  within : t.wpos ≤ 8 * t.w.cap.toNat
  bytes : ∀ a, a < s.wpos / 8 ∨ t.bcnt ≤ a → t.readBS a = s.readBS a

/-- A writer within its capacity. -/
def State.WriterWithin (s : State) : Prop := s.wpos ≤ 8 * s.w.cap.toNat

theorem Appended.refl {s : State} (h : s.WriterWithin) : Appended s s := ⟨le_rfl, h, fun _ _ => rfl⟩

theorem Appended.trans {s t u : State} (hst : Appended s t) (htu : Appended t u) : Appended s u := by
  refine ⟨hst.forward.trans htu.forward, htu.within, fun a ha => ?_⟩
  have hbyte := Nat.div_le_div_right (c := 8) hst.forward
  have hused : t.bcnt ≤ u.bcnt := by
    rw [bcnt_eq, bcnt_eq]
    exact Nat.div_le_div_right (Nat.add_le_add_right htu.forward 7)
  exact (htu.bytes a (ha.imp (·.trans_le hbyte) id)).trans (hst.bytes a (ha.imp id hused.trans))

theorem Appended.withStatus {s t : State} (h : Appended s t) (st : Status) : Appended s { t with status := st } :=
  ⟨h.forward, h.within, h.bytes⟩

theorem appended_writeBits {s : State} (h : s.WriterWithin) (bits : List Bool) : Appended s (writeBits s bits).1 := by
  obtain ⟨hcap, hpos, -, -, -, hbytes, -⟩ := wrote_writeBits s bits
  unfold State.WriterWithin at h
  exact ⟨by omega, by rw [hcap, hpos]; omega, hbytes⟩

/-- A result that returns, returns with the stream gone on; the writes of one that faults are discarded. -/
def Result.Appends (s : State) : Result → Prop
  | .ret _ t => Appended s t
  | .raise _ => True

theorem appends_ret {s t : State} (c : RetCode) (h : Appended s t) : (Result.ret c t).Appends s := h

theorem appends_raise (s : State) (f : CoreFault) : (Result.raise f).Appends s := trivial

/-- A body after which the stream has at most gone on. -/
def BodyAppends (body : State → Result) : Prop := ∀ s, s.WriterWithin → (body s).Appends s

theorem bodyAppends_wbit (b : Bool) : BodyAppends (bodyWbit b) := by
  intro s h
  unfold bodyWbit
  split_ifs
  · exact appends_ret _ (appended_writeBits h _)
  · exact appends_raise s _

theorem bodyAppends_wbits (cnt val : ℕ) : BodyAppends (bodyWbits cnt val) := by
  intro s h
  unfold bodyWbits
  split_ifs
  · exact appends_raise s _
  · exact appends_ret _ (appended_writeBits h _)
  · exact appends_raise s _

theorem bodyAppends_wrhdr : BodyAppends bodyWrhdr := by
  intro s h
  unfold bodyWrhdr
  dsimp only
  split_ifs
  · exact appends_raise s _
  · exact appends_raise s _
  · exact appends_ret _ (appended_writeBits h _)

theorem bodyAppends_wrpay : BodyAppends bodyWrpay := by
  intro s h
  unfold bodyWrpay
  split_ifs
  · exact appends_raise s _
  · exact appends_raise s _
  · split
    · exact appends_raise s _
    · exact appends_ret _ (appended_writeBits h _)

/-- A body whose column names neither the writer nor `BS`. -/
theorem BodyWrites.appends {i : Instr} {body : State → Result} (hbody : BodyWrites i body)
    (hw : ∀ s t, (writesOf i s t).w = s.w) (hbs : ∀ s t, (writesOf i s t).readBS = s.readBS) : BodyAppends body := by
  intro s h
  cases hb : body s with
  | ret c t =>
    have hframe := hbody.writes hb
    have hwriter : t.w = s.w := hframe.same State.w (hw s t)
    have hbytes : t.readBS = s.readBS := hframe.same State.readBS (hbs s t)
    refine appends_ret c ⟨?_, ?_, fun a _ => congrFun hbytes a⟩
    · rw [State.wpos, State.wpos, hwriter]
    · rw [State.wpos, hwriter]
      exact h
  | raise f => exact appends_raise s f

/-- A step of a composite command, and then the rest. -/
theorem BodyAppends.andThen {body : State → Result} (hbody : BodyAppends body) {s t : State} (ht : Appended s t)
    {k : RetCode → State → Result} (hk : ∀ c u, Appended s u → (k c u).Appends s) : ((body t).andThen k).Appends s := by
  have hres := hbody t ht.within
  cases hb : body t with
  | ret c u =>
    rw [hb] at hres
    exact hk c u (ht.trans hres)
  | raise f => exact appends_raise s f

/-- `ENCBLK` writes from the writer rewound. -/
theorem bodyEncblk_appends (n : ℕ) (s : State) : (bodyEncblk n s).Appends { s with w := s.w.rewind } := by
  unfold bodyEncblk withBlock
  dsimp only
  split_ifs
  · exact appends_raise _ _
  · have hzero : Appended { s with w := s.w.rewind } { s with w := s.w.rewind } :=
      .refl ((rewind_pos s.w).trans_le (Nat.zero_le _))
    refine ((bodyWrites_zscan n).appends (fun _ _ => rfl) fun _ _ => rfl).andThen hzero fun _ s1 h1 => ?_
    refine ((bodyWrites_rlenc n).appends (fun _ _ => rfl) fun _ _ => rfl).andThen h1 fun _ s2 h2 => ?_
    refine (bodyWrites_symmap.appends (fun _ _ => rfl) fun _ _ => rfl).andThen h2 fun sat s3 h3 => ?_
    split_ifs
    · exact appends_ret _ h3
    refine (bodyWrites_hbuild.appends (fun _ _ => rfl) fun _ _ => rfl).andThen h3 fun e s4 h4 => ?_
    split_ifs
    · exact appends_ret _ h4
    refine (bodyWrites_hcanon.appends (fun _ _ => rfl) fun _ _ => rfl).andThen h4 fun _ s5 h5 => ?_
    refine bodyAppends_wrhdr.andThen h5 fun e s6 h6 => ?_
    split_ifs
    · exact appends_ret _ h6
    refine bodyAppends_wrpay.andThen h6 fun e s7 h7 => ?_
    split_ifs
    · exact appends_ret _ h7
    · exact appends_ret _ h7
  · exact appends_raise _ _

/-- What holds before a command and of what its body returns, whatever `STATUS` is, holds after the command. -/
theorem runCommand_of_body {P : State → Prop} (hstatus : ∀ t st, P t → P { t with status := st }) {op : Byte}
    {body : State → Result} {s : State} (hs : P s) (hbody : ∀ c t, body (recordOp op s) = .ret c t → P t) :
    P (runCommand op body s) := by
  obtain ⟨-, heq⟩ | ⟨-, c, t, hb, heq⟩ | ⟨-, f, -, heq⟩ := runCommand_cases op body s
  · rw [heq]; exact hs
  · rw [heq]; exact hstatus t _ (hbody c t hb)
  · rw [heq]; exact hstatus s _ hs

theorem BodyAppends.runCommand {body : State → Result} (hbody : BodyAppends body) (op : Byte) {s : State}
    (h : s.WriterWithin) : Appended s (runCommand op body s) := by
  refine runCommand_of_body (fun t st ht => ht.withStatus st) (.refl h) fun c t hb => ?_
  have hres := hbody (recordOp op s) h
  rw [hb] at hres
  exact ⟨hres.forward, hres.within, hres.bytes⟩

theorem appended_exec {i : Instr} {s t : State} (h : s.WriterWithin) (hexec : exec i s = .next t)
    (hi : i = .wrhdr ∨ i = .wrpay ∨ (writtenBits i).isSome = true) : Appended s t := by
  obtain rfl | rfl | hbits := hi
  · cases hexec
    exact bodyAppends_wrhdr.runCommand _ h
  · cases hexec
    exact bodyAppends_wrpay.runCommand _ h
  · obtain ⟨bits, hbits⟩ := Option.isSome_iff_exists.1 hbits
    obtain ⟨b, rfl, -⟩ | ⟨cnt, val, rfl, -⟩ := writtenBits_eq_some_iff.1 hbits
    · cases hexec
      exact (bodyAppends_wbit b).runCommand _ h
    · cases hexec
      exact (bodyAppends_wbits cnt val).runCommand _ h

/-- The writer of `t` is within its capacity, and the bytes past those it has used are those of `s`. -/
def KeepsUnused (s t : State) : Prop := t.WriterWithin ∧ ∀ a, t.bcnt ≤ a → t.readBS a = s.readBS a

theorem keepsUnused_encblk (n : ℕ) {s t : State} (h : s.WriterWithin) (hexec : exec (.encblk n) s = .next t) :
    KeepsUnused s t := by
  cases hexec
  refine runCommand_of_body (fun _ _ => id) ⟨h, fun _ _ => rfl⟩ fun c t hb => ?_
  have hres := bodyEncblk_appends n (recordOp 0x78#8 s)
  rw [hb] at hres
  exact ⟨hres.within, fun a ha => hres.bytes a (.inr ha)⟩

/-- `WBITS` of more than 16 bits stores nothing: it faults (R194). -/
theorem readBS_wbits_of_writtenBits_none {cnt val : ℕ} {s t : State} (hexec : exec (.wbits cnt val) s = .next t)
    (hbits : writtenBits (.wbits cnt val) = none) : t.readBS = s.readBS := by
  have hcnt : ¬ cnt ≤ 16 := fun hle => nomatch (if_pos hle).symm.trans hbits
  cases hexec
  refine runCommand_of_body (P := fun t => t.readBS = s.readBS) (fun _ _ => id) rfl fun c t hb => ?_
  rw [bodyWbits, if_pos (by simp [cntOk, hcnt])] at hb
  cases hb

/-- The columns of the other commands do not name `BS`. -/
theorem readBS_exec {i : Instr} {s t : State} (hexec : exec i s = .next t) (hwrhdr : i ≠ .wrhdr) (hwrpay : i ≠ .wrpay)
    (hbits : writtenBits i = none) (hencblk : ∀ n, i ≠ .encblk n) (hsreset : i ≠ .sreset) : t.readBS = s.readBS := by
  have hframe := writes_exec hexec
  cases i
  case wrhdr => exact absurd rfl hwrhdr
  case wrpay => exact absurd rfl hwrpay
  case encblk n => exact absurd rfl (hencblk n)
  case sreset => exact absurd rfl hsreset
  case wbit b => cases hbits
  case wbits cnt val => exact readBS_wbits_of_writtenBits_none hexec hbits
  all_goals exact hframe.same State.readBS rfl

/-- Settles O18: what a writing command stores lies between the byte the writer stood in and the last byte used. -/
theorem streamBytesFrame : Obligations.StreamBytesFrame := by
  intro i s t h hexec
  refine ⟨fun hi => ?_, fun n hi => ?_, fun hwrhdr hwrpay hbits hencblk hsreset a => ?_⟩
  · obtain ⟨-, hwithin, hbytes⟩ := appended_exec h hexec hi
    exact ⟨hwithin, hbytes⟩
  · exact keepsUnused_encblk n h (hi ▸ hexec)
  · exact congrFun (readBS_exec hexec hwrhdr hwrpay hbits hencblk hsreset) a

end Sys2Proof.Machine
end

section
namespace Sys2Proof.Machine

/-! Fields read off the stream left to read (45_bitstream.md R196, R198). -/

variable {s u : State}

/-- A reader further on in the same stream has the later bits left to read. -/
theorem rest_eq_drop {n : ℕ} (hbytes : u.readBS = s.readBS) (hcap : u.r.cap = s.r.cap) (hpos : u.rpos = s.rpos + n) :
    u.rest = s.rest.drop n := by
  have hbits : u.streamBit = s.streamBit := funext fun p => by rw [State.streamBit, State.streamBit, hbytes]
  refine List.ext_getElem ?_ fun k _ _ => ?_
  · rw [List.length_drop, length_rest, length_rest, hcap, hpos, Nat.sub_sub]
  · simp only [State.rest, List.getElem_drop, List.getElem_map, List.getElem_range, hbits, hpos, Nat.add_assoc]

theorem ReadOn.readBS {n : ℕ} (h : ReadOn s u n) : u.readBS = s.readBS := by rw [h.1]; rfl

theorem ReadOn.rest {n : ℕ} (h : ReadOn s u n) : u.rest = s.rest.drop n := rest_eq_drop h.readBS h.2.1 h.2.2

theorem bitsValue_cons (b : Bool) (bits : List Bool) : bitsValue (b :: bits) = b.toNat * 2 ^ bits.length + bitsValue bits := by
  rw [← List.singleton_append, bitsValue_append]
  simp [bitsValue]

/-- A field read is the number its bits write, where the stream has that many left. -/
theorem readField_fst (width v : ℕ) (s : State) :
    (readField width v s).1 =
      if width ≤ s.rest.length then some (v * 2 ^ width + bitsValue (s.rest.take width)) else none := by
  induction width generalizing v s with
  | zero => simp [readField, bitsValue]
  | succ width ih =>
    cases hrest : s.rest with
    | nil => simp [readField, readBit_of_rest_nil hrest]
    | cons b after =>
      obtain ⟨u, hread, rfl, -⟩ := readBit_of_rest_cons hrest
      simp only [readField, hread, ih, List.length_cons, Nat.add_le_add_iff_right, List.take_succ_cons, bitsValue_cons]
      refine if_ctx_congr Iff.rfl (fun hle => ?_) fun _ => rfl
      rw [List.length_take, min_eq_left hle, pow_succ]
      congr 1
      ring

theorem readField_readOn (width v : ℕ) (s : State) : ReadOn s (readField width v s).2 (min width s.rest.length) := by
  obtain ⟨hframe, hcap, hpos, -⟩ := readField_frame width v s
  exact ⟨hframe, hcap, by rw [length_rest, hpos]⟩

theorem readField_of_le {width : ℕ} (h : width ≤ s.rest.length) :
    ∃ u, readField width 0 s = (some (bitsValue (s.rest.take width)), u) ∧ ReadOn s u width := by
  have hvalue := (readField_fst width 0 s).trans (if_pos h)
  rw [Nat.zero_mul, Nat.zero_add] at hvalue
  exact ⟨_, Prod.ext hvalue rfl, by
    simpa only [min_eq_left h] using readField_readOn width 0 s⟩

theorem readField_of_lt {width : ℕ} (h : s.rest.length < width) :
    ∃ u, readField width 0 s = (none, u) ∧ ReadOn s u s.rest.length :=
  ⟨_, Prod.ext ((readField_fst width 0 s).trans (if_neg (not_le.2 h))) rfl, by
    simpa only [min_eq_right h.le] using readField_readOn width 0 s⟩

end Sys2Proof.Machine
end

section
namespace Sys2Proof.Machine

/-! The entries of a header (46_blockcodec.md R212; 30_encoding.md R90). -/

variable {s u : State} {bits : List Bool} {j left : ℕ}

/-- An entry stored in the symbol table. -/
def State.storeEntry (i : ℕ) (key : Word) (len : Byte) (s : State) : State :=
  { s with mem := { s.mem with st := s.mem.st.set i key, cl := s.mem.cl.set i len } }

theorem State.storeEntry_readST (i p : ℕ) (key : Word) (len : Byte) (s : State) :
    (s.storeEntry i key len).readST p = if p = i then key else s.readST p := by
  rw [State.readST, State.storeEntry, get_set]
  split_ifs <;> rfl

theorem State.storeEntry_readCL (i p : ℕ) (key : Word) (len : Byte) (s : State) :
    (s.storeEntry i key len).readCL p = if p = i then len else s.readCL p := by
  rw [State.readCL, State.storeEntry, get_set]
  split_ifs <;> rfl

theorem headerKey_lt (bits : List Bool) (j : ℕ) : headerKey bits j < 2 ^ 32 :=
  (bitsValue_lt _).trans_le (Nat.pow_le_pow_right (by decide) (List.length_take_le _ _))

theorem headerLen_lt (bits : List Bool) (j : ℕ) : headerLen bits j < 2 ^ 8 :=
  (bitsValue_lt _).trans_le (Nat.pow_le_pow_right (by decide) (List.length_take_le _ _))

section
variable (hrest : s.rest = bits.drop (16 + 40 * j))
include hrest

/-- The stream ends in entry `j`. -/
theorem readEntries_of_short (hroom : 16 + 40 * j ≤ bits.length) (h : bits.length < 56 + 40 * j) :
    ∃ u, readEntries (left + 1) j s = (.hTrunc, u) ∧ ReadOn s u s.rest.length := by
  have hlen : s.rest.length < 40 := by rw [hrest, List.length_drop]; omega
  by_cases h32 : 32 ≤ s.rest.length
  · obtain ⟨t, hkey, ht⟩ := readField_of_le h32
    have htlen : t.rest.length = s.rest.length - 32 := by rw [ht.rest, List.length_drop]
    obtain ⟨u, hnone, hu⟩ := readField_of_lt (s := t) (width := 8) (by omega)
    refine ⟨u, by simp only [readEntries, hkey, hnone], ?_⟩
    have hboth := ht.trans hu
    rwa [htlen, Nat.add_sub_cancel' h32] at hboth
  · obtain ⟨u, hnone, hu⟩ := readField_of_lt (not_le.1 h32)
    exact ⟨u, by simp only [readEntries, hnone], hu⟩

/-- Entry `j` is whole. -/
theorem readEntries_of_whole (h : 56 + 40 * j ≤ bits.length) : ∃ u, ReadOn s u 40 ∧
    readEntries (left + 1) j s =
      if headerLen bits j = 0 then (.hLen0, u)
      else readEntries left (j + 1)
        (u.storeEntry j (BitVec.ofNat 32 (headerKey bits j)) (BitVec.ofNat 8 (headerLen bits j))) := by
  have hlen : 40 ≤ s.rest.length := by rw [hrest, List.length_drop]; omega
  obtain ⟨t, hkey, ht⟩ := readField_of_le (s := s) (width := 32) (by omega)
  have htrest : t.rest = bits.drop (48 + 40 * j) := by
    rw [ht.rest, hrest, List.drop_drop]
    congr 1
    omega
  obtain ⟨u, hval, hu⟩ := readField_of_le (s := t) (width := 8) (by rw [ht.rest, List.length_drop]; omega)
  rw [hrest] at hkey
  rw [htrest] at hval
  refine ⟨u, ht.trans hu, ?_⟩
  simp only [readEntries, hkey, hval]
  rfl

end

/-- `j` entries of a header are whole and none of their lengths is zero. -/
def HeaderEntries (bits : List Bool) (j : ℕ) : Prop := 16 + 40 * j ≤ bits.length ∧ ∀ i, i < j → headerLen bits i ≠ 0

/-- Entry `j` of `count` is not stored: there is none, the stream ends in it, or its length is zero. -/
def HeaderStops (bits : List Bool) (count j : ℕ) : Prop :=
  j = count ∨ bits.length < 56 + 40 * j ∨ headerLen bits j = 0

/-- Some entry is the first that is not stored. -/
theorem exists_headerStops (h : 16 ≤ bits.length) (count : ℕ) :
    ∃ j ≤ count, HeaderEntries bits j ∧ HeaderStops bits count j := by
  induction count with
  | zero => exact ⟨0, le_rfl, ⟨h, nofun⟩, .inl rfl⟩
  | succ count ih =>
    obtain ⟨j, hj, hentries, rfl | hstop⟩ := ih
    · by_cases hwhole : bits.length < 56 + 40 * j ∨ headerLen bits j = 0
      · exact ⟨j, j.le_succ, hentries, .inr hwhole⟩
      · rw [not_or, not_lt] at hwhole
        refine ⟨j + 1, le_rfl, ⟨by omega, fun i hi => ?_⟩, .inl rfl⟩
        obtain hlt | rfl := Nat.lt_succ_iff_lt_or_eq.1 hi
        · exact hentries.2 i hlt
        · exact hwhole.2
    · exact ⟨j, hj.trans count.le_succ, hentries, .inr hstop⟩

/-- `u` is `s` with `n` bits read, the first of them a header of which `j` entries are stored. -/
structure Parsed (j n : ℕ) (s u : State) : Prop where
  frame : u = { s with r := u.r, mem := { s.mem with st := u.mem.st, cl := u.mem.cl } }
  cap : u.r.cap = s.r.cap
  pos : u.rpos = s.rpos + n
  stored : ∀ i, i < j → (u.readST i).toNat = headerKey s.rest i ∧ (u.readCL i).toNat = headerLen s.rest i
  kept : ∀ i, j ≤ i → u.readST i = s.readST i ∧ u.readCL i = s.readCL i

theorem Parsed.refl (s : State) : Parsed 0 0 s s := ⟨rfl, rfl, rfl, nofun, fun _ _ => ⟨rfl, rfl⟩⟩

theorem Parsed.status {n : ℕ} (h : Parsed j n s u) : u.status = s.status := by rw [h.frame]

theorem Parsed.valid {n : ℕ} (h : Parsed j n s u) : u.valid = s.valid := by rw [h.frame]

theorem Parsed.k {n : ℕ} (h : Parsed j n s u) : u.k = s.k := by rw [h.frame]

theorem Parsed.readOn {n m : ℕ} {w : State} (h : Parsed j n s u) (hon : ReadOn u w m) : Parsed j (n + m) s w := by
  have hST : w.readST = u.readST := by rw [hon.1]; rfl
  have hCL : w.readCL = u.readCL := by rw [hon.1]; rfl
  refine ⟨by rw [hon.1, h.frame], hon.2.1.trans h.cap, ?_, ?_, ?_⟩
  · rw [hon.2.2, h.pos, Nat.add_assoc]
  · rw [hST, hCL]
    exact h.stored
  · rw [hST, hCL]
    exact h.kept

theorem Parsed.store {n : ℕ} (h : Parsed j n s u) : Parsed (j + 1) n s
    (u.storeEntry j (BitVec.ofNat 32 (headerKey s.rest j)) (BitVec.ofNat 8 (headerLen s.rest j))) := by
  refine ⟨?_, h.cap, h.pos, fun i hi => ?_, fun i hi => ?_⟩
  · rw [h.frame]
    rfl
  · rw [State.storeEntry_readST, State.storeEntry_readCL]
    split_ifs with heq
    · rw [heq, BitVec.toNat_ofNat, BitVec.toNat_ofNat, Nat.mod_eq_of_lt (headerKey_lt s.rest j),
        Nat.mod_eq_of_lt (headerLen_lt s.rest j)]
      exact ⟨rfl, rfl⟩
    · exact h.stored i (by omega)
  · rw [State.storeEntry_readST, State.storeEntry_readCL, if_neg (by omega), if_neg (by omega)]
    exact h.kept i (by omega)

theorem Parsed.rest {n : ℕ} (h : Parsed j n s u) : u.rest = s.rest.drop n := by
  have hbytes : u.readBS = s.readBS := by rw [h.frame]; rfl
  exact rest_eq_drop hbytes h.cap h.pos

/-- Whole entries with lengths that are not zero are read and stored, and then the others follow. -/
theorem readEntries_add (hcount : Parsed 0 16 s u) (h : HeaderEntries s.rest j) (left : ℕ) :
    ∃ v, readEntries (left + j) 0 u = readEntries left j v ∧ Parsed j (16 + 40 * j) s v := by
  induction j generalizing left with
  | zero => exact ⟨u, rfl, hcount⟩
  | succ j ih =>
    obtain ⟨hroom, hlens⟩ := h
    obtain ⟨v, hread, hv⟩ := ih ⟨by omega, fun i hi => hlens i (by omega)⟩ (left + 1)
    obtain ⟨w, hon, hnext⟩ := readEntries_of_whole (left := left) hv.rest (by omega)
    rw [if_neg (hlens j j.lt_succ_self)] at hnext
    exact ⟨_, by rw [← Nat.add_assoc, Nat.add_right_comm, hread, hnext], (hv.readOn hon).store⟩

end Sys2Proof.Machine
end

section
namespace Sys2Proof.Machine

/-! `RDHDR` (46_blockcodec.md R212). -/

variable {s : State}

/-- The symbol table taken back: no symbol, no codes, no trie. -/
def State.tableCleared (s : State) : State :=
  { s with valid := { s.valid with ccv := false, trv := false }, k := 0#16 }

@[simp] theorem State.tableCleared_rest (s : State) : s.tableCleared.rest = s.rest := rfl

@[simp] theorem recordOp_rest (op : Byte) (s : State) : (recordOp op s).rest = s.rest := rfl

/-- The result of a header's entries: their number goes to `K` if all were read. -/
def entriesResult (count : ℕ) : RetCode × State → Result
  | (.ok, u) => .ret .ok { u with k := BitVec.ofNat 16 count }
  | (h, u) => .ret h u

/-- The result of a header's count, read or not. -/
def headerResult (symMax : ℕ) : Option ℕ × State → Result
  | (none, u) => .ret .hTrunc u
  | (some count, u) => if symMax < count then .ret .hCount u else entriesResult count (readEntries count 0 u)

theorem bodyRdhdr_eq (hrv : s.valid.rv = true) :
    bodyRdhdr s = headerResult s.params.symMax (readField 16 0 s.tableCleared) := by
  rw [bodyRdhdr, hrv, if_neg (by decide), State.tableCleared]
  rcases readField 16 0 _ with ⟨_ | count, u⟩
  · rfl
  · dsimp only [headerResult]
    rcases readEntries count 0 u with ⟨_ | _, _⟩ <;> rfl

section
variable (hrv : s.valid.rv = true)
include hrv

theorem bodyRdhdr_of_short (h : s.rest.length < 16) :
    ∃ u, bodyRdhdr s = .ret .hTrunc u ∧ ReadOn s.tableCleared u s.rest.length := by
  obtain ⟨u, hnone, hu⟩ := readField_of_lt (s := s.tableCleared) h
  exact ⟨u, by rw [bodyRdhdr_eq hrv, hnone, headerResult], hu⟩

theorem bodyRdhdr_of_count (h : 16 ≤ s.rest.length) (hcount : s.params.symMax < bitsValue (s.rest.take 16)) :
    ∃ u, bodyRdhdr s = .ret .hCount u ∧ ReadOn s.tableCleared u 16 := by
  obtain ⟨u, hvalue, hu⟩ := readField_of_le (s := s.tableCleared) h
  exact ⟨u, by rw [bodyRdhdr_eq hrv, hvalue]; exact if_pos hcount, hu⟩

/-- The entries before one of `count` are read, and the result is that of reading on from there. -/
theorem bodyRdhdr_of_entries {count j : ℕ} (hvalue : bitsValue (s.rest.take 16) = count)
    (hcount : count ≤ s.params.symMax) (hj : j ≤ count) (hentries : HeaderEntries s.rest j) :
    ∃ u, bodyRdhdr s = entriesResult count (readEntries (count - j) j u) ∧ Parsed j (16 + 40 * j) s.tableCleared u := by
  obtain ⟨u, hread, hu⟩ := readField_of_le (s := s.tableCleared) (width := 16) (Nat.le_of_add_right_le hentries.1)
  obtain ⟨v, hadd, hv⟩ := readEntries_add ((Parsed.refl _).readOn hu) hentries (count - j)
  rw [Nat.sub_add_cancel hj] at hadd
  refine ⟨v, ?_, hv⟩
  rw [bodyRdhdr_eq hrv, hread, ← hadd]
  exact (if_neg (not_lt.2 (hvalue.trans_le hcount))).trans (by rw [← hvalue]; rfl)

end

/-- What `RDHDR` leaves where the count is not read or is too large: `n` bits consumed, and the tables as they were. -/
structure CountFails (c : RetCode) (n : ℕ) (s t : State) : Prop where
  valid : t.valid = { s.valid with ccv := false, trv := false }
  status : t.status = retStatus 0x73#8 c
  k : t.k = 0#16
  pos : t.rpos = s.rpos + n
  mem : t.mem = s.mem

theorem exec_rdhdr_of_countFails (hrun : Running s) {c : RetCode} {n : ℕ} {u : State}
    (hbody : bodyRdhdr (recordOp 0x73#8 s) = .ret c u) (hon : ReadOn (recordOp 0x73#8 s).tableCleared u n) :
    ∃ t, exec .rdhdr s = .next t ∧ CountFails c n s t := by
  refine ⟨_, command_ret hrun.2 hbody hon.status, ?_, rfl, ?_, hon.2.2, ?_⟩
  · rw [hon.1]
    rfl
  · rw [hon.1]
    rfl
  · rw [hon.1]
    rfl

/-- What `RDHDR` leaves where entry `j` of `count` is the first that it does not store. -/
structure HeaderEnd (count j : ℕ) (s t : State) : Prop where
  valid : t.valid = { s.valid with ccv := false, trv := false }
  stored : ∀ i, i < j → (t.readST i).toNat = headerKey s.rest i ∧ (t.readCL i).toNat = headerLen s.rest i
  kept : ∀ i, j ≤ i → t.readST i = s.readST i ∧ t.readCL i = s.readCL i
  all : j = count → t.status = retStatus 0x73#8 .ok ∧ t.k.toNat = count ∧ t.rpos = s.rpos + 16 + 40 * j
  short : j < count → s.rest.length < 56 + 40 * j →
    t.status = retStatus 0x73#8 .hTrunc ∧ t.k = 0#16 ∧ t.rpos = s.rpos + s.rest.length
  zero : j < count → 56 + 40 * j ≤ s.rest.length → headerLen s.rest j = 0 →
    t.status = retStatus 0x73#8 .hLen0 ∧ t.k = 0#16 ∧ t.rpos = s.rpos + 56 + 40 * j

theorem exec_rdhdr_of_stops (hrun : Running s) (hrv : s.valid.rv = true) {count j : ℕ}
    (hvalue : bitsValue (s.rest.take 16) = count) (hcount : count ≤ s.params.symMax) (hj : j ≤ count)
    (hentries : HeaderEntries s.rest j) (hstops : HeaderStops s.rest count j) :
    ∃ t, exec .rdhdr s = .next t ∧ HeaderEnd count j s t := by
  obtain ⟨u, hbody, hu⟩ := bodyRdhdr_of_entries (s := recordOp 0x73#8 s) hrv hvalue hcount hj hentries
  have hroom := hentries.1
  obtain rfl | ⟨left, hleft⟩ : j = count ∨ ∃ left, count - j = left + 1 := by
    obtain heq | hlt := hj.eq_or_lt
    · exact .inl heq
    · exact .inr ⟨count - j - 1, by omega⟩
  · rw [Nat.sub_self] at hbody
    have hk : j < 2 ^ 16 := by have := symMax_le hrun.1; omega
    exact ⟨_, command_ret hrun.2 hbody hu.status, hu.valid, hu.stored, hu.kept,
      fun _ => ⟨rfl, Nat.mod_eq_of_lt hk, hu.pos.trans (Nat.add_assoc _ _ _).symm⟩, fun h => absurd h (lt_irrefl j),
      fun h => absurd h (lt_irrefl j)⟩
  · rw [hleft] at hbody
    by_cases hshort : s.rest.length < 56 + 40 * j
    · obtain ⟨w, hend, hon⟩ := readEntries_of_short (left := left) hu.rest hroom hshort
      have hw := hu.readOn hon
      rw [hend] at hbody
      refine ⟨_, command_ret hrun.2 hbody hw.status, hw.valid, hw.stored,
        hw.kept, by omega, fun _ _ => ⟨rfl, hw.k, ?_⟩, by omega⟩
      have hpos := hw.pos
      rw [hu.rest, State.tableCleared_rest, recordOp_rest, List.length_drop, Nat.add_sub_cancel' hroom] at hpos
      exact hpos
    · obtain ⟨w, hon, hend⟩ := readEntries_of_whole (left := left) hu.rest (not_lt.1 hshort)
      have hzero : headerLen s.rest j = 0 := (hstops.resolve_left (by omega)).resolve_left hshort
      have hw := hu.readOn hon
      rw [State.tableCleared_rest, recordOp_rest, if_pos hzero] at hend
      rw [hend] at hbody
      refine ⟨_, command_ret hrun.2 hbody hw.status, hw.valid, hw.stored,
        hw.kept, by omega, by omega, fun _ _ _ => ⟨rfl, hw.k, hw.pos.trans ?_⟩⟩
      show s.rpos + (16 + 40 * j + 40) = _
      omega

/-- Settles O49: the count is read, and then the entries up to the first that is not stored. -/
theorem rdhdrReadsHeader : Obligations.RdhdrReadsHeader := by
  intro s hrun hrv hpos
  dsimp only
  have hend : s.rpos + s.rest.length = 8 * s.r.cap.toNat := by rw [length_rest, Nat.add_sub_cancel' hpos]
  by_cases hshort : s.rest.length < 16
  · obtain ⟨u, hbody, hon⟩ := bodyRdhdr_of_short (s := recordOp 0x73#8 s) hrv hshort
    obtain ⟨t, hexec, h⟩ := exec_rdhdr_of_countFails hrun hbody hon
    exact ⟨t, hexec, by rw [h.valid], by rw [h.valid], fun _ => ⟨h.status, h.k, h.pos.trans hend, h.mem⟩, by omega,
      by omega⟩
  have h16 := not_lt.1 hshort
  by_cases hcount : s.params.symMax < bitsValue (s.rest.take 16)
  · obtain ⟨u, hbody, hon⟩ := bodyRdhdr_of_count (s := recordOp 0x73#8 s) hrv h16 hcount
    obtain ⟨t, hexec, h⟩ := exec_rdhdr_of_countFails hrun hbody hon
    exact ⟨t, hexec, by rw [h.valid], by rw [h.valid], fun h => absurd h hshort,
      fun _ _ => ⟨h.status, h.k, h.pos, h.mem⟩, by omega⟩
  · rw [not_lt] at hcount
    obtain ⟨t, hexec⟩ := exec_next .rdhdr s
    have hends {j} (hj : j ≤ bitsValue (s.rest.take 16)) (hentries : HeaderEntries s.rest j)
        (hstop : HeaderStops s.rest (bitsValue (s.rest.take 16)) j) : HeaderEnd (bitsValue (s.rest.take 16)) j s t := by
      obtain ⟨t', hexec', h⟩ := exec_rdhdr_of_stops hrun hrv rfl hcount hj hentries hstop
      exact Host.Outcome.next.inj (hexec'.symm.trans hexec) ▸ h
    obtain ⟨last, hlast, hentries, hstop⟩ := exists_headerStops h16 (bitsValue (s.rest.take 16))
    have hvalid := (hends hlast hentries hstop).valid
    refine ⟨t, hexec, by rw [hvalid], by rw [hvalid], fun h => absurd h hshort, by omega,
      fun j _ _ hj hroom hlens => ?_⟩
    have h := hends hj ⟨hroom, hlens⟩
    refine ⟨fun i hi hstop => (h hstop).stored i hi, fun i hi hstop => (h hstop).kept i hi,
      fun heq => (h (.inl heq)).all heq, fun hlt hcut => ?_,
      fun hlt hwhole hzero => (h (.inr (.inr hzero))).zero hlt hwhole hzero⟩
    rw [← hend]
    exact (h (.inr (.inl hcut))).short hlt hcut

end Sys2Proof.Machine
end

section
namespace Sys2Proof.Machine

/-! How a walk ends, by what the stream goes on with (44_huffman.md R182). -/

variable {s : State} {t : Trie}

theorem walk_of_lookup {code after : List Bool} {i : BitVec 16} (hrest : s.rest = code ++ after)
    (hlookup : t.lookup code = some i) : ∃ u, walk t s = (.sym i, u) ∧ u.rest = after ∧ ReadOn s u code.length := by
  have hleaf := descend_of_lookup hlookup
  obtain ⟨u, hwalk, hafter, hon⟩ := walk_descend hrest (t := t) (by rw [hleaf]; nofun)
  exact ⟨u, by rw [hwalk, hleaf, walk], hafter, hon⟩

theorem walk_of_isNode (hnode : (t.descend s.rest).isNode = true) :
    ∃ u, walk t s = (.underflow, u) ∧ ReadOn s u s.rest.length := by
  obtain ⟨l, r, hdescend⟩ := Trie.isNode_iff.1 hnode
  obtain ⟨u, hwalk, hnil, hon⟩ := walk_descend (List.append_nil _).symm (t := t) (hdescend.trans_ne nofun)
  exact ⟨u, by rw [hwalk, hdescend, walk_node_of_rest_nil hnil], hon⟩

theorem walk_of_absent {path after : List Bool} {b : Bool} (hrest : s.rest = path ++ b :: after)
    (hnode : (t.descend path).isNode = true) (habsent : t.descend (path ++ [b]) = .absent) :
    ∃ u, walk t s = (.dead, u) ∧ ReadOn s u (path.length + 1) := by
  obtain ⟨l, r, hdescend⟩ := Trie.isNode_iff.1 hnode
  rw [descend_append, hdescend, descend_node_cons, descend_nil] at habsent
  obtain ⟨u, hwalk, hnext, hon⟩ := walk_descend hrest (t := t) (hdescend.trans_ne nofun)
  obtain ⟨v, hread, -, hon'⟩ := readBit_of_rest_cons hnext
  exact ⟨v, by rw [hwalk, hdescend, walk_node hread, habsent, walk], hon.trans hon'⟩

end Sys2Proof.Machine
end

section
namespace Sys2Proof.Machine

/-! The symbols decoded along a stream (46_blockcodec.md R213). -/

variable {s : State} {t : Trie} {len fuel pos : ℕ}

theorem coverRle_cons (sym : RleSym) (syms : List RleSym) :
    coverRle (sym :: syms) = sym.run.toNat + 1 + coverRle syms := List.sum_cons

/-- The symbols end the block: an EOB is among them, or they cover all that is left of it. -/
def EndsBlock (room : ℕ) (syms : List RleSym) : Prop := eob ∈ syms ∨ room ≤ coverRle syms

/-- The symbols but for the last do not end the block. -/
def OpenBefore (room : ℕ) (syms : List RleSym) : Prop :=
  ∀ m, m < syms.length → eob ∉ syms.take m ∧ coverRle (syms.take m) < room

theorem OpenBefore.room_pos {room : ℕ} {sym : RleSym} {syms : List RleSym} (h : OpenBefore room (sym :: syms)) : 0 < room :=
  (h 0 (Nat.succ_pos _)).2

/-- After an EOB no symbol follows. -/
theorem OpenBefore.eq_nil_of_eob {room : ℕ} {syms : List RleSym} (h : OpenBefore room (eob :: syms)) : syms = [] := by
  by_contra hne
  exact (h 1 (Nat.succ_lt_succ (List.length_pos_iff.2 hne))).1 List.mem_cons_self

theorem OpenBefore.tail {room : ℕ} {sym : RleSym} {syms : List RleSym} (h : OpenBefore room (sym :: syms)) :
    OpenBefore (room - (sym.run.toNat + 1)) syms := by
  intro m hm
  obtain ⟨hnone, hcover⟩ := h (m + 1) (Nat.succ_lt_succ hm)
  rw [List.take_succ_cons] at hnone hcover
  rw [coverRle_cons] at hcover
  exact ⟨fun hmem => hnone (List.mem_cons_of_mem sym hmem), by omega⟩

theorem endsBlock_cons {room : ℕ} {sym : RleSym} {syms : List RleSym} (hsym : sym ≠ eob) :
    EndsBlock room (sym :: syms) ↔ EndsBlock (room - (sym.run.toNat + 1)) syms := by
  rw [EndsBlock, EndsBlock, List.mem_cons, or_iff_right (Ne.symm hsym), coverRle_cons, Nat.sub_le_iff_le_add']

theorem readSymbols_of_le (h : len ≤ pos) (fuel : ℕ) (s : State) : readSymbols len fuel pos s = ([], .ok, s) := by
  cases fuel with
  | zero => rfl
  | succ fuel => exact if_pos h

section
variable (hpos : pos < len)
include hpos

theorem readSymbols_of_underflow {u : State} (h : walk s.readTrie s = (.underflow, u)) :
    readSymbols len (fuel + 1) pos s = ([], .dUnderflow, u) := by
  rw [readSymbols, if_neg (not_le.2 hpos), h]

theorem readSymbols_of_dead {u : State} (h : walk s.readTrie s = (.dead, u)) :
    readSymbols len (fuel + 1) pos s = ([], .dBadcode, u) := by
  rw [readSymbols, if_neg (not_le.2 hpos), h]

theorem readSymbols_of_eob {u : State} {i : BitVec 16} (h : walk s.readTrie s = (.sym i, u))
    (hsym : unpack (u.readST i.toNat) = eob) : readSymbols len (fuel + 1) pos s = ([eob], .ok, u) := by
  rw [readSymbols, if_neg (not_le.2 hpos), h]
  exact (if_pos hsym).trans (by rw [hsym])

theorem readSymbols_of_sym {u : State} {i : BitVec 16} {sym : RleSym} (h : walk s.readTrie s = (.sym i, u))
    (hsym : unpack (u.readST i.toNat) = sym) (hne : sym ≠ eob) : readSymbols len (fuel + 1) pos s =
      (readSymbols len fuel (pos + sym.run.toNat + 1) u).map (sym :: ·) id := by
  subst hsym
  rw [readSymbols, if_neg (not_le.2 hpos), h]
  exact if_neg hne

end

/-- The symbols that trie indices stand for. -/
def State.symbolsOf (s : State) (ids : List (BitVec 16)) : List RleSym := ids.map fun i => unpack (s.readST i.toNat)

theorem ReadOn.readST {u : State} {n : ℕ} (h : ReadOn s u n) : u.readST = s.readST := by rw [h.1]; rfl

theorem ReadOn.readTrie {u : State} {n : ℕ} (h : ReadOn s u n) : u.readTrie = s.readTrie := by rw [h.1]; rfl

/-- While the stream goes on with codes of the trie, their symbols are decoded; then the block is at its end, or decoding goes
on behind the codes. -/
theorem readSymbols_codes {codes : List (List Bool)} {ids : List (BitVec 16)} {after : List Bool}
    (hcodes : codes.map s.readTrie.lookup = ids.map some) (hrest : s.rest = codes.flatten ++ after)
    (hopen : OpenBefore (len - pos) (s.symbolsOf ids)) (hfuel : len ≤ pos + fuel) :
    ∃ u, u.rest = after ∧ ReadOn s u codes.flatten.length ∧
      (EndsBlock (len - pos) (s.symbolsOf ids) → readSymbols len fuel pos s = (s.symbolsOf ids, .ok, u)) ∧
      (¬ EndsBlock (len - pos) (s.symbolsOf ids) → ∃ fuel' pos', pos' < len ∧
        readSymbols len fuel pos s = (readSymbols len (fuel' + 1) pos' u).map (s.symbolsOf ids ++ ·) id) := by
  induction codes generalizing ids s fuel pos with
  | nil =>
    obtain rfl : ids = [] := List.map_eq_nil_iff.1 hcodes.symm
    refine ⟨s, hrest, .refl s, fun hdone => ?_, fun hnot => ?_⟩
    · have hle : len - pos ≤ 0 := hdone.resolve_left List.not_mem_nil
      exact readSymbols_of_le (Nat.sub_eq_zero_iff_le.1 (Nat.le_zero.1 hle)) fuel s
    · have hlt : pos < len := by
        by_contra hle
        exact hnot (.inr (by omega))
      obtain ⟨fuel', rfl⟩ := Nat.exists_eq_add_one.2 (show 0 < fuel by omega)
      exact ⟨fuel', pos, hlt, rfl⟩
  | cons code codes ih =>
    obtain ⟨i, ids, rfl⟩ : ∃ i ids', ids = i :: ids' := List.exists_cons_of_ne_nil (by rintro rfl; cases hcodes)
    obtain ⟨hlookup, hcodes⟩ := List.cons.inj hcodes
    rw [List.flatten_cons, List.append_assoc] at hrest
    obtain ⟨v, hwalk, hv, hon⟩ := walk_of_lookup hrest hlookup
    have hsyms (ids) : v.symbolsOf ids = s.symbolsOf ids := by rw [State.symbolsOf, State.symbolsOf, hon.readST]
    have hsym : unpack (v.readST i.toNat) = unpack (s.readST i.toNat) := by rw [hon.readST]
    rw [show s.symbolsOf (i :: ids) = unpack (s.readST i.toNat) :: s.symbolsOf ids from rfl] at hopen ⊢
    have hlt : pos < len := by have := hopen.room_pos; omega
    obtain ⟨fuel, rfl⟩ := Nat.exists_eq_add_one.2 (show 0 < fuel by omega)
    generalize unpack (s.readST i.toNat) = sym at hsym hopen ⊢
    rw [List.flatten_cons, List.length_append]
    by_cases heob : sym = eob
    · subst heob
      have hids := hopen.eq_nil_of_eob
      obtain rfl : ids = [] := List.map_eq_nil_iff.1 hids
      obtain rfl : codes = [] := List.map_eq_nil_iff.1 hcodes
      exact ⟨v, hv, hon, fun _ => readSymbols_of_eob hlt hwalk hsym, fun hnot => absurd (.inl List.mem_cons_self) hnot⟩
    · have hroom : len - pos - (sym.run.toNat + 1) = len - (pos + sym.run.toNat + 1) := by omega
      have hopen' := hopen.tail
      rw [endsBlock_cons heob, hroom, readSymbols_of_sym hlt hwalk hsym heob]
      rw [hroom, ← hsyms] at hopen'
      obtain ⟨u, hu, hon', hends, hgoes⟩ := ih (s := v) (by rw [hon.readTrie]; exact hcodes) hv hopen'
        (show len ≤ pos + sym.run.toNat + 1 + fuel by omega)
      rw [hsyms] at hends hgoes
      refine ⟨u, hu, hon.trans hon', fun hdone => by rw [hends hdone]; rfl, fun hnot => ?_⟩
      obtain ⟨fuel', pos', hpos', heq⟩ := hgoes hnot
      exact ⟨fuel', pos', hpos', by rw [heq]; rfl⟩

/-- No more symbols are decoded than there is fuel for. -/
theorem length_readSymbols_le (len fuel pos : ℕ) (s : State) : (readSymbols len fuel pos s).1.length ≤ fuel := by
  induction fuel generalizing pos s with
  | zero => exact le_rfl
  | succ fuel ih =>
    by_cases hpos : len ≤ pos
    · rw [readSymbols_of_le hpos]
      exact Nat.zero_le _
    rw [not_le] at hpos
    rcases hwalk : walk s.readTrie s with ⟨i | _ | _, u⟩
    · by_cases hsym : unpack (u.readST i.toNat) = eob
      · rw [readSymbols_of_eob hpos hwalk hsym]
        exact Nat.succ_le_succ (Nat.zero_le _)
      · rw [readSymbols_of_sym hpos hwalk rfl hsym]
        exact Nat.succ_le_succ (ih _ u)
    · rw [readSymbols_of_underflow hpos hwalk]
      exact Nat.zero_le _
    · rw [readSymbols_of_dead hpos hwalk]
      exact Nat.zero_le _

end Sys2Proof.Machine
end

section
namespace Sys2Proof.Machine

/-! `RDPAY` (46_blockcodec.md R213). -/

variable {n : ℕ} {s : State}

/-- The symbols stored from entry 0 of `RS` on, with their number in `RSN`. -/
def State.storeSymbols (syms : List RleSym) (s : State) : State :=
  { s with mem := { s.mem with rs := s.mem.rs.fill syms }, rsn := BitVec.ofNat 16 syms.length }

theorem State.storeSymbols_symbols {syms : List RleSym} (h : syms.length < 2 ^ 16) (s : State) :
    (s.storeSymbols syms).symbols = syms := by
  rw [State.symbols, State.storeSymbols, BitVec.toNat_ofNat, Nat.mod_eq_of_lt h]
  exact readMany_fill _ _ _

theorem State.storeSymbols_readRS_of_le {syms : List RleSym} {idx : ℕ} (h : syms.length ≤ idx) (s : State) :
    (s.storeSymbols syms).readRS idx = s.readRS idx := getD_fill_of_length_le _ h _

section
variable (hrun : Running s) (hadm : Admitted s.params n) (htrv : s.valid.trv = true) (hrv : s.valid.rv = true)
include hadm htrv hrv

theorem bodyRdpay_eq {syms : List RleSym} {c : RetCode} {u : State}
    (hread : readSymbols (n * n) (n * n) 0 s = (syms, c, u)) : bodyRdpay n s = .ret c (u.storeSymbols syms) := by
  rw [bodyRdpay, withBlock_ok n _ _ ((blockSizeOk_iff_admitted _ n).2 hadm), htrv, hrv, if_neg (by decide),
    if_neg (by decide), hread]
  rfl

include hrun

/-- What `RDPAY` leaves when it has decoded some symbols and read `m` bits. -/
theorem exec_rdpay_of_readSymbols {syms : List RleSym} {c : RetCode} {u : State} {m : ℕ}
    (hread : readSymbols (n * n) (n * n) 0 (recordOp 0x74#8 s) = (syms, c, u)) (hon : ReadOn (recordOp 0x74#8 s) u m) :
    ∃ t, exec (.rdpay n) s = .next t ∧ t.status = retStatus 0x74#8 c ∧ t.symbols = syms ∧ t.rpos = s.rpos + m ∧
      ∀ idx, syms.length ≤ idx → t.readRS idx = s.readRS idx := by
  have hlen : syms.length < 2 ^ 16 := by
    have hle := length_readSymbols_le (n * n) (n * n) 0 (recordOp 0x74#8 s)
    rw [hread] at hle
    exact hle.trans_lt (square_lt_of_admitted hrun hadm)
  refine ⟨_, command_ret hrun.2 (bodyRdpay_eq (s := recordOp 0x74#8 s) hadm htrv hrv hread) hon.status, rfl,
    u.storeSymbols_symbols hlen, hon.2.2, fun idx hidx => (u.storeSymbols_readRS_of_le hidx).trans ?_⟩
  rw [hon.1]
  rfl

end

/-- Settles O50: the codes are walked one after another, and then the walk that ends decoding, if one does. -/
theorem rdpayDecodesSymbols : Obligations.RdpayDecodesSymbols := by
  intro n s l r codes ids after hrun hadm htrv hrv htrie hpos hcodes hrest
  dsimp only
  intro hopen
  have hroot : (recordOp 0x74#8 s).readTrie = .node l r := by rw [State.readTrie, recordOp_mem, htrie, Option.getD_some]
  obtain ⟨u, hu, hon, hends, hgoes⟩ := readSymbols_codes (s := recordOp 0x74#8 s) (len := n * n) (pos := 0)
    (fuel := n * n) (hroot.symm ▸ hcodes) hrest hopen (Nat.le_add_left _ _)
  have hfinish {c v m} (hend : ∀ {fuel pos}, pos < n * n → readSymbols (n * n) (fuel + 1) pos u = ([], c, v))
      (hon' : ReadOn u v m) (hnot : ¬ EndsBlock (n * n) (s.symbolsOf ids)) :
      ∃ t, exec (.rdpay n) s = .next t ∧ t.status = retStatus 0x74#8 c ∧ t.symbols = s.symbolsOf ids ∧
        t.rpos = s.rpos + (codes.flatten.length + m) := by
    obtain ⟨fuel, pos, hlt, hread⟩ := hgoes hnot
    rw [hend hlt, Prod.map_apply, List.append_nil] at hread
    obtain ⟨t, hexec, hstatus, hsyms, hrpos, -⟩ :=
      exec_rdpay_of_readSymbols hrun hadm htrv hrv hread (hon.trans hon')
    exact ⟨t, hexec, hstatus, hsyms, hrpos⟩
  have htrie' : u.readTrie = .node l r := hon.readTrie.trans hroot
  refine ⟨fun hdone => ?_, fun hnot hnode => ?_, fun hnot path b more hafter hnode habsent => ?_⟩
  · exact exec_rdpay_of_readSymbols hrun hadm htrv hrv (hends hdone) hon
  · obtain ⟨v, hwalk, hon'⟩ := walk_of_isNode (s := u) (hu.symm ▸ hnode)
    rw [← htrie'] at hwalk
    obtain ⟨t, hexec, hstatus, hsyms, hrpos⟩ := hfinish (fun hlt => readSymbols_of_underflow hlt hwalk) hon' hnot
    refine ⟨t, hexec, hstatus, hsyms, hrpos.trans ?_⟩
    have hlen := congrArg List.length hrest
    rw [length_rest, List.length_append] at hlen
    rw [hu]
    omega
  · obtain ⟨v, hwalk, hon'⟩ := walk_of_absent (s := u) (hu.trans hafter) hnode habsent
    rw [← htrie'] at hwalk
    obtain ⟨t, hexec, hstatus, hsyms, hrpos⟩ := hfinish (fun hlt => readSymbols_of_dead hlt hwalk) hon' hnot
    exact ⟨t, hexec, hstatus, hsyms, hrpos.trans (by omega)⟩

end Sys2Proof.Machine
end

section
namespace Sys2Proof.Machine

/-! Symbol packing (46_blockcodec.md R206 to R208). -/

theorem fold16_zero : fold16 0 = (0, false) := rfl

theorem fold16_of_pos {v : ℤ} (h : 0 < v) : fold16 v = ((2 * min v 32767).toNat, decide (32767 < v)) := by
  rw [fold16, if_neg h.ne', if_pos h]

theorem fold16_of_neg {v : ℤ} (h : v < 0) : fold16 v = ((2 * min (-v) 32768 - 1).toNat, decide (v < -32768)) := by
  rw [fold16, if_neg h.ne, if_neg h.not_gt]

theorem fold16_lt (v : ℤ) : (fold16 v).1 < 65536 := by
  obtain h | rfl | h := lt_trichotomy v 0
  · rw [fold16_of_neg h]; omega
  · decide
  · rw [fold16_of_pos h]; omega

theorem fold16_eq_zero_iff (v : ℤ) : (fold16 v).1 = 0 ↔ v = 0 := by
  obtain h | rfl | h := lt_trichotomy v 0
  · rw [fold16_of_neg h]; omega
  · decide
  · rw [fold16_of_pos h]; omega

theorem unfold16_fold16 {v : ℤ} (h : (fold16 v).2 = false) : unfold16 (fold16 v).1 = v := by
  rw [fold16_exact_iff] at h
  obtain hv | rfl | hv := lt_trichotomy v 0
  · rw [fold16_of_neg hv, unfold16]; omega
  · rfl
  · rw [fold16_of_pos hv, unfold16]; omega

theorem unfold16_mem {e : ℕ} (h : e < 65536) : -32768 ≤ unfold16 e ∧ unfold16 e ≤ 32767 := by
  unfold unfold16; omega

theorem fold16_unfold16 {e : ℕ} (h : e < 65536) : fold16 (unfold16 e) = (e, false) := by
  refine Prod.ext ?_ ((fold16_exact_iff _).2 (unfold16_mem h))
  unfold unfold16
  split_ifs with heven
  · obtain rfl | hpos := e.eq_zero_or_pos
    · rfl
    · rw [fold16_of_pos (by omega)]; omega
  · rw [fold16_of_neg (by omega)]; omega

theorem fold16_of_gt {v : ℤ} (h : 32767 < v) : fold16 v = (65534, true) := by
  rw [fold16_of_pos (by omega), min_eq_right h.le, decide_eq_true h]
  rfl

theorem fold16_of_lt {v : ℤ} (h : v < -32768) : fold16 v = (65535, true) := by
  rw [fold16_of_neg (by omega), min_eq_right (by omega), decide_eq_true h]
  rfl

/-! The key of a symbol: the run that is kept over the folded value. -/

variable (sym : RleSym)

theorem pack_fst : (pack sym).1 = BitVec.ofNat 16 (min sym.run.toNat 255) ++ BitVec.ofNat 16 (fold16 sym.value.toInt).1 := rfl

theorem unpack_pack : unpack (pack sym).1 =
    { run := BitVec.ofNat 16 (min sym.run.toNat 255), value := BitVec.ofInt 32 (unfold16 (fold16 sym.value.toInt).1) } := by
  rw [unpack, pack_fst, BitVec.extractLsb'_append_eq_left, BitVec.extractLsb'_append_eq_right, BitVec.toNat_ofNat,
    Nat.mod_eq_of_lt (fold16_lt _)]

/-- A key unpacks to its symbol exactly when nothing was clamped. -/
theorem unpack_pack_eq_iff : unpack (pack sym).1 = sym ↔ (pack sym).2 = false := by
  obtain ⟨run, value⟩ := sym
  rw [unpack_pack, RleSym.mk.injEq, pack_exact_iff, and_comm]
  dsimp only
  have hrange := unfold16_mem (fold16_lt value.toInt)
  refine and_congr ⟨fun h => ?_, fun h => ?_⟩ ⟨fun h => ?_, fun h => ?_⟩
  · rw [← h, BitVec.toInt_ofInt_eq_self (by decide) (by omega) (by omega)]
    exact hrange
  · rw [unfold16_fold16 ((fold16_exact_iff _).2 h), BitVec.ofInt_toInt]
  · have hrun := congrArg BitVec.toNat h
    rw [BitVec.toNat_ofNat, Nat.mod_eq_of_lt (by omega)] at hrun
    exact min_eq_left_iff.1 hrun
  · rw [min_eq_left h, BitVec.ofNat_toNat, BitVec.setWidth_eq]

theorem toNat_pack : (pack sym).1.toNat = (fold16 sym.value.toInt).1 + 2 ^ 16 * min sym.run.toNat 255 := by
  rw [pack_fst, toNat_append_eq_add, BitVec.toNat_ofNat, BitVec.toNat_ofNat, Nat.mod_eq_of_lt (fold16_lt _),
    Nat.mod_eq_of_lt (by omega)]

theorem pack_eq_zero_iff : (pack sym).1 = 0#32 ↔ sym = eob := by
  obtain ⟨run, value⟩ := sym
  have hzero : (pack ⟨run, value⟩).1 = 0#32 ↔ run.toNat = 0 ∧ (fold16 value.toInt).1 = 0 := by
    rw [← BitVec.toNat_inj, toNat_pack]
    simp only [BitVec.toNat_ofNat]
    omega
  rw [hzero, fold16_eq_zero_iff, eob, RleSym.mk.injEq, ← BitVec.toNat_inj (x := run), ← BitVec.toInt_inj (x := value)]
  rfl

/-- Settles O46: each sign is folded to its parity, and the key holds the run and the folded value side by side. -/
theorem symbolPackingIsExact : Obligations.SymbolPackingIsExact := by
  refine ⟨fun v hlo hhi => ?_, fun e he => ⟨(unfold16_mem he).1, (unfold16_mem he).2, fold16_unfold16 he⟩,
    fun v => ⟨fold16_of_gt, fold16_of_lt⟩, fun sym => ?_, fun sym => ?_⟩
  · have hexact := (fold16_exact_iff v).2 ⟨hlo, hhi⟩
    exact ⟨hexact, unfold16_fold16 hexact⟩
  · have hexact := (pack_exact_iff sym).trans and_comm
    exact ⟨hexact, (unpack_pack_eq_iff sym).trans hexact, pack_eq_zero_iff sym⟩
  · have hfold := fold16_lt sym.value.toInt
    rw [extractLsb'_eq_iff, toNat_pack, BitVec.toNat_ofNat]
    omega

end Sys2Proof.Machine
end

section
namespace Sys2Proof.Machine

/-! The symbol table that `SYMMAP` builds (46_blockcodec.md R209): the keys in order of first appearance, with their counts. -/

variable {keys : List Word} {key : Word}

theorem eraseDups_concat (keys : List Word) (key : Word) :
    (keys ++ [key]).eraseDups = if key ∈ keys then keys.eraseDups else keys.eraseDups ++ [key] := by
  rw [List.eraseDups_append]
  by_cases h : key ∈ keys
  · simp [List.removeAll, h]
  · simp [List.removeAll, h, List.eraseDups_cons]

theorem length_eraseDups_le_append (first second : List Word) :
    first.eraseDups.length ≤ (first ++ second).eraseDups.length := by
  rw [List.eraseDups_append, List.length_append]
  exact Nat.le_add_right _ _

theorem nodup_eraseDups (keys : List Word) : keys.eraseDups.Nodup := by
  induction keys using List.reverseRecOn with
  | nil => exact List.nodup_nil
  | append_singleton keys key ih =>
    rw [eraseDups_concat]
    split_ifs with h
    · exact ih
    · exact List.nodup_append.2 ⟨ih, List.nodup_singleton _, fun a ha b hb => by
        rintro rfl
        exact h (List.mem_eraseDups.1 (List.mem_singleton.1 hb ▸ ha))⟩

/-- The distinct keys in order of first appearance, each with its count. -/
def keyCounts (keys : List Word) : List (Word × ℕ) := keys.eraseDups.map fun key => (key, keys.count key)

@[simp] theorem length_keyCounts (keys : List Word) : (keyCounts keys).length = keys.eraseDups.length := List.length_map _

theorem keyCounts_concat_of_notMem (h : key ∉ keys) : keyCounts (keys ++ [key]) = keyCounts keys ++ [(key, 1)] := by
  rw [keyCounts, eraseDups_concat, if_neg h, List.map_append, List.map_singleton, List.count_append,
    List.count_eq_zero_of_not_mem h, List.count_singleton_self, keyCounts]
  congr 1
  refine List.map_congr_left fun other hother => ?_
  have hne : other ≠ key := fun heq => h (heq ▸ List.mem_eraseDups.1 hother)
  rw [List.count_append, List.count_singleton, beq_false_of_ne hne.symm, if_neg Bool.false_ne_true, Nat.add_zero]

theorem bumpKey_of_notMem {tab : List (Word × ℕ)} (h : key ∉ tab.map Prod.fst) : bumpKey key tab = none := by
  induction tab with
  | nil => rfl
  | cons entry rest ih =>
    obtain ⟨other, count⟩ := entry
    rw [List.map_cons, List.mem_cons, not_or] at h
    rw [bumpKey, if_neg (Ne.symm h.1), ih h.2, Option.map_none]

/-- The count of a key that is in the table once is raised, and no other. -/
theorem bumpKey_map {distinct : List Word} (hnodup : distinct.Nodup) (h : key ∈ distinct) (count : Word → ℕ) :
    bumpKey key (distinct.map fun other => (other, count other)) =
      some (distinct.map fun other => (other, count other + if other = key then 1 else 0)) := by
  induction distinct with
  | nil => exact absurd h List.not_mem_nil
  | cons other rest ih =>
    obtain ⟨hother, hrest⟩ := List.nodup_cons.1 hnodup
    rw [List.map_cons, List.map_cons, bumpKey]
    by_cases heq : other = key
    · rw [if_pos heq, if_pos heq]
      congr 2
      refine List.map_congr_left fun next hnext => ?_
      have hne : next ≠ key := fun h => hother (heq.trans h.symm ▸ hnext)
      rw [if_neg hne, Nat.add_zero]
    · rw [if_neg heq, if_neg heq, ih hrest ((List.mem_cons.1 h).resolve_left (Ne.symm heq)), Option.map_some, Nat.add_zero]

theorem bumpKey_keyCounts_of_mem (h : key ∈ keys) : bumpKey key (keyCounts keys) = some (keyCounts (keys ++ [key])) := by
  rw [keyCounts, bumpKey_map (nodup_eraseDups keys) (List.mem_eraseDups.2 h), keyCounts, eraseDups_concat, if_pos h]
  congr 1
  refine List.map_congr_left fun other _ => ?_
  rw [List.count_append, List.count_singleton]
  simp only [beq_iff_eq, eq_comm (a := key)]

theorem bumpKey_keyCounts_of_notMem (h : key ∉ keys) : bumpKey key (keyCounts keys) = none := by
  refine bumpKey_of_notMem fun hmem => h ?_
  rw [keyCounts, List.map_map] at hmem
  exact List.mem_eraseDups.1 (List.map_id keys.eraseDups ▸ hmem)

/-- The keys of symbols. -/
def keysOf (syms : List RleSym) : List Word := syms.map fun sym => (pack sym).1

/-- A symbol whose key is not new, or that finds room for it, goes into the table. -/
theorem mapSymbols_cons_keyCounts {symMax : ℕ} (sat : Bool) (sym : RleSym) (rest : List RleSym)
    (h : (pack sym).1 ∈ keys ∨ keys.eraseDups.length ≠ symMax) : mapSymbols symMax (keyCounts keys) sat (sym :: rest) =
      mapSymbols symMax (keyCounts (keys ++ [(pack sym).1])) (sat || (pack sym).2) rest := by
  by_cases hmem : (pack sym).1 ∈ keys
  · simp only [mapSymbols, bumpKey_keyCounts_of_mem hmem]
  · simp only [mapSymbols, bumpKey_keyCounts_of_notMem hmem, length_keyCounts, if_neg (h.resolve_left hmem),
      keyCounts_concat_of_notMem hmem]

/-- With room for all keys the table is theirs. -/
theorem mapSymbols_of_room {symMax : ℕ} (sat : Bool) (syms : List RleSym)
    (h : (keys ++ keysOf syms).eraseDups.length ≤ symMax) : mapSymbols symMax (keyCounts keys) sat syms =
      (keyCounts (keys ++ keysOf syms), sat || syms.any fun sym => (pack sym).2, false) := by
  induction syms generalizing keys sat with
  | nil => simp [mapSymbols, keysOf]
  | cons sym rest ih =>
    rw [show keysOf (sym :: rest) = [(pack sym).1] ++ keysOf rest from rfl, ← List.append_assoc] at h ⊢
    rw [mapSymbols_cons_keyCounts, ih _ h, List.any_cons, Bool.or_assoc]
    by_contra hfull
    rw [not_or, not_not] at hfull
    have hle := (length_eraseDups_le_append _ _).trans h
    rw [eraseDups_concat, if_neg hfull.1, List.length_append, hfull.2, List.length_singleton] at hle
    omega

/-- Without room the table is that of the keys before the first one that finds none. -/
theorem mapSymbols_of_no_room {symMax : ℕ} (sat : Bool) (syms : List RleSym) (hkeys : keys.eraseDups.length ≤ symMax)
    (h : symMax < (keys ++ keysOf syms).eraseDups.length) : ∃ before key after sat',
      keys ++ keysOf syms = before ++ key :: after ∧ key ∉ before ∧ before.eraseDups.length = symMax ∧
      mapSymbols symMax (keyCounts keys) sat syms = (keyCounts before, sat', true) := by
  induction syms generalizing keys sat with
  | nil => exact absurd (hkeys.trans_lt h) (by simp [keysOf])
  | cons sym rest ih =>
    by_cases hroom : (pack sym).1 ∈ keys ∨ keys.eraseDups.length ≠ symMax
    · rw [show keysOf (sym :: rest) = [(pack sym).1] ++ keysOf rest from rfl, ← List.append_assoc] at h ⊢
      rw [mapSymbols_cons_keyCounts _ _ _ hroom]
      refine ih _ ?_ h
      rw [eraseDups_concat]
      split_ifs with hmem
      · exact hkeys
      · rw [List.length_append, List.length_singleton]
        have := hroom.resolve_left hmem
        omega
    · rw [not_or, not_not] at hroom
      refine ⟨keys, (pack sym).1, keysOf rest, sat || (pack sym).2, rfl, hroom.1, hroom.2, ?_⟩
      simp only [mapSymbols, bumpKey_keyCounts_of_notMem hroom.1, length_keyCounts, if_pos hroom.2]

end Sys2Proof.Machine
end

section
namespace Sys2Proof.Machine

/-! `SYMMAP` (46_blockcodec.md R209). -/

variable {s : State}

/-- The table `SYMMAP` makes of the symbols, whether one saturated, and whether a key found no room. -/
def State.symbolTable (s : State) : List (Word × ℕ) × Bool × Bool := mapSymbols s.params.symMax [] false s.symbols

/-- The state `SYMMAP` leaves on a running core. -/
def State.symmap (s : State) : State :=
  { s with
    status := retStatus 0x70#8 (if s.symbolTable.2.2 then .eSymspace else if s.symbolTable.2.1 then .okSat else .ok)
    mem := { s.mem with
      st := s.mem.st.fill (s.symbolTable.1.map Prod.fst)
      fq := s.mem.fq.fill (s.symbolTable.1.map fun entry => BitVec.ofNat 32 entry.2) }
    k := BitVec.ofNat 16 s.symbolTable.1.length
    valid := { s.valid with ccv := false } }

theorem exec_symmap (hrun : Running s) (hrsn : s.rsn.toNat ≤ s.params.lMax) : exec .symmap s = .next s.symmap := by
  have hret : bodySymmap (recordOp 0x70#8 s) = _ := if_neg (not_lt.2 hrsn)
  exact command_ret hrun.2 hret rfl

theorem State.symbolTable_of_room (h : (keysOf s.symbols).eraseDups.length ≤ s.params.symMax) :
    s.symbolTable = (keyCounts (keysOf s.symbols), s.symbols.any (fun sym => (pack sym).2), false) :=
  mapSymbols_of_room (keys := []) false s.symbols h

/-- What `SYMMAP` leaves where its table is that of some keys. -/
structure TableOf (keys : List Word) (s t : State) : Prop where
  k : t.k.toNat = keys.eraseDups.length
  entries : ∀ i key, keys.eraseDups[i]? = some key → t.readST i = key ∧ (t.readFQ i).toNat = keys.count key
  kept : ∀ i, t.k.toNat ≤ i → t.readST i = s.readST i ∧ t.readFQ i = s.readFQ i

theorem State.symmap_tableOf {keys : List Word} (hp : s.params.ok = true) (hkeys : keys.length < 2 ^ 32)
    (hmax : keys.eraseDups.length ≤ s.params.symMax) (htable : s.symbolTable.1 = keyCounts keys) :
    TableOf keys s s.symmap := by
  have hk : s.symmap.k.toNat = keys.eraseDups.length := by
    have := symMax_le hp
    rw [State.symmap, htable, length_keyCounts, BitVec.toNat_ofNat, Nat.mod_eq_of_lt (by omega)]
  refine ⟨hk, fun i key hi => ⟨?_, ?_⟩, fun i hi => ⟨?_, ?_⟩⟩
  · refine getD_fill_of_getElem? _ ?_ _
    rw [htable, keyCounts, List.map_map, List.getElem?_map, hi]
    rfl
  · have hcount : keys.count key < 2 ^ 32 := List.count_le_length.trans_lt hkeys
    have hread : s.symmap.readFQ i = BitVec.ofNat 32 (keys.count key) := by
      refine getD_fill_of_getElem? _ ?_ _
      rw [htable, keyCounts, List.map_map, List.getElem?_map, hi]
      rfl
    rw [hread, BitVec.toNat_ofNat, Nat.mod_eq_of_lt hcount]
  · exact getD_fill_of_length_le _ (by rw [htable, List.length_map, length_keyCounts, ← hk]; exact hi) _
  · exact getD_fill_of_length_le _ (by rw [htable, List.length_map, length_keyCounts, ← hk]; exact hi) _

/-- Settles O47: the table is that of all keys, or of those before the first that finds no room. -/
theorem symmapCountsKeys : Obligations.SymmapCountsKeys := by
  intro s hrun hrsn
  dsimp only
  have hlen : (keysOf s.symbols).length < 2 ^ 16 := by
    rw [keysOf, List.length_map, length_symbols]
    exact s.rsn.isLt
  refine ⟨s.symmap, exec_symmap hrun hrsn, rfl, ?_⟩
  by_cases hroom : (keysOf s.symbols).eraseDups.length ≤ s.params.symMax
  · have htable := State.symbolTable_of_room hroom
    obtain ⟨hk, hentries, hkept⟩ := State.symmap_tableOf hrun.1 (hlen.trans (by decide)) hroom (by rw [htable])
    exact ⟨fun _ => ⟨by rw [State.symmap, htable]; rfl, hk, hentries⟩, fun h => absurd hroom (not_le.2 h), hkept⟩
  · obtain ⟨before, key, after, sat, hsplit, hnew, hfull, htable⟩ := mapSymbols_of_no_room (keys := []) false s.symbols
      (Nat.zero_le _) (not_le.1 hroom)
    replace htable : s.symbolTable = (keyCounts before, sat, true) := htable
    have hbefore : before.length < 2 ^ 32 := by
      have := congrArg List.length hsplit
      rw [List.nil_append, List.length_append] at this
      omega
    obtain ⟨hk, hentries, hkept⟩ := State.symmap_tableOf hrun.1 hbefore hfull.le (by rw [htable])
    exact ⟨fun h => absurd h hroom, fun _ => ⟨by rw [State.symmap, htable]; rfl, hk.trans hfull, before, key, after,
      hsplit, hnew, hfull, hentries⟩, hkept⟩

end Sys2Proof.Machine
end

section
namespace Sys2Proof.Machine

/-! `WRHDR` and `WRPAY` (46_blockcodec.md R210, R211; 30_encoding.md R90). -/

variable {s : State}

/-- An entry of a header: the key in 32 bits and the length in 8 (R90). -/
def entryBits (key : Word) (len : Byte) : List Bool := fieldBits 32 key.toNat ++ fieldBits 8 len.toNat

@[simp] theorem length_entryBits (key : Word) (len : Byte) : (entryBits key len).length = 40 := by
  rw [entryBits, List.length_append, length_fieldBits, length_fieldBits]

theorem header_eq (s : State) : s.header =
    fieldBits 16 s.k.toNat ++ (List.range s.k.toNat).flatMap fun i => entryBits (s.readST i) (s.readCL i) := by
  rw [State.header, headerBits, length_readMany, readMany, readMany, List.zip_map', List.flatMap_map]
  rfl

theorem length_flatMap_entryBits (key : ℕ → Word) (len : ℕ → Byte) (idxs : List ℕ) :
    (idxs.flatMap fun i => entryBits (key i) (len i)).length = 40 * idxs.length := by
  simp [List.length_flatMap, mul_comm]

theorem length_header (s : State) : s.header.length = 16 + 40 * s.k.toNat := by
  rw [header_eq, List.length_append, length_fieldBits, length_flatMap_entryBits, List.length_range]

theorem symbolIndex_eq_some_iff {key : Word} {i : ℕ} :
    s.symbolIndex key = some i ↔ i < s.k.toNat ∧ s.readST i = key ∧ ∀ j, j < i → s.readST j ≠ key := by
  rw [State.symbolIndex, List.find?_range_eq_some, List.mem_range]
  simp only [decide_eq_true_eq, Bool.not_eq_true', decide_eq_false_iff_not]
  exact and_left_comm

/-- The payload of symbols that are all found: their codes one after another. -/
theorem payloadBits_map {α : Type} {sym : α → RleSym} {idx : α → ℕ} {l : List α}
    (h : ∀ p ∈ l, s.symbolIndex (pack (sym p)).1 = some (idx p)) :
    payloadBits s (l.map sym) = some (l.flatMap fun p => (s.readCC (idx p)).str) := by
  induction l with
  | nil => rfl
  | cons p rest ih =>
    obtain ⟨hp, hrest⟩ := List.forall_mem_cons.1 h
    rw [List.map_cons, payloadBits, hp, ih hrest, List.flatMap_cons]
    rfl

section
variable (hrun : Running s) (hwv : s.valid.wv = true) (hk : s.k.toNat ≤ s.params.symMax)
include hrun hwv hk

theorem exec_wrhdr : exec .wrhdr s = .next (s.written 0x71#8 s.header) := by
  refine command_afterWrite hrun ?_
  rw [bodyWrhdr, recordOp_valid, hwv, if_neg (by decide)]
  exact if_neg (not_lt.2 hk)

theorem exec_wrpay (hccv : s.valid.ccv = true) (hrsn : s.rsn.toNat ≤ s.params.lMax) {bits : List Bool}
    (hbits : payloadBits s s.symbols = some bits) : exec .wrpay s = .next (s.written 0x72#8 bits) := by
  refine command_afterWrite hrun ?_
  have hbits' : payloadBits (recordOp 0x72#8 s) (recordOp 0x72#8 s).symbols = some bits :=
    (payloadBits_congr (s := s) (t := recordOp 0x72#8 s) rfl rfl s.symbols).trans hbits
  rw [bodyWrpay, recordOp_valid, hwv, hccv, if_neg (by decide), recordOp_k, recordOp_rsn,
    recordOp_params, decide_eq_false (not_lt.2 hk), decide_eq_false (not_lt.2 hrsn), if_neg (by decide), hbits']

end

/-- Settles O48: the header is written field by field, and each symbol's code is that at its index in the table. -/
theorem headerAndPayloadAreWritten : Obligations.HeaderAndPayloadAreWritten := by
  intro s hrun hwv hk
  refine ⟨⟨_, exec_wrhdr hrun hwv hk, ?_, ?_⟩, fun hccv hrsn idx hidx => ?_⟩
  · rw [header_eq]
    exact wrote_writeBits s _
  · rw [header_eq]
    rfl
  · refine ⟨_, exec_wrpay hrun hwv hk hccv hrsn (payloadBits_map fun p hp => ?_), wrote_writeBits s _, rfl⟩
    exact symbolIndex_eq_some_iff.2 (hidx p (List.mem_range.1 hp))

end Sys2Proof.Machine
end

section
namespace Sys2Proof.Machine

/-! The steps of a composite command do not look at `STATUS` (46_blockcodec.md R214): a step is the body of its command, so what
it does inside the composite is what the command does on its own. -/

/-- `STATUS` replaced. -/
def State.withStatus (st : Status) (s : State) : State := { s with status := st }

/-- A result with `STATUS` replaced in the state returned. -/
def Result.withStatus (st : Status) : Result → Result
  | .ret c s => .ret c (s.withStatus st)
  | .raise f => .raise f

/-- A body that neither reads nor writes `STATUS`. -/
def StatusBlind (body : State → Result) : Prop := ∀ s st, body (s.withStatus st) = (body s).withStatus st

theorem ite_withStatus {st : Status} {p : Prop} [Decidable p] {a a' b b' : Result} (ha : a' = a.withStatus st)
    (hb : b' = b.withStatus st) : (if p then a' else b') = (if p then a else b).withStatus st := by
  split_ifs
  · exact ha
  · exact hb

theorem statusBlind_withBlock {n : ℕ} {body : State → Result} (h : StatusBlind body) : StatusBlind (withBlock n body) := by
  intro s st
  unfold withBlock
  exact ite_withStatus (h s st) rfl

/-! Reading does not look at it. -/

theorem readBit_withStatus (s : State) (st : Status) :
    readBit (s.withStatus st) = (readBit s).map fun e => (e.1, e.2.withStatus st) := by
  by_cases hend : 8 * s.r.cap.toNat ≤ s.r.pos
  · rw [readBit, readBit, if_pos hend]
    exact if_pos hend
  · rw [readBit, readBit, if_neg hend]
    exact if_neg hend

theorem readField_withStatus (width v : ℕ) (s : State) (st : Status) : readField width v (s.withStatus st) =
    ((readField width v s).1, (readField width v s).2.withStatus st) := by
  induction width generalizing v s with
  | zero => rfl
  | succ width ih =>
    rw [readField, readField, readBit_withStatus]
    cases readBit s with
    | none => rfl
    | some read => exact ih _ _

theorem readEntries_withStatus (left i : ℕ) (s : State) (st : Status) : readEntries left i (s.withStatus st) =
    ((readEntries left i s).1, (readEntries left i s).2.withStatus st) := by
  induction left generalizing i s with
  | zero => rfl
  | succ left ih =>
    rw [readEntries, readEntries, readField_withStatus]
    rcases readField 32 0 s with ⟨_ | key, t⟩
    · rfl
    · dsimp only
      rw [readField_withStatus]
      rcases readField 8 0 t with ⟨_ | len, u⟩
      · rfl
      · dsimp only
        split_ifs
        · rfl
        · exact ih (i + 1) (u.storeEntry i (BitVec.ofNat 32 key) (BitVec.ofNat 8 len))

theorem walk_withStatus (t : Trie) (s : State) (st : Status) :
    walk t (s.withStatus st) = ((walk t s).1, (walk t s).2.withStatus st) := by
  induction t generalizing s with
  | absent => rfl
  | leaf i => rfl
  | node l r ihl ihr =>
    rw [walk, walk, readBit_withStatus]
    rcases readBit s with _ | ⟨_ | _, u⟩
    · rfl
    · exact ihl u
    · exact ihr u

theorem readSymbols_withStatus (len fuel pos : ℕ) (s : State) (st : Status) :
    readSymbols len fuel pos (s.withStatus st) = ((readSymbols len fuel pos s).1, (readSymbols len fuel pos s).2.1,
      (readSymbols len fuel pos s).2.2.withStatus st) := by
  induction fuel generalizing pos s with
  | zero => rfl
  | succ fuel ih =>
    by_cases hpos : len ≤ pos
    · rw [readSymbols_of_le hpos, readSymbols_of_le hpos]
    rw [not_le] at hpos
    have hstatus := walk_withStatus s.readTrie s st
    rcases hwalk : walk s.readTrie s with ⟨i | _ | _, u⟩
    · rw [hwalk] at hstatus
      by_cases hsym : unpack (u.readST i.toNat) = eob
      · rw [readSymbols_of_eob hpos hwalk hsym, readSymbols_of_eob (u := u.withStatus st) hpos hstatus hsym]
      · rw [readSymbols_of_sym hpos hwalk rfl hsym, readSymbols_of_sym (u := u.withStatus st) hpos hstatus rfl hsym]
        exact congrArg (Prod.map (_ :: ·) id) (ih _ u)
    · rw [hwalk] at hstatus
      rw [readSymbols_of_underflow hpos hwalk, readSymbols_of_underflow hpos hstatus]
    · rw [hwalk] at hstatus
      rw [readSymbols_of_dead hpos hwalk, readSymbols_of_dead hpos hstatus]

/-! The bodies. -/

theorem statusBlind_zscan (n : ℕ) : StatusBlind (bodyZscan n) := statusBlind_withBlock fun _ _ => rfl

theorem statusBlind_zunscan (n : ℕ) : StatusBlind (bodyZunscan n) := statusBlind_withBlock fun _ _ => rfl

theorem statusBlind_rlenc (n : ℕ) : StatusBlind (bodyRlenc n) := statusBlind_withBlock fun _ _ => rfl

theorem statusBlind_rldec (n : ℕ) : StatusBlind (bodyRldec n) :=
  statusBlind_withBlock fun _ _ => ite_withStatus rfl rfl

theorem statusBlind_symmap : StatusBlind bodySymmap := fun s st => by
  unfold bodySymmap
  exact ite_withStatus rfl rfl

theorem statusBlind_hbuild : StatusBlind bodyHbuild := fun s st => by
  unfold bodyHbuild
  exact ite_withStatus rfl (ite_withStatus rfl rfl)

theorem statusBlind_hcanon : StatusBlind bodyHcanon := fun s st => by
  unfold bodyHcanon
  refine ite_withStatus rfl ?_
  show (match canon s.lens with | .error _ => _ | .ok _ => _) = Result.withStatus st (match canon s.lens with
    | .error _ => _ | .ok _ => _)
  cases canon s.lens <;> rfl

theorem statusBlind_htrie : StatusBlind bodyHtrie := fun s st => by
  unfold bodyHtrie
  refine ite_withStatus rfl ?_
  show (match trieBuild 0 (readMany s.readCC s.k.toNat) Trie.bare with | none => _ | some _ => _) = Result.withStatus st
    (match trieBuild 0 (readMany s.readCC s.k.toNat) Trie.bare with | none => _ | some _ => _)
  cases trieBuild 0 (readMany s.readCC s.k.toNat) Trie.bare <;> rfl

theorem afterWrite_withStatus (s : State) (st : Status) (bits : List Bool) :
    afterWrite (writeBits (s.withStatus st) bits) = (afterWrite (writeBits s bits)).withStatus st :=
  congrArg afterWrite (writeBits_withStatus s st bits)

theorem statusBlind_wrhdr : StatusBlind bodyWrhdr := fun s st => by
  unfold bodyWrhdr
  exact ite_withStatus rfl (ite_withStatus rfl (afterWrite_withStatus s st _))

theorem statusBlind_wrpay : StatusBlind bodyWrpay := fun s st => by
  unfold bodyWrpay
  refine ite_withStatus rfl (ite_withStatus rfl ?_)
  rw [payloadBits_congr (s := s) (t := s.withStatus st) rfl rfl]
  show (match payloadBits s s.symbols with | none => _ | some _ => _) = Result.withStatus st
    (match payloadBits s s.symbols with | none => _ | some _ => _)
  cases payloadBits s s.symbols with
  | none => rfl
  | some bits => exact afterWrite_withStatus s st bits

theorem headerResult_withStatus (symMax : ℕ) (count : Option ℕ) (s : State) (st : Status) :
    headerResult symMax (count, s.withStatus st) = (headerResult symMax (count, s)).withStatus st := by
  cases count with
  | none => rfl
  | some count =>
    refine ite_withStatus rfl ?_
    rw [readEntries_withStatus]
    rcases readEntries count 0 s with ⟨_ | _, u⟩ <;> rfl

theorem statusBlind_rdhdr : StatusBlind bodyRdhdr := fun s st => by
  cases hrv : s.valid.rv with
  | false =>
    have hraise (s : State) (h : s.valid.rv = false) : bodyRdhdr s = .raise .nobuf := by rw [bodyRdhdr, h]; rfl
    rw [hraise s hrv, hraise (s.withStatus st) hrv]
    rfl
  | true =>
    rw [bodyRdhdr_eq hrv, bodyRdhdr_eq (s := s.withStatus st) hrv]
    exact (congrArg _ (readField_withStatus 16 0 s.tableCleared st)).trans (headerResult_withStatus _ _ _ st)

theorem statusBlind_rdpay (n : ℕ) : StatusBlind (bodyRdpay n) := by
  refine statusBlind_withBlock fun s st => ite_withStatus rfl (ite_withStatus rfl ?_)
  rw [readSymbols_withStatus]
  rfl

end Sys2Proof.Machine
end

section
namespace Sys2Proof.Machine

/-! A composite command beside the commands of its steps run one after another. -/

/-- `body` is what a composite runs for the command `i`. -/
structure Step (i : Instr) (body : State → Result) : Prop where
  exec_eq (s : State) : exec i s = command i.opcode body s
  blind : StatusBlind body

theorem step_zscan (n : ℕ) : Step (.zscan n) (bodyZscan n) := ⟨fun _ => rfl, statusBlind_zscan n⟩
theorem step_zunscan (n : ℕ) : Step (.zunscan n) (bodyZunscan n) := ⟨fun _ => rfl, statusBlind_zunscan n⟩
theorem step_rlenc (n : ℕ) : Step (.rlenc n) (bodyRlenc n) := ⟨fun _ => rfl, statusBlind_rlenc n⟩
theorem step_rldec (n : ℕ) : Step (.rldec n) (bodyRldec n) := ⟨fun _ => rfl, statusBlind_rldec n⟩
theorem step_symmap : Step .symmap bodySymmap := ⟨fun _ => rfl, statusBlind_symmap⟩
theorem step_hbuild : Step .hbuild bodyHbuild := ⟨fun _ => rfl, statusBlind_hbuild⟩
theorem step_hcanon : Step .hcanon bodyHcanon := ⟨fun _ => rfl, statusBlind_hcanon⟩
theorem step_htrie : Step .htrie bodyHtrie := ⟨fun _ => rfl, statusBlind_htrie⟩
theorem step_wrhdr : Step .wrhdr bodyWrhdr := ⟨fun _ => rfl, statusBlind_wrhdr⟩
theorem step_wrpay : Step .wrpay bodyWrpay := ⟨fun _ => rfl, statusBlind_wrpay⟩
theorem step_rdhdr : Step .rdhdr bodyRdhdr := ⟨fun _ => rfl, statusBlind_rdhdr⟩
theorem step_rdpay (n : ℕ) : Step (.rdpay n) (bodyRdpay n) := ⟨fun _ => rfl, statusBlind_rdpay n⟩

/-- What the steps of a list leave, together with what a composite's rest makes of the same state whatever its `STATUS` is. -/
def Follows (P : State → (Status → Result) → Prop) (steps : List Instr) (rest : State → Result) (s : State) : Prop :=
  P (runSteps steps s) fun st => rest (s.withStatus st)

section
variable {i : Instr} {body : State → Result} {s t : State} {c : RetCode} (hstep : Step i body) (hrun : Running s)
  (hexec : exec i s = .next t) (hstatus : t.status = retStatus i.opcode c)
include hstep hrun hexec hstatus

/-- A command that returned a code: its body returns it in the composite too. -/
theorem Step.body_eq (st : Status) : body (s.withStatus st) = .ret c (t.withStatus st) := by
  rw [hstep.exec_eq, command_eq] at hexec
  have heq := Host.Outcome.next.inj hexec
  have hblind := hstep.blind (recordOp i.opcode s) st
  obtain ⟨hhalt, -⟩ | ⟨-, d, u, hbody, hpost⟩ | ⟨-, f, -, hfault⟩ := runCommand_cases i.opcode body s
  · exact absurd (hrun.2.symm.trans hhalt) Bool.false_ne_true
  · rw [← heq, hpost] at hstatus
    have hcode : d = c := Code.ret.inj (congrArg Status.code hstatus)
    rw [hbody, hcode] at hblind
    rw [← heq, hpost]
    exact hblind
  · rw [← heq, hfault] at hstatus
    have hhalt : true = false := congrArg Status.halt hstatus
    exact absurd hhalt.symm Bool.false_ne_true

variable {P : State → (Status → Result) → Prop} {steps : List Instr} {rest : RetCode → State → Result}

/-- A step after which both go on. -/
theorem Follows.cons (hc : hostContinues (.ret c) = true) (h : Follows P steps (rest c) t) :
    Follows P (i :: steps) (fun s => (body s).andThen rest) s := by
  have hgoes : runSteps (i :: steps) s = runSteps steps t := by
    simp only [runSteps, hexec, hstatus]
    exact if_pos hc
  have hbody (st : Status) : (body (s.withStatus st)).andThen rest = rest c (t.withStatus st) := by
    rw [hstep.body_eq hrun hexec hstatus st, andThen_ret]
  unfold Follows
  rw [hgoes, funext hbody]
  exact h

/-- A step that ends the sequence. -/
theorem Follows.stop (hc : hostContinues (.ret c) = false) (h : P t fun st => rest c (t.withStatus st)) :
    Follows P (i :: steps) (fun s => (body s).andThen rest) s := by
  have hends : runSteps (i :: steps) s = t := by
    simp only [runSteps, hexec, hstatus]
    exact if_neg (hc.trans_ne Bool.false_ne_true)
  have hbody (st : Status) : (body (s.withStatus st)).andThen rest = rest c (t.withStatus st) := by
    rw [hstep.body_eq hrun hexec hstatus st, andThen_ret]
  unfold Follows
  rw [hends, funext hbody]
  exact h

end

theorem Follows.congr {P : State → (Status → Result) → Prop} {steps : List Instr} {rest rest' : State → Result} {s : State}
    (hrest : ∀ s, rest s = rest' s) (h : Follows P steps rest' s) : Follows P steps rest s := by
  rwa [funext hrest]

end Sys2Proof.Machine
end

section
namespace Sys2Proof.Machine

/-! What the steps of `ENCBLK` hand on to each other (46_blockcodec.md R215). -/

variable {n : ℕ} {s : State}

theorem State.zscan_values (hadm : Admitted s.params n) :
    readMany (s.zscan n).readSQ (n * n) = (zzIndex n).map s.readIB := by
  have hn := (blockSizeOk_iff_admitted s.params n).2 hadm
  exact (bodyZscan_eq_ret hn (withBlock_ok n _ s hn :) :)

/-- The state with the symbols of the block, after `ZSCAN` and `RLENC`. -/
def State.scanned (n : ℕ) (s : State) : State := (s.zscan n).rlenc n

theorem State.scanned_symbols (hrun : Running s) (hadm : Admitted s.params n) :
    (s.scanned n).symbols = rlEncode 0 ((zzIndex n).map s.readIB) := by
  rw [State.scanned, State.rlenc_symbols (s := s.zscan n) ⟨hrun.1, rfl⟩ hadm, State.zscan_values hadm]

theorem State.scanned_rsn (hrun : Running s) (hadm : Admitted s.params n) :
    1 ≤ (s.scanned n).rsn.toNat ∧ (s.scanned n).rsn.toNat ≤ n * n := by
  obtain ⟨t, -, hexec, -, -, -, -, hpos, hle, -⟩ := rlencEncodes n (s.zscan n) ⟨hrun.1, rfl⟩ hadm
  obtain rfl := Host.Outcome.next.inj ((exec_rlenc (s := s.zscan n) ⟨hrun.1, rfl⟩ hadm).symm.trans hexec)
  exact ⟨hpos, hle⟩

/-- What the steps from `HBUILD` on ask of the symbol table. -/
structure TableReady (s : State) : Prop where
  run : Running s
  writer : s.valid.wv = true
  k_pos : 1 ≤ s.k.toNat
  k_le : s.k.toNat ≤ s.params.symMax
  rsn_le : s.rsn.toNat ≤ s.params.lMax
  found : ∀ sym ∈ s.symbols, ∃ i, i < s.k.toNat ∧ s.readST i = (pack sym).1

theorem length_keysOf_symbols (s : State) : (keysOf s.symbols).length = s.rsn.toNat := by
  rw [keysOf, List.length_map, length_symbols]

theorem State.symmap_tableOf_of_room (hp : s.params.ok = true)
    (hroom : (keysOf s.symbols).eraseDups.length ≤ s.params.symMax) : TableOf (keysOf s.symbols) s s.symmap :=
  State.symmap_tableOf hp ((length_keysOf_symbols s).trans_lt (s.rsn.isLt.trans (by decide))) hroom
    (by rw [State.symbolTable_of_room hroom])

/-- With room for its keys `SYMMAP` enters every symbol. -/
theorem TableReady.of_symmap (hrun : Running s) (hwv : s.valid.wv = true) (hrsn : 1 ≤ s.rsn.toNat)
    (hmax : s.rsn.toNat ≤ s.params.lMax) (hroom : (keysOf s.symbols).eraseDups.length ≤ s.params.symMax) :
    TableReady s.symmap := by
  obtain ⟨hk, hentries, -⟩ := State.symmap_tableOf_of_room hrun.1 hroom
  have hfound (sym) (hsym : sym ∈ s.symbols) : ∃ i, i < s.symmap.k.toNat ∧ s.symmap.readST i = (pack sym).1 := by
    obtain ⟨i, hi⟩ := List.getElem?_of_mem (List.mem_eraseDups.2 (List.mem_map_of_mem (f := fun sym => (pack sym).1) hsym))
    exact ⟨i, hk ▸ (List.getElem?_eq_some_iff.1 hi).1, (hentries i _ hi).1⟩
  refine ⟨⟨hrun.1, rfl⟩, hwv, ?_, hk.trans_le hroom, hmax, hfound⟩
  obtain ⟨sym, hsym⟩ := List.exists_mem_of_length_pos (l := s.symbols) (by rw [length_symbols]; exact hrsn)
  obtain ⟨i, hi, -⟩ := hfound sym hsym
  exact Nat.one_le_of_lt hi

/-- The number of keys is at most that of symbols. -/
theorem length_eraseDups_le (keys : List Word) : keys.eraseDups.length ≤ keys.length := by
  induction keys using List.reverseRecOn with
  | nil => exact le_rfl
  | append_singleton keys key ih =>
    rw [eraseDups_concat, List.length_append, List.length_singleton]
    split_ifs
    · exact ih.trans (Nat.le_succ _)
    · rw [List.length_append, List.length_singleton]
      exact Nat.succ_le_succ ih

/-- `HBUILD` finds no code, which takes more than 256 symbols, or leaves lengths that `HCANON` succeeds on. -/
theorem TableReady.hbuild (h : TableReady s) :
    (256 < s.k.toNat ∧ exec .hbuild s =
      .next { s with status := retStatus 0x50#8 .eCodelen, valid := { s.valid with ccv := false } }) ∨
    ∃ codes canonical, exec .hbuild s = .next (s.hbuild codes) ∧
      canon (s.hbuild codes).lens = .ok (readMany canonical s.k.toNat) := by
  obtain ⟨root, hbuilds, ⟨hfit, hexec⟩ | ⟨hlong, hexec⟩⟩ := exec_hbuild_cases h.k_pos h.k_le h.run
  · have hlen (i) (hi : i < s.k.toNat) := State.hbuild_toNat_readCL (s := s) hfit hi
    obtain ⟨hfull, hhalf, -⟩ := huffmanCodeSet s _ h.run hexec rfl
    have hsum := h.k_pos.eq_or_lt.elim (fun h1 => (hhalf h1.symm).trans_le (by norm_num)) fun h2 => (hfull h2).le
    have hpos : 0 ∉ (s.hbuild (readMany (symbolCode root s.k.toNat) s.k.toNat)).lens := by
      refine zero_notMem_lens fun i hi => ?_
      rw [hlen i hi]
      exact Nat.ne_of_gt (hbuilds.length_symbolCode_pos h.k_pos hi)
    obtain ⟨canonical, hcanon, -⟩ := canon_of_sum_le_one hpos (lens_le _) ((sum_shareOf_lens _).trans_le hsum)
    exact .inr ⟨_, canonical, hexec, hcanon.trans (by rw [length_lens]; rfl)⟩
  · rw [codesFit_readMany_iff] at hlong
    push Not at hlong
    obtain ⟨i, hi, hlen⟩ := hlong
    refine .inl ⟨?_, hexec⟩
    have hmaximum : lenMax = 255 := rfl
    obtain h1 | h2 := h.k_pos.eq_or_lt
    · rw [symbolCode, if_pos h1.symm] at hlen
      exact absurd hlen (by decide)
    · have hbound := hbuilds.length_symbolCode_lt h2 hi
      omega

end Sys2Proof.Machine
end

section
namespace Sys2Proof.Machine

/-! The steps of `ENCBLK` that write: header and payload (46_blockcodec.md R210, R211, R215). -/

variable {s : State}

/-- The index of a symbol in the table. -/
def State.symbolAt (s : State) (sym : RleSym) : ℕ := (s.symbolIndex (pack sym).1).getD 0

theorem TableReady.symbolIndex (h : TableReady s) {sym : RleSym} (hsym : sym ∈ s.symbols) :
    s.symbolIndex (pack sym).1 = some (s.symbolAt sym) := by
  obtain ⟨i, hi, hkey⟩ := h.found sym hsym
  have hsome : (s.symbolIndex (pack sym).1).isSome = true :=
    List.find?_isSome.2 ⟨i, List.mem_range.2 hi, decide_eq_true hkey⟩
  rw [State.symbolAt, Option.getD_of_ne_none (Option.isSome_iff_ne_none.1 hsome)]

/-- The codes of the symbols one after another. -/
def State.payload (s : State) : List Bool := s.symbols.flatMap fun sym => (s.readCC (s.symbolAt sym)).str

theorem TableReady.payloadBits (h : TableReady s) : payloadBits s s.symbols = some s.payload := by
  have hmap := payloadBits_map (s := s) (sym := id) (idx := s.symbolAt) (l := s.symbols) fun _ hsym => h.symbolIndex hsym
  rwa [List.map_id] at hmap

/-- A code takes at most 255 bits (R176). -/
theorem length_payload_le (s : State) : s.payload.length ≤ 255 * s.rsn.toNat := by
  rw [State.payload, List.length_flatMap, ← length_symbols, mul_comm, ← smul_eq_mul, ← List.length_map (as := s.symbols)]
  refine List.sum_le_card_nsmul _ _ fun len hlen => ?_
  obtain ⟨sym, -, rfl⟩ := List.mem_map.1 hlen
  rw [length_str]
  exact Nat.le_of_lt_succ (BitVec.isLt _)

/-- A table with the canonical codes of its lengths. -/
structure Coded (s : State) : Prop extends TableReady s where
  ccv : s.valid.ccv = true
  canon_eq : canon s.lens = .ok (readMany s.readCC s.k.toNat)

/-- Writing changes no table. -/
theorem Coded.written (h : Coded s) (op : Byte) (bits : List Bool) : Coded (s.written op bits) := by
  have hframe := writes_writeBits bits s
  have hsymbols : (s.written op bits).symbols = s.symbols := hframe.same State.symbols rfl
  have hkeys : (s.written op bits).readST = s.readST := hframe.same State.readST rfl
  have hcodes : (s.written op bits).readCC = s.readCC := hframe.same State.readCC rfl
  have hlens : (s.written op bits).lens = s.lens := hframe.same State.lens rfl
  have hk : (s.written op bits).k = s.k := hframe.same State.k rfl
  have hrsn : (s.written op bits).rsn = s.rsn := hframe.same State.rsn rfl
  have hvalid : (s.written op bits).valid = s.valid := hframe.same State.valid rfl
  have hparams : (s.written op bits).params = s.params := hframe.same State.params rfl
  obtain ⟨hrun, hwv⟩ := s.written_ready h.run h.writer op bits
  refine ⟨⟨hrun, hwv, ?_, ?_, ?_, ?_⟩, ?_, ?_⟩
  · exact hk ▸ h.k_pos
  · exact hk ▸ hparams ▸ h.k_le
  · exact hrsn ▸ hparams ▸ h.rsn_le
  · rw [hsymbols, hkeys, hk]
    exact h.found
  · exact hvalid ▸ h.ccv
  · rw [hlens, hcodes, hk]
    exact h.canon_eq

section
variable {op : Byte} {bits : List Bool}

theorem State.written_symbols : (s.written op bits).symbols = s.symbols :=
  (writes_writeBits bits s).same State.symbols rfl

theorem State.written_rsn : (s.written op bits).rsn = s.rsn := (writes_writeBits bits s).same State.rsn rfl

theorem State.written_cap : (s.written op bits).w.cap = s.w.cap := (writeBits_frame bits s).2.1

theorem State.written_wpos (hfit : bits.length ≤ 8 * s.w.cap.toNat - s.wpos) :
    (s.written op bits).wpos = s.wpos + bits.length :=
  (writeBits_frame bits s).2.2.1.trans (congrArg _ (min_eq_left hfit))

theorem State.written_within (hfit : bits.length ≤ 8 * s.w.cap.toNat - s.wpos) (hs : s.WriterWithin) :
    (s.written op bits).WriterWithin := by
  rw [State.WriterWithin] at hs ⊢
  rw [State.written_wpos hfit, State.written_cap]
  omega

theorem State.written_status_of_fit (hfit : bits.length ≤ 8 * s.w.cap.toNat - s.wpos) :
    (s.written op bits).status = retStatus op .ok := congrArg (retStatus op) (if_pos hfit)

theorem State.written_status_of_not_fit (hfit : ¬ bits.length ≤ 8 * s.w.cap.toNat - s.wpos) :
    (s.written op bits).status = retStatus op .eOverflow := congrArg (retStatus op) (if_neg hfit)

end

/-- Why an encoding ends with a code of class E: `symMax` symbols or `room` bits are not enough for `elements` values. -/
def EncodeFails (elements symMax room : ℕ) (c : RetCode) : Prop :=
  c = .eSymspace ∧ symMax < elements ∨ c = .eCodelen ∧ 256 < elements ∨ c = .eOverflow ∧ room < 16 + 295 * elements

/-- How the steps of `ENCBLK` end, in `u`, and what it then returns: a code of class E, or the code `sat` of `SYMMAP` with the
stream of the symbols `syms` written. -/
def EncodeEnds (fails : RetCode → Prop) (sat : RetCode) (syms : List RleSym) (u : State) (result : Status → Result) : Prop :=
  (∃ op c, u.status = retStatus op c ∧ fails c ∧ ∀ st, result st = .ret c (u.withStatus st)) ∨
  (u.status = retStatus 0x72#8 .ok ∧ Coded u ∧ u.WriterWithin ∧ u.symbols = syms ∧
    ∀ st, result st = .ret sat (u.withStatus st))

/-- What `ENCBLK` does with valid codes. -/
def encodeWrites (sat : RetCode) (s : State) : Result :=
  (bodyWrhdr s).andThen fun e t =>
  if e = .eOverflow then .ret e t
  else (bodyWrpay t).andThen fun e u => if e = .eOverflow then .ret e u else .ret sat u

/-- What `ENCBLK` does with a symbol table. -/
def encodeTable (sat : RetCode) (s : State) : Result :=
  (bodyHbuild s).andThen fun e t => if e = .eCodelen then .ret e t else (bodyHcanon t).andThen fun _ => encodeWrites sat

section
variable {elements : ℕ} (hpos : s.wpos = 0) (hk : s.k.toNat ≤ elements) (hrsn : s.rsn.toNat ≤ elements)
include hpos hk hrsn

/-- Header and payload are written, or the stream is longer than the capacity. -/
theorem Coded.follows_writes (h : Coded s) (sat : RetCode) :
    Follows (EncodeEnds (EncodeFails elements s.params.symMax (8 * s.w.cap.toNat)) sat s.symbols) [.wrhdr, .wrpay]
      (encodeWrites sat) s := by
  have hhdr := exec_wrhdr h.run h.writer h.k_le
  have hlen := length_header s
  by_cases hfit : s.header.length ≤ 8 * s.w.cap.toNat - s.wpos
  swap
  · have hstatus := State.written_status_of_not_fit (op := 0x71#8) hfit
    exact Follows.stop step_wrhdr h.run hhdr hstatus rfl
      (.inl ⟨_, _, hstatus, .inr (.inr ⟨rfl, by omega⟩), fun _ => if_pos rfl⟩)
  refine Follows.cons step_wrhdr h.run hhdr (State.written_status_of_fit hfit) rfl
    (Follows.congr (fun _ => if_neg (by decide)) ?_)
  have hcoded := h.written 0x71#8 s.header
  have hwithin := State.written_within (op := 0x71#8) hfit (hpos.trans_le (Nat.zero_le _))
  have hpay := exec_wrpay hcoded.run hcoded.writer hcoded.k_le hcoded.ccv hcoded.rsn_le hcoded.payloadBits
  have hlong := length_payload_le (s.written 0x71#8 s.header)
  rw [State.written_rsn] at hlong
  by_cases hfit2 : (s.written 0x71#8 s.header).payload.length ≤
      8 * (s.written 0x71#8 s.header).w.cap.toNat - (s.written 0x71#8 s.header).wpos
  · have hstatus := State.written_status_of_fit (op := 0x72#8) hfit2
    exact Follows.cons step_wrpay hcoded.run hpay hstatus rfl (.inr
      ⟨hstatus, hcoded.written _ _, State.written_within hfit2 hwithin, State.written_symbols.trans State.written_symbols,
        fun _ => if_neg (by decide)⟩)
  · have hstatus := State.written_status_of_not_fit (op := 0x72#8) hfit2
    rw [State.written_cap, State.written_wpos hfit] at hfit2
    exact Follows.stop step_wrpay hcoded.run hpay hstatus rfl
      (.inl ⟨_, _, hstatus, .inr (.inr ⟨rfl, by omega⟩), fun _ => if_pos rfl⟩)

/-- The codes are derived and the stream is written, or there are too many symbols, or too little room. -/
theorem TableReady.follows_table (h : TableReady s) (sat : RetCode) :
    Follows (EncodeEnds (EncodeFails elements s.params.symMax (8 * s.w.cap.toNat)) sat s.symbols)
      [.hbuild, .hcanon, .wrhdr, .wrpay] (encodeTable sat) s := by
  obtain ⟨hmany, hbuild⟩ | ⟨codes, canonical, hbuild, hcanon⟩ := h.hbuild
  · exact Follows.stop step_hbuild h.run hbuild rfl rfl
      (.inl ⟨_, _, rfl, .inr (.inl ⟨rfl, hmany.trans_le hk⟩), fun _ => rfl⟩)
  · refine Follows.cons step_hbuild h.run hbuild rfl rfl (Follows.congr (fun _ => if_neg (by decide)) ?_)
    have hrun : Running (s.hbuild codes) := ⟨h.run.1, rfl⟩
    refine Follows.cons step_hcanon hrun (exec_hcanon_of_ok hrun h.k_le hcanon) rfl rfl ?_
    have hcodes : readMany ((s.hbuild codes).hcanon canonical).readCC s.k.toNat = readMany canonical s.k.toNat :=
      List.map_congr_left fun i hi => State.hcanon_readCC (s := s.hbuild codes) (List.mem_range.1 hi)
    have hcoded : Coded ((s.hbuild codes).hcanon canonical) :=
      ⟨⟨⟨h.run.1, rfl⟩, h.writer, h.k_pos, h.k_le, h.rsn_le, h.found⟩, rfl, hcanon.trans (congrArg _ hcodes.symm)⟩
    exact hcoded.follows_writes (s := (s.hbuild codes).hcanon canonical) hpos hk hrsn sat

end

end Sys2Proof.Machine
end

section
namespace Sys2Proof.Machine

/-! `ENCBLK` (46_blockcodec.md R215). -/

variable {n : ℕ} {s : State}

/-- What `ENCBLK` does with a bound writer, rewound. -/
def encodeBlock (n : ℕ) (s : State) : Result :=
  (bodyZscan n s).andThen fun _ t =>
  (bodyRlenc n t).andThen fun _ u =>
  (bodySymmap u).andThen fun sat v => if sat = .eSymspace then .ret sat v else encodeTable sat v

/-- The code of `SYMMAP` for symbols that all find room. -/
def satCode (syms : List RleSym) : RetCode := if syms.any (fun sym => (pack sym).2) then .okSat else .ok

theorem satCode_cases (syms : List RleSym) : satCode syms = .okSat ∨ satCode syms = .ok :=
  ite_eq_or_eq _ _ _

theorem satCode_ne_eSymspace (syms : List RleSym) : satCode syms ≠ .eSymspace := by
  obtain h | h := satCode_cases syms <;> rw [h] <;> decide

theorem satCode_continues (syms : List RleSym) : hostContinues (.ret (satCode syms)) = true := by
  obtain h | h := satCode_cases syms <;> rw [h] <;> rfl

theorem State.symmap_status_of_room (hroom : (keysOf s.symbols).eraseDups.length ≤ s.params.symMax) :
    s.symmap.status = retStatus 0x70#8 (satCode s.symbols) := by
  rw [State.symmap, State.symbolTable_of_room hroom]
  rfl

theorem State.symmap_status_of_no_room (hroom : s.params.symMax < (keysOf s.symbols).eraseDups.length) :
    s.symmap.status = retStatus 0x70#8 .eSymspace := by
  obtain ⟨before, _, _, sat, -, -, -, htable⟩ := mapSymbols_of_no_room (keys := []) false s.symbols (Nat.zero_le _) hroom
  replace htable : s.symbolTable = (keyCounts before, sat, true) := htable
  rw [State.symmap, htable]
  rfl

/-- How `ENCBLK n` ends from `s`. -/
def EncblkEnds (n : ℕ) (s : State) : State → (Status → Result) → Prop :=
  EncodeEnds (EncodeFails (n * n) s.params.symMax (8 * s.w.cap.toNat))
    (satCode (rlEncode 0 ((zzIndex n).map s.readIB))) (rlEncode 0 ((zzIndex n).map s.readIB))

/-- What the steps of `ENCBLK n` leave. -/
def State.encoded (n : ℕ) (s : State) : State := runSteps (encodeSteps n) { s with w := s.w.rewind }

section
variable (hrun : Running s) (hadm : Admitted s.params n) (hwv : s.valid.wv = true)
include hrun hadm hwv

theorem follows_encodeBlock (hpos : s.wpos = 0) :
    Follows (EncblkEnds n s) (encodeSteps n) (encodeBlock n) s := by
  refine Follows.cons (step_zscan n) hrun (exec_zscan hrun hadm) rfl rfl ?_
  refine Follows.cons (step_rlenc n) (s := s.zscan n) ⟨hrun.1, rfl⟩
    (exec_rlenc ⟨hrun.1, rfl⟩ hadm) rfl rfl ?_
  change Follows _ _ _ (s.scanned n)
  obtain ⟨hrsn, hrsn_le⟩ := State.scanned_rsn hrun hadm
  have hrun' : Running (s.scanned n) := ⟨hrun.1, rfl⟩
  have hmax : (s.scanned n).rsn.toNat ≤ s.params.lMax :=
    hrsn_le.trans (square_le_lMax _ n ((blockSizeOk_iff_admitted s.params n).2 hadm))
  have hkeys := (length_eraseDups_le (keysOf (s.scanned n).symbols)).trans_eq (length_keysOf_symbols _)
  have hsymmap := exec_symmap hrun' hmax
  unfold EncblkEnds
  rw [← State.scanned_symbols hrun hadm]
  by_cases hroom : (keysOf (s.scanned n).symbols).eraseDups.length ≤ s.params.symMax
  · refine Follows.cons step_symmap hrun' hsymmap (State.symmap_status_of_room hroom) (satCode_continues _)
      (Follows.congr (fun _ => if_neg (satCode_ne_eSymspace _)) ?_)
    have hk := (State.symmap_tableOf_of_room (s := s.scanned n) hrun.1 hroom).k
    exact (TableReady.of_symmap hrun' hwv hrsn hmax hroom).follows_table (s := (s.scanned n).symmap) hpos
      (hk.trans_le (hkeys.trans hrsn_le)) hrsn_le _
  · have hstatus := State.symmap_status_of_no_room (not_le.1 hroom)
    exact Follows.stop step_symmap hrun' hsymmap hstatus rfl (.inl ⟨_, _, hstatus,
      .inl ⟨rfl, (not_le.1 hroom).trans_le (hkeys.trans hrsn_le)⟩, fun _ => if_pos rfl⟩)

theorem exec_encblk_of_ret {c : RetCode} {u : State}
    (hret : ∀ st, encodeBlock n (State.withStatus st { s with w := s.w.rewind }) = .ret c (u.withStatus st)) :
    exec (.encblk n) s = .next (u.withStatus (retStatus 0x78#8 c)) := by
  have hn := (blockSizeOk_iff_admitted s.params n).2 hadm
  have hwriter : ¬ (!s.valid.wv) = true := by simp [hwv]
  have hbody : bodyEncblk n (recordOp 0x78#8 s) = _ := (withBlock_ok n _ (recordOp 0x78#8 s) hn :)
  exact command_ret (t := u.withStatus { s.status with op := 0x78#8 }) hrun.2
    (hbody.trans ((if_neg hwriter).trans (hret _))) rfl

/-- `ENCBLK` ends as its steps do: with the code of class E that the last one returned, or with that of `SYMMAP`. -/
theorem exec_encblk_cases :
    (∃ op c, (s.encoded n).status = retStatus op c ∧ EncodeFails (n * n) s.params.symMax (8 * s.w.cap.toNat) c ∧
      exec (.encblk n) s = .next ((s.encoded n).withStatus (retStatus 0x78#8 c))) ∨
    ((s.encoded n).status = retStatus 0x72#8 .ok ∧ Coded (s.encoded n) ∧ (s.encoded n).WriterWithin ∧
      (s.encoded n).symbols = rlEncode 0 ((zzIndex n).map s.readIB) ∧
      exec (.encblk n) s = .next ((s.encoded n).withStatus (retStatus 0x78#8 (satCode (s.encoded n).symbols)))) := by
  obtain ⟨op, c, hstatus, hfails, hret⟩ | ⟨hstatus, hcoded, hwithin, hsymbols, hret⟩ :=
    follows_encodeBlock (s := { s with w := s.w.rewind }) hrun hadm hwv (rewind_pos s.w)
  · exact .inl ⟨op, c, hstatus, hfails, exec_encblk_of_ret hrun hadm hwv hret⟩
  · rw [← hsymbols] at hret
    exact .inr ⟨hstatus, hcoded, hwithin, hsymbols, exec_encblk_of_ret hrun hadm hwv hret⟩

end

theorem class_of_encodeFails {elements symMax room : ℕ} {c : RetCode} (h : EncodeFails elements symMax room c) (op : Byte) :
    (retStatus op c).code.class = .failed := by
  obtain ⟨rfl, -⟩ | ⟨rfl, -⟩ | ⟨rfl, -⟩ := h <;> rfl

/-- Settles O51: each step of the composite is the command of that step, and `SYMMAP`'s code is kept to the end. -/
theorem encblkRunsItsSteps : Obligations.EncblkRunsItsSteps := by
  intro n s hrun hadm hwv
  change exec (.encblk n) s = .next ((s.encoded n).withStatus
    { code := if (s.encoded n).status.code.class = .failed then (s.encoded n).status.code
        else .ret (satCode (s.encoded n).symbols)
      op := 0x78#8
      halt := false })
  obtain ⟨op, c, hstatus, hfails, hexec⟩ | ⟨hstatus, -, -, -, hexec⟩ := exec_encblk_cases hrun hadm hwv
  · rw [hexec, hstatus, if_pos (class_of_encodeFails hfails op)]
    rfl
  · rw [hexec, hstatus, if_neg (by decide)]
    rfl

/-- Settles O54: none of the three codes of class E can be returned. -/
theorem encblkSucceedsWithRoom : Obligations.EncblkSucceedsWithRoom := by
  intro n s hrun hadm hwv hmany hsymbols hroom
  obtain ⟨-, c, -, hfails, -⟩ | ⟨-, -, -, -, hexec⟩ := exec_encblk_cases hrun hadm hwv
  · obtain ⟨-, h⟩ | ⟨-, h⟩ | ⟨-, h⟩ := hfails <;> omega
  · refine ⟨_, hexec, ?_⟩
    obtain hcode | hcode := satCode_cases (s.encoded n).symbols <;> exact congrArg (fun c => (Code.ret c).class) hcode

end Sys2Proof.Machine
end

section
namespace Sys2Proof.Machine

/-! What each step of `DECBLK` can answer (46_blockcodec.md R216). -/

variable {n : ℕ} {s : State}

/-- `RDHDR` returns `OK` with `K` in range, or a code of class H. -/
theorem exec_rdhdr_cases (hrun : Running s) (hrv : s.valid.rv = true) : ∃ c t, exec .rdhdr s = .next t ∧
    t.status = retStatus 0x73#8 c ∧ (c = .ok ∧ t.k.toNat ≤ s.params.symMax ∨ (Code.ret c).class = .hardDecode) := by
  by_cases h16 : 16 ≤ s.rest.length
  swap
  · obtain ⟨u, hbody, hon⟩ := bodyRdhdr_of_short (s := recordOp 0x73#8 s) hrv (not_le.1 h16)
    obtain ⟨t, hexec, h⟩ := exec_rdhdr_of_countFails hrun hbody hon
    exact ⟨_, t, hexec, h.status, .inr rfl⟩
  by_cases hcount : bitsValue (s.rest.take 16) ≤ s.params.symMax
  swap
  · obtain ⟨u, hbody, hon⟩ := bodyRdhdr_of_count (s := recordOp 0x73#8 s) hrv h16 (not_le.1 hcount)
    obtain ⟨t, hexec, h⟩ := exec_rdhdr_of_countFails hrun hbody hon
    exact ⟨_, t, hexec, h.status, .inr rfl⟩
  obtain ⟨j, hj, hentries, hstop⟩ := exists_headerStops h16 (bitsValue (s.rest.take 16))
  obtain ⟨t, hexec, h⟩ := exec_rdhdr_of_stops hrun hrv rfl hcount hj hentries hstop
  obtain hall | hlt := hj.eq_or_lt
  · exact ⟨_, t, hexec, (h.all hall).1, .inl ⟨rfl, (h.all hall).2.1.trans_le hcount⟩⟩
  by_cases hshort : s.rest.length < 56 + 40 * j
  · exact ⟨_, t, hexec, (h.short hlt hshort).1, .inr rfl⟩
  · have hzero : headerLen s.rest j = 0 := (hstop.resolve_left hlt.ne).resolve_left hshort
    exact ⟨_, t, hexec, (h.zero hlt (not_lt.1 hshort) hzero).1, .inr rfl⟩

/-- `HCANON` assigns canonical codes to lengths none of which is 0, or returns a code of class H. -/
theorem exec_hcanon_cases (hrun : Running s) (hk : s.k.toNat ≤ s.params.symMax) :
    (∃ codes, Canonical s.lens codes ∧ (∀ i, i < s.k.toNat → (s.readCL i).toNat ≠ 0) ∧
      exec .hcanon s = .next (s.hcanon codes)) ∨
    ∃ c, (Code.ret c).class = .hardDecode ∧
      exec .hcanon s = .next { s with status := retStatus 0x51#8 c, valid := { s.valid with ccv := false } } := by
  by_cases hzero : ∃ i, i < s.k.toNat ∧ (s.readCL i).toNat = 0
  · exact .inr ⟨_, rfl, exec_hcanon_of_error hrun hk (canon_of_zero (zero_mem_lens.2 hzero))⟩
  have hpos (i) (hi : i < s.k.toNat) : (s.readCL i).toNat ≠ 0 := fun h0 => hzero ⟨i, hi, h0⟩
  by_cases hsum : kraftSum (fun i => (s.readCL i).toNat) s.k.toNat ≤ 1
  · obtain ⟨codes, hcanon, hexec⟩ := exists_exec_hcanon hrun hk hpos hsum
    exact .inl ⟨codes, hcanon, hpos, hexec⟩
  · exact .inr ⟨_, rfl, exec_hcanon_of_error hrun hk (canon_lens_of_oversub hpos (not_le.1 hsum))⟩

/-- `HTRIE` builds the trie of canonical codes. -/
theorem Canonical.exec_htrie {codes : ℕ → HuffCode} (h : Canonical s.lens codes) (hrun : Running s)
    (hk : s.k.toNat ≤ s.params.symMax) (hpos : ∀ i, i < s.k.toNat → (s.readCL i).toNat ≠ 0) :
    ∃ t : Trie, t.Represents (s.hcanon codes).readCC s.k.toNat ∧
      exec .htrie (s.hcanon codes) = .next ((s.hcanon codes).htrie t) := by
  have hlen (i) (hi : i < s.k.toNat) : 1 ≤ ((s.hcanon codes).readCC i).len.toNat := by
    rw [(h.readCC hi).2.1]
    exact Nat.pos_of_ne_zero (hpos i hi)
  obtain ⟨-, htrie⟩ | ⟨hnot, -⟩ := exec_htrie_cases (s := s.hcanon codes) ⟨hrun.1, rfl⟩ rfl hk hlen
  · exact htrie
  · exact absurd h.prefixFree_readCC hnot

theorem readSymbols_code (len fuel pos : ℕ) (s : State) : (readSymbols len fuel pos s).2.1 = .ok ∨
    (readSymbols len fuel pos s).2.1 = .dUnderflow ∨ (readSymbols len fuel pos s).2.1 = .dBadcode := by
  induction fuel generalizing pos s with
  | zero => exact .inl rfl
  | succ fuel ih =>
    by_cases hpos : len ≤ pos
    · rw [readSymbols_of_le hpos]
      exact .inl rfl
    rw [not_le] at hpos
    rcases hwalk : walk s.readTrie s with ⟨i | _ | _, u⟩
    · by_cases hsym : unpack (u.readST i.toNat) = eob
      · rw [readSymbols_of_eob hpos hwalk hsym]
        exact .inl rfl
      · rw [readSymbols_of_sym hpos hwalk rfl hsym]
        exact ih _ u
    · rw [readSymbols_of_underflow hpos hwalk]
      exact .inr (.inl rfl)
    · rw [readSymbols_of_dead hpos hwalk]
      exact .inr (.inr rfl)

theorem readSymbols_status (len fuel pos : ℕ) (s : State) : (readSymbols len fuel pos s).2.2.status = s.status :=
  congrArg (fun read => read.2.2.status) (readSymbols_withStatus len fuel pos s s.status)

/-- `RDPAY` returns `OK` or a code of class D, and no more symbols than the block has positions. -/
theorem exec_rdpay_cases (hrun : Running s) (hadm : Admitted s.params n) (htrv : s.valid.trv = true)
    (hrv : s.valid.rv = true) : ∃ c t, exec (.rdpay n) s = .next t ∧ t.status = retStatus 0x74#8 c ∧
      (c = .ok ∨ c = .dUnderflow ∨ c = .dBadcode) ∧ t.rsn.toNat ≤ n * n := by
  have hbody := bodyRdpay_eq (s := recordOp 0x74#8 s) hadm htrv hrv rfl
  refine ⟨_, _, command_ret hrun.2 hbody (readSymbols_status _ _ _ _), rfl, readSymbols_code _ _ _ _, ?_⟩
  have hlen := length_readSymbols_le (n * n) (n * n) 0 (recordOp 0x74#8 s)
  exact (Nat.mod_eq_of_lt (hlen.trans_lt (square_lt_of_admitted hrun hadm))).trans_le hlen

end Sys2Proof.Machine
end

section
namespace Sys2Proof.Machine

/-! `DECBLK` (46_blockcodec.md R216). -/

variable {n : ℕ} {s : State}

/-- `t` has the symbols, the values and the block of `s`. -/
def SameBlock (s t : State) : Prop := t.mem.rs = s.mem.rs ∧ t.rsn = s.rsn ∧ t.mem.sq = s.mem.sq ∧ t.mem.ib = s.mem.ib

/-- What `DECBLK` does with the symbols, which `RDPAY` decoded with the code `c`. -/
def decodeSymbols (n : ℕ) (c : RetCode) (s : State) : Result :=
  (bodyRldec n s).andThen fun d t => (bodyZunscan n t).andThen fun _ => .ret (if c ≠ .ok then c else d)

/-- What `DECBLK` does with the symbol table. -/
def decodeTable (n : ℕ) (s : State) : Result :=
  (bodyHcanon s).andThen fun h t =>
  if h ≠ .ok then .ret h t
  else (bodyHtrie t).andThen fun _ u => (bodyRdpay n u).andThen fun c => decodeSymbols n c

/-- What `DECBLK` does with a bound reader, rewound. -/
def decodeBlock (n : ℕ) (s : State) : Result :=
  (bodyRdhdr s).andThen fun h t => if h ≠ .ok then .ret h t else decodeTable n t

/-- The symbols can be expanded into a block of size `n`. -/
structure SymbolsReady (n : ℕ) (s : State) : Prop where
  run : Running s
  admitted : Admitted s.params n
  rsn_le : s.rsn.toNat ≤ s.params.lMax

/-- How the steps of `DECBLK n` end, in `u`, and what it then does: it returns a code of class H with the block of `s` as it was,
or goes on with the symbols. -/
def DecodeEnds (n : ℕ) (s u : State) (result : Status → Result) : Prop :=
  (∃ op c, u.status = retStatus op c ∧ (Code.ret c).class = .hardDecode ∧ SameBlock s u ∧
    ∀ st, result st = .ret c (u.withStatus st)) ∨
  ∃ c, u.status = retStatus 0x74#8 c ∧ (c = .ok ∨ c = .dUnderflow ∨ c = .dBadcode) ∧ SymbolsReady n u ∧
    ∀ st, result st = decodeSymbols n c (u.withStatus st)

theorem ne_ok_of_hardDecode {c : RetCode} (h : (Code.ret c).class = .hardDecode) : c ≠ .ok := by
  rintro rfl
  cases h

theorem stops_of_hardDecode {c : RetCode} (h : (Code.ret c).class = .hardDecode) : hostContinues (.ret c) = false := by
  rw [hostContinues, h]

theorem decoded_continues {c : RetCode} (h : c = .ok ∨ c = .dUnderflow ∨ c = .dBadcode) : hostContinues (.ret c) = true := by
  obtain rfl | rfl | rfl := h <;> rfl

section
variable (hadm : Admitted s.params n) (hrv : s.valid.rv = true)
include hadm hrv

/-- The codes are canonical, and the symbols are decoded by their trie. -/
theorem follows_decodeTable {s₀ : State} (hrun : Running s) (hk : s.k.toNat ≤ s.params.symMax) (hsame : SameBlock s₀ s) :
    Follows (DecodeEnds n s₀) [.hcanon, .htrie, .rdpay n] (decodeTable n) s := by
  obtain ⟨codes, hcodes, hpos, hcanon⟩ | ⟨c, hclass, hcanon⟩ := exec_hcanon_cases hrun hk
  swap
  · exact Follows.stop step_hcanon hrun hcanon rfl (stops_of_hardDecode hclass)
      (.inl ⟨_, _, rfl, hclass, hsame, fun _ => if_pos (ne_ok_of_hardDecode hclass)⟩)
  refine Follows.cons step_hcanon hrun hcanon rfl rfl (Follows.congr (fun _ => if_neg (by decide)) ?_)
  obtain ⟨t, -, htrie⟩ := hcodes.exec_htrie hrun hk hpos
  refine Follows.cons (s := s.hcanon codes) step_htrie ⟨hrun.1, rfl⟩ htrie rfl rfl ?_
  have hrun' : Running ((s.hcanon codes).htrie t) := ⟨hrun.1, rfl⟩
  obtain ⟨c, u, hrdpay, hstatus, hc, hrsn⟩ := exec_rdpay_cases hrun' hadm rfl hrv
  have hparams : u.params = s.params := (writes_exec hrdpay).same State.params rfl
  have hmax := square_le_lMax _ n ((blockSizeOk_iff_admitted s.params n).2 hadm)
  have hready : SymbolsReady n u :=
    ⟨⟨hparams ▸ hrun.1, by rw [hstatus]; rfl⟩, hparams ▸ hadm, hparams ▸ hrsn.trans hmax⟩
  exact Follows.cons (step_rdpay n) hrun' hrdpay hstatus (decoded_continues hc)
    (.inr ⟨c, hstatus, hc, hready, fun _ => rfl⟩)

theorem follows_decodeBlock (hrun : Running s) : Follows (DecodeEnds n s) (decodeSteps n) (decodeBlock n) s := by
  obtain ⟨c, t, hrdhdr, hstatus, hc⟩ := exec_rdhdr_cases hrun hrv
  have hframe := writes_exec hrdhdr
  have hsame : SameBlock s t := ⟨hframe.same (·.mem.rs) rfl, hframe.same State.rsn rfl, hframe.same (·.mem.sq) rfl,
    hframe.same (·.mem.ib) rfl⟩
  obtain ⟨rfl, hk⟩ | hclass := hc
  · have hparams : t.params = s.params := hframe.same State.params rfl
    have hreader : t.valid.rv = s.valid.rv := hframe.same (·.valid.rv) rfl
    refine Follows.cons step_rdhdr hrun hrdhdr hstatus rfl (Follows.congr (fun _ => if_neg (by decide)) ?_)
    exact follows_decodeTable (hparams ▸ hadm) (hreader.trans hrv) ⟨hparams ▸ hrun.1, by rw [hstatus]; rfl⟩
      (hparams ▸ hk) hsame
  · exact Follows.stop step_rdhdr hrun hrdhdr hstatus (stops_of_hardDecode hclass)
      (.inl ⟨_, _, hstatus, hclass, hsame, fun _ => if_pos (ne_ok_of_hardDecode hclass)⟩)

end

/-- The symbols are expanded and the values go back to their places. -/
theorem SymbolsReady.decodeSymbols_eq (h : SymbolsReady n s) (c : RetCode) (st : Status) :
    decodeSymbols n c (s.withStatus st) = .ret (if c ≠ .ok then c else rldecCode (n * n) s.symbols)
      (((s.rldec n).zunscan n).withStatus st) := by
  have hrldec := (step_rldec n).body_eq h.run (exec_rldec h.run h.admitted h.rsn_le) rfl st
  have hzunscan := (step_zunscan n).body_eq (s := s.rldec n) ⟨h.run.1, rfl⟩ (exec_zunscan ⟨h.run.1, rfl⟩ h.admitted) rfl st
  rw [decodeSymbols, hrldec, andThen_ret, hzunscan, andThen_ret]

/-- What the steps of `DECBLK n` leave, as far as the symbols. -/
def State.decoded (n : ℕ) (s : State) : State := runSteps (decodeSteps n) { s with r := s.r.rewind }

section
variable (hrun : Running s) (hadm : Admitted s.params n) (hrv : s.valid.rv = true)
include hrun hadm hrv

theorem exec_decblk_of_ret {c : RetCode} {u : State}
    (hret : ∀ st, decodeBlock n (State.withStatus st { s with r := s.r.rewind }) = .ret c (u.withStatus st)) :
    exec (.decblk n) s = .next (u.withStatus (retStatus 0x79#8 c)) := by
  have hn := (blockSizeOk_iff_admitted s.params n).2 hadm
  have hreader : ¬ (!s.valid.rv) = true := by simp [hrv]
  have hbody : bodyDecblk n (recordOp 0x79#8 s) = _ := (withBlock_ok n _ (recordOp 0x79#8 s) hn :)
  exact command_ret (t := u.withStatus { s.status with op := 0x79#8 }) hrun.2
    (hbody.trans ((if_neg hreader).trans (hret _))) rfl

/-- `DECBLK` ends as its steps do: with a code of class H, or with the symbols expanded and unscanned. -/
theorem exec_decblk_cases :
    (∃ op c, (s.decoded n).status = retStatus op c ∧ (Code.ret c).class = .hardDecode ∧ SameBlock s (s.decoded n) ∧
      exec (.decblk n) s = .next ((s.decoded n).withStatus (retStatus 0x79#8 c))) ∨
    ∃ c, (s.decoded n).status = retStatus 0x74#8 c ∧ (c = .ok ∨ c = .dUnderflow ∨ c = .dBadcode) ∧
      SymbolsReady n (s.decoded n) ∧
      exec (.decblk n) s = .next ((((s.decoded n).rldec n).zunscan n).withStatus
        (retStatus 0x79#8 (if c ≠ .ok then c else rldecCode (n * n) (s.decoded n).symbols))) := by
  obtain ⟨op, c, hstatus, hclass, hsame, hret⟩ | ⟨c, hstatus, hc, hready, hret⟩ :=
    follows_decodeBlock (s := { s with r := s.r.rewind }) hadm hrv hrun
  · exact .inl ⟨op, c, hstatus, hclass, hsame, exec_decblk_of_ret hrun hadm hrv hret⟩
  · exact .inr ⟨c, hstatus, hc, hready,
      exec_decblk_of_ret hrun hadm hrv fun st => (hret st).trans (hready.decodeSymbols_eq c st)⟩

end

/-- Settles O52: each step of the composite is the command of that step, and none before `RLDEC` touches the block. -/
theorem decblkRunsItsSteps : Obligations.DecblkRunsItsSteps := by
  intro n s hrun hadm hrv
  change ∃ t, exec (.decblk n) s = .next t ∧
    ((s.decoded n).status.code.class = .hardDecode →
      t = (s.decoded n).withStatus { (s.decoded n).status with op := 0x79#8 } ∧ SameBlock s t) ∧
    ((s.decoded n).status.code.class ≠ .hardDecode → ∃ w x, exec (.rldec n) (s.decoded n) = .next w ∧
      exec (.zunscan n) w = .next x ∧ t = x.withStatus
        { code := if (s.decoded n).status.code = .ret .ok then w.status.code else (s.decoded n).status.code
          op := 0x79#8
          halt := false })
  obtain ⟨op, c, hstatus, hclass, hsame, hexec⟩ | ⟨c, hstatus, hc, hready, hexec⟩ := exec_decblk_cases hrun hadm hrv
  · rw [hstatus]
    exact ⟨_, hexec, fun _ => ⟨rfl, hsame⟩, fun hnot => absurd hclass hnot⟩
  · rw [hstatus]
    refine ⟨_, hexec, fun hclass => ?_, fun _ => ⟨_, _, exec_rldec hready.run hready.admitted hready.rsn_le,
      exec_zunscan ⟨hready.run.1, rfl⟩ hready.admitted, ?_⟩⟩
    · obtain rfl | rfl | rfl := hc <;> cases hclass
    · obtain rfl | rfl | rfl := hc <;> rfl

end Sys2Proof.Machine
end

section
namespace Sys2Proof.Machine

/-! A header read back (46_blockcodec.md R210, R212). -/

variable {s : State}

/-- Pieces of one length stand at the multiples of it. -/
theorem drop_flatMap_range {piece : ℕ → List Bool} {width : ℕ} (hwidth : ∀ i, (piece i).length = width) {i k : ℕ}
    (hi : i < k) (after : List Bool) :
    ∃ more, ((List.range k).flatMap piece ++ after).drop (width * i) = piece i ++ more := by
  obtain ⟨m, rfl⟩ := Nat.exists_eq_add_of_lt hi
  have hsplit : List.range (i + m + 1) = List.range i ++ i :: (List.range m).map (i + 1 + ·) := by
    rw [show i + m + 1 = i + (m + 1) by omega, List.range_add, List.range_succ_eq_map, List.map_cons, List.map_map]
    simp [Function.comp_def, Nat.add_comm, Nat.add_left_comm]
  have hlen : ((List.range i).flatMap piece).length = width * i := by
    simp [List.length_flatMap, hwidth, mul_comm]
  rw [hsplit, List.flatMap_append, List.append_assoc, List.flatMap_cons, List.append_assoc, List.drop_left' hlen]
  exact ⟨_, rfl⟩

theorem take_header (s : State) (after : List Bool) : (s.header ++ after).take 16 = fieldBits 16 s.k.toNat := by
  rw [header_eq, List.append_assoc, List.take_left' (length_fieldBits _ _)]

theorem bitsValue_take_header (s : State) (after : List Bool) : bitsValue ((s.header ++ after).take 16) = s.k.toNat := by
  rw [take_header, bitsValue_fieldBits _ _ s.k.isLt]

theorem drop_header {i : ℕ} (hi : i < s.k.toNat) (after : List Bool) : ∃ more, (s.header ++ after).drop (16 + 40 * i) =
    fieldBits 32 (s.readST i).toNat ++ (fieldBits 8 (s.readCL i).toNat ++ more) := by
  obtain ⟨more, hmore⟩ := drop_flatMap_range (fun i => length_entryBits (s.readST i) (s.readCL i)) hi after
  refine ⟨more, ?_⟩
  rw [header_eq, List.append_assoc, ← List.drop_drop, List.drop_left' (length_fieldBits _ _), hmore, entryBits,
    List.append_assoc]

theorem headerKey_header {i : ℕ} (hi : i < s.k.toNat) (after : List Bool) :
    headerKey (s.header ++ after) i = (s.readST i).toNat := by
  obtain ⟨more, hmore⟩ := drop_header hi after
  rw [headerKey, hmore, List.take_left' (length_fieldBits _ _), bitsValue_fieldBits _ _ (BitVec.isLt _)]

theorem headerLen_header {i : ℕ} (hi : i < s.k.toNat) (after : List Bool) :
    headerLen (s.header ++ after) i = (s.readCL i).toNat := by
  obtain ⟨more, hmore⟩ := drop_header hi after
  rw [headerLen, show 48 + 40 * i = 16 + 40 * i + 32 by omega, ← List.drop_drop, hmore,
    List.drop_left' (length_fieldBits _ _), List.take_left' (length_fieldBits _ _), bitsValue_fieldBits _ _ (BitVec.isLt _)]

end Sys2Proof.Machine
end

section
namespace Sys2Proof.Machine

/-! How many positions the symbols of a block cover (43_runlength.md R161; 46_blockcodec.md R213). -/

variable {syms : List RleSym} {m : ℕ}

theorem coverRle_append (syms more : List RleSym) : coverRle (syms ++ more) = coverRle syms + coverRle more := by
  rw [coverRle, List.map_append, List.sum_append]
  rfl

theorem coverRle_take_le (syms : List RleSym) (m : ℕ) : coverRle (syms.take m) ≤ coverRle syms := by
  conv_rhs => rw [← List.take_append_drop m syms, coverRle_append]
  exact Nat.le_add_right _ _

theorem coverRle_take_lt (h : m < syms.length) : coverRle (syms.take m) < coverRle syms := by
  conv_rhs => rw [← List.take_append_drop m syms, coverRle_append, List.drop_eq_getElem_cons h, coverRle_cons]
  omega

theorem length_expandRle_of_notMem (h : eob ∉ syms) : (expandRle syms).length = coverRle syms := by
  induction syms with
  | nil => rfl
  | cons sym rest ih =>
    rw [List.mem_cons, not_or] at h
    rw [length_expandRle_cons (Ne.symm h.1), coverRle_cons, ih h.2]

/-- The symbols of a sequence end a block of its length, and no fewer of them do. -/
theorem rlEncode_fills {vs : List Word} (hlen : vs.length < 2 ^ 16) :
    OpenBefore vs.length (rlEncode 0 vs) ∧ EndsBlock vs.length (rlEncode 0 vs) := by
  obtain ⟨syms, zeros, heq, hne, hexpand⟩ := exists_rlEncode_eq_append (run := 0) (vs := vs) (by omega)
  have hnone : eob ∉ syms := fun hmem => hne eob hmem rfl
  have hcover : vs.length = coverRle syms + zeros := by
    rw [← length_expandRle_of_notMem hnone]
    simpa using congrArg List.length hexpand
  rw [heq, rlEncode_nil, hcover]
  split_ifs with hzeros
  · refine ⟨fun m hm => ?_, .inl (List.mem_append_right _ (List.mem_singleton_self _))⟩
    rw [List.length_append, List.length_singleton] at hm
    rw [List.take_append_of_le_length (Nat.le_of_lt_succ hm)]
    exact ⟨fun hmem => hnone (List.mem_of_mem_take hmem), by have := coverRle_take_le syms m; omega⟩
  · rw [List.append_nil]
    exact ⟨fun m hm => ⟨fun hmem => hnone (List.mem_of_mem_take hmem), by have := coverRle_take_lt hm; omega⟩,
      .inr (by omega)⟩

/-- `RLDEC` returns `OK` for the symbols of a sequence, and its values are those of the sequence. -/
theorem rldec_rlEncode {vs : List Word} (hlen : vs.length < 2 ^ 16) : rldecCode vs.length (rlEncode 0 vs) = .ok ∧
    ∀ idx, (expandRle (rlEncode 0 vs)).getD idx 0#32 = vs.getD idx 0#32 := by
  obtain ⟨zeros, hexpand, -, -⟩ := rlEncode_encodes hlen
  have htotal : vs.length = (expandRle (rlEncode 0 vs)).length + zeros := by
    simpa using congrArg List.length hexpand
  refine ⟨?_, fun idx => ?_⟩
  · rw [rldecCode_of_not_overruns (not_overruns_of_length_le (by omega)), if_neg]
    rintro ⟨hnone, hshort⟩
    obtain ⟨-, heob | hcover⟩ := rlEncode_fills hlen
    · exact hnone heob
    · rw [← length_expandRle_of_notMem hnone] at hcover
      omega
  · rw [← getD_append_replicate_self _ zeros, ← hexpand]

end Sys2Proof.Machine
end

section
namespace Sys2Proof.Machine

/-! `DECBLK` on the stream that `ENCBLK` wrote (46_blockcodec.md R217). -/

variable {n : ℕ} {s t a : State}

theorem runSteps_cons {i : Instr} {rest : List Instr} (hexec : exec i s = .next t)
    (hgoes : hostContinues t.status.code = true) : runSteps (i :: rest) s = runSteps rest t := by
  simp only [runSteps, hexec]
  exact if_pos hgoes

theorem Coded.withStatus (h : Coded t) (op : Byte) (c : RetCode) : Coded (t.withStatus (retStatus op c)) :=
  ⟨⟨⟨h.run.1, rfl⟩, h.writer, h.k_pos, h.k_le, h.rsn_le, h.found⟩, h.ccv, h.canon_eq⟩

/-- `HCANON` takes no lengths of 0. -/
theorem Coded.zero_notMem_lens (h : Coded t) : 0 ∉ t.lens := fun hzero => by
  have hcanon := h.canon_eq
  rw [canon_of_zero hzero] at hcanon
  cases hcanon

theorem TableReady.symbolAt_spec (h : TableReady t) {sym : RleSym} (hsym : sym ∈ t.symbols) :
    t.symbolAt sym < t.k.toNat ∧ t.readST (t.symbolAt sym) = (pack sym).1 := by
  obtain ⟨hi, hkey, -⟩ := symbolIndex_eq_some_iff.1 (h.symbolIndex hsym)
  exact ⟨hi, hkey⟩

/-- A symbol's index in the table as the trie holds it. -/
def State.symbolId (t : State) (sym : RleSym) : BitVec 16 := BitVec.ofNat 16 (t.symbolAt sym)

theorem TableReady.toNat_symbolId (h : TableReady t) {sym : RleSym} (hsym : sym ∈ t.symbols) :
    (t.symbolId sym).toNat = t.symbolAt sym :=
  Nat.mod_eq_of_lt ((h.symbolAt_spec hsym).1.trans t.k.isLt)

/-- `a` holds the keys and the lengths of `t`. -/
structure SameTable (t a : State) : Prop where
  k : a.k = t.k
  keys : ∀ i, i < t.k.toNat → a.readST i = t.readST i
  lens : a.lens = t.lens

/-- `RDHDR` reads the table that the header was written from. -/
theorem Coded.exec_rdhdr (h : Coded t) (hrun : Running s) (hrv : s.valid.rv = true) (hparams : s.params = t.params)
    {after : List Bool} (hrest : s.rest = t.header ++ after) :
    ∃ a, exec .rdhdr s = .next a ∧ a.status = retStatus 0x73#8 .ok ∧ SameTable t a ∧ a.rest = after := by
  have hlen (i) (hi : i < t.k.toNat) : headerLen s.rest i = (t.readCL i).toNat := hrest ▸ headerLen_header hi after
  have hentries : HeaderEntries s.rest t.k.toNat := by
    refine ⟨?_, fun i hi h0 => h.zero_notMem_lens (zero_mem_lens.2 ⟨i, hi, (hlen i hi).symm.trans h0⟩)⟩
    rw [hrest, List.length_append, length_header]
    exact Nat.le_add_right _ _
  obtain ⟨a, hexec, -, hstored, -, hall, -, -⟩ := exec_rdhdr_of_stops hrun hrv
    (hrest ▸ bitsValue_take_header t after) (hparams ▸ h.k_le) le_rfl hentries (.inl rfl)
  obtain ⟨hstatus, hk, hpos⟩ := hall rfl
  have hframe := writes_exec hexec
  have hbytes : a.readBS = s.readBS := hframe.same State.readBS rfl
  have hcap : a.r.cap = s.r.cap := hframe.same (·.r.cap) rfl
  refine ⟨a, hexec, hstatus, ⟨BitVec.eq_of_toNat_eq hk, fun i hi => ?_, ?_⟩, ?_⟩
  · exact BitVec.eq_of_toNat_eq ((hstored i hi).1.trans (hrest ▸ headerKey_header hi after))
  · rw [State.lens, hk]
    exact List.map_congr_left fun i hi =>
      (hstored i (List.mem_range.1 hi)).2.trans (hlen i (List.mem_range.1 hi))
  · rw [rest_eq_drop hbytes hcap (hpos.trans (Nat.add_assoc _ _ _)), hrest, List.drop_left' (length_header t)]

/-- `HCANON` assigns the codes that the payload was written with. -/
theorem Coded.exec_hcanon (h : Coded t) (hrun : Running a) (hparams : a.params = t.params) (htable : SameTable t a) :
    ∃ codes, Canonical a.lens codes ∧ exec .hcanon a = .next (a.hcanon codes) ∧
      ∀ i, i < t.k.toNat → (a.hcanon codes).readCC i = t.readCC i := by
  have hk : a.k.toNat ≤ a.params.symMax := hparams ▸ htable.k ▸ h.k_le
  have hcanon : canon a.lens = .ok (readMany t.readCC a.k.toNat) := by
    rw [htable.lens, htable.k]
    exact h.canon_eq
  have hexec := exec_hcanon_of_ok hrun hk hcanon
  obtain ⟨-, codes, hcodes, heq⟩ := exec_hcanon_inv hrun hexec rfl
  refine ⟨codes, hcodes, hexec.trans (congrArg _ heq), fun i hi => ?_⟩
  rw [← heq, State.hcanon_readCC (hi.trans_eq (congrArg _ htable.k.symm))]

/-- `RDPAY` decodes the symbols that the payload was written from. -/
theorem Coded.exec_rdpay (h : Coded t) (hexact : ∀ sym ∈ t.symbols, (pack sym).2 = false) (hrun : Running a)
    (hadm : Admitted a.params n) (htrv : a.valid.trv = true) (hrv : a.valid.rv = true)
    (hkeys : ∀ i, i < t.k.toNat → a.readST i = t.readST i) (htrie : a.readTrie.Represents t.readCC t.k.toNat)
    {after : List Bool} (hrest : a.rest = t.payload ++ after) (hopen : OpenBefore (n * n) t.symbols)
    (hends : EndsBlock (n * n) t.symbols) :
    ∃ u, exec (.rdpay n) a = .next u ∧ u.status = retStatus 0x74#8 .ok ∧ u.symbols = t.symbols := by
  have hcodes : (t.symbols.map fun sym => (t.readCC (t.symbolAt sym)).str).map a.readTrie.lookup =
      (t.symbols.map t.symbolId).map some := by
    rw [List.map_map, List.map_map]
    refine List.map_congr_left fun sym hsym => (htrie _ _).2 ?_
    rw [h.toNat_symbolId hsym]
    exact ⟨(h.symbolAt_spec hsym).1, rfl⟩
  have hsyms : a.symbolsOf (t.symbols.map t.symbolId) = t.symbols := by
    rw [State.symbolsOf, List.map_map]
    refine (List.map_congr_left fun sym hsym => ?_).trans (List.map_id _)
    obtain ⟨hi, hkey⟩ := h.symbolAt_spec hsym
    rw [Function.comp_apply, h.toNat_symbolId hsym, hkeys _ hi, hkey]
    exact (unpack_pack_eq_iff sym).2 (hexact sym hsym)
  rw [← hsyms] at hopen hends
  obtain ⟨u, -, hon, hread, -⟩ := readSymbols_codes (s := recordOp 0x74#8 a) (len := n * n) (pos := 0) (fuel := n * n)
    hcodes (hrest.trans (by rw [State.payload, List.flatMap_def])) hopen (Nat.le_add_left _ _)
  obtain ⟨u, hexec, hstatus, hsymbols, -⟩ := exec_rdpay_of_readSymbols hrun hadm htrv hrv (hread hends) hon
  exact ⟨u, hexec, hstatus, hsymbols.trans hsyms⟩

/-- The steps of `DECBLK` decode the symbols that the stream was written from. -/
theorem Coded.runSteps_decodeSteps (h : Coded t) (hexact : ∀ sym ∈ t.symbols, (pack sym).2 = false) (hrun : Running s)
    (hadm : Admitted s.params n) (hrv : s.valid.rv = true) (hparams : s.params = t.params) {after : List Bool}
    (hrest : s.rest = t.header ++ (t.payload ++ after)) (hopen : OpenBefore (n * n) t.symbols)
    (hends : EndsBlock (n * n) t.symbols) :
    (runSteps (decodeSteps n) s).status = retStatus 0x74#8 .ok ∧ (runSteps (decodeSteps n) s).symbols = t.symbols := by
  obtain ⟨a, hrdhdr, hstatus, htable, hafter⟩ := h.exec_rdhdr hrun hrv hparams hrest
  have hframe := writes_exec hrdhdr
  have hparams' : a.params = s.params := hframe.same State.params rfl
  have hrv' : a.valid.rv = s.valid.rv := hframe.same (·.valid.rv) rfl
  have hrun' : Running a := ⟨hparams' ▸ hrun.1, by rw [hstatus]; rfl⟩
  obtain ⟨codes, hcodes, hhcanon, hreadCC⟩ := h.exec_hcanon hrun' (hparams'.trans hparams) htable
  have hk : a.k.toNat ≤ a.params.symMax := by
    rw [hparams', hparams, htable.k]
    exact h.k_le
  obtain ⟨trie, hrep, hhtrie⟩ := hcodes.exec_htrie hrun' hk fun i hi h0 =>
    h.zero_notMem_lens (htable.lens ▸ zero_mem_lens.2 ⟨i, hi, h0⟩)
  have hrep' : trie.Represents t.readCC t.k.toNat := fun bits i => by
    rw [hrep bits i, htable.k]
    exact and_congr_right fun hi => by rw [hreadCC _ hi]
  obtain ⟨u, hrdpay, hdone, hsymbols⟩ := h.exec_rdpay (a := (a.hcanon codes).htrie trie) hexact ⟨hrun'.1, rfl⟩
    (hparams' ▸ hadm) rfl (hrv'.trans hrv) htable.keys hrep' hafter hopen hends
  have hruns : runSteps (decodeSteps n) s = u := by
    rw [decodeSteps, runSteps_cons hrdhdr (by rw [hstatus]; rfl), runSteps_cons hhcanon rfl, runSteps_cons hhtrie rfl,
      runSteps_cons hrdpay (by rw [hdone]; rfl), runSteps]
  rw [hruns]
  exact ⟨hdone, hsymbols⟩

end Sys2Proof.Machine
end

section
namespace Sys2Proof.Machine

/-! The block of `ENCBLK` read back (46_blockcodec.md R217). -/

variable {n : ℕ} {s t : State}

theorem satCode_eq_ok_iff {syms : List RleSym} : satCode syms = .ok ↔ ∀ sym ∈ syms, (pack sym).2 = false := by
  simp [satCode]

/-- `ENCBLK` returns only with a bound writer. -/
theorem writer_of_encblk (hrun : Running s) (hadm : Admitted s.params n) {c : RetCode}
    (hexec : exec (.encblk n) s = .next t) (hret : t.status.code = .ret c) : s.valid.wv = true := by
  by_contra hwv
  have hn := (blockSizeOk_iff_admitted s.params n).2 hadm
  have hbody : bodyEncblk n (recordOp 0x78#8 s) = _ := (withBlock_ok n _ (recordOp 0x78#8 s) hn :)
  have hraise : bodyEncblk n (recordOp 0x78#8 s) = .raise .nobuf := hbody.trans (if_pos (by simpa using hwv))
  cases (command_raise hrun.2 hraise).symm.trans hexec
  cases hret

/-- What `ENCBLK n` leaves where it returned `OK`: the symbols of the block, none of which was clamped, and their codes. -/
theorem exec_encblk_inv (hrun : Running s) (hadm : Admitted s.params n) (hexec : exec (.encblk n) s = .next t)
    (hok : t.status.code = .ret .ok) : Coded t ∧ t.WriterWithin ∧
      t.symbols = rlEncode 0 ((zzIndex n).map s.readIB) ∧ ∀ sym ∈ t.symbols, (pack sym).2 = false := by
  have hwv := writer_of_encblk hrun hadm hexec hok
  obtain ⟨-, c, -, hfails, hnext⟩ | ⟨-, hcoded, hwithin, hsymbols, hnext⟩ := exec_encblk_cases hrun hadm hwv
  · obtain rfl := Host.Outcome.next.inj (hnext.symm.trans hexec)
    have hclass := class_of_encodeFails hfails 0x78#8
    rw [show (retStatus 0x78#8 c).code = .ret .ok from hok] at hclass
    cases hclass
  · obtain rfl := Host.Outcome.next.inj (hnext.symm.trans hexec)
    exact ⟨hcoded.withStatus _ _, hwithin, hsymbols, satCode_eq_ok_iff.1 (Code.ret.inj hok)⟩

theorem Coded.blockStream (h : Coded t) : blockStream t = some (t.header ++ t.payload) :=
  congrArg (Option.map _) h.payloadBits

/-- Bits that a stream starts with. -/
theorem exists_map_streamBit_eq {bits : List Bool} {len : ℕ} (hholds : t.holds 0 bits) (hlen : bits.length ≤ len) :
    ∃ after, (List.range len).map t.streamBit = bits ++ after := by
  refine ⟨((List.range len).map t.streamBit).drop bits.length, ?_⟩
  have htake : ((List.range len).map t.streamBit).take bits.length = bits := by
    refine List.ext_getElem (by simpa using hlen) fun p _ hp => ?_
    have hbit := hholds p hp
    rw [Nat.zero_add, List.getD_eq_getElem _ _ hp] at hbit
    simpa using hbit
  conv_lhs => rw [← List.take_append_drop bits.length ((List.range len).map t.streamBit), htake]

/-- A reader bound to the bytes written has the stream left to read. -/
theorem rest_brinit_encblk (hrun : Running s) (hadm : Admitted s.params n) (hbuf : s.w.cap.toNat ≤ s.params.bufMax)
    (hexec : exec (.encblk n) s = .next t) (hok : t.status.code = .ret .ok) : t.bcnt ≤ t.params.bufMax ∧
      ∃ after, (t.brinit t.bcnt).rest = t.header ++ (t.payload ++ after) := by
  obtain ⟨hcoded, hwithin, -⟩ := exec_encblk_inv hrun hadm hexec hok
  have hwv := writer_of_encblk hrun hadm hexec hok
  have hclass : t.status.code.class = .success := congrArg Code.class hok
  obtain ⟨⟨bits, hstream, -, hbcnt, hholds, -⟩, -⟩ := encblkWritesTheWireFormat n s t hrun hadm hwv hexec hclass
  obtain rfl := Option.some.inj (hcoded.blockStream.symm.trans hstream)
  have hframe := writes_exec hexec
  have hcap : t.w.cap = s.w.cap := hframe.same (·.w.cap) rfl
  have hparams : t.params = s.params := hframe.same State.params rfl
  have hle : t.bcnt ≤ t.params.bufMax := by
    rw [State.WriterWithin, hcap] at hwithin
    rw [hparams, bcnt_eq]
    omega
  obtain ⟨after, hafter⟩ := exists_map_streamBit_eq (len := 8 * t.bcnt) hholds (by omega)
  exact ⟨hle, after, by rw [rest_brinit hcoded.run hle, hafter, List.append_assoc]⟩

/-- Settles O55: the header gives the decoder the codes of the encoder, so it decodes the encoder's symbols, and these stand for
the values scanned. -/
theorem blockRoundTrip : Obligations.BlockRoundTrip := by
  intro n s t hrun hadm hbuf hexec hok
  obtain ⟨hcoded, -, hsymbols, hexact⟩ := exec_encblk_inv hrun hadm hexec hok
  obtain ⟨hle, after, hrest⟩ := rest_brinit_encblk hrun hadm hbuf hexec hok
  have hadm' : Admitted (t.brinit t.bcnt).params n := (writes_exec hexec).same State.params rfl ▸ hadm
  have hrun' : Running (t.brinit t.bcnt) := ⟨hcoded.run.1, rfl⟩
  have hlen : ((zzIndex n).map s.readIB).length = n * n := by rw [List.length_map, length_zzIndex hadm.1]
  have hshort := hlen.trans_lt (square_lt_of_admitted hrun hadm)
  obtain ⟨hopen, hends⟩ := rlEncode_fills hshort
  rw [← hsymbols, hlen] at hopen hends
  obtain ⟨hstatus, hsyms⟩ := hcoded.runSteps_decodeSteps hexact hrun' hadm' rfl rfl hrest hopen hends
  obtain ⟨hcode, hvalues⟩ := rldec_rlEncode hshort
  rw [hlen] at hcode
  change ((t.brinit t.bcnt).decoded n).status = _ at hstatus
  change ((t.brinit t.bcnt).decoded n).symbols = _ at hsyms
  obtain ⟨op, c, hstatus', hclass, -, -⟩ | ⟨c, hstatus', -, -, hdecblk⟩ := exec_decblk_cases hrun' hadm' rfl
    <;> obtain rfl : c = .ok := Code.ret.inj (congrArg Status.code (hstatus'.symm.trans hstatus))
  · cases hclass
  refine ⟨_, runInstrs_pair (exec_brinit hcoded.run hle) hdecblk, ?_, fun idx hidx => ?_⟩
  · rw [hsyms, hsymbols, hcode]
    rfl
  · obtain ⟨k, hk⟩ := List.getElem?_of_mem ((mem_zzIndex_iff hadm.1).2 hidx)
    have hklen : k < n * n := length_zzIndex hadm.1 ▸ (List.getElem?_eq_some_iff.1 hk).1
    refine (State.zunscan_readIB hadm.1 _ hk).trans ?_
    rw [State.rldec_readSQ hklen, hsyms, hsymbols, hvalues, List.getD_eq_getElem?_getD, List.getElem?_map, hk]
    rfl

end Sys2Proof.Machine
end

section
namespace Sys2Proof.Machine

/-! What the common steps make of a command, for all commands at once (47_system.md R230; 60_exceptions.md R246). -/

/-- Every command but `SRESET` runs a body between the common steps. -/
theorem exists_exec_eq_command {i : Instr} (hi : i ≠ .sreset) : ∃ body, ∀ s, exec i s = command i.opcode body s := by
  cases i
  case sreset => exact absurd rfl hi
  all_goals exact ⟨_, fun _ => rfl⟩

/-- The body of a command with an `n` field begins with its block-size check (R243). -/
theorem exists_exec_eq_withBlock {i : Instr} {n : ℕ} (h : blockOperand i = some n) :
    ∃ body, ∀ s, exec i s = command i.opcode (withBlock n body) s := by
  cases i <;> cases h <;> exact ⟨_, fun _ => rfl⟩

/-- The code a result posts. -/
def Result.code : Result → Code
  | .ret c _ => .ret c
  | .raise f => .fault f

theorem runCommand_code (op : Byte) (body : State → Result) {s : State} (hrun : s.status.halt = false) :
    (runCommand op body s).status.code = (body (recordOp op s)).code := by
  cases hbody : body (recordOp op s) with
  | ret c t => rw [runCommand_ret op body s t c hrun hbody]; rfl
  | raise f => rw [runCommand_raise op body s f hrun hbody]; rfl

/-- A running core that holds a fault after a command took it: only `STATUS` changed. -/
theorem eq_faulted_of_exec {i : Instr} {s t : State} {f : CoreFault} (hrun : s.status.halt = false)
    (hexec : exec i s = .next t) (hcode : t.status.code = .fault f) : t = faulted i.opcode f s := by
  by_cases hi : i = .sreset
  · subst hi
    cases hexec
    cases hcode
  · obtain ⟨body, hbody⟩ := exists_exec_eq_command hi
    obtain rfl := Host.Outcome.next.inj ((hbody s).symm.trans hexec)
    rw [runCommand_code _ _ hrun] at hcode
    cases hres : body (recordOp i.opcode s) with
    | ret c u => rw [hres] at hcode; cases hcode
    | raise g =>
      rw [hres] at hcode
      cases hcode
      exact runCommand_raise _ _ _ _ hrun hres

/-- A running core runs the command a word decodes to. -/
theorem coreCommand_of_decode {w : Word} {i : Instr} {s : State} (hrun : s.status.halt = false) (hdec : decode w = .ok i) :
    coreCommand w s = exec i s := by
  simp only [coreCommand, hrun, hdec]
  rfl

/-- Settles O14: an illegal word faults without a body, and a command keeps nothing its body wrote before the fault. -/
theorem faultEntryIsPrecise : Obligations.FaultEntryIsPrecise := by
  intro s t w f hrun hnext hcode
  cases hdec : decode w with
  | error e =>
    obtain rfl := Host.Outcome.next.inj ((illegalWordFaults s w e hrun hdec).symm.trans hnext)
    cases hcode
    rfl
  | ok i =>
    rw [coreCommand_of_decode hrun hdec] at hnext
    rw [(encodeDecodeRoundTrip w i hdec).2.2]
    exact eq_faulted_of_exec hrun hnext hcode

/-- A step whose next move presents a word hands the host the `STATUS` the word leaves. -/
theorem step_of_command {w : Word} {rest : List HostMove} {s t : State} (hport : s.port = .command w :: rest)
    (hnext : coreCommand w { s with port := rest } = .next t) : step s = .next { t with reply := .status t.status.word } := by
  rw [step, takeMove, hport]
  exact congrArg answerStatus hnext

/-- Settles O5: the word at the port is decoded and its command run; an empty port is no move. -/
theorem stepRunsDecodedCommand : Obligations.StepRunsDecodedCommand := by
  refine ⟨fun s w rest i hport hrun hdec => ?_, fun s w => ⟨?_, rfl, fun hport => ?_⟩⟩
  · obtain ⟨t, hexec⟩ := exec_next i { s with port := rest }
    exact ⟨t, hexec, step_of_command hport ((coreCommand_of_decode (s := { s with port := rest }) hrun hdec).trans hexec)⟩
  · have hword : BitVec.ofNat 32 (w.toNat % 2 ^ 32) = w := by
      rw [Nat.mod_eq_of_lt w.isLt, BitVec.ofNat_toNat, BitVec.setWidth_eq]
    rw [State.withFetchWord, hword, presentWord_port]
  · rw [step, takeMove, hport]

end Sys2Proof.Machine
end

section
namespace Sys2Proof.Machine

/-! The halted core, and the two system commands (47_system.md R231 to R233; 60_exceptions.md R249). -/

theorem coreCommand_halted {w : Word} {s : State} (hhalt : s.status.halt = true) (hw : w ≠ sresetWord) :
    coreCommand w s = .next s := by
  rw [coreCommand, if_pos hhalt, if_neg hw]

theorem exec_halted {i : Instr} {s : State} (hhalt : s.status.halt = true) (hi : i ≠ .sreset) : exec i s = .next s := by
  obtain ⟨body, hbody⟩ := exists_exec_eq_command hi
  rw [hbody, command_eq, runCommand_halted _ _ _ hhalt]

/-- A host write does not look at `STATUS`. -/
theorem hostWrite_withStatus (space index : ℕ) (v : DWord) (s : State) (st : Status) :
    hostWrite space index v (s.withStatus st) = (hostWrite space index v s).withStatus st := by
  cases hat : spaceAt s.params space index with
  | none =>
    rw [hostWrite_of_spaceAt_none hat]
    exact hostWrite_of_spaceAt_none hat
  | some sp =>
    have hslot (i : ℕ) : (s.withStatus st).writeSlot v i = (s.writeSlot v i).withStatus st := by
      unfold State.writeSlot
      split <;> rfl
    have helement : (s.withStatus st).writeElement sp index v = (s.writeElement sp index v).withStatus st := by
      cases sp
      case reg => exact hslot index
      all_goals rfl
    rw [hostWrite_of_spaceAt hat, hostWrite_of_spaceAt (s := s.withStatus st) hat, helement]
    rfl

/-- Settles O7: the gate of R230 lets one word pass, every other command's own gate lets nothing pass, and a host write has no
gate. -/
theorem haltedCoreIgnores : Obligations.HaltedCoreIgnores := by
  refine fun s hhalt => ⟨fun w hw => coreCommand_halted hhalt hw, fun i hi => exec_halted hhalt hi,
    fun w rest hport hw => ?_, fun i j v => ?_⟩
  · exact step_of_command hport (coreCommand_halted (s := { s with port := rest }) hhalt hw)
  · exact hostWrite_withStatus i j v (s.withStatus { s.status with halt := false }) s.status

theorem eq_nop_of_opcode {i : Instr} (h : i.opcode = 0x00#8) : i = .nop := by
  cases i
  case nop => rfl
  all_goals exact absurd h (by simp [Instr.opcode])

/-- Settles O8: of the words with its opcode byte only 0x00000000 decodes, and its body does nothing. -/
theorem nopPostsOk : Obligations.NopPostsOk := by
  have hword : encode .nop = 0#32 := by decide
  refine ⟨hword, fun s hrun => ⟨?_, ?_, fun w hop hw => ?_⟩, fun s hhalt => ?_⟩
  · exact command_ret (t := recordOp 0x00#8 s) hrun rfl rfl
  · rw [← hword, coreCommand_encode rfl hrun]
  · cases hdec : decode w with
    | error e => rw [illegalWordFaults s w e hrun hdec, hop]
    | ok i =>
      obtain ⟨-, hencode, hopcode⟩ := encodeDecodeRoundTrip w i hdec
      rw [eq_nop_of_opcode (hopcode.symm.trans hop), hword] at hencode
      exact absurd hencode.symm hw
  · exact coreCommand_halted hhalt (by decide)

/-- Settles O9: the word of `SRESET` passes the gate of a halted core and decodes on a running one; a reset builds the state
anew, but for the parameters and the host's side. -/
theorem resetRestoresResetState : Obligations.ResetRestoresResetState := by
  refine fun s => ⟨⟨_, rfl, rfl⟩, ?_, fun rest hport => ?_⟩
  · cases hhalt : s.status.halt with
    | true => rw [coreCommand, if_pos hhalt]; exact if_pos rfl
    | false => exact coreCommand_encode (i := .sreset) rfl hhalt
  · refine ⟨{ doReset { s with port := rest } with reply := .nothing }, ?_, rfl⟩
    rw [step, takeMove, hport]
    rfl

end Sys2Proof.Machine
end

section
namespace Sys2Proof.Machine

/-! Operands out of range (60_exceptions.md R243; 45_bitstream.md R194). -/

variable {s : State}

theorem bodyQinit_of_quality {n quality : ℕ} (hadm : Admitted s.params n) (h : ¬ (1 ≤ quality ∧ quality ≤ 100))
    (a : Bool) : bodyQinit n quality a s = .raise .quality :=
  (withBlock_ok n _ s ((blockSizeOk_iff_admitted _ _).2 hadm) :).trans (if_neg (mt (qualityOk_iff quality).1 h))

theorem not_capacityOk {cap : ℕ} (h : s.params.bufMax < cap) : ¬ capacityOk s.params cap = true := by
  simpa [capacityOk] using h

theorem bodyWbits_of_cnt {cnt : ℕ} (h : 16 < cnt) (val : ℕ) : bodyWbits cnt val s = .raise .illegal :=
  if_pos (by simpa [cntOk] using h)

/-- Settles O12: the body of each command begins with the check of its operand. -/
theorem operandRangeFaults : Obligations.OperandRangeFaults := by
  intro s hrun
  refine ⟨fun i n hn hadm => ?_, fun n quality a hadm hquality => ?_, fun cap hcap => ⟨?_, ?_⟩, fun cnt val hcnt => ?_⟩
  · obtain ⟨body, hbody⟩ := exists_exec_eq_withBlock hn
    rw [hbody, command_eq, runCommand_withBlock_fault _ _ hrun hadm]
  · exact command_raise hrun (bodyQinit_of_quality (s := recordOp 0x20#8 s) hadm hquality a)
  · exact command_raise hrun (if_neg (not_capacityOk hcap))
  · exact command_raise hrun (if_neg (not_capacityOk hcap))
  · exact command_raise hrun (bodyWbits_of_cnt hcnt val)

end Sys2Proof.Machine
end

section
namespace Sys2Proof.Machine

/-! Preconditions that do not hold (60_exceptions.md R244; 70_reset_and_hazards.md R272), body by body. -/

section
variable {n : ℕ} {s : State}

/-! No context. -/

theorem bodyTfwd_of_no_context (h : s.valid.tcv = false) : bodyTfwd s = .raise .noctx := if_neg (ne_true_of_eq_false h)

theorem bodyTinv_of_no_context (h : s.valid.tcv = false) : bodyTinv s = .raise .noctx := if_neg (ne_true_of_eq_false h)

theorem bodyQuant_of_no_context (h : s.valid.qcv = false) : bodyQuant s = .raise .noctx := if_neg (ne_true_of_eq_false h)

theorem bodyDequant_of_no_context (h : s.valid.qcv = false) : bodyDequant s = .raise .noctx :=
  if_neg (ne_true_of_eq_false h)

/-! No writer, no reader. -/

theorem bodyWbit_of_no_writer {b : Bool} (h : s.valid.wv = false) : bodyWbit b s = .raise .nobuf :=
  if_neg (ne_true_of_eq_false h)

theorem bodyWbits_of_no_writer {cnt val : ℕ} (h : s.valid.wv = false) (hcnt : cnt ≤ 16) :
    bodyWbits cnt val s = .raise .nobuf := by
  rw [bodyWbits, if_neg (by simpa [cntOk] using hcnt), if_neg (ne_true_of_eq_false h)]

theorem bodyWrhdr_of_no_writer (h : s.valid.wv = false) : bodyWrhdr s = .raise .nobuf := by rw [bodyWrhdr, h]; rfl

theorem bodyWrpay_of_no_writer (h : s.valid.wv = false) : bodyWrpay s = .raise .nobuf := by rw [bodyWrpay, h]; rfl

theorem bodyEncblk_of_no_writer (hadm : Admitted s.params n) (h : s.valid.wv = false) :
    bodyEncblk n s = .raise .nobuf := by
  rw [bodyEncblk, withBlock_ok n _ s ((blockSizeOk_iff_admitted _ _).2 hadm), h]
  rfl

theorem bodyRbit_of_no_reader (h : s.valid.rv = false) : bodyRbit s = .raise .nobuf := if_neg (ne_true_of_eq_false h)

theorem bodyRdhdr_of_no_reader (h : s.valid.rv = false) : bodyRdhdr s = .raise .nobuf := by rw [bodyRdhdr, h]; rfl

theorem bodyHdecsym_of_no_reader (htrv : s.valid.trv = true) (h : s.valid.rv = false) : bodyHdecsym s = .raise .nobuf := by
  rw [bodyHdecsym, htrv, h]
  rfl

theorem bodyDecblk_of_no_reader (hadm : Admitted s.params n) (h : s.valid.rv = false) :
    bodyDecblk n s = .raise .nobuf := by
  rw [bodyDecblk, withBlock_ok n _ s ((blockSizeOk_iff_admitted _ _).2 hadm), h]
  rfl

theorem bodyRdpay_of_no_reader (hadm : Admitted s.params n) (htrv : s.valid.trv = true) (h : s.valid.rv = false) :
    bodyRdpay n s = .raise .nobuf := by
  rw [bodyRdpay, withBlock_ok n _ s ((blockSizeOk_iff_admitted _ _).2 hadm), htrv, h]
  rfl

/-! Derived state that is absent or inconsistent. -/

theorem bodyHbuild_of_k (h : s.k.toNat = 0 ∨ s.params.symMax < s.k.toNat) : bodyHbuild s = .raise .state := if_pos h

theorem bodyHcanon_of_k (h : s.params.symMax < s.k.toNat) : bodyHcanon s = .raise .state := if_pos h

theorem bodyHtrie_of_state (h : s.valid.ccv = false ∨ s.params.symMax < s.k.toNat) : bodyHtrie s = .raise .state :=
  if_pos (by simpa using h)

theorem bodyWrhdr_of_k (hwv : s.valid.wv = true) (h : s.params.symMax < s.k.toNat) : bodyWrhdr s = .raise .state := by
  rw [bodyWrhdr, hwv]
  exact if_pos h

theorem bodySymmap_of_rsn (h : s.params.lMax < s.rsn.toNat) : bodySymmap s = .raise .state := if_pos h

theorem bodyRldec_of_rsn (hadm : Admitted s.params n) (h : s.params.lMax < s.rsn.toNat) : bodyRldec n s = .raise .state :=
  (withBlock_ok n _ s ((blockSizeOk_iff_admitted _ _).2 hadm) :).trans (if_pos h)

theorem bodyHdecsym_of_no_trie (h : s.valid.trv = false) : bodyHdecsym s = .raise .state := by rw [bodyHdecsym, h]; rfl

theorem bodyRdpay_of_no_trie (hadm : Admitted s.params n) (h : s.valid.trv = false) : bodyRdpay n s = .raise .state := by
  rw [bodyRdpay, withBlock_ok n _ s ((blockSizeOk_iff_admitted _ _).2 hadm), h]
  rfl

theorem symbolIndex_eq_none {key : Word} (h : ∀ i, i < s.k.toNat → s.readST i ≠ key) : s.symbolIndex key = none :=
  List.find?_eq_none.2 fun i hi => by simpa using h i (List.mem_range.1 hi)

/-- One symbol without an entry leaves no payload. -/
theorem payloadBits_eq_none {syms : List RleSym} {sym : RleSym} (hsym : sym ∈ syms)
    (h : s.symbolIndex (pack sym).1 = none) : payloadBits s syms = none := by
  induction syms with
  | nil => cases hsym
  | cons head rest ih =>
    rw [payloadBits]
    obtain rfl | hrest := List.mem_cons.1 hsym
    · rw [h, Option.bind_none]
    · simp only [ih hrest, Option.map_none, Option.bind_fun_none]

/-- Some symbol has no entry in the table. -/
def State.LacksSymbol (s : State) : Prop := ∃ sym ∈ s.symbols, ∀ i, i < s.k.toNat → s.readST i ≠ (pack sym).1

theorem bodyWrpay_of_state (hwv : s.valid.wv = true)
    (h : s.valid.ccv = false ∨ s.params.symMax < s.k.toNat ∨ s.params.lMax < s.rsn.toNat ∨ s.LacksSymbol) :
    bodyWrpay s = .raise .state := by
  rw [bodyWrpay, hwv, if_neg (by decide)]
  split_ifs with hstate
  · rfl
  · simp only [Bool.or_eq_true, Bool.not_eq_true', decide_eq_true_eq, not_or] at hstate
    obtain ⟨⟨hccv, hk⟩, hrsn⟩ := hstate
    obtain ⟨sym, hsym, hnone⟩ := ((h.resolve_left hccv).resolve_left hk).resolve_left hrsn
    rw [payloadBits_eq_none hsym (symbolIndex_eq_none hnone)]

end

/-- Settles O13: the body of each command checks its preconditions in the order of its rule. -/
theorem preconditionFaults : Obligations.PreconditionFaults := by
  intro s hrun
  have raise {op : Byte} {body : State → Result} {f : CoreFault} (hbody : body (recordOp op s) = .raise f) :
      command op body s = .next (faulted op f s) := command_raise hrun hbody
  exact ⟨fun h => ⟨raise (bodyTfwd_of_no_context h), raise (bodyTinv_of_no_context h)⟩,
    fun h => ⟨raise (bodyQuant_of_no_context h), raise (bodyDequant_of_no_context h)⟩,
    fun h => ⟨fun b => raise (bodyWbit_of_no_writer h), fun cnt val hcnt => raise (bodyWbits_of_no_writer h hcnt),
      raise (bodyWrhdr_of_no_writer h), raise (bodyWrpay_of_no_writer h),
      fun n hadm => raise (bodyEncblk_of_no_writer hadm h)⟩,
    fun h => ⟨raise (bodyRbit_of_no_reader h), raise (bodyRdhdr_of_no_reader h),
      fun htrv => raise (bodyHdecsym_of_no_reader htrv h), fun n hadm => ⟨raise (bodyDecblk_of_no_reader hadm h),
        fun htrv => raise (bodyRdpay_of_no_reader hadm htrv h)⟩⟩,
    fun h => ⟨raise (bodyHbuild_of_k (.inr h)), raise (bodyHcanon_of_k h), raise (bodyHtrie_of_state (.inr h)),
      fun hwv => ⟨raise (bodyWrhdr_of_k hwv h), raise (bodyWrpay_of_state hwv (.inr (.inl h)))⟩⟩,
    fun h => raise (bodyHbuild_of_k (.inl (congrArg BitVec.toNat h))),
    fun h => ⟨raise (bodySymmap_of_rsn h), fun n hadm => raise (bodyRldec_of_rsn hadm h),
      fun hwv => raise (bodyWrpay_of_state hwv (.inr (.inr (.inl h))))⟩,
    fun h => ⟨raise (bodyHtrie_of_state (.inl h)), fun hwv => raise (bodyWrpay_of_state hwv (.inl h))⟩,
    fun h => ⟨raise (bodyHdecsym_of_no_trie h), fun n hadm => raise (bodyRdpay_of_no_trie hadm h)⟩,
    fun h hwv => raise (bodyWrpay_of_state hwv (.inr (.inr (.inr h))))⟩

end Sys2Proof.Machine
end

section
namespace Sys2Proof.Machine

/-! What the bodies return and raise, against the table of 60_exceptions.md R251. -/

/-- A body that ends only with codes of the command's row. -/
def BodyPosts (i : Instr) (body : State → Result) : Prop := ∀ s, (body s).code ∈ mayPost i

theorem posts_ret {i : Instr} {c : RetCode} (h : c ∈ mayReturn i) (s : State) : (Result.ret c s).code ∈ mayPost i :=
  List.mem_append_left _ (List.mem_map_of_mem h)

theorem posts_raise {i : Instr} {f : CoreFault} (h : f ∈ mayFault i) : (Result.raise f).code ∈ mayPost i :=
  List.mem_append_right _ (List.mem_map_of_mem h)

theorem posts_ite {i : Instr} {p : Prop} [Decidable p] {a b : Result} (ha : a.code ∈ mayPost i) (hb : b.code ∈ mayPost i) :
    (if p then a else b).code ∈ mayPost i := by
  split_ifs
  · exact ha
  · exact hb

theorem bodyPosts_withBlock {i : Instr} {n : ℕ} {body : State → Result} (hblock : .blocksize ∈ mayFault i)
    (hbody : BodyPosts i body) : BodyPosts i (withBlock n body) := by
  intro s
  unfold withBlock
  exact posts_ite (hbody s) (posts_raise hblock)

/-- A body that returns `OK` once its block size is admitted. -/
theorem bodyPosts_withBlock_ok {i : Instr} {n : ℕ} {write : State → State} (hblock : .blocksize ∈ mayFault i)
    (hok : .ok ∈ mayReturn i) : BodyPosts i (withBlock n fun s => .ret .ok (write s)) :=
  bodyPosts_withBlock hblock fun _ => posts_ret hok _

theorem BodyPosts.command {i : Instr} {body : State → Result} (hbody : BodyPosts i body) {op : Byte} {s t : State}
    (hrun : s.status.halt = false) (ht : command op body s = .next t) : t.status.code ∈ mayPost i := by
  obtain rfl := Host.Outcome.next.inj ht
  rw [runCommand_code op body hrun]
  exact hbody _

/-! The operations that end with one of several codes. -/

theorem posts_afterWrite {i : Instr} (hok : .ok ∈ mayReturn i) (hover : .eOverflow ∈ mayReturn i) (r : State × Bool) :
    (afterWrite r).code ∈ mayPost i := by
  rcases r with ⟨t, _ | _⟩
  · exact posts_ret hover t
  · exact posts_ret hok t

theorem canon_error {lens : List ℕ} {c : RetCode} (h : canon lens = .error c) : c = .hLen0 ∨ c = .hOversub := by
  unfold canon at h
  split at h
  · cases h; exact .inl rfl
  · split at h <;> cases h
    exact .inr rfl

theorem readEntries_code (left i : ℕ) (s : State) :
    (readEntries left i s).1 = .ok ∨ (readEntries left i s).1 = .hTrunc ∨ (readEntries left i s).1 = .hLen0 := by
  induction left generalizing i s with
  | zero => exact .inl rfl
  | succ left ih =>
    rw [readEntries]
    rcases readField 32 0 s with ⟨_ | key, t⟩
    · exact .inr (.inl rfl)
    · dsimp only
      rcases readField 8 0 t with ⟨_ | len, u⟩
      · exact .inr (.inl rfl)
      · dsimp only
        split_ifs
        · exact .inr (.inr rfl)
        · exact ih _ _

theorem entriesResult_code (count : ℕ) (r : RetCode × State) : (entriesResult count r).code = .ret r.1 := by
  rcases r with ⟨_ | _, u⟩ <;> rfl

theorem rldecCode_mem (n len : ℕ) (syms : List RleSym) : rldecCode len syms ∈ mayReturn (.rldec n) := by
  unfold rldecCode
  split_ifs <;> simp [mayReturn]

/-! The bodies. -/

theorem bodyPosts_nop : BodyPosts .nop bodyNop := fun _ => posts_ret (List.mem_singleton_self _) _

theorem bodyPosts_tinit (n : ℕ) : BodyPosts (.tinit n) (bodyTinit n) :=
  bodyPosts_withBlock_ok (List.mem_singleton_self _) (List.mem_singleton_self _)

theorem bodyPosts_qvar (n : ℕ) : BodyPosts (.qvar n) (bodyQvar n) :=
  bodyPosts_withBlock_ok (List.mem_singleton_self _) (List.mem_singleton_self _)

theorem bodyPosts_zscan (n : ℕ) : BodyPosts (.zscan n) (bodyZscan n) :=
  bodyPosts_withBlock_ok (List.mem_singleton_self _) (List.mem_singleton_self _)

theorem bodyPosts_zunscan (n : ℕ) : BodyPosts (.zunscan n) (bodyZunscan n) :=
  bodyPosts_withBlock_ok (List.mem_singleton_self _) (List.mem_singleton_self _)

theorem bodyPosts_rlenc (n : ℕ) : BodyPosts (.rlenc n) (bodyRlenc n) :=
  bodyPosts_withBlock_ok (List.mem_singleton_self _) (List.mem_singleton_self _)

theorem bodyPosts_tfwd : BodyPosts .tfwd bodyTfwd := fun _ =>
  posts_ite (posts_ret (by decide) _) (posts_raise (by decide))

theorem bodyPosts_tinv : BodyPosts .tinv bodyTinv := fun _ =>
  posts_ite (posts_ret (by decide) _) (posts_raise (by decide))

theorem bodyPosts_qinit (n quality : ℕ) (a : Bool) : BodyPosts (.qinit n quality a) (bodyQinit n quality a) :=
  bodyPosts_withBlock (by simp [mayFault]) fun _ =>
    posts_ite (posts_ret (by simp [mayReturn]) _) (posts_raise (by simp [mayFault]))

theorem bodyPosts_quant : BodyPosts .quant bodyQuant := by
  intro s
  unfold bodyQuant
  split_ifs
  · split
    · exact posts_raise (by decide)
    · exact posts_ret (by decide) _
  · exact posts_raise (by decide)

theorem bodyPosts_dequant : BodyPosts .dequant bodyDequant := fun _ =>
  posts_ite (posts_ret (by decide) _) (posts_raise (by decide))

theorem bodyPosts_rldec (n : ℕ) : BodyPosts (.rldec n) (bodyRldec n) :=
  bodyPosts_withBlock (by simp [mayFault]) fun s =>
    posts_ite (posts_raise (by simp [mayFault])) (posts_ret (rldecCode_mem n (n * n) s.symbols) _)

theorem bodyPosts_hbuild : BodyPosts .hbuild bodyHbuild := fun _ =>
  posts_ite (posts_raise (by decide)) (posts_ite (posts_ret (by decide) _) (posts_ret (by decide) _))

theorem bodyPosts_hcanon : BodyPosts .hcanon bodyHcanon := by
  intro s
  dsimp only [bodyHcanon]
  split_ifs
  · exact posts_raise (by decide)
  · split
    · rename_i hcanon
      obtain rfl | rfl := canon_error hcanon <;> exact posts_ret (by decide) _
    · exact posts_ret (by decide) _

theorem bodyPosts_htrie : BodyPosts .htrie bodyHtrie := by
  intro s
  dsimp only [bodyHtrie]
  split_ifs
  · exact posts_raise (by decide)
  · split <;> exact posts_ret (by decide) _

theorem bodyPosts_hdecsym : BodyPosts .hdecsym bodyHdecsym := by
  intro s
  unfold bodyHdecsym
  split_ifs
  · exact posts_raise (by decide)
  · exact posts_raise (by decide)
  · split <;> exact posts_ret (by decide) _

theorem bodyPosts_bwinit (cap : ℕ) : BodyPosts (.bwinit cap) (bodyBwinit cap) := fun _ =>
  posts_ite (posts_ret (List.mem_singleton_self _) _) (posts_raise (List.mem_singleton_self _))

theorem bodyPosts_brinit (cap : ℕ) : BodyPosts (.brinit cap) (bodyBrinit cap) := fun _ =>
  posts_ite (posts_ret (List.mem_singleton_self _) _) (posts_raise (List.mem_singleton_self _))

theorem bodyPosts_wbit (b : Bool) : BodyPosts (.wbit b) (bodyWbit b) := fun _ =>
  posts_ite (posts_afterWrite (by simp [mayReturn]) (by simp [mayReturn]) _) (posts_raise (List.mem_singleton_self _))

theorem bodyPosts_wbits (cnt val : ℕ) : BodyPosts (.wbits cnt val) (bodyWbits cnt val) := fun _ =>
  posts_ite (posts_raise (by simp [mayFault]))
    (posts_ite (posts_afterWrite (by simp [mayReturn]) (by simp [mayReturn]) _) (posts_raise (by simp [mayFault])))

theorem bodyPosts_rbit : BodyPosts .rbit bodyRbit := by
  intro s
  unfold bodyRbit
  split_ifs
  · split <;> exact posts_ret (by decide) _
  · exact posts_raise (by decide)

theorem bodyPosts_symmap : BodyPosts .symmap bodySymmap := by
  intro s
  dsimp only [bodySymmap]
  split_ifs
  · exact posts_raise (by decide)
  all_goals exact posts_ret (by decide) _

theorem bodyPosts_wrhdr : BodyPosts .wrhdr bodyWrhdr := fun _ =>
  posts_ite (posts_raise (by decide))
    (posts_ite (posts_raise (by decide)) (posts_afterWrite (by decide) (by decide) _))

theorem bodyPosts_wrpay : BodyPosts .wrpay bodyWrpay := by
  intro s
  unfold bodyWrpay
  split_ifs
  · exact posts_raise (by decide)
  · exact posts_raise (by decide)
  · split
    · exact posts_raise (by decide)
    · exact posts_afterWrite (by decide) (by decide) _

theorem bodyPosts_rdhdr : BodyPosts .rdhdr bodyRdhdr := by
  intro s
  cases hrv : s.valid.rv with
  | false => rw [bodyRdhdr_of_no_reader hrv]; exact posts_raise (by decide)
  | true =>
    rw [bodyRdhdr_eq hrv]
    rcases readField 16 0 s.tableCleared with ⟨_ | count, u⟩
    · exact posts_ret (by decide) _
    · dsimp only [headerResult]
      split_ifs
      · exact posts_ret (by decide) _
      · rw [entriesResult_code]
        obtain h | h | h := readEntries_code count 0 u <;> rw [h] <;> decide

theorem bodyPosts_rdpay (n : ℕ) : BodyPosts (.rdpay n) (bodyRdpay n) := by
  refine bodyPosts_withBlock (by simp [mayFault]) fun s => ?_
  split_ifs
  · exact posts_raise (by simp [mayFault])
  · exact posts_raise (by simp [mayFault])
  · refine posts_ret ?_ _
    obtain h | h | h := readSymbols_code (n * n) (n * n) 0 s <;> rw [h] <;> simp [mayReturn]

/-- Settles O15: a running core posts what the command's body ends with, and no body leaves its row. -/
theorem postedCodesFollowTheTable : Obligations.PostedCodesFollowTheTable := by
  intro i s t hsimple hrun hexec
  cases i with
  | nop => exact bodyPosts_nop.command hrun hexec
  | sreset => cases hexec; exact List.mem_singleton_self _
  | tinit n => exact (bodyPosts_tinit n).command hrun hexec
  | tfwd => exact bodyPosts_tfwd.command hrun hexec
  | tinv => exact bodyPosts_tinv.command hrun hexec
  | qinit n quality a => exact (bodyPosts_qinit n quality a).command hrun hexec
  | qvar n => exact (bodyPosts_qvar n).command hrun hexec
  | quant => exact bodyPosts_quant.command hrun hexec
  | dequant => exact bodyPosts_dequant.command hrun hexec
  | zscan n => exact (bodyPosts_zscan n).command hrun hexec
  | zunscan n => exact (bodyPosts_zunscan n).command hrun hexec
  | rlenc n => exact (bodyPosts_rlenc n).command hrun hexec
  | rldec n => exact (bodyPosts_rldec n).command hrun hexec
  | hbuild => exact bodyPosts_hbuild.command hrun hexec
  | hcanon => exact bodyPosts_hcanon.command hrun hexec
  | htrie => exact bodyPosts_htrie.command hrun hexec
  | hdecsym => exact bodyPosts_hdecsym.command hrun hexec
  | bwinit cap => exact (bodyPosts_bwinit cap).command hrun hexec
  | wbit b => exact (bodyPosts_wbit b).command hrun hexec
  | wbits cnt val => exact (bodyPosts_wbits cnt val).command hrun hexec
  | brinit cap => exact (bodyPosts_brinit cap).command hrun hexec
  | rbit => exact bodyPosts_rbit.command hrun hexec
  | symmap => exact bodyPosts_symmap.command hrun hexec
  | wrhdr => exact bodyPosts_wrhdr.command hrun hexec
  | wrpay => exact bodyPosts_wrpay.command hrun hexec
  | rdhdr => exact bodyPosts_rdhdr.command hrun hexec
  | rdpay n => exact (bodyPosts_rdpay n).command hrun hexec
  | encblk n => exact absurd rfl (hsimple n).1
  | decblk n => exact absurd rfl (hsimple n).2

end Sys2Proof.Machine
end

section
namespace Sys2Proof.Machine

/-! The codes of the composite commands (60_exceptions.md R251; 46_blockcodec.md R214 to R216). -/

variable {n : ℕ} {s t : State}

theorem encodeFails_mem {elements symMax room : ℕ} {c : RetCode} (h : EncodeFails elements symMax room c) :
    c ∈ mayReturn (.encblk n) := by
  obtain ⟨rfl, -⟩ | ⟨rfl, -⟩ | ⟨rfl, -⟩ := h <;> simp [mayReturn]

theorem satCode_mem (syms : List RleSym) : satCode syms ∈ mayReturn (.encblk n) := by
  obtain h | h := satCode_cases syms <;> rw [h] <;> simp [mayReturn]

theorem hardDecode_mem {c : RetCode} (h : (Code.ret c).class = .hardDecode) : c ∈ mayReturn (.decblk n) := by
  revert h
  cases c <;> simp [Code.class, mayReturn]

/-- Decoding that returns `OK` ended the block (R213). -/
theorem endsBlock_of_readSymbols_ok {len fuel pos : ℕ} (hfuel : len ≤ pos + fuel)
    (hok : (readSymbols len fuel pos s).2.1 = .ok) : EndsBlock (len - pos) (readSymbols len fuel pos s).1 := by
  induction fuel generalizing pos s with
  | zero => exact .inr (Nat.sub_eq_zero_of_le hfuel).le
  | succ fuel ih =>
    by_cases hpos : len ≤ pos
    · exact .inr ((Nat.sub_eq_zero_of_le hpos).trans_le (Nat.zero_le _))
    rw [not_le] at hpos
    rcases hwalk : walk s.readTrie s with ⟨i | _ | _, u⟩
    · by_cases hsym : unpack (u.readST i.toNat) = eob
      · rw [readSymbols_of_eob hpos hwalk hsym]
        exact .inl List.mem_cons_self
      · rw [readSymbols_of_sym hpos hwalk rfl hsym] at hok ⊢
        have hends := ih (s := u) (pos := pos + (unpack (u.readST i.toNat)).run.toNat + 1) (by omega) hok
        refine (endsBlock_cons hsym).2 ?_
        rwa [Nat.sub_sub, ← Nat.add_assoc]
    · rw [readSymbols_of_underflow hpos hwalk] at hok
      cases hok
    · rw [readSymbols_of_dead hpos hwalk] at hok
      cases hok

/-- `RLDEC` does not fall short on symbols that end the block (R162). -/
theorem rldecCode_of_endsBlock {len : ℕ} {syms : List RleSym} (h : EndsBlock len syms) :
    rldecCode len syms = .dOverrun ∨ rldecCode len syms = .ok := by
  by_cases hover : Overruns len syms
  · exact .inl (rldecCode_of_overruns hover)
  · refine .inr ((rldecCode_of_not_overruns hover).trans (if_neg ?_))
    rintro ⟨hnone, hshort⟩
    rw [length_expandRle_of_notMem hnone] at hshort
    exact absurd (h.resolve_left hnone) (not_le.2 hshort)

/-- A command that left a core running found it running. -/
theorem halt_of_exec {i : Instr} (hi : i ≠ .sreset) (hexec : exec i s = .next t) (ht : t.status.halt = false) :
    s.status.halt = false := by
  by_contra hhalt
  obtain rfl := Host.Outcome.next.inj ((exec_halted (Bool.of_not_eq_false hhalt) hi).symm.trans hexec)
  exact hhalt ht

/-- `RDPAY` that returned `OK` left symbols that end the block. -/
theorem endsBlock_of_exec_rdpay (ht : Running t) (hadm : Admitted t.params n) (hexec : exec (.rdpay n) s = .next t)
    (hok : t.status.code = .ret .ok) : EndsBlock (n * n) t.symbols := by
  have hparams : t.params = s.params := (writes_exec hexec).same State.params rfl
  rw [hparams] at hadm
  have hrun : Running s := ⟨hparams ▸ ht.1, halt_of_exec (by simp) hexec ht.2⟩
  have hnofault {f : CoreFault} (h : exec (.rdpay n) s = .next (faulted 0x74#8 f s)) : False := by
    obtain rfl := Host.Outcome.next.inj (h.symm.trans hexec)
    cases hok
  have htrv : s.valid.trv = true :=
    Bool.of_not_eq_false fun h => hnofault (command_raise hrun.2 (bodyRdpay_of_no_trie (s := recordOp _ s) hadm h))
  have hrv : s.valid.rv = true :=
    Bool.of_not_eq_false fun h => hnofault (command_raise hrun.2 (bodyRdpay_of_no_reader (s := recordOp _ s) hadm htrv h))
  have hbody := bodyRdpay_eq (s := recordOp 0x74#8 s) hadm htrv hrv rfl
  obtain rfl := Host.Outcome.next.inj ((command_ret hrun.2 hbody (readSymbols_status _ _ _ _)).symm.trans hexec)
  have hlen := length_readSymbols_le (n * n) (n * n) 0 (recordOp 0x74#8 s)
  have hsyms := State.storeSymbols_symbols (hlen.trans_lt (square_lt_of_admitted hrun hadm))
    (readSymbols (n * n) (n * n) 0 (recordOp 0x74#8 s)).2.2
  change EndsBlock (n * n) (State.symbols (State.storeSymbols _ _))
  rw [hsyms]
  exact endsBlock_of_readSymbols_ok (pos := 0) (Nat.le_add_left _ _) (Code.ret.inj hok)

/-- A sequence of steps that ends with a code of class OK or D has run its last step. -/
theorem exists_exec_last {steps : List Instr} {i : Instr}
    (h : hostContinues (runSteps (steps ++ [i]) s).status.code = true) :
    ∃ t, exec i t = .next (runSteps (steps ++ [i]) s) := by
  induction steps generalizing s with
  | nil =>
    obtain ⟨t, hexec⟩ := exec_next i s
    exact ⟨s, by simp [runSteps, hexec]⟩
  | cons j rest ih =>
    obtain ⟨t, hexec⟩ := exec_next j s
    by_cases hgoes : hostContinues t.status.code = true
    · rw [List.cons_append, runSteps_cons hexec hgoes] at h ⊢
      exact ih h
    · rw [List.cons_append, runSteps, hexec] at h
      exact absurd ((if_neg hgoes : _ = t) ▸ h) hgoes

/-- Where `RDPAY` ended the steps of `DECBLK` with `OK`, `RLDEC` does not fall short. -/
theorem rldecCode_decoded (hready : SymbolsReady n (s.decoded n)) (hok : (s.decoded n).status.code = .ret .ok) :
    rldecCode (n * n) (s.decoded n).symbols = .dOverrun ∨ rldecCode (n * n) (s.decoded n).symbols = .ok := by
  have hgoes : hostContinues (s.decoded n).status.code = true := by rw [hok]; rfl
  obtain ⟨t, hexec⟩ := exists_exec_last (steps := [.rdhdr, .hcanon, .htrie]) (i := .rdpay n) hgoes
  exact rldecCode_of_endsBlock (endsBlock_of_exec_rdpay hready.run hready.admitted hexec hok)

/-- A command whose body faulted posts a code of its row. -/
theorem posts_of_body_raise {i : Instr} {op : Byte} {body : State → Result} {f : CoreFault} (hrun : s.status.halt = false)
    (hf : f ∈ mayFault i) (hbody : body (recordOp op s) = .raise f) (hexec : command op body s = .next t) :
    t.status.code ∈ mayPost i := by
  obtain rfl := Host.Outcome.next.inj ((command_raise hrun hbody).symm.trans hexec)
  exact posts_raise hf

theorem encblk_posts (hrun : Running s) (hexec : exec (.encblk n) s = .next t) : t.status.code ∈ mayPost (.encblk n) := by
  by_cases hn : blockSizeOk s.params n = true
  swap
  · exact posts_of_body_raise hrun.2 (by simp [mayFault])
      (withBlock_fault n _ (recordOp 0x78#8 s) (Bool.eq_false_of_not_eq_true hn)) hexec
  have hadm := (blockSizeOk_iff_admitted s.params n).1 hn
  cases hwv : s.valid.wv with
  | false =>
    exact posts_of_body_raise hrun.2 (by simp [mayFault]) (bodyEncblk_of_no_writer (s := recordOp 0x78#8 s) hadm hwv) hexec
  | true =>
    obtain ⟨-, c, -, hfails, hnext⟩ | ⟨-, -, -, -, hnext⟩ := exec_encblk_cases hrun hadm hwv
      <;> obtain rfl := Host.Outcome.next.inj (hnext.symm.trans hexec)
    · exact posts_ret (encodeFails_mem hfails) s
    · exact posts_ret (satCode_mem _) s

theorem decblk_posts (hrun : Running s) (hexec : exec (.decblk n) s = .next t) : t.status.code ∈ mayPost (.decblk n) := by
  by_cases hn : blockSizeOk s.params n = true
  swap
  · exact posts_of_body_raise hrun.2 (by simp [mayFault])
      (withBlock_fault n _ (recordOp 0x79#8 s) (Bool.eq_false_of_not_eq_true hn)) hexec
  have hadm := (blockSizeOk_iff_admitted s.params n).1 hn
  cases hrv : s.valid.rv with
  | false =>
    exact posts_of_body_raise hrun.2 (by simp [mayFault]) (bodyDecblk_of_no_reader (s := recordOp 0x79#8 s) hadm hrv) hexec
  | true =>
    obtain ⟨-, c, -, hclass, -, hnext⟩ | ⟨c, hstatus, hc, hready, hnext⟩ := exec_decblk_cases hrun hadm hrv
      <;> obtain rfl := Host.Outcome.next.inj (hnext.symm.trans hexec)
    · exact posts_ret (hardDecode_mem hclass) s
    · refine posts_ret (c := if c ≠ .ok then c else rldecCode (n * n) (s.decoded n).symbols) ?_ s
      obtain rfl | rfl | rfl := hc
      · obtain h | h := rldecCode_decoded hready (congrArg Status.code hstatus) <;> simp [h, mayReturn]
      · simp [mayReturn]
      · simp [mayReturn]

/-- Settles O16: a composite ends with the code of a step, no step faults, and `RLDEC` completes what `RDPAY` decoded whole. -/
theorem compositeCodesFollowTheTable : Obligations.CompositeCodesFollowTheTable := fun _ _ _ hrun =>
  ⟨encblk_posts hrun, decblk_posts hrun⟩

end Sys2Proof.Machine
end
